-- ==== Sys2Proof/Word.lean ====
section
/-! DEFINITION. The words of the part: bytes and Ethernet station addresses, and sets of camera ports. -/

namespace Sys2Proof

/-- One byte of a frame. -/
abbrev Byte := BitVec 8

/-- A 48-bit Ethernet address; byte 0, the first on the wire, is the most significant (CONVENTIONS). -/
abbrev Addr := BitVec 48

/-- A set of camera ports: bit p stands for port Pp (Table 9-4 NOTE). -/
abbrev PortSet := BitVec 16

/-- The broadcast address. -/
def broadcast : Addr := 0xFFFFFFFFFFFF

end Sys2Proof
end

