-- ==== Sys2Proof/Syntax.lean ====
section
/-! DEFINITION. The commands of the IKR-1604: one constructor per row of spec/opcode_table.json.

A command is an event that reaches the part or a step that one of its blocks takes. The rows that perform a
management request carry no operand: what they act on is the request at the head of the request FIFO (R147). -/

namespace Sys2Proof

/-- A camera port, P0 to P15. -/
abbrev Port := Fin 16

/-- A capture group, G0 to G7. -/
abbrev Group := Fin 8

/-- One of the seventeen Ethernet ports, as an ingress or as an egress (R70, R92). -/
inductive EtherPort where
  | camera (p : Port)
  | uplink
  deriving DecidableEq, Repr

/-- The commands. A frame is given as its bytes from byte 0, without the check sequence, and whether its
check sequence was good. -/
inductive Instr where
  /-- RECEPTION_START (R70) -/
  | receptionStart (ingress : EtherPort)
  /-- UPLINK_FRAME_RECEIVED (R71) -/
  | uplinkFrameReceived (bytes : List Byte) (goodCheck : Bool)
  /-- CAMERA_FRAME_RECEIVED (R84) -/
  | cameraFrameReceived (p : Port) (bytes : List Byte) (goodCheck : Bool)
  /-- IDENTIFY (R150) -/
  | identify
  /-- READ_ENTRY (R151) -/
  | readEntry
  /-- WRITE_ENTRY (R152) -/
  | writeEntry
  /-- PATCH_FIELD (R143) -/
  | patchField
  /-- ENABLE (R5) -/
  | enable
  /-- DISABLE (R6) -/
  | disable
  /-- PARK (R22) -/
  | park
  /-- UNPARK (R22) -/
  | unpark
  /-- PIN (R21) -/
  | pin
  /-- UNPIN (R21) -/
  | unpin
  /-- WAKE (R23) -/
  | wake
  /-- PAUSE (R24) -/
  | pause
  /-- SLEEP (R25) -/
  | sleep
  /-- CLEAR (R10) -/
  | clear
  /-- ARM (R128) -/
  | arm
  /-- DISARM (R132) -/
  | disarm
  /-- PREPARE (R134) -/
  | prepare
  /-- CANCEL (R127) -/
  | cancel
  /-- READ_EVENTS (R163) -/
  | readEvents
  /-- SET_EVENT_MASK (R161) -/
  | setEventMask
  /-- READ_COUNTERS (R165) -/
  | readCounters
  /-- RESTART (R158) -/
  | restart
  /-- SOFT_RESTART (R158) -/
  | softRestart
  /-- TRANSMISSION_START (R93) -/
  | transmissionStart (egress : EtherPort)
  /-- TRANSMISSION_END (R93) -/
  | transmissionEnd (egress : EtherPort)
  /-- RELEASE_STEP (R96) -/
  | releaseStep (p : Port)
  /-- ADMISSION_SCAN (R60) -/
  | admissionScan
  /-- TRIGGER_REEVALUATION (R122) -/
  | triggerReevaluation (g : Group)
  /-- CAMERA_LINK_DOWN (R18) -/
  | cameraLinkDown (p : Port)
  /-- CAMERA_LINK_UP (R18) -/
  | cameraLinkUp (p : Port)
  /-- UPLINK_LINK_DOWN (R85) -/
  | uplinkLinkDown
  /-- UPLINK_LINK_UP (R164) -/
  | uplinkLinkUp
  /-- UPLINK_LINK_TIMER_EXPIRY (R164) -/
  | uplinkLinkTimerExpiry
  /-- SENSE_INPUT_RISE (R19) -/
  | senseInputRise (p : Port)
  /-- SENSE_INPUT_FALL (R19) -/
  | senseInputFall (p : Port)
  /-- SENSE_FILTER_EXPIRY (R19) -/
  | senseFilterExpiry (p : Port)
  /-- FEED_FAULT_ASSERTED (R8): a sample of the feed-fault input finds it at `level` (log 5) -/
  | feedFaultAsserted (p : Port) (level : Bool)
  /-- RESET_ASSERTED (R169) -/
  | resetAsserted
  /-- RESET_RELEASED (R169) -/
  | resetReleased
  /-- TABLE_INITIALISATION_END (R145) -/
  | tableInitialisationEnd
  /-- IDLE_TIMER_EXPIRY (R13) -/
  | idleTimerExpiry (p : Port)
  /-- DEEP_IDLE_EXPIRY (R17) -/
  | deepIdleExpiry (p : Port)
  /-- LINK_TIMER_EXPIRY (R18) -/
  | linkTimerExpiry (p : Port)
  /-- COLD_BOOT_WINDOW_EXPIRY (R30) -/
  | coldBootWindowExpiry (p : Port)
  /-- ATTEMPT_WINDOW_EXPIRY (R35) -/
  | attemptWindowExpiry (p : Port)
  /-- SPACING_EXPIRY (R35) -/
  | spacingExpiry (p : Port)
  /-- OFF_HOLD_EXPIRY (R34) -/
  | offHoldExpiry (p : Port)
  /-- PULSE_COUNTDOWN_EXPIRY (R33) -/
  | pulseCountdownExpiry (p : Port)
  /-- PAUSE_CONFIRM_WINDOW_EXPIRY (R41) -/
  | pauseConfirmWindowExpiry (p : Port)
  /-- PROBE_INTERVAL_EXPIRY (R43) -/
  | probeIntervalExpiry (p : Port)
  /-- SCHEDULE_ENTRY_DUE (R66) -/
  | scheduleEntryDue (p : Port)
  /-- RENDEZVOUS_WINDOW_EXPIRY (R123) -/
  | rendezvousWindowExpiry (g : Group)
  /-- ARM_HOLD_EXPIRY (R132) -/
  | armHoldExpiry (g : Group)
  /-- PREPARATION_TARGET_EXPIRY (R136) -/
  | preparationTargetExpiry (g : Group)
  /-- SCRUB_PASS_START (R144) -/
  | scrubPassStart
  /-- SCRUB_VISIT (R144) -/
  | scrubVisit
  /-- UNKNOWN_OP_REQUEST (R148) -/
  | unknownOpRequest
  deriving DecidableEq, Repr

end Sys2Proof
end

