-- ==== Sys2Proof/Decode.lean ====
section
/-! DEFINITION. The command that a word spells. spec/opcode_table.json gives no row any bits (every row's
"fields" are empty and none has "fixed"), so no word spells a command. -/

namespace Sys2Proof

/-- No row of the table has bits, so every word is answered with none. -/
def decodeTableWord (_nbits _w : Nat) : Option Instr := none

end Sys2Proof
end

