-- ==== Sys2Proof/Config.lean ====
section
/-! DEFINITION. The sizes and limits that the manual fixes for every IKR-1604 (Table 0-5, Table 5-1,
Table 9-1). No value here is left open by the manual; the one per-device value, the factory station
address, is a field of State (log 8). -/

namespace Sys2Proof.Config

/-- Cells of the frame store (Table 5-1). -/
def cellCount : Nat := 256

/-- Bytes of one cell, and the longest accepted frame (Table 5-1, R70). -/
def cellBytes : Nat := 2048

/-- The shortest accepted frame, in bytes (R70). -/
def minFrame : Nat := 64

/-- Entries of each transmit queue (Table 5-1, R92). -/
def txDepth : Nat := 32

/-- Requests of the management request FIFO (R146). -/
def fifoDepth : Nat := 8

/-- The longest management payload, in bytes (Table 9-1). -/
def maxPayload : Nat := 1024

/-- The management EtherType (R159). -/
def managementEtherType : Nat := 0x88B6

/-- The part number that IDENTIFY returns (R150). -/
def partNumber : Nat := 0x1604

/-- The largest value of a 4 B count (R166). -/
def countMax : Nat := 4294967295

/-- The sense filter, in ms (R19). -/
def senseFilterMs : Nat := 20

/-- The scrub period, in ms (R144). -/
def scrubPeriodMs : Nat := 1000

/-- The longest wait for a RESTART response to leave, in ms (R158). -/
def restartWaitMs : Nat := 1000

/-- The age at which a proxy record's age stops, in ms (R104). -/
def ageMaxMs : Nat := 600000

/-- The largest sample, estimate and elapsed time, in ms (R46, R47). -/
def timeMaxMs : Nat := 65535

/-- The longest stored poll answer, in bytes (R106). -/
def maxAnswer : Nat := 256

/-- The largest lead of a PREPARE, in ms (R134). -/
def maxLeadMs : Nat := 120000

/-- The largest domain limit, in dW (R52). -/
def maxLimit : Nat := 2000

end Sys2Proof.Config
end

