-- ==== Sys2Proof/Machine/State.lean ====
section
/-! DEFINITION. The state of the IKR-1604 as plain data: everything that INVENTORY.md lists under State, and
State.reset. Quantities (ms, s, dW, bytes, counts) are Nat, as the manual writes them; addresses, keys, masks and
sets of ports are bit vectors. -/

namespace Sys2Proof.Machine

/-! ### Names that the manual fixes -/

/-- Port states, in the order of Table 1-4. -/
inductive PortState where
  | disabled | asleep | waking | ready | pausing | paused | resuming | faulted
  deriving DecidableEq, Repr

/-- Wake methods (R31). -/
inductive Method where
  | frame | line | power
  deriving DecidableEq, Repr

/-- Classes of wake needs, highest first (Table 3-2). -/
inductive WakeClass where
  | rendezvous | scheduled | traffic | sense
  deriving DecidableEq, Repr

/-- Fault codes (R7), in the order of the NOTE to Table 9-4. -/
inductive FaultCode where
  | noResponse | budget | linkLost | feed | table
  deriving DecidableEq, Repr

/-- Frame classes, in the order of Table 4-3. -/
inductive FrameClass where
  | capture | control | liveview | poll | bulk | pollAnswer | standbyAck | readySign | probeAnswer
  deriving DecidableEq, Repr

/-- Not-ready actions (R76). -/
inductive Action where
  | holdAndWake | hold | answerOrWake | drop
  deriving DecidableEq, Repr

/-- Directions of a rule (Table 4-1). -/
inductive Direction where
  | down | up | both
  deriving DecidableEq, Repr

/-- Readiness modes (R36). -/
inductive ReadinessMode where
  | sign | anyFrame
  deriving DecidableEq, Repr

/-- Pause confirm modes (R40, R41). -/
inductive ConfirmMode where
  | ack | silence
  deriving DecidableEq, Repr

/-- Group policies (Table 7-2). -/
inductive Policy where
  | partialSet | abandon
  deriving DecidableEq, Repr

/-- How the latest trigger of a group ended, in the order of Table 7-3. -/
inductive TriggerOutcome where
  | none | delivered | partialSet | abandoned | refused | cancelled | poisoned
  deriving DecidableEq, Repr

/-- Kinds of WKE operation (Table 2-1). -/
inductive OpKind where
  | none | cold | resume | pause
  deriving DecidableEq, Repr

/-- Phases of a WKE operation (Table 2-1); none when no operation runs. -/
inductive Phase where
  | none | window | spacing | offHold | confirm
  deriving DecidableEq, Repr

/-- The template of a port: PAUSE, RESUME, PROBE (R28). -/
inductive TemplateKind where
  | pause | resume | probe
  deriving DecidableEq, Repr

/-- Drop causes, in the order of Table 5-5 and Table 10-2. -/
inductive DropCause where
  | length | disabled | faulted | parked | action | holdFull | txFull | noCell | discarded | uplink
  deriving DecidableEq, Repr

/-- Statuses of a response, in the order of Table 9-7. -/
inductive Status where
  | ok | unknownOp | badTable | badIndex | range | state | poisoned | budgetInUse | invalidConfig
  | memberUnavailable | parkedMember | conflict | length
  deriving DecidableEq, Repr

/-- Events, in the order of Table 10-1. -/
inductive Event where
  | portFault | cameraDropped | pauseFailed | wakeEscalated | holdDrop | captureDrop | triggerOverrun
  | triggerRefused | rendezvousIncomplete | armBroken | armExpired | prepareLate | tableCorrected
  | tablePoisoned | accessDenied | uplinkDown
  deriving DecidableEq, Repr

/-- The tables held in TBM (Table 8-1). -/
inductive TbmTable where
  | portConfig | template | rule | classAction | group | proxy
  deriving DecidableEq, Repr

/-- What the part as a whole is doing (R169). -/
inductive PartPhase where
  | inReset | initialising | running
  deriving DecidableEq, Repr

/-! ### Contents of the tables -/

/-- A power domain, D0 to D3. -/
abbrev Domain := Fin 4

/-- A cell of the frame store. -/
abbrev CellNo := Fin 256

/-- The configuration record of a port (Tables 1-2 and 1-3). Draws are in dW, idle, deepIdle and ageLimit in s,
the other times in ms. -/
structure PortConfig where
  station : Addr
  standby : Nat
  active : Nat
  inrush : Nat
  holdLimit : Nat
  readiness : ReadinessMode
  firstMethod : Method
  attempts : Nat
  attemptWindow : Nat
  spacing : Nat
  coldWindow : Nat
  offHold : Nat
  pulseWidth : Nat
  confirmMode : ConfirmMode
  confirmWindow : Nat
  idle : Nat
  deepIdle : Nat
  probeInterval : Nat
  missLimit : Nat
  ageLimit : Nat
  deriving DecidableEq, Repr

/-- The DEFAULT values of Tables 1-2 and 1-3 (R26). -/
def PortConfig.default : PortConfig :=
  { station := 0, standby := 0, active := 0, inrush := 0, holdLimit := 12, readiness := .sign,
    firstMethod := .frame, attempts := 2, attemptWindow := 1500, spacing := 200, coldWindow := 8000,
    offHold := 500, pulseWidth := 100, confirmMode := .silence, confirmWindow := 1000, idle := 120,
    deepIdle := 0, probeInterval := 0, missLimit := 3, ageLimit := 0 }

/-- A template entry (Table 2-2): 128 stored bytes, of which the first `length` are the template (log 13). -/
structure Template where
  length : Nat
  bytes : List Byte
  seqOffset : Nat
  deriving DecidableEq, Repr

/-- An absent template (R49). The zero bytes are the model's choice: Table 2-2 gives none (log 13). -/
def Template.absent : Template := { length := 0, bytes := List.replicate 128 0, seqOffset := 0 }

/-- A rule entry (Table 4-1). -/
structure Rule where
  enabled : Bool
  direction : Direction
  scope : PortSet
  offset : Nat
  length : Nat
  mask : BitVec 32
  value : BitVec 32
  cls : FrameClass
  keyOffset : Option Nat
  seqOffset : Option Nat
  deriving DecidableEq, Repr

/-- The full-reset rule of Table 4-1. -/
def Rule.default : Rule :=
  { enabled := false, direction := .both, scope := 0xFFFF, offset := 0, length := 1, mask := 0, value := 0,
    cls := .bulk, keyOffset := none, seqOffset := none }

/-- A class-action entry (Table 4-3). -/
structure ClassAction where
  action : Action
  activity : Bool
  deriving DecidableEq, Repr

/-- The full-reset class actions, in the order of Table 4-3. -/
def ClassAction.defaults : Vector ClassAction 9 :=
  #v[⟨.holdAndWake, true⟩, ⟨.holdAndWake, true⟩, ⟨.drop, true⟩, ⟨.answerOrWake, false⟩, ⟨.holdAndWake, true⟩,
     ⟨.drop, false⟩, ⟨.drop, false⟩, ⟨.drop, true⟩, ⟨.drop, false⟩]

/-- A group configuration entry (Table 7-2); window and margin in ms, armHold in s. -/
structure GroupConfig where
  address : Addr
  members : PortSet
  policy : Policy
  strict : Bool
  window : Nat
  margin : Nat
  armHold : Nat
  enabled : Bool
  deriving DecidableEq, Repr

/-- The DEFAULT values of Table 7-2 (R138). -/
def GroupConfig.default : GroupConfig :=
  { address := 0, members := 0, policy := .partialSet, strict := false, window := 5000, margin := 250,
    armHold := 60, enabled := false }

/-- The part of a proxy record that TBM holds (Table 6-2). -/
structure ProxyEntry where
  key : BitVec 16
  length : Nat
  bytes : List Byte
  seqOffset : Option Nat
  deriving DecidableEq, Repr

/-- The reset contents of a PROXY entry (R145). -/
def ProxyEntry.default : ProxyEntry :=
  { key := 0, length := 64, bytes := List.replicate 64 0, seqOffset := none }

/-- What the check bits of one stored word say (R139): no bad bit, one, or two. -/
inductive WordCheck where
  | good | oneBad | twoBad
  deriving DecidableEq, Repr

/-- A protected entry of n words: its contents, the check state of each word, and its poison mark (R139).
The contents are what a corrected read hands over; how fields are packed into words is not given (log 12). -/
structure Protected (α : Type) (n : Nat) where
  val : α
  words : Vector WordCheck n
  poison : Bool
  deriving DecidableEq, Repr

/-- An entry written whole with fresh check bits, its poison mark clear (R142). -/
def Protected.fresh {α : Type} {n : Nat} (v : α) : Protected α n :=
  { val := v, words := Vector.replicate n .good, poison := false }

/-- Table memory (Table 8-1) with the scrubber (R144): the countdown to the next pass, and the entry that the
pass in progress visits next, counted through the tables in pass order, or none when the pass is complete. -/
structure Tbm where
  portConfig : Vector (Protected PortConfig 6) 16
  template : Vector (Protected Template 33) 48
  rule : Vector (Protected Rule 5) 32
  classAction : Vector (Protected ClassAction 1) 9
  group : Vector (Protected GroupConfig 4) 8
  proxy : Vector (Protected ProxyEntry 65) 64
  scrubPeriod : Nat
  scrubNext : Option Nat
  deriving DecidableEq, Repr

/-- Every entry with its reset contents and fresh check bits, and the first scrub pass started (R145). -/
def Tbm.reset : Tbm :=
  { portConfig := Vector.replicate 16 (.fresh PortConfig.default),
    template := Vector.replicate 48 (.fresh Template.absent),
    rule := Vector.replicate 32 (.fresh Rule.default),
    classAction := ClassAction.defaults.map Protected.fresh,
    group := Vector.replicate 8 (.fresh GroupConfig.default),
    proxy := Vector.replicate 64 (.fresh ProxyEntry.default),
    scrubPeriod := Config.scrubPeriodMs, scrubNext := some 0 }

/-! ### Port records -/

/-- The fault record (R7); method none outside an operation. -/
structure FaultRecord where
  code : FaultCode
  stateAt : PortState
  method : Option Method
  attempts : Nat
  deriving DecidableEq, Repr

/-- The last-wake record (R12). -/
structure LastWake where
  cls : WakeClass
  method : Method
  time : Nat
  updated : Bool
  deriving DecidableEq, Repr

/-- The operation record of WKE (Table 2-1). -/
structure Operation where
  kind : OpKind
  phase : Phase
  method : Option Method
  attempt : Nat
  started : Nat
  elapsed : Nat
  countdown : Nat
  pulse : Option Nat
  cls : WakeClass
  activitySeen : Bool
  deriving DecidableEq, Repr

/-- No operation (R49; log 36 for the fields that R49 does not name). -/
def Operation.reset : Operation :=
  { kind := .none, phase := .none, method := none, attempt := 0, started := 0, elapsed := 0, countdown := 0,
    pulse := none, cls := .rendezvous, activitySeen := false }

/-- The probe record of WKE (Table 2-1). -/
structure ProbeRecord where
  running : Bool
  countdown : Nat
  nextSeq : BitVec 16
  outstanding : Option (BitVec 16)
  answered : Bool
  misses : Nat
  mismatches : Nat
  capture : Option (BitVec 16 × BitVec 16)
  deriving DecidableEq, Repr

/-- Probing not running (R49). -/
def ProbeRecord.reset : ProbeRecord :=
  { running := false, countdown := 0, nextSeq := 0, outstanding := none, answered := false, misses := 0,
    mismatches := 0, capture := none }

/-- The estimate record of WKE (Table 2-1). -/
structure Estimates where
  resume : Option Nat
  resumeSamples : Nat
  cold : Option Nat
  coldSamples : Nat
  deriving DecidableEq, Repr

/-- Both estimates invalid (R48). -/
def Estimates.invalid : Estimates := { resume := none, resumeSamples := 0, cold := none, coldSamples := 0 }

/-- The three draws of a port as ADM holds them (R9). -/
structure Draws where
  standby : Nat
  active : Nat
  inrush : Nat
  deriving DecidableEq, Repr

/-- A hold-queue entry (Table 5-2). -/
structure HoldEntry where
  cell : CellNo
  length : Nat
  cls : FrameClass
  activity : Bool
  waking : Bool
  deriving DecidableEq, Repr

/-- A transmit-queue entry (Table 5-4). -/
structure TxEntry where
  cell : CellNo
  length : Nat
  rewrite : Option Port
  deriving DecidableEq, Repr

/-- An egress (R92, R93): its transmit queue, head first, and the bytes of the frame in transmission, which is
the frame of the head entry, or none. -/
structure Egress where
  queue : List TxEntry
  sending : Option (List Byte)
  deriving DecidableEq, Repr

/-- An egress with nothing to send. -/
def Egress.empty : Egress := { queue := [], sending := none }

/-- The reception of an ingress (R70): none, into a cell, or into the receiver's buffer alone. -/
inductive Reception where
  | idle
  | intoCell (c : CellNo)
  | bufferOnly
  deriving DecidableEq, Repr

/-- The 4 B counts of a port (R101, R113). -/
structure Counts where
  forwardedDown : Nat
  forwardedUp : Nat
  held : Nat
  released : Nat
  answered : Nat
  dropped : Vector Nat 10
  learned : Nat
  tooLong : Nat
  lost : Nat
  discarded : Nat
  deriving DecidableEq, Repr

/-- Every count at 0. -/
def Counts.zero : Counts :=
  { forwardedDown := 0, forwardedUp := 0, held := 0, released := 0, answered := 0,
    dropped := Vector.replicate 10 0, learned := 0, tooLong := 0, lost := 0, discarded := 0 }

/-- The part of a proxy record that SAU holds (Table 6-2). -/
structure ProxyControl where
  occupied : Bool
  age : Nat
  deriving DecidableEq, Repr

/-- A free record. -/
def ProxyControl.free : ProxyControl := { occupied := false, age := 0 }

/-- One camera port: what PCT, WKE, ADM, CLS, FST and SAU hold for it, and its lines. -/
structure PortRec where
  /-- PCT: the port state (Table 1-4) -/
  state : PortState
  /-- the copy of the configuration that PCT, WKE, FST and SAU work from (R9) -/
  cfg : PortConfig
  /-- ADM's copies of the draws (R9) -/
  draws : Draws
  /-- ADM: the charge the port commits (R51) -/
  charge : Nat
  pin : Bool
  park : Bool
  idle : Nat
  deepIdle : Nat
  link : Nat
  /-- the sense filter's countdown while it runs (R19) -/
  senseFilter : Option Nat
  fault : Option FaultRecord
  lastWake : Option LastWake
  /-- output: feed enable -/
  feed : Bool
  /-- output: wake line -/
  wakeLine : Bool
  /-- input: activity sense -/
  senseIn : Bool
  /-- input: feed fault -/
  feedFaultIn : Bool
  /-- the camera link state -/
  linkUp : Bool
  /-- CLS: the station address of an enabled port (R72) -/
  station : Option Addr
  op : Operation
  probe : ProbeRecord
  est : Estimates
  hold : List HoldEntry
  egress : Egress
  receiving : Reception
  /-- the release flag (R95) -/
  releasing : Bool
  counts : Counts
  proxies : Vector ProxyControl 4
  deriving DecidableEq, Repr

/-- A port record after full reset (R26, R49, R69, R86, R102, R114). -/
def PortRec.reset : PortRec :=
  { state := .disabled, cfg := PortConfig.default, draws := { standby := 0, active := 0, inrush := 0 },
    charge := 0, pin := false, park := false, idle := 0, deepIdle := 0, link := 0, senseFilter := none,
    fault := none, lastWake := none, feed := false, wakeLine := false, senseIn := false, feedFaultIn := false,
    linkUp := false, station := none, op := Operation.reset, probe := ProbeRecord.reset,
    est := Estimates.invalid, hold := [], egress := Egress.empty, receiving := .idle, releasing := false,
    counts := Counts.zero, proxies := Vector.replicate 4 ProxyControl.free }

/-! ### The other blocks -/

/-- A wake-queue entry (Table 3-2). -/
structure WakeEntry where
  port : Port
  cls : WakeClass
  arrival : Nat
  passes : Nat
  blocking : Bool
  deriving DecidableEq, Repr

/-- A schedule-list entry (Table 3-5). -/
structure ScheduleEntry where
  port : Port
  group : Group
  countdown : Nat
  deriving DecidableEq, Repr

/-- The admission arbiter (Chapter 3). The wake queue stands in arrival order. -/
structure Adm where
  limits : Vector Nat 4
  committed : Vector Nat 4
  passLimit : Nat
  wakeQueue : List WakeEntry
  arrivals : Nat
  schedule : List ScheduleEntry
  deriving DecidableEq, Repr

/-- ADM after full reset (R69). -/
def Adm.reset : Adm :=
  { limits := Vector.replicate 4 0, committed := Vector.replicate 4 0, passLimit := 4, wakeQueue := [],
    arrivals := 0, schedule := [] }

/-- The arm record of a group (Table 7-3). -/
structure ArmRecord where
  armed : Bool
  intact : Bool
  hold : Nat
  target : Option Nat
  members : PortSet
  watched : PortSet
  breakReported : Bool
  deriving DecidableEq, Repr

/-- The pending-trigger slot of a group (Table 7-3). -/
structure Slot where
  pending : Bool
  cell : CellNo
  window : Nat
  members : PortSet
  policy : Policy
  strict : Bool
  activity : Bool
  delivered : PortSet
  missed : PortSet
  unreachable : PortSet
  outcome : TriggerOutcome
  deriving DecidableEq, Repr

/-- A FREE slot that has seen no trigger (R138; log 22). -/
def Slot.reset : Slot :=
  { pending := false, cell := 0, window := 0, members := 0, policy := .partialSet, strict := false,
    activity := false, delivered := 0, missed := 0, unreachable := 0, outcome := .none }

/-- One capture group: its arm record, its slot, and CLS's copy of its address (R72, R115). -/
structure GroupRec where
  arm : ArmRecord
  slot : Slot
  address : Addr
  deriving DecidableEq, Repr

/-- A group after full reset (R138, R86). -/
def GroupRec.reset : GroupRec :=
  { arm := { armed := false, intact := false, hold := 0, target := none, members := 0, watched := 0,
             breakReported := false },
    slot := Slot.reset, address := 0 }

/-- The uplink: its egress, its ingress, its link state and EVU's link timer (R164). `raised` says that
UPLINK_DOWN has been raised for the present loss, so that the timer stands. -/
structure Uplink where
  egress : Egress
  receiving : Reception
  linkUp : Bool
  timer : Nat
  raised : Bool
  deriving DecidableEq, Repr

/-- The uplink after full reset (R102, R167; log 6 for the link). -/
def Uplink.reset : Uplink :=
  { egress := Egress.empty, receiving := .idle, linkUp := false, timer := 0, raised := false }

/-- A cell of the frame store (R87): its reference count and the bytes of its frame. -/
structure Cell where
  refs : Nat
  data : List Byte
  deriving DecidableEq, Repr

/-- A request in MGA's FIFO (R146): the source address, the received frame length, and every byte of the
management header and payload, from frame byte 14 on. -/
structure Request where
  source : Addr
  frameLength : Nat
  body : List Byte
  deriving DecidableEq, Repr

/-- The wait for a RESTART response to leave (R158): the ms that remain and the cell of the response; no cell
when the response was lost or has left, so that the restart is due. -/
structure RestartWait where
  countdown : Nat
  cell : Option CellNo
  deriving DecidableEq, Repr

/-- The management agent (Chapter 9), with the DEVICE fields that other blocks read. -/
structure Mga where
  fifo : List Request
  managerA : Addr
  managerB : Addr
  report : Addr
  linkTimeout : Nat
  learnShift : Nat
  factory : Addr
  responsesLost : Nat
  restart : Option RestartWait
  deriving DecidableEq, Repr

/-- MGA after full reset (R159; log 8 for the factory station address). -/
def Mga.reset : Mga :=
  { fifo := [], managerA := 0, managerB := 0, report := 0, linkTimeout := 2, learnShift := 3,
    factory := 0x020000001604, responsesLost := 0, restart := none }

/-- The detail record of an event (Table 10-1); no subject is carried as 0xFF. -/
structure Detail where
  subject : Option Nat
  code : Nat
  set : PortSet
  deriving DecidableEq, Repr

/-- One event of EVU (R160). -/
structure EventRec where
  pending : Bool
  mask : Bool
  detail : Option Detail
  deriving DecidableEq, Repr

/-- The device counters (Table 10-3). -/
structure DeviceCounts where
  lengthErrors : Nat
  unknownDest : Nat
  denied : Nat
  fifoOverflows : Nat
  corrections : Nat
  poisonings : Nat
  deriving DecidableEq, Repr

/-- Every device counter at 0. -/
def DeviceCounts.zero : DeviceCounts :=
  { lengthErrors := 0, unknownDest := 0, denied := 0, fifoOverflows := 0, corrections := 0, poisonings := 0 }

/-- The event unit (Chapter 10). -/
structure Evu where
  events : Vector EventRec 16
  noticeOutstanding : Bool
  counts : DeviceCounts
  deriving DecidableEq, Repr

/-- EVU after full reset (R167). -/
def Evu.reset : Evu :=
  { events := Vector.replicate 16 { pending := false, mask := false, detail := none },
    noticeOutstanding := false, counts := DeviceCounts.zero }

/-- What one block has handed on to another inside the present command and is still to be done (log 2). -/
inductive Work where
  /-- a wake need handed to ADM (R53) -/
  | need (cls : WakeClass) (p : Port)
  /-- a scan of the wake queue (R59) -/
  | scan
  /-- a re-evaluation of a group's pending trigger (R122) -/
  | reevaluate (g : Group)
  deriving DecidableEq, Repr

/-- The state of the IKR-1604. `pending` is the queue of commands that wait, and `owed` the work handed on inside
a command; both are the model's own. -/
structure State where
  pending : List Instr
  phase : PartPhase
  owed : List Work
  ports : Vector PortRec 16
  uplink : Uplink
  cells : Vector Cell 256
  free : List CellNo
  tbm : Tbm
  adm : Adm
  groups : Vector GroupRec 8
  mga : Mga
  evu : Evu
  deriving DecidableEq, Repr

/-- Nothing stops the part, so there is no fault: a FAULTED port, a refused request and a dropped frame are
effects on State (INVENTORY, Faults). Safe: no step ever answers with one. -/
inductive Fault where
  deriving DecidableEq, Repr

/-- Why a command has no meaning. -/
inductive Refusal where
  /-- exec's arm of a command that has no meaning yet; safe, since nothing is claimed of it. No arm uses it. -/
  | notModelled (mnemonic : String)
  deriving DecidableEq, Repr

/-- A cell that no entry names. -/
def Cell.unused : Cell := { refs := 0, data := [] }

/-- The machine right after full reset, at the end of the table initialisation (R145, R169; log 7): every block
at the full-reset values of its chapter. -/
def State.reset : State :=
  { pending := [], phase := .running, owed := [], ports := Vector.replicate 16 PortRec.reset,
    uplink := Uplink.reset, cells := Vector.replicate 256 Cell.unused, free := List.finRange 256,
    tbm := Tbm.reset, adm := Adm.reset, groups := Vector.replicate 8 GroupRec.reset, mga := Mga.reset,
    evu := Evu.reset }

end Sys2Proof.Machine
end

