-- ==== Sys2Proof/Machine/Bytes.lean ====
section
/-! DEFINITION. Byte order and fields of frames (CONVENTIONS, "Frames and bytes"): multi-byte fields are
big-endian, and offsets count from byte 0. -/

namespace Sys2Proof.Machine

/-- A big-endian field as a number. -/
def beNat (bs : List Byte) : Nat := bs.foldl (fun n b => n * 256 + b.toNat) 0

/-- A number as a big-endian field of `width` bytes. -/
def natBE : Nat → Nat → List Byte
  | 0, _ => []
  | width + 1, n => natBE width (n / 256) ++ [BitVec.ofNat 8 n]

/-- The `len` bytes at offset `off`, as far as the frame reaches. -/
def bytesAt (bs : List Byte) (off len : Nat) : List Byte := (bs.drop off).take len

/-- The number in the `len` bytes at offset `off`. -/
def natAt (bs : List Byte) (off len : Nat) : Nat := beNat (bytesAt bs off len)

/-- The address at offset `off`. -/
def addrAt (bs : List Byte) (off : Nat) : Addr := BitVec.ofNat 48 (natAt bs off 6)

/-- An address as its six bytes. -/
def addrBytes (a : Addr) : List Byte := natBE 6 a.toNat

/-- The 16-bit value at offset `off`, or none where the frame ends before its second byte. -/
def word16At? (bs : List Byte) (off : Nat) : Option (BitVec 16) :=
  if off + 2 ≤ bs.length then some (BitVec.ofNat 16 (natAt bs off 2)) else none

/-- `bs` with the bytes from offset `off` replaced by `new`. -/
def overlay (bs : List Byte) (off : Nat) (new : List Byte) : List Byte :=
  bs.take off ++ new ++ bs.drop (off + new.length)

/-- `bs` padded with zero bytes to `n` bytes (a longer `bs` stays as it is). -/
def padTo (n : Nat) (bs : List Byte) : List Byte := bs ++ List.replicate (n - bs.length) 0

/-- The destination of a frame, bytes 0-5. -/
def frameDest (bs : List Byte) : Addr := addrAt bs 0

/-- The source of a frame, bytes 6-11. -/
def frameSource (bs : List Byte) : Addr := addrAt bs 6

/-- The EtherType of a frame, bytes 12-13. -/
def frameType (bs : List Byte) : Nat := natAt bs 12 2

/-- Bit 0 of byte 0 of an address: it is a group address (multicast or broadcast; R5, R72). -/
def isGroupAddr (a : Addr) : Bool := a.getLsbD 40

/-- A yes-or-no field as carried in a payload (Table 9-4 NOTE). -/
def boolNat (b : Bool) : Nat := if b then 1 else 0

/-- An offset that may be none carries 0xFF for none (Table 9-4 NOTE). -/
def offsetNat (o : Option Nat) : Nat := o.getD 0xFF

/-- The offset that a carried byte stands for. -/
def offsetOf (n : Nat) : Option Nat := if n = 0xFF then none else some n

end Sys2Proof.Machine
end

