-- ==== Sys2Proof/Machine/Ops.lean ====
section
/-! DEFINITION. The shared operations over State: one update per part of State, sets of ports, counts, cells and
their references (R87, R88), and the egress queues (R92). -/

namespace Sys2Proof.Machine

/-! ### Reading and updating one part of State -/

/-- The record of port p. -/
def State.port (s : State) (p : Port) : PortRec := s.ports[p]

/-- Updates the record of port p. -/
def State.modPort (s : State) (p : Port) (f : PortRec → PortRec) : State :=
  { s with ports := s.ports.set p (f s.ports[p]) }

/-- The record of group g. -/
def State.group (s : State) (g : Group) : GroupRec := s.groups[g]

/-- Updates the record of group g. -/
def State.modGroup (s : State) (g : Group) (f : GroupRec → GroupRec) : State :=
  { s with groups := s.groups.set g (f s.groups[g]) }

/-- Updates the arm record of group g. -/
def State.modArm (s : State) (g : Group) (f : ArmRecord → ArmRecord) : State :=
  s.modGroup g fun r => { r with arm := f r.arm }

/-- Updates the slot of group g. -/
def State.modSlot (s : State) (g : Group) (f : Slot → Slot) : State :=
  s.modGroup g fun r => { r with slot := f r.slot }

/-- Updates the uplink. -/
def State.modUplink (s : State) (f : Uplink → Uplink) : State := { s with uplink := f s.uplink }

/-- Updates table memory. -/
def State.modTbm (s : State) (f : Tbm → Tbm) : State := { s with tbm := f s.tbm }

/-- Updates the admission arbiter. -/
def State.modAdm (s : State) (f : Adm → Adm) : State := { s with adm := f s.adm }

/-- Updates the management agent. -/
def State.modMga (s : State) (f : Mga → Mga) : State := { s with mga := f s.mga }

/-- Updates the event unit. -/
def State.modEvu (s : State) (f : Evu → Evu) : State := { s with evu := f s.evu }

/-- Hands work on, to be done before the present command ends (log 2). -/
def State.owe (w : Work) (s : State) : State := { s with owed := s.owed ++ [w] }

/-! ### Ports, domains and sets of ports -/

/-- All camera ports, lowest index first. -/
def allPorts : List Port := List.finRange 16

/-- All groups, lowest index first. -/
def allGroups : List Group := List.finRange 8

/-- Port Pp belongs to domain D⌊p/4⌋ (R1). -/
def domainOf (p : Port) : Domain := ⟨p.val / 4, by omega⟩

/-- The four ports of a domain. -/
def portsOf (d : Domain) : List Port := allPorts.filter fun p => domainOf p = d

/-- Port p is in the set. -/
def hasPort (set : PortSet) (p : Port) : Bool := set.getLsbD p.val

/-- The set that holds port p alone. -/
def onlyPort (p : Port) : PortSet := BitVec.twoPow 16 p.val

/-- The set of the ports that f holds for. -/
def portsWhere (f : Port → Bool) : PortSet :=
  allPorts.foldl (fun set p => if f p then set ||| onlyPort p else set) 0

/-- The ports of a set, lowest index first. -/
def portList (set : PortSet) : List Port := allPorts.filter (hasPort set)

/-- The idle timer of a port is held: the port is pinned, or among the arm members of an armed group (R16, R129). -/
def held (s : State) (p : Port) : Bool :=
  (s.port p).pin || allGroups.any fun g => (s.group g).arm.armed && hasPort (s.group g).arm.members p

/-- A port is deliverable: READY, its hold queue empty, no release in progress (R78). -/
def deliverable (s : State) (p : Port) : Bool :=
  (s.port p).state = .ready && (s.port p).hold.isEmpty && !(s.port p).releasing

/-- A port is enabled: in any state but DISABLED (R1). -/
def PortRec.enabled (r : PortRec) : Bool := r.state != .disabled

/-! ### Counts -/

/-- A 4 B count rises by n and stops at its maximum (R166). -/
def bumpBy (n count : Nat) : Nat := min (count + n) Config.countMax

/-- A 4 B count rises by 1 and stops at its maximum (R101, R166). -/
def bump (count : Nat) : Nat := bumpBy 1 count

/-- Updates the counts of port p. -/
def State.modCounts (s : State) (p : Port) (f : Counts → Counts) : State :=
  s.modPort p fun r => { r with counts := f r.counts }

/-- The place of a drop cause in Table 10-2. -/
def DropCause.index : DropCause → Fin 10
  | .length => 0 | .disabled => 1 | .faulted => 2 | .parked => 3 | .action => 4
  | .holdFull => 5 | .txFull => 6 | .noCell => 7 | .discarded => 8 | .uplink => 9

/-- A frame is counted in port p's dropped count with a cause (R101). -/
def countDrop (p : Port) (cause : DropCause) (s : State) : State :=
  s.modCounts p fun c => { c with dropped := c.dropped.set cause.index (bump c.dropped[cause.index]) }

/-- A frame is counted as forwarded down for port p (R101). -/
def countForwardedDown (p : Port) (s : State) : State :=
  s.modCounts p fun c => { c with forwardedDown := bump c.forwardedDown }

/-- Updates the device counters (Table 10-3). -/
def State.modDevice (s : State) (f : DeviceCounts → DeviceCounts) : State :=
  s.modEvu fun e => { e with counts := f e.counts }

/-- A frame is counted as an unknown destination (Table 10-3). -/
def countUnknown (s : State) : State := s.modDevice fun c => { c with unknownDest := bump c.unknownDest }

/-! ### Cells (R87, R88) -/

/-- A cell of the frame store. -/
def State.cell (s : State) (c : CellNo) : Cell := s.cells[c]

/-- Updates a cell. -/
def State.modCell (s : State) (c : CellNo) (f : Cell → Cell) : State :=
  { s with cells := s.cells.set c (f s.cells[c]) }

/-- An entry that names the cell is added. -/
def addRef (c : CellNo) (s : State) : State := s.modCell c fun x => { x with refs := x.refs + 1 }

/-- An entry that names the cell is given up: a count that falls to 0 puts the cell at the tail of the free list.
A count of 0 cannot fall (R88). -/
def dropRef (c : CellNo) (s : State) : State :=
  if (s.cell c).refs = 0 then s
  else
    let s' := s.modCell c fun x => { x with refs := x.refs - 1 }
    if (s.cell c).refs = 1 then { s' with free := s'.free ++ [c] } else s'

/-- Writes a frame into a cell; the bytes beyond 2048 are not stored (R70). -/
def storeCell (c : CellNo) (bytes : List Byte) (s : State) : State :=
  s.modCell c fun x => { x with data := bytes.take Config.cellBytes }

/-! ### Egress queues (R92) -/

/-- The egress of an Ethernet port. -/
def State.egress (s : State) : EtherPort → Egress
  | .camera p => (s.port p).egress
  | .uplink => s.uplink.egress

/-- Updates an egress. -/
def State.modEgress (s : State) (e : EtherPort) (f : Egress → Egress) : State :=
  match e with
  | .camera p => s.modPort p fun r => { r with egress := f r.egress }
  | .uplink => s.modUplink fun u => { u with egress := f u.egress }

/-- The link of an Ethernet port is up. -/
def State.linkIsUp (s : State) : EtherPort → Bool
  | .camera p => (s.port p).linkUp
  | .uplink => s.uplink.linkUp

/-- The reception in progress at an ingress. -/
def State.receiving (s : State) : EtherPort → Reception
  | .camera p => (s.port p).receiving
  | .uplink => s.uplink.receiving

/-- Sets the reception in progress at an ingress. -/
def State.setReceiving (s : State) (e : EtherPort) (r : Reception) : State :=
  match e with
  | .camera p => s.modPort p fun x => { x with receiving := r }
  | .uplink => s.modUplink fun u => { u with receiving := r }

/-- A transmit queue holds 32 entries (R92). -/
def txFull (s : State) (e : EtherPort) : Bool := Config.txDepth ≤ (s.egress e).queue.length

/-- Appends an entry at the tail of a transmit queue, with its reference (R88, R92). -/
def appendTx (e : EtherPort) (entry : TxEntry) (s : State) : State :=
  addRef entry.cell (s.modEgress e fun x => { x with queue := x.queue ++ [entry] })

/-- What became of a frame that the part originates (R88). -/
inductive Placement where
  | placed (c : CellNo)
  | noCell
  | queueFull
  deriving DecidableEq, Repr

/-- A frame that the part originates takes the cell at the head of the free list, is built in it and appended, in
one event; where the queue is full the cell joins the tail of the free list again (R88; log 10). -/
def originate (e : EtherPort) (bytes : List Byte) (s : State) : Placement × State :=
  match s.free with
  | [] => (.noCell, s)
  | c :: rest =>
    if txFull s e then (.queueFull, { s with free := rest ++ [c] })
    else
      (.placed c,
        appendTx e { cell := c, length := bytes.length, rewrite := none } (storeCell c bytes { s with free := rest }))

/-! ### Timers, and the discarding of queues -/

/-- The idle timer of a READY port restarts from 0 ms; a held timer stands at 0 ms (R16). -/
def restartIdle (p : Port) (s : State) : State :=
  s.modPort p fun r => if r.state = .ready then { r with idle := 0 } else r

/-- Discards a port's transmit queue, the entry in transmission included (R94), from the head to the tail (the model's
choice, log 42: the order in which the cells become free). -/
def discardTx (p : Port) (s : State) : State :=
  ((s.port p).egress.queue.foldl (fun s e => countDrop p .discarded (dropRef e.cell s)) s).modPort p
    fun r => { r with egress := Egress.empty }

/-- Discards a port's hold queue (R91), from the head to the tail (log 42). -/
def discardHold (p : Port) (s : State) : State :=
  ((s.port p).hold.foldl (fun s e => countDrop p .discarded (dropRef e.cell s)) s).modPort p
    fun r => { r with hold := [] }

/-- A frame for port p is appended to its transmit queue and counted as forwarded down, and an activity frame
restarts the idle timer as it enters; at a full queue it is dropped with TX_FULL (R77, R79, R92). -/
def forwardDown (p : Port) (entry : TxEntry) (activity : Bool) (s : State) : State :=
  if txFull s (.camera p) then countDrop p .txFull s
  else
    let s := countForwardedDown p (appendTx (.camera p) entry s)
    if activity then restartIdle p s else s

end Sys2Proof.Machine
end

