-- ==== Sys2Proof/Machine/Flags.lean ====
section
/-! DEFINITION. The flags of EVU: events, their masks and detail records, notices, and the management frame that
notices and responses are sent in (Chapter 10, R149, R162). -/

namespace Sys2Proof.Machine

/-- Event numbers (Table 10-1). -/
def Event.num : Event → Fin 16
  | .portFault => 0 | .cameraDropped => 1 | .pauseFailed => 2 | .wakeEscalated => 3 | .holdDrop => 4
  | .captureDrop => 5 | .triggerOverrun => 6 | .triggerRefused => 7 | .rendezvousIncomplete => 8
  | .armBroken => 9 | .armExpired => 10 | .prepareLate => 11 | .tableCorrected => 12 | .tablePoisoned => 13
  | .accessDenied => 14 | .uplinkDown => 15

/-- Method codes (Table 9-8); none is 3. -/
def methodCode : Option Method → Nat
  | some .frame => 0 | some .line => 1 | some .power => 2 | none => 3

/-- Fault codes as carried (Table 9-4 NOTE). -/
def FaultCode.code : FaultCode → Nat
  | .noResponse => 0 | .budget => 1 | .linkLost => 2 | .feed => 3 | .table => 4

/-- Trigger outcomes as carried (Table 9-9). -/
def TriggerOutcome.code : TriggerOutcome → Nat
  | .none => 0 | .delivered => 1 | .partialSet => 2 | .abandoned => 3 | .refused => 4 | .cancelled => 5
  | .poisoned => 6

/-- Table numbers of the TBM tables (Table 9-6). -/
def TbmTable.number : TbmTable → Nat
  | .portConfig => 1 | .template => 2 | .rule => 3 | .classAction => 4 | .group => 5 | .proxy => 10

/-- A detail record with no subject, code or set (Table 10-1). -/
def Detail.bare : Detail := { subject := none, code := 0, set := 0 }

/-- The detail record of an event about a port. -/
def Detail.port (p : Port) (code : Nat := 0) : Detail := { subject := some p.val, code := code, set := 0 }

/-- The detail record of an event about a group. -/
def Detail.group (g : Group) (code : Nat := 0) (set : PortSet := 0) : Detail :=
  { subject := some g.val, code := code, set := set }

/-- An event is reported while its pending flag and its mask flag are both set (R160). -/
def EventRec.reported (e : EventRec) : Bool := e.pending && e.mask

/-- The reported set, bit e for event e (Table 9-3). -/
def reportedSet (s : State) : PortSet := portsWhere fun e => s.evu.events[e].reported

/-- One record of Table 9-3. -/
def eventRecordBytes (e : Fin 16) (d : Detail) : List Byte :=
  natBE 1 e.val ++ natBE 1 (d.subject.getD 0xFF) ++ natBE 1 d.code ++ natBE 2 d.set.toNat

/-- The payload of a notice and of a READ_EVENTS response (Table 9-3). -/
def eventsPayload (s : State) : List Byte :=
  let reported := portList (reportedSet s)
  natBE 2 (reportedSet s).toNat ++ natBE 1 reported.length ++
    reported.flatMap fun e => eventRecordBytes e (s.evu.events[e].detail.getD Detail.bare)

/-- A management frame that the part sends (Table 9-2), padded with zero bytes to 64 B. -/
def managementFrame (dest source : Addr) (kind tag op status table index : Nat) (payload : List Byte) : List Byte :=
  padTo Config.minFrame <|
    addrBytes dest ++ addrBytes source ++ natBE 2 Config.managementEtherType ++ natBE 1 1 ++ natBE 1 kind ++
      natBE 2 tag ++ natBE 1 op ++ natBE 1 status ++ natBE 1 table ++ natBE 1 index ++
      natBE 2 payload.length ++ payload

/-- The notice as it stands now (R162). -/
def noticeFrame (s : State) : List Byte :=
  managementFrame s.mga.report s.mga.factory 3 0 0 0 0 0 (eventsPayload s)

/-- EVU judges a notice: with the notice-outstanding flag clear and a report address, it is built and queued and the
flag set, or it is lost and the flag stays clear (R162). -/
def judgeNotice (s : State) : State :=
  if s.evu.noticeOutstanding || s.mga.report == 0 then s
  else
    match originate .uplink (noticeFrame s) s with
    | (.placed _, s') => s'.modEvu fun e => { e with noticeOutstanding := true }
    | (_, s') => s'

/-- A block raises an event: its pending flag is set and its detail record replaced; an event that becomes reported by
it has a notice judged (R160). -/
def raise (e : Event) (d : Detail) (s : State) : State :=
  let before := s.evu.events[e.num]
  let s' := s.modEvu fun v =>
    { v with events := v.events.set e.num { before with pending := true, detail := some d } }
  if before.mask && !before.pending then judgeNotice s' else s'

/-- Replaces all sixteen masks, and judges one notice when an event becomes reported by it (R161). -/
def setMasks (mask : PortSet) (s : State) : State :=
  let s' := s.modEvu fun v =>
    { v with events := Vector.ofFn fun e => { v.events[e] with mask := hasPort mask e } }
  if (reportedSet s' &&& ~~~ reportedSet s) != 0 then judgeNotice s' else s'

/-- Clears the pending flags of the reported events and the notice-outstanding flag (R163). -/
def clearReported (s : State) : State :=
  s.modEvu fun v =>
    { v with
      events := v.events.map fun e => if e.reported then { e with pending := false } else e
      noticeOutstanding := false }

end Sys2Proof.Machine
end

