-- ==== Sys2Proof/Machine/Tables.lean ====
section
/-! DEFINITION. Table memory: the reads of protected entries with their corrections and poisonings, and their writes
(Chapter 8). What an owner does about a poisoned entry (Table 8-2) stands with the owner; only the discard of a
poisoned proxy record (R112) stands here, since every read of one makes it. -/

namespace Sys2Proof.Machine

/-- What a read of a protected entry finds (R139): clean; corrected, with the number of words; poisoned by this read;
or poisoned before it. -/
inductive Finding where
  | clean
  | corrected (words : Nat)
  | poisonedNow
  | poisonedBefore
  deriving DecidableEq, Repr

/-- The finding of a read (R139, R140): one bad word with two bad bits poisons, whatever the others are. -/
def Protected.find {α : Type} {n : Nat} (e : Protected α n) : Finding :=
  if e.poison then .poisonedBefore
  else if e.words.any (· == .twoBad) then .poisonedNow
  else if e.words.all (· == .good) then .clean
  else .corrected (e.words.toList.countP (· == .oneBad))

/-- The entry after a read: corrected words are written back (R140), a poisoning sets the mark (R141). -/
def Protected.afterRead {α : Type} {n : Nat} (e : Protected α n) : Protected α n :=
  match e.find with
  | .corrected _ => { e with words := Vector.replicate n .good }
  | .poisonedNow => { e with poison := true }
  | _ => e

/-- The entry is not handed over (R139). -/
def Finding.isPoisoned : Finding → Bool
  | .poisonedNow | .poisonedBefore => true
  | _ => false

/-- What a read hands over: the contents, or none where the entry is poisoned (R139). -/
def Protected.handed {α : Type} {n : Nat} (e : Protected α n) : Option α :=
  if e.find.isPoisoned then none else some e.val

/-- The counters and events of a finding (R140, R141). -/
def noteFinding (t : TbmTable) (index : Nat) (f : Finding) (s : State) : State :=
  match f with
  | .corrected n =>
    raise .tableCorrected { subject := some index, code := t.number, set := 0 }
      (s.modDevice fun c => { c with corrections := bumpBy n c.corrections })
  | .poisonedNow =>
    raise .tablePoisoned { subject := some index, code := t.number, set := 0 }
      (s.modDevice fun c => { c with poisonings := bump c.poisonings })
  | _ => s

/-- Entry 3p + k of the TEMPLATE table (R28). -/
def templateIndex (p : Port) : TemplateKind → Fin 48
  | .pause => ⟨3 * p.val, by omega⟩
  | .resume => ⟨3 * p.val + 1, by omega⟩
  | .probe => ⟨3 * p.val + 2, by omega⟩

/-- Record i of port Pp is PROXY entry 4p + i (Table 6-2 NOTE). -/
def proxyIndex (p : Port) (i : Fin 4) : Fin 64 := ⟨4 * p.val + i.val, by omega⟩

/-- The port whose record a PROXY entry is. -/
def proxyPort (i : Fin 64) : Port := ⟨i.val / 4, by omega⟩

/-- The record of its port that a PROXY entry is. -/
def proxySlot (i : Fin 64) : Fin 4 := ⟨i.val % 4, by omega⟩

/-- The place of a class in the class-action table (Table 4-3). -/
def FrameClass.index : FrameClass → Fin 9
  | .capture => 0 | .control => 1 | .liveview => 2 | .poll => 3 | .bulk => 4 | .pollAnswer => 5
  | .standbyAck => 6 | .readySign => 7 | .probeAnswer => 8

/-- One read of a PORT_CONFIG entry (R139). -/
def readPortConfig (p : Port) (s : State) : Option PortConfig × State :=
  let e := s.tbm.portConfig[p]
  (e.handed,
    noteFinding .portConfig p.val e.find
      (s.modTbm fun t => { t with portConfig := t.portConfig.set p e.afterRead }))

/-- One read of a TEMPLATE entry; a poisoned template is treated as absent by the reader (Table 8-2). Where the scrubber
or a management request is the reader, running probing goes on until its next expiry (the model's choice, log 59). -/
def readTemplate (i : Fin 48) (s : State) : Option Template × State :=
  let e := s.tbm.template[i]
  (e.handed,
    noteFinding .template i.val e.find (s.modTbm fun t => { t with template := t.template.set i e.afterRead }))

/-- One read of a RULE entry. -/
def readRule (i : Fin 32) (s : State) : Option Rule × State :=
  let e := s.tbm.rule[i]
  (e.handed, noteFinding .rule i.val e.find (s.modTbm fun t => { t with rule := t.rule.set i e.afterRead }))

/-- One read of a CLASS_ACTION entry. -/
def readClassAction (i : Fin 9) (s : State) : Option ClassAction × State :=
  let e := s.tbm.classAction[i]
  (e.handed,
    noteFinding .classAction i.val e.find
      (s.modTbm fun t => { t with classAction := t.classAction.set i e.afterRead }))

/-- One read of a GROUP entry, without the owner's effect. -/
def readGroupEntry (g : Group) (s : State) : Option GroupConfig × State :=
  let e := s.tbm.group[g]
  (e.handed, noteFinding .group g.val e.find (s.modTbm fun t => { t with group := t.group.set g e.afterRead }))

/-- SAU discards a proxy record found poisoned: it becomes free, its mark is cleared, and the record discarded
count rises (R112, R141). -/
def discardProxy (i : Fin 64) (s : State) : State :=
  let s := s.modPort (proxyPort i) fun r =>
    { r with
      proxies := r.proxies.set (proxySlot i) ProxyControl.free
      counts := { r.counts with discarded := bump r.counts.discarded } }
  s.modTbm fun t => { t with proxy := t.proxy.set i { t.proxy[i] with poison := false } }

/-- One read of a PROXY entry. A free record is not read (R103, R139); a poisoned one is discarded (R112). -/
def readProxy (i : Fin 64) (s : State) : Option ProxyEntry × State :=
  if (s.port (proxyPort i)).proxies[proxySlot i].occupied then
    let e := s.tbm.proxy[i]
    let s := noteFinding .proxy i.val e.find (s.modTbm fun t => { t with proxy := t.proxy.set i e.afterRead })
    (e.handed, if e.find.isPoisoned then discardProxy i s else s)
  else (none, s)

/-! ### Writes: whole entries with fresh check bits, the poison mark cleared (R142) -/

/-- Writes a whole PORT_CONFIG entry. -/
def writePortConfig (p : Port) (v : PortConfig) (s : State) : State :=
  s.modTbm fun t => { t with portConfig := t.portConfig.set p (.fresh v) }

/-- Writes a whole TEMPLATE entry. -/
def writeTemplate (i : Fin 48) (v : Template) (s : State) : State :=
  s.modTbm fun t => { t with template := t.template.set i (.fresh v) }

/-- Writes a whole RULE entry. -/
def writeRule (i : Fin 32) (v : Rule) (s : State) : State :=
  s.modTbm fun t => { t with rule := t.rule.set i (.fresh v) }

/-- Writes a whole CLASS_ACTION entry. -/
def writeClassAction (i : Fin 9) (v : ClassAction) (s : State) : State :=
  s.modTbm fun t => { t with classAction := t.classAction.set i (.fresh v) }

/-- Writes a whole GROUP entry. -/
def writeGroup (g : Group) (v : GroupConfig) (s : State) : State :=
  s.modTbm fun t => { t with group := t.group.set g (.fresh v) }

/-- Writes a whole PROXY entry. -/
def writeProxy (i : Fin 64) (v : ProxyEntry) (s : State) : State :=
  s.modTbm fun t => { t with proxy := t.proxy.set i (.fresh v) }

/-- A template is present when its length is nonzero and it is not poisoned (Table 2-2 NOTE). This judgement makes
no read (R28 names the reads; log 24). -/
def templatePresent (s : State) (p : Port) (k : TemplateKind) : Bool :=
  let e := s.tbm.template[templateIndex p k]
  e.val.length != 0 && !e.poison

end Sys2Proof.Machine
end

