-- ==== Sys2Proof/Machine/GroupState.lean ====
section
/-! DEFINITION. What GRP does when a member changes its state or its deliverability, when an arm breaks or is cleared,
and when a trigger ends without delivery (R120, R121, R130 to R132). Wake needs and re-evaluations that follow are
handed on (log 2). -/

namespace Sys2Proof.Machine

/-- A pending trigger ends: the slot becomes FREE with the sets and the outcome given, and gives up its reference, before
the event of its end is raised (log 57). -/
def endTrigger (g : Group) (outcome : TriggerOutcome) (delivered missed : PortSet) (s : State) : State :=
  dropRef (s.group g).slot.cell
    (s.modSlot g fun x => { x with pending := false, delivered := delivered, missed := missed, outcome := outcome })

/-- A pending trigger is dropped: every trigger member is missed. -/
def dropTrigger (g : Group) (outcome : TriggerOutcome) (s : State) : State :=
  endTrigger g outcome 0 (s.group g).slot.members s

/-- A strict group's pending trigger is refused (R131). -/
def refuseStrict (g : Group) (s : State) : State :=
  if (s.group g).slot.pending && (s.group g).slot.strict then
    raise .triggerRefused (Detail.group g) (dropTrigger g .refused s)
  else s

/-- The intactness of an armed and intact group breaks: the watched set is emptied, ARM_BROKEN is raised once for the
arm, and then a strict trigger is refused (R130, R131; the order of the two events is the model's choice, log 51). -/
def breakArm (g : Group) (who : PortSet) (s : State) : State :=
  if (s.group g).arm.armed && (s.group g).arm.intact then
    let s := s.modArm g fun a => { a with intact := false, watched := 0 }
    let s :=
      if (s.group g).arm.breakReported then s
      else raise .armBroken (Detail.group g 0 who) (s.modArm g fun a => { a with breakReported := true })
    refuseStrict g s
  else s

/-- ADM removes every schedule entry that names a group (R68). -/
def removeSchedulesOf (g : Group) (s : State) : State :=
  s.modAdm fun a => { a with schedule := a.schedule.filter fun e => e.group ≠ g }

/-- The arm of a group is cleared: ADM removes its schedule entries, its members' idle hold is released, and a strict
trigger is refused (R132, R129). Break reported keeps its value. -/
def clearArm (g : Group) (s : State) : State :=
  if (s.group g).arm.armed then
    let members := (s.group g).arm.members
    let s := s.modArm g fun a =>
      { a with armed := false, intact := false, hold := 0, target := none, members := 0, watched := 0 }
    refuseStrict g ((portList members).foldl (fun s p => restartIdle p s) (removeSchedulesOf g s))
  else s

/-- The watched set of an armed and intact group gains a member that enters READY (R130). -/
def joinWatched (g : Group) (p : Port) (new : PortState) (s : State) : State :=
  let a := (s.group g).arm
  if a.armed && a.intact && hasPort a.members p && new = .ready then
    s.modArm g fun a => { a with watched := a.watched ||| onlyPort p }
  else s

/-- A move of port p from `old` to `new` breaks the intactness of a group with this arm record (R130). A SLEEP of a
PAUSED member, for which R25 says that intactness breaks, is not in R130's list and breaks nothing (the model's choice,
log 60). -/
def breaksArm (a : ArmRecord) (p : Port) (old new : PortState) : Bool :=
  (hasPort a.watched p && old = .ready && new ≠ .ready) ||
    (hasPort a.members p && (new = .disabled || new = .faulted))

/-- A reachable member of a pending trigger becomes unreachable (R120), and the trigger is to be re-evaluated. -/
def markUnreachable (g : Group) (p : Port) (s : State) : State :=
  (s.modSlot g fun x => { x with unreachable := x.unreachable ||| onlyPort p }).owe (.reevaluate g)

/-- A pending trigger of group g has port p as a reachable member. -/
def reachableMember (s : State) (g : Group) (p : Port) : Bool :=
  let x := (s.group g).slot
  x.pending && hasPort x.members p && !hasPort x.unreachable p

/-- A reachable member of a pending trigger has entered `new` (R120, R121). -/
def slotReact (g : Group) (p : Port) (new : PortState) (s : State) : State :=
  if reachableMember s g p then
    let parked := (s.port p).park
    match new with
    | .disabled | .faulted => markUnreachable g p s
    | .paused | .asleep => if parked then markUnreachable g p s else s.owe (.need .rendezvous p)
    | .pausing => if parked then s else s.owe (.need .rendezvous p)
    | .waking | .ready | .resuming => s
  else s

/-- Group g hears that port p has moved from `old` to `new` (R1, R115). The break is made before the member becomes
unreachable, so a strict trigger is refused (R131), and its FREE slot then keeps the unreachable set that it had (log
45). -/
def groupReact (g : Group) (p : Port) (old new : PortState) (s : State) : State :=
  let breaks := breaksArm (s.group g).arm p old new
  let s := joinWatched g p new s
  let s := if breaks then breakArm g (onlyPort p) s else s
  slotReact g p new s

/-- Every group hears that port p has moved from `old` to `new` (R1, R115), from G0 to G7 (the model's choice, log 52). -/
def memberChanged (p : Port) (old new : PortState) (s : State) : State :=
  allGroups.foldl (fun s g => groupReact g p old new s) s

/-- FST reports that port p has become deliverable: every pending trigger that holds it is to be re-evaluated (R78,
R98, R122), from G0 to G7 (log 52). -/
def noteDeliverable (p : Port) (s : State) : State :=
  allGroups.foldl
    (fun s g =>
      if (s.group g).slot.pending && hasPort (s.group g).slot.members p then s.owe (.reevaluate g) else s) s

end Sys2Proof.Machine
end

