-- ==== Sys2Proof/Machine/Ports.lean ====
section
/-! DEFINITION. The moves of a port's state with their effects: the charge it commits (R4, R51), entry into ASLEEP,
PAUSED, FAULTED and DISABLED (R6, R7, R14, R15), and the release operation (R95 to R99). -/

namespace Sys2Proof.Machine

/-! ### Charge and state -/

/-- The charge that a state commits (R4, R51). -/
def stateCharge (d : Draws) : PortState → Nat
  | .disabled | .asleep | .faulted => 0
  | .paused => d.standby
  | .ready | .pausing => d.active
  | .waking | .resuming => d.inrush

/-- The sum of the charges of a domain's four ports (R51). -/
def domainCharge (s : State) (d : Domain) : Nat := ((portsOf d).map fun p => (s.port p).charge).sum

/-- ADM recomputes the committed charge of a domain (R51). -/
def recommit (d : Domain) (s : State) : State :=
  s.modAdm fun a => { a with committed := a.committed.set d (domainCharge s d) }

/-- ADM's part of a change of state: the port's charge and its domain's committed charge are recomputed, and a scan
is owed where the charge has fallen (R51, R59). -/
def setState (p : Port) (new : PortState) (s : State) : State :=
  let charge := stateCharge (s.port p).draws new
  let falls := charge < (s.port p).charge
  let s := recommit (domainOf p) (s.modPort p fun r => { r with state := new, charge := charge })
  if falls then s.owe .scan else s

/-- PCT moves a port to a new state and reports the change to ADM and GRP (R1). -/
def changeState (p : Port) (new : PortState) (s : State) : State :=
  memberChanged p (s.port p).state new (setState p new s)

/-! ### What a rest does to the port's blocks -/

/-- The feed goes off; the camera link is down while the camera has no feed, so a transmission is cut and its entry
waits (R93, R168; log 18). -/
def feedOff (p : Port) (s : State) : State :=
  s.modPort p fun r =>
    { r with feed := false, linkUp := false, egress := { r.egress with sending := none } }

/-- The running operation of WKE ends or is abandoned: its countdowns stop and the wake line goes low; the method and
attempt fields keep their last values (R27). -/
def endOperation (p : Port) (s : State) : State :=
  s.modPort p fun r =>
    { r with op := { r.op with kind := .none, phase := .none, countdown := 0, pulse := none }, wakeLine := false }

/-- Probing stops (R42). -/
def stopProbing (p : Port) (s : State) : State :=
  s.modPort p fun r =>
    { r with probe := { r.probe with running := false, countdown := 0, outstanding := none, misses := 0 } }

/-- Probing at entry into PAUSED (R42). -/
def beginProbing (p : Port) (s : State) : State :=
  let runs := (s.port p).cfg.probeInterval != 0 && templatePresent s p .probe
  s.modPort p fun r =>
    { r with
      probe := { r.probe with
        running := runs, countdown := if runs then r.cfg.probeInterval else 0, nextSeq := 0, outstanding := none,
        answered := false, misses := 0 } }

/-- SAU clears the four proxy records of a port (R111). -/
def clearProxies (p : Port) (s : State) : State :=
  s.modPort p fun r => { r with proxies := Vector.replicate 4 ProxyControl.free }

/-- The idle, deep-idle and link timers stop at 0 ms. -/
def stopTimers (p : Port) (s : State) : State :=
  s.modPort p fun r => { r with idle := 0, deepIdle := 0, link := 0 }

/-- FST stops any release (R99). -/
def stopRelease (p : Port) (s : State) : State := s.modPort p fun r => { r with releasing := false }

/-- ADM removes a port's wake-queue entry (R57). -/
def removeWake (p : Port) (s : State) : State :=
  s.modAdm fun a => { a with wakeQueue := a.wakeQueue.filter fun e => e.port ≠ p }

/-- ADM removes a port's schedule-list entry (R68). -/
def removeSchedule (p : Port) (s : State) : State :=
  s.modAdm fun a => { a with schedule := a.schedule.filter fun e => e.port ≠ p }

/-- A port's wake-queue entry. -/
def wakeEntry? (s : State) (p : Port) : Option WakeEntry := s.adm.wakeQueue.find? fun e => e.port = p

/-- A port's schedule-list entry. -/
def scheduleEntry? (s : State) (p : Port) : Option ScheduleEntry := s.adm.schedule.find? fun e => e.port = p

/-- A held frame of the port carries the waking mark (R91). -/
def anyWaking (s : State) (p : Port) : Bool := (s.port p).hold.any (·.waking)

/-! ### Entries into states -/

/-- The method of a fault record: of the attempt in progress or last started, none outside a COLD or RESUME
operation (R7, R27). After an escalation, until attempt 1 of the new method starts, that is the method before it (log
19). -/
def Operation.faultMethod (op : Operation) : Option Method :=
  match op.kind with
  | .cold => some .power
  | .resume =>
    if op.attempt = 0 then
      match op.method with
      | some .power => some .line
      | some .line => some .frame
      | m => m
    else op.method
  | _ => none

/-- The attempts of a fault record (R7). -/
def Operation.faultAttempts (op : Operation) : Nat :=
  match op.kind with
  | .cold | .resume => op.started
  | _ => 0

/-- What entry into FAULTED and DISABLED have in common (R6, R7; log 20 for the order, log 42 for the order in which the
discarded frames free their cells). -/
def shutDown (p : Port) (new : PortState) (s : State) : State :=
  s |> feedOff p |> endOperation p |> stopProbing p |> discardHold p |> discardTx p |> stopRelease p
    |> removeWake p |> removeSchedule p |> clearProxies p |> stopTimers p |> changeState p new

/-- Entry into FAULTED with a code (R7). A port that is already FAULTED is not faulted again. -/
def enterFaulted (p : Port) (code : FaultCode) (s : State) : State :=
  let r := s.port p
  if r.state = .faulted then s
  else
    let record : FaultRecord :=
      { code := code, stateAt := r.state, method := r.op.faultMethod, attempts := r.op.faultAttempts }
    raise .portFault (Detail.port p code.code)
      ((shutDown p .faulted s).modPort p fun r => { r with fault := some record })

/-- Entry into DISABLED (R6): as for FAULTED, and the sense filter is cleared and CLS drops the station address. -/
def enterDisabled (p : Port) (s : State) : State :=
  (shutDown p .disabled s).modPort p fun r => { r with senseFilter := none, station := none }

/-- Entry into ASLEEP (R15): the hold queue and a wake-queue entry are kept; from READY, held waking frames of an
unparked port hand ADM a TRAFFIC need. -/
def enterAsleep (p : Port) (s : State) : State :=
  let remake := (s.port p).state = .ready && anyWaking s p && !(s.port p).park
  let s := s |> feedOff p |> endOperation p |> stopProbing p |> clearProxies p |> discardTx p |> stopRelease p
    |> stopTimers p |> changeState p .asleep
  if remake then s.owe (.need .traffic p) else s

/-- An entry whose inrush draw exceeds its domain's limit can never pass (R58). -/
def neverAdmissible (s : State) (p : Port) : Bool := s.adm.limits[domainOf p] < (s.port p).draws.inrush

/-- Entry into PAUSED on a confirmation (R14): the charge falls, the deep-idle timer starts, probing begins where
configured, and an existing wake-queue entry is checked (R58) and, at an unparked port, becomes eligible (R56). -/
def enterPaused (p : Port) (s : State) : State :=
  let s := changeState p .paused (endOperation p s)
  let s := beginProbing p (s.modPort p fun r => { r with deepIdle := 0 })
  match wakeEntry? s p with
  | none => s
  | some _ =>
    if neverAdmissible s p then enterFaulted p .budget s
    else if (s.port p).park then s
    else s.owe .scan

/-! ### Release (R95 to R98) -/

/-- One held frame moves from the head of the hold queue to the tail of the transmit queue (R96). -/
def moveHeld (p : Port) (h : HoldEntry) (rest : List HoldEntry) (s : State) : State :=
  let s := appendTx (.camera p) { cell := h.cell, length := h.length, rewrite := none } s
  let s := dropRef h.cell (s.modPort p fun r => { r with hold := rest })
  let s := s.modCounts p fun c =>
    { c with released := bump c.released, forwardedDown := bump c.forwardedDown }
  if h.activity then restartIdle p s else s

/-- Up to n held frames move, as many as the transmit queue has places for (R96). -/
def moveHeldUpTo : Nat → Port → State → State
  | 0, _, s => s
  | n + 1, p, s =>
    match (s.port p).hold with
    | [] => s
    | h :: rest => if txFull s (.camera p) then s else moveHeldUpTo n p (moveHeld p h rest s)

/-- A release step: held frames move, and the step that leaves the hold queue empty completes the release (R96, R98).
Without the release flag there is no release to step. -/
def stepRelease (p : Port) (s : State) : State :=
  if (s.port p).releasing then
    let s := moveHeldUpTo Config.txDepth p s
    if (s.port p).hold.isEmpty then noteDeliverable p (stopRelease p s) else s
  else s

/-- The release at entry into READY (R95). -/
def startRelease (p : Port) (s : State) : State :=
  if (s.port p).hold.isEmpty then noteDeliverable p s
  else stepRelease p (s.modPort p fun r => { r with releasing := true })

end Sys2Proof.Machine
end

