-- ==== Sys2Proof/Machine/WakeEngine.lean ====
section
/-! DEFINITION. The wake engine: template frames, the attempts of the resume and cold paths, readiness evidence and
learning, the pause operation, and probes (Chapter 2). -/

namespace Sys2Proof.Machine

/-- Updates the operation record of port p. -/
def State.modOp (s : State) (p : Port) (f : Operation → Operation) : State :=
  s.modPort p fun r => { r with op := f r.op }

/-- Updates the probe record of port p. -/
def State.modProbe (s : State) (p : Port) (f : ProbeRecord → ProbeRecord) : State :=
  s.modPort p fun r => { r with probe := f r.probe }

/-! ### Template frames (R29) -/

/-- The frame that a template produces, with the sequence of a probe (R29). -/
def templateFrame (t : Template) (station factory : Addr) (seq : Option (BitVec 16)) : List Byte :=
  let bs := padTo Config.minFrame (t.bytes.take t.length)
  let bs := overlay (overlay bs 0 (addrBytes station)) 6 (addrBytes factory)
  match seq with
  | none => bs
  | some n => overlay bs t.seqOffset (natBE 2 n.toNat)

/-- Builds a template frame and appends it to the port's transmit queue; says whether it was placed (R29). -/
def sendTemplate (p : Port) (t : Template) (seq : Option (BitVec 16)) (s : State) : Bool × State :=
  match originate (.camera p) (templateFrame t (s.port p).cfg.station s.mga.factory seq) s with
  | (.placed _, s') => (true, s')
  | (.noCell, s') => (false, countDrop p .noCell s')
  | (.queueFull, s') => (false, countDrop p .txFull s')

/-- A template read for sending: present, or treated as absent (Table 2-2 NOTE, Table 8-2). -/
def readPresent (p : Port) (k : TemplateKind) (s : State) : Option Template × State :=
  match readTemplate (templateIndex p k) s with
  | (some t, s') => (if t.length = 0 then none else some t, s')
  | (none, s') => (none, s')

/-! ### Attempts (R30 to R35) -/

/-- The attempt counts rise; the elapsed time starts at the first attempt of the operation (R32, R33, R34). -/
def countAttempt (op : Operation) : Operation :=
  { op with
    attempt := op.attempt + 1
    started := op.started + 1
    elapsed := if op.started = 0 then 0 else op.elapsed }

/-- The feed turns on, and the feed-fault input is checked at once (R8, R30): at an admission this is inside the visit of
the port's own entry (the model's choice, log 55). -/
def feedOn (p : Port) (s : State) : State :=
  let s := s.modPort p fun r => { r with feed := true }
  if (s.port p).feedFaultIn then enterFaulted p .feed s else s

/-- A LINE attempt: the wake line goes high for the pulse width and the window opens (R33). -/
def startLine (p : Port) (s : State) : State :=
  s.modPort p fun r =>
    { r with
      wakeLine := true
      op := { countAttempt r.op with
        method := some .line, phase := .window, countdown := r.cfg.attemptWindow, pulse := some r.cfg.pulseWidth } }

/-- A POWER attempt on the resume path: the feed goes off for the off-hold, and the link timer is held at 0 ms
(R34, R18). -/
def startPower (p : Port) (s : State) : State :=
  (feedOff p s).modPort p fun r =>
    { r with
      link := 0
      op := { countAttempt r.op with method := some .power, phase := .offHold, countdown := r.cfg.offHold } }

/-- FRAME is skipped at the first FRAME attempt, or ended there as an escalation at a later one (R31). -/
def leaveFrame (p : Port) (s : State) : State :=
  if (s.port p).op.attempt = 0 then startLine p s
  else
    startLine p
      (raise .wakeEscalated (Detail.port p (methodCode (some .line)))
        (s.modOp p fun op => { op with method := some .line, attempt := 0 }))

/-- A FRAME attempt: the RESUME template is sent, and the window opens whether or not it was placed (R31, R32). -/
def startFrame (p : Port) (s : State) : State :=
  match readPresent p .resume s with
  | (some t, s') =>
    (sendTemplate p t none s').2.modPort p fun r =>
      { r with op := { countAttempt r.op with phase := .window, countdown := r.cfg.attemptWindow } }
  | (none, s') => leaveFrame p s'

/-- The next attempt of a RESUME operation, by its method. -/
def startAttempt (p : Port) (s : State) : State :=
  match (s.port p).op.method with
  | some .frame => startFrame p s
  | some .line => startLine p s
  | some .power => startPower p s
  | none => s

/-- A RESUME operation starts at the port's first resume method (R27, R31). -/
def startResume (p : Port) (cls : WakeClass) (s : State) : State :=
  startAttempt p
    (s.modPort p fun r => { r with op := { Operation.reset with kind := .resume, method := some r.cfg.firstMethod, cls := cls } })

/-- A COLD operation starts with POWER attempt 1: the window opens and the feed turns on (R27, R30). -/
def startCold (p : Port) (cls : WakeClass) (s : State) : State :=
  feedOn p
    (s.modPort p fun r =>
      { r with
        op := { Operation.reset with
          kind := .cold, phase := .window, method := some .power, attempt := 1, started := 1,
          countdown := r.cfg.coldWindow, cls := cls } })

/-- Enters SPACING; a spacing of 0 ms starts the next attempt at once (R35). -/
def enterSpacing (p : Port) (s : State) : State :=
  let s := s.modPort p fun r =>
    { r with op := { r.op with phase := .spacing, countdown := r.cfg.spacing } }
  if (s.port p).cfg.spacing = 0 then startAttempt p s else s

/-- The window closes: a pulse still high ends (R33). -/
def closeWindow (p : Port) (s : State) : State :=
  s.modPort p fun r => { r with wakeLine := false, op := { r.op with pulse := none } }

/-- The move to a later method (R35). -/
def escalate (p : Port) (m : Method) (s : State) : State :=
  enterSpacing p
    (raise .wakeEscalated (Detail.port p (methodCode (some m)))
      (s.modOp p fun op => { op with method := some m, attempt := 0 }))

/-- An attempt of a RESUME operation has failed (R35). -/
def resumeAttemptFailed (p : Port) (s : State) : State :=
  let s := closeWindow p s
  let r := s.port p
  if r.op.attempt < r.cfg.attempts then enterSpacing p s
  else
    match r.op.method with
    | some .frame => escalate p .line s
    | some .line => escalate p .power s
    | some .power | none => enterFaulted p .noResponse s

/-- An attempt of a COLD operation has failed (R30). -/
def coldAttemptFailed (p : Port) (s : State) : State :=
  let r := s.port p
  if r.op.attempt < r.cfg.attempts then
    (feedOff p s).modPort p fun r =>
      { r with op := { r.op with phase := .offHold, countdown := r.cfg.offHold } }
  else enterFaulted p .noResponse s

/-- The off-hold has expired: the feed turns on and the cold boot window opens; on the cold path this is the next
attempt (R30, R34). Its counts rise before the feed turns on, so a feed-fault input that is high then records the new
attempt (the model's choice, log 47). -/
def offHoldOver (p : Port) (s : State) : State :=
  feedOn p
    (s.modPort p fun r =>
      { r with
        op := { (if r.op.kind = .cold then { r.op with attempt := r.op.attempt + 1, started := r.op.started + 1 } else r.op) with
          phase := .window, countdown := r.cfg.coldWindow } })

/-! ### Readiness (R36, R46, R47, R12) -/

/-- The sample of an operation (R46). -/
def sampleOf (op : Operation) : Nat := max 1 (min op.elapsed Config.timeMaxMs)

/-- One step of learning toward a sample with learn shift k, and whether the estimate changed (R47). -/
def learn (k : Nat) (estimate : Option Nat) (sample : Nat) : Nat × Bool :=
  match estimate with
  | none => (sample, true)
  | some e =>
    let d : Int := (sample : Int) - e
    let q := d.tdiv (2 ^ k)
    let q := if q = 0 then d.sign else q
    let e' := (max 1 (min ((e : Int) + q) Config.timeMaxMs)).toNat
    (e', e' != e)

/-- A sample count rises and stops at 255 (R46). -/
def bumpSamples (n : Nat) : Nat := min (n + 1) 255

/-- The sample goes to the estimate of the path that the successful method belongs to (R46, R47); answers whether the
estimate was updated. -/
def applySample (k : Nat) (m : Method) (sample : Nat) (e : Estimates) : Estimates × Bool :=
  match m with
  | .power =>
    let (v, u) := learn k e.cold sample
    ({ e with cold := some v, coldSamples := bumpSamples e.coldSamples }, u)
  | .frame | .line =>
    let (v, u) := learn k e.resume sample
    ({ e with resume := some v, resumeSamples := bumpSamples e.resumeSamples }, u)

/-- Entry into READY from WAKING or RESUMING (R12). -/
def enterReady (p : Port) (wake : LastWake) (s : State) : State :=
  let s := changeState p .ready s
  let s := s.modPort p fun r => { r with idle := 0, link := 0, lastWake := some wake }
  startRelease p (removeWake p s)

/-- The operation waits for readiness evidence: a COLD or RESUME operation in WINDOW (R36). -/
def awaitsEvidence (op : Operation) : Bool := (op.kind = .cold || op.kind = .resume) && op.phase = .window

/-- WKE accepts readiness evidence (R36): the operation ends, its sample is learned, and PCT moves the port to READY. -/
def acceptEvidence (p : Port) (s : State) : State :=
  let op := (s.port p).op
  match op.method with
  | none => s
  | some m =>
    let sample := sampleOf op
    let (est, updated) := applySample s.mga.learnShift m sample (s.port p).est
    let s := (endOperation p s).modPort p fun r => { r with est := est }
    enterReady p { cls := op.cls, method := m, time := sample, updated := updated } s

/-! ### The pause operation (R13, R39 to R41, R14) -/

/-- A pause fails and the port returns to READY (R14). -/
def pauseFailed (p : Port) (s : State) : State :=
  let s := changeState p .ready (endOperation p s)
  let s := restartIdle p (raise .pauseFailed (Detail.port p) s)
  startRelease p (removeWake p s)

/-- WKE starts the pause operation of a port that has entered PAUSING: the PAUSE template is sent and the confirm
window opens (R39); answers whether the frame was placed. The method, attempt and attempts-started fields, which R27
keeps until the next operation starts, become none, 0 and 0 (the model's choice, log 48). -/
def startPause (p : Port) (t : Template) (s : State) : Bool × State :=
  sendTemplate p t none
    (s.modPort p fun r =>
      { r with op := { Operation.reset with kind := .pause, phase := .confirm, countdown := r.cfg.confirmWindow, cls := r.op.cls } })

/-- Entry into PAUSING (R13, R99): a release stops, and held waking frames hand ADM a TRAFFIC need; answers whether the
PAUSE frame was placed. The need is handed on before the frame is tried, and taken after it and before the failure of a
pause whose frame was not placed (the model's choice, log 50). -/
def enterPausing (p : Port) (t : Template) (s : State) : Bool × State :=
  let s := changeState p .pausing (stopRelease p (s.modPort p fun r => { r with idle := 0 }))
  let s := if anyWaking s p then s.owe (.need .traffic p) else s
  startPause p t s

/-- How an attempt to pause a READY port came out. -/
inductive PauseStart where
  | templateAbsent
  | configPoisoned
  | started
  /-- the port is PAUSING, and the operation fails at once (R39) -/
  | frameLost
  deriving DecidableEq, Repr

/-- A READY port is to be paused, by idle expiry or by PAUSE: the PAUSE template is read for the send (R28, R39), then
PCT reads the configuration entry (R9; log 16), and the port enters PAUSING. The failure of a pause whose frame could not
be placed is left to the caller. -/
def tryPause (p : Port) (s : State) : PauseStart × State :=
  match readPresent p .pause s with
  | (none, s') => (.templateAbsent, s')
  | (some t, s') =>
    match readPortConfig p s' with
    | (none, s'') => (.configPoisoned, enterFaulted p .table s'')
    | (some cfg, s'') =>
      match enterPausing p t (s''.modPort p fun r => { r with cfg := cfg }) with
      | (true, u) => (.started, u)
      | (false, u) => (.frameLost, u)

/-! ### Probes (R43, R44) -/

/-- The probe loss of a PAUSED port (R15, R43). -/
def probeLost (p : Port) (s : State) : State :=
  raise .cameraDropped (Detail.port p) (enterAsleep p s)

/-- The next probe is sent, or probing stops where its template is absent (R43, steps 3 and 4). -/
def sendProbe (p : Port) (s : State) : State :=
  match readPresent p .probe s with
  | (none, s') => stopProbing p s'
  | (some t, s') =>
    let seq := (s'.port p).probe.nextSeq
    (sendTemplate p t (some seq) s').2.modPort p fun r =>
      { r with
        probe := { r.probe with
          outstanding := some seq, nextSeq := seq + 1, answered := false, countdown := r.cfg.probeInterval } }

/-- An expiry of the probe interval (R43). -/
def probeIntervalOver (p : Port) (s : State) : State :=
  let pr := (s.port p).probe
  let missed := pr.outstanding.isSome && !pr.answered
  let s := if missed then s.modProbe p fun x => { x with misses := x.misses + 1 } else s
  if missed && (s.port p).cfg.missLimit ≤ (s.port p).probe.misses then probeLost p s else sendProbe p s

/-- A PROBE_ANSWER from the camera of a PAUSED port (R44), with the sequence read from it where there is one. -/
def judgeProbeAnswer (p : Port) (received : Option (BitVec 16)) (s : State) : State :=
  s.modProbe p fun x =>
    match x.running, x.outstanding with
    | true, some expected =>
      let x' := { x with answered := true, misses := 0 }
      match received with
      | none => x'
      | some r =>
        if r = expected then x'
        else
          { x' with
            mismatches := min (x.mismatches + 1) 255
            capture := if x.mismatches = 0 then some (expected, r) else x.capture }
    | _, _ => x

end Sys2Proof.Machine
end

