-- ==== Sys2Proof/Machine/Admission.lean ====
section
/-! DEFINITION. The admission arbiter: wake needs, the wake queue, the scan with its pass counts, and the schedule
list (Chapter 3). -/

namespace Sys2Proof.Machine

/-! ### Eligibility and the admission test -/

/-- A wake-queue entry of port p is eligible: the port is PAUSED or ASLEEP and not parked (R56). -/
def eligible (s : State) (p : Port) : Bool :=
  let r := s.port p
  (r.state = .paused || r.state = .asleep) && !r.park

/-- The admission test (R58): committed − charge + inrush ≤ limit. -/
def admits (s : State) (p : Port) : Bool :=
  let r := s.port p
  let d := domainOf p
  s.adm.committed[d] + r.draws.inrush ≤ s.adm.limits[d] + r.charge

/-- The eligible entries in scan order: by class, and within a class by arrival (R60). -/
def scanOrder (s : State) : List WakeEntry :=
  [WakeClass.rendezvous, .scheduled, .traffic, .sense].flatMap fun c =>
    s.adm.wakeQueue.filter fun e => e.cls = c && eligible s e.port

/-- PCT takes an admission (R11): the configuration is read (R9), and the port moves to WAKING or RESUMING, with the
operation started, or is faulted with code TABLE. ADM has removed the entry. -/
def admitPort (p : Port) (cls : WakeClass) (s : State) : State :=
  let s := removeWake p s
  match readPortConfig p s with
  | (none, s) => enterFaulted p .table s
  | (some cfg, s) =>
    let cold := (s.port p).state = .asleep
    let s := stopProbing p (s.modPort p fun r => { r with cfg := cfg, deepIdle := 0 })
    if cold then startCold p cls (changeState p .waking s) else startResume p cls (changeState p .resuming s)

/-! ### The scan (R60, R61) -/

/-- A scan under way: the state, the domains closed in it, and the ports whose entries it has admitted. -/
structure Scan where
  state : State
  closed : List Domain
  admitted : List Port

/-- The scan visits one entry (R60). An admitted port whose feed-fault input is high is faulted before the next entry is
visited (the model's choice, log 55). -/
def visit (sc : Scan) (e : WakeEntry) : Scan :=
  let d := domainOf e.port
  if sc.closed.contains d || !eligible sc.state e.port then sc
  else if admits sc.state e.port then
    { sc with state := admitPort e.port e.cls sc.state, admitted := e.port :: sc.admitted }
  else if e.blocking then { sc with closed := d :: sc.closed }
  else sc

/-- The ports of the entries, in scan order, that were not admitted while a later entry of their domain was (R61). -/
def passedOver (admitted : List Port) : List WakeEntry → List Port
  | [] => []
  | e :: rest =>
    let passed := !admitted.contains e.port &&
      rest.any fun x => domainOf x.port = domainOf e.port && admitted.contains x.port
    if passed then e.port :: passedOver admitted rest else passedOver admitted rest

/-- An entry is passed over: its count rises to at most 15, and it becomes blocking at the pass limit (R61). -/
def passEntry (passLimit : Nat) (e : WakeEntry) : WakeEntry :=
  let n := min (e.passes + 1) 15
  { e with passes := n, blocking := e.blocking || passLimit ≤ n }

/-- The pass-count rule at the end of a scan (R61). -/
def countPasses (passed : List Port) (s : State) : State :=
  s.modAdm fun a =>
    { a with wakeQueue := a.wakeQueue.map fun e => if passed.contains e.port then passEntry a.passLimit e else e }

/-- One whole scan of the wake queue (R60, R61). -/
def scan (s : State) : State :=
  let order := scanOrder s
  let sc := order.foldl visit { state := s, closed := [], admitted := [] }
  countPasses (passedOver sc.admitted order) sc.state

/-! ### Wake needs (R53 to R55, R67) -/

/-- The rank of a class: lower is higher (Table 3-2). -/
def WakeClass.rank : WakeClass → Nat
  | .rendezvous => 0 | .scheduled => 1 | .traffic => 2 | .sense => 3

/-- The higher of two classes (R55, R67). -/
def WakeClass.higher (a b : WakeClass) : WakeClass := if a.rank ≤ b.rank then a else b

/-- Table 3-3: a need for the port makes, merges into or replaces an entry. -/
def takesNeed (s : State) (p : Port) : Bool :=
  let r := s.port p
  match r.state with
  | .pausing => true
  | .paused | .asleep => !r.park
  | _ => false

/-- The wake queue renumbered 0, 1, 2 … in its arrival order (R54). -/
def renumbered (q : List WakeEntry) : List WakeEntry := q.mapIdx fun i e => { e with arrival := i }

/-- A new entry takes the next arrival number; at 65535 the queue is renumbered first (R53, R54). -/
def addEntry (p : Port) (cls : WakeClass) (s : State) : State :=
  s.modAdm fun a =>
    let (q, n) := if a.arrivals = 65535 then (renumbered a.wakeQueue, a.wakeQueue.length) else (a.wakeQueue, a.arrivals)
    { a with
      wakeQueue := q ++ [{ port := p, cls := cls, arrival := n, passes := 0, blocking := a.passLimit = 0 }]
      arrivals := n + 1 }

/-- An entry is created: the never-admissible check applies to a port in ASLEEP or PAUSED, and a scan follows (R53,
R58, R59). -/
def createEntry (p : Port) (cls : WakeClass) (s : State) : State :=
  let s := addEntry p cls s
  let resting := (s.port p).state = .asleep || (s.port p).state = .paused
  scan (if resting && neverAdmissible s p then enterFaulted p .budget s else s)

/-- A need merges into the port's entry, which keeps its place, and a scan follows (R55, R59). -/
def mergeNeed (p : Port) (cls : WakeClass) (s : State) : State :=
  scan
    (s.modAdm fun a =>
      { a with wakeQueue := a.wakeQueue.map fun e => if e.port = p then { e with cls := e.cls.higher cls } else e })

/-- ADM takes a wake need by the port's state (R53, Table 3-3): it merges into the port's entry (R55), replaces the
port's schedule entry (R67), or makes a new entry; otherwise it is discarded. -/
def takeNeed (cls : WakeClass) (p : Port) (s : State) : State :=
  if takesNeed s p then
    match wakeEntry? s p, scheduleEntry? s p with
    | some _, _ => mergeNeed p cls s
    | none, some _ => createEntry p (cls.higher .scheduled) (removeSchedule p s)
    | none, none => createEntry p cls s
  else s

/-! ### The schedule list (R64, R66) -/

/-- GRP asks for a schedule entry (R64). The port's state is not judged again (log 40). -/
def requestSchedule (p : Port) (g : Group) (offset : Nat) (s : State) : State :=
  match wakeEntry? s p, scheduleEntry? s p with
  | some _, _ => s
  | none, some e =>
    if offset < e.countdown then
      (removeSchedule p s).modAdm fun a =>
        { a with schedule := a.schedule ++ [{ port := p, group := g, countdown := offset }] }
    else s
  | none, none =>
    s.modAdm fun a => { a with schedule := a.schedule ++ [{ port := p, group := g, countdown := offset }] }

/-- A schedule entry is due: it is removed, and makes a SCHEDULED need for an unparked PAUSED or ASLEEP port (R66). -/
def scheduleDue (p : Port) (s : State) : State :=
  let s := removeSchedule p s
  if eligible s p then takeNeed .scheduled p s else s

/-! ### Limits (R52, R62) -/

/-- A taken limit write: the never-admissible check of every entry of the domain whose port is ASLEEP or PAUSED, then a
scan (R52). The entries are checked in the queue's arrival order (the model's choice, log 49). -/
def applyLimit (d : Domain) (limit : Nat) (s : State) : State :=
  let s := s.modAdm fun a => { a with limits := a.limits.set d limit }
  let checked := s.adm.wakeQueue.filter fun e =>
    domainOf e.port = d && ((s.port e.port).state = .asleep || (s.port e.port).state = .paused)
  scan (checked.foldl (fun s e => if neverAdmissible s e.port then enterFaulted e.port .budget s else s) s)

/-- A taken pass-limit write sets the blocking flag of every entry at or above it (R62). -/
def applyPassLimit (limit : Nat) (s : State) : State :=
  s.modAdm fun a =>
    { a with
      passLimit := limit
      wakeQueue := a.wakeQueue.map fun e => if limit ≤ e.passes then { e with blocking := true } else e }

end Sys2Proof.Machine
end

