-- ==== Sys2Proof/Machine/Triggers.lean ====
section
/-! DEFINITION. The group unit: triggers, rendezvous and delivery, ARM, PREPARE and the poisoned group entry
(Chapter 7), and the settling of what blocks have handed on inside a command (log 2). -/

namespace Sys2Proof.Machine

/-- GRP finds a group's entry poisoned (R137): a pending trigger is dropped with outcome POISONED, and the arm is
cleared as by DISARM. -/
def groupPoisoned (g : Group) (s : State) : State :=
  let s :=
    if (s.group g).slot.pending then
      let s := dropTrigger g .poisoned s
      raise .rendezvousIncomplete (Detail.group g TriggerOutcome.poisoned.code (s.group g).slot.missed) s
    else s
  clearArm g s

/-- One read of a GROUP entry with the owner's effect (R115, R137). -/
def readGroup (g : Group) (s : State) : Option GroupConfig × State :=
  match readGroupEntry g s with
  | (none, s') => (none, groupPoisoned g s')
  | (some c, s') => (some c, s')

/-! ### Delivery and the ends of a trigger (R122 to R124) -/

/-- RENDEZVOUS_INCOMPLETE with the outcome and the missed set of the slot (Table 10-1). -/
def raiseIncomplete (g : Group) (s : State) : State :=
  let x := (s.group g).slot
  raise .rendezvousIncomplete (Detail.group g x.outcome.code x.missed) s

/-- One copy of a trigger for a member (R124): an entry with the member as its rewrite. -/
def deliverCopy (cell : CellNo) (activity : Bool) (s : State) (p : Port) : State :=
  forwardDown p { cell := cell, length := (s.cell cell).data.length, rewrite := some p } activity s

/-- Places the copies of a trigger, in ascending port order; answers the members that had room (R124). -/
def deliverTo (cell : CellNo) (activity : Bool) (targets : PortSet) (s : State) : PortSet × State :=
  let placed := portsWhere fun p => hasPort targets p && !txFull s (.camera p)
  (placed, (portList targets).foldl (deliverCopy cell activity) s)

/-- A pending trigger is delivered to a set of members (R124): the others are missed. -/
def deliverPending (g : Group) (targets : PortSet) (s : State) : State :=
  let x := (s.group g).slot
  let (placed, s) := deliverTo x.cell x.activity targets s
  let missed := x.members &&& ~~~ placed
  if missed = 0 then endTrigger g .delivered placed missed s
  else raiseIncomplete g (endTrigger g .partialSet placed missed s)

/-- A pending trigger is abandoned (R122). -/
def abandonTrigger (g : Group) (s : State) : State := raiseIncomplete g (dropTrigger g .abandoned s)

/-- The members of a pending trigger that are reachable. -/
def reachableSet (x : Slot) : PortSet := x.members &&& ~~~ x.unreachable

/-- The ports of a set that are deliverable. -/
def deliverableOf (s : State) (set : PortSet) : PortSet := portsWhere fun p => hasPort set p && deliverable s p

/-- GRP re-evaluates a pending trigger (R122, R131). -/
def reevaluate (g : Group) (s : State) : State :=
  let x := (s.group g).slot
  let a := (s.group g).arm
  if !x.pending then s
  else if x.strict && !(a.armed && a.intact) then refuseStrict g s
  else
    match x.policy with
    | .abandon =>
      if x.unreachable ≠ 0 then abandonTrigger g s
      else if deliverableOf s x.members = x.members then deliverPending g x.members s
      else s
    | .partialSet =>
      if deliverableOf s (reachableSet x) = reachableSet x then deliverPending g (reachableSet x) s else s

/-- The rendezvous window of a pending trigger has expired (R123): under PARTIAL it is delivered to the reachable members
that are deliverable, under ABANDON it is dropped; RENDEZVOUS_INCOMPLETE is raised in both (log 21). -/
def windowOver (g : Group) (s : State) : State :=
  let x := (s.group g).slot
  match x.policy with
  | .partialSet =>
    let (placed, s) := deliverTo x.cell x.activity (deliverableOf s (reachableSet x)) s
    raiseIncomplete g (endTrigger g .partialSet placed (x.members &&& ~~~ placed) s)
  | .abandon => raiseIncomplete g (dropTrigger g .abandoned s)

/-! ### The settling of what has been handed on (log 2) -/

/-- One item of handed-on work is done. -/
def doWork (w : Work) (s : State) : State :=
  match w with
  | .need cls p => takeNeed cls p s
  | .scan => scan s
  | .reevaluate g => reevaluate g s

/-- Handed-on work is done in the order it was handed on, until none is left; `fuel` bounds the number of items. -/
def settleUpTo : Nat → State → State
  | 0, s => s
  | n + 1, s =>
    match s.owed with
    | [] => s
    | w :: rest => settleUpTo n (doWork w { s with owed := rest })

/-- The work items that one command may do. Every fault and every admission takes a port out of the wake queue, and
each hands on at most one scan, eight re-evaluations and eight needs, so this is more than a command can hand on. -/
def settleFuel : Nat := 4096

/-- All that the blocks have handed on inside a command is done (log 2). -/
def settle (s : State) : State := settleUpTo settleFuel s

/-! ### Taking a trigger (R118, R119) -/

/-- A member that cannot become deliverable for a trigger: DISABLED or FAULTED, or PAUSED or ASLEEP and parked
(R119, Table 7-4). -/
def cannotRendezvous (s : State) (p : Port) : Bool :=
  let r := s.port p
  match r.state with
  | .disabled | .faulted => true
  | .paused | .asleep => r.park
  | _ => false

/-- A member that a RENDEZVOUS need is made for: PAUSING, PAUSED or ASLEEP (R119, R128). -/
def needsWake (s : State) (p : Port) : Bool :=
  let st := (s.port p).state
  st = .pausing || st = .paused || st = .asleep

/-- GRP hands ADM one RENDEZVOUS need for each port of a list, in its order. -/
def rendezvousNeeds (ps : List Port) (s : State) : State := ps.foldl (fun s p => takeNeed .rendezvous p s) s

/-- A trigger is made pending (R119). -/
def makePending (g : Group) (c : GroupConfig) (cell : CellNo) (activity : Bool) (s : State) : State :=
  let unreachable := portsWhere fun p => hasPort c.members p && !deliverable s p && cannotRendezvous s p
  let s := (addRef cell s).modSlot g fun _ =>
    { pending := true, cell := cell, window := c.window, members := c.members, policy := c.policy,
      strict := c.strict, activity := activity, delivered := 0, missed := 0, unreachable := unreachable,
      outcome := .none }
  if c.policy = .abandon && unreachable ≠ 0 then abandonTrigger g s
  else
    rendezvousNeeds
      ((portList c.members).filter fun p => needsWake s p && !hasPort unreachable p) s

/-- A trigger is delivered at its arrival to every member (R118 step 4, R124): the slot's sets and outcome are written
as for any delivery, and what Table 7-3 has copied at a trigger's arrival (log 54). -/
def deliverAtArrival (g : Group) (c : GroupConfig) (cell : CellNo) (activity : Bool) (s : State) : State :=
  deliverPending g c.members
    ((addRef cell s).modSlot g fun x =>
      { x with
        cell := cell, members := c.members, policy := c.policy, strict := c.strict, activity := activity,
        unreachable := 0 })

/-- GRP takes a trigger in a cell, by the first step of R118 that applies. The cell's ingress reference is given up by
the caller. -/
def takeTrigger (g : Group) (cell : CellNo) (activity : Bool) (s : State) : State :=
  match readGroup g s with
  | (none, s) => countUnknown s
  | (some c, s) =>
    let a := (s.group g).arm
    if !c.enabled || c.members = 0 then countUnknown s
    else if (s.group g).slot.pending then raise .triggerOverrun (Detail.group g) s
    else if c.strict && !(a.armed && a.intact) then raise .triggerRefused (Detail.group g) s
    else if deliverableOf s c.members = c.members then deliverAtArrival g c cell activity s
    else makePending g c cell activity s

/-! ### ARM and PREPARE (R128, R134 to R136) -/

/-- The status with which ARM and PREPARE are refused, in the order of the checks of R128, or none. -/
def armRefusal (c : GroupConfig) (s : State) : Option Status :=
  if !c.enabled then some .state
  else if (portList c.members).any fun p => (s.port p).state = .disabled || (s.port p).state = .faulted then
    some .memberUnavailable
  else if (portList c.members).any fun p => (s.port p).park then some .parkedMember
  else none

/-- The group is armed and its members are held (R128, R129); a target countdown is kept. -/
def armGroup (g : Group) (c : GroupConfig) (s : State) : State :=
  let watched := portsWhere fun p => hasPort c.members p && (s.port p).state = .ready
  let s := s.modArm g fun a =>
    { a with
      armed := true, intact := true, breakReported := false, hold := c.armHold * 1000,
      members := c.members, watched := watched }
  (portList c.members).foldl (fun s p => restartIdle p s) s

/-- The estimate that PREPARE uses for a member, by its state (R135). -/
def preparedEstimate (r : PortRec) : Nat :=
  match r.state with
  | .asleep => r.est.cold.getD r.cfg.coldWindow
  | _ => r.est.resume.getD r.cfg.attemptWindow

/-- For a member and the sum of its estimate and the margin, GRP hands ADM a need where the offset is 0 ms or less, and a
schedule request otherwise (R135). -/
def prepareMember (g : Group) (lead : Nat) (s : State) (m : Port × Nat) : State :=
  if lead ≤ m.2 then takeNeed .scheduled m.1 s else requestSchedule m.1 g (lead - m.2) s

/-- The preparation target of a group has come (R136). -/
def targetOver (g : Group) (s : State) : State :=
  match readGroup g s with
  | (none, s) => s.modArm g fun a => { a with target := none }
  | (some c, s) =>
    let late := portsWhere fun p => hasPort c.members p && (s.port p).state ≠ .ready
    let s := s.modArm g fun a => { a with target := none }
    if late = 0 then s else raise .prepareLate (Detail.group g 0 late) s

/-- A taken PREPARE (R134). The members to be woken and their offsets are fixed at its start (log 40). -/
def prepareGroup (g : Group) (c : GroupConfig) (lead : Nat) (s : State) : State :=
  let s := armGroup g c (removeSchedulesOf g s)
  let waits := ((portList c.members).filter (needsWake s)).map fun p => (p, preparedEstimate (s.port p) + c.margin)
  let s := waits.foldl (prepareMember g lead) s
  let s := s.modArm g fun a => { a with target := some lead }
  if lead = 0 then targetOver g s else s

end Sys2Proof.Machine
end

