-- ==== Sys2Proof/Machine/StandbyAnswer.lean ====
section
/-! DEFINITION. The standby answer unit: learning poll answers and answering polls for PAUSED ports (Chapter 6). -/

namespace Sys2Proof.Machine

/-- The four record indices. -/
def recordIndices : List (Fin 4) := List.finRange 4

/-- SAU reads the occupied records of a port; those handed over, after the discards (R107, R108). The ascending order is
the model's choice (log 43). -/
def readRecords (p : Port) : List (Fin 4) → State → List (Fin 4 × ProxyEntry) × State
  | [], s => ([], s)
  | i :: rest, s =>
    let (e, s) := readProxy (proxyIndex p i) s
    let (found, s) := readRecords p rest s
    (match e with
      | some e => (i, e) :: found
      | none => found, s)

/-- The occupied record of greatest age, of lowest index among equals (R107 step 3). -/
def oldestRecord (r : PortRec) : Fin 4 :=
  recordIndices.foldl (fun best i => if r.proxies[best].age < r.proxies[i].age then i else best) 0

/-- The record that a learned answer goes into (R107). -/
def chooseRecord (r : PortRec) (found : List (Fin 4 × ProxyEntry)) (key : BitVec 16) : Fin 4 :=
  match found.find? fun x => x.2.key = key with
  | some (i, _) => i
  | none =>
    match recordIndices.find? fun i => !r.proxies[i].occupied with
    | some i => i
    | none => oldestRecord r

/-- A poll answer is learned with its key (R107). -/
def learnAnswer (p : Port) (key : BitVec 16) (bytes : List Byte) (seqOffset : Option Nat) (s : State) : State :=
  let (found, s) := readRecords p recordIndices s
  let i := chooseRecord (s.port p) found key
  let kept := seqOffset.filter fun o => decide (o + 2 ≤ bytes.length)
  let s := writeProxy (proxyIndex p i)
    { key := key, length := bytes.length, bytes := bytes, seqOffset := kept } s
  s.modPort p fun r =>
    { r with
      proxies := r.proxies.set i { occupied := true, age := 0 }
      counts := { r.counts with learned := bump r.counts.learned } }

/-- SAU considers a POLL_ANSWER that occupies a cell, from a port that was in state `st` when the frame was taken
(R105, R106). -/
def considerLearning (p : Port) (st : PortState) (bytes : List Byte) (keyOffset seqOffset : Option Nat) (s : State) :
    State :=
  if (st = .ready || st = .pausing) && (s.port p).cfg.ageLimit != 0 then
    match keyOffset.bind (word16At? bytes) with
    | none => s
    | some key =>
      if Config.maxAnswer < bytes.length then s.modCounts p fun c => { c with tooLong := bump c.tooLong }
      else learnAnswer p key bytes seqOffset s
  else s

/-- A record is fresh while its age is below the port's answer age limit (R104). -/
def fresh (r : PortRec) (i : Fin 4) : Bool := r.proxies[i].age < r.cfg.ageLimit * 1000

/-- SAU looks a poll up (R108): the entry of the fresh record that holds its key, or none for a miss or a stale
record. -/
def lookUpPoll (p : Port) (bytes : List Byte) (keyOffset : Option Nat) (s : State) : Option ProxyEntry × State :=
  match keyOffset.bind (word16At? bytes) with
  | none => (none, s)
  | some key =>
    let (found, s) := readRecords p recordIndices s
    match found.find? fun x => x.2.key = key with
    | some (i, e) => (if fresh (s.port p) i then some e else none, s)
    | none => (none, s)

/-- The answer to a poll (R109): the stored bytes, to the request's source, from the port's station address, with the
request's sequence where both have one. -/
def answerFrame (e : ProxyEntry) (station : Addr) (request : List Byte) (seqOffset : Option Nat) : List Byte :=
  let bs := overlay (overlay (e.bytes.take e.length) 0 (bytesAt request 6 6)) 6 (addrBytes station)
  match e.seqOffset, seqOffset.bind (word16At? request) with
  | some o, some n => overlay bs o (natBE 2 n.toNat)
  | _, _ => bs

/-- SAU answers a poll on a hit, or loses the answer (R109). -/
def answerPoll (p : Port) (e : ProxyEntry) (request : List Byte) (seqOffset : Option Nat) (s : State) : State :=
  match originate .uplink (answerFrame e (s.port p).cfg.station request seqOffset) s with
  | (.placed _, s') => s'.modCounts p fun c => { c with answered := bump c.answered }
  | (_, s') => s'.modCounts p fun c => { c with lost := bump c.lost }

end Sys2Proof.Machine
end

