-- ==== Sys2Proof/Machine/Classifier.lean ====
section
/-! DEFINITION. The classifier: the rule search, the class actions, the destination lookup, and the path of each frame
by destination, class and port state (Chapter 4), with the frames that found no cell (R89) and the taking of a
management request (R146). -/

namespace Sys2Proof.Machine

/-! ### Classification (R74 to R77) -/

/-- A rule fits a frame (R74): for an upstream frame by its ingress port, for a downstream frame by the port it is
resolved to, where there is one. -/
def Rule.fits (r : Rule) (up : Bool) (scope : Option Port) : Bool :=
  r.enabled &&
    (match r.direction with
      | .both => true
      | .up => up
      | .down => !up) &&
    (match scope with
      | none => true
      | some p => hasPort r.scope p)

/-- A rule matches a frame (R74). -/
def Rule.matchesFrame (r : Rule) (bytes : List Byte) : Bool :=
  r.offset + r.length ≤ bytes.length &&
    BitVec.ofNat 32 (natAt bytes r.offset r.length) &&& r.mask == r.value &&& r.mask

/-- What CLS records with a frame: its class and offsets (R75), and its action and activity flag (R76, R77). -/
structure Classified where
  cls : FrameClass
  keyOffset : Option Nat
  seqOffset : Option Nat
  action : Action
  activity : Bool
  deriving DecidableEq, Repr

/-- CLS reads rules in order to the first that fits and matches; a poisoned rule is skipped (R75). -/
def searchRules (up : Bool) (scope : Option Port) (bytes : List Byte) :
    List (Fin 32) → State → Option Rule × State
  | [], s => (none, s)
  | i :: rest, s =>
    match readRule i s with
    | (some r, s') =>
      if r.fits up scope && r.matchesFrame bytes then (some r, s') else searchRules up scope bytes rest s'
    | (none, s') => searchRules up scope bytes rest s'

/-- CLS classifies a frame (R75) and reads the class action (R76); a poisoned class action acts as DROP with no
activity. -/
def classify (up : Bool) (scope : Option Port) (bytes : List Byte) (s : State) : Classified × State :=
  let (r, s) := searchRules up scope bytes (List.finRange 32) s
  let (cls, key, seq) := match r with
    | some r => (r.cls, r.keyOffset, r.seqOffset)
    | none => (FrameClass.bulk, none, none)
  let (a, s) := readClassAction cls.index s
  let a := a.getD { action := .drop, activity := false }
  ({ cls := cls, keyOffset := key, seqOffset := seq, action := a.action, activity := a.activity }, s)

/-- The waking actions (R76). -/
def Action.waking : Action → Bool
  | .holdAndWake | .answerOrWake => true
  | .hold | .drop => false

/-! ### Delivery to one port (R78 to R80) -/

/-- A frame is held at the tail of the port's hold queue with its marks, or dropped at a full one; answers whether it was
held (R78, R90). For a dropped CAPTURE frame HOLD_DROP is raised before CAPTURE_DROP (the model's choice, log 56). -/
def holdFrame (p : Port) (cell : CellNo) (length : Nat) (k : Classified) (s : State) : Bool × State :=
  if (s.port p).cfg.holdLimit ≤ (s.port p).hold.length then
    let s := raise .holdDrop (Detail.port p) (countDrop p .holdFull s)
    (false, if k.cls = .capture then raise .captureDrop (Detail.port p) s else s)
  else
    let entry : HoldEntry :=
      { cell := cell, length := length, cls := k.cls, activity := k.activity, waking := k.action.waking }
    let s := addRef cell (s.modPort p fun r => { r with hold := r.hold ++ [entry] })
    (true, s.modCounts p fun c => { c with held := bump c.held })

/-- A frame is held, and hands ADM a TRAFFIC need once it is held (R78). -/
def holdAndNeed (p : Port) (cell : CellNo) (length : Nat) (k : Classified) (s : State) : State :=
  match holdFrame p cell length k s with
  | (true, s') => takeNeed .traffic p s'
  | (false, s') => s'

/-- HOLD_AND_WAKE at a PAUSED or ASLEEP port, by its park flag (R80, R22). -/
def holdOrPark (p : Port) (cell : CellNo) (length : Nat) (k : Classified) (s : State) : State :=
  if (s.port p).park then countDrop p .parked s else holdAndNeed p cell length k s

/-- A downstream frame in a cell for one port, by the port's state and the not-ready action (Table 4-4, R79, R80). -/
def deliverToPort (p : Port) (cell : CellNo) (bytes : List Byte) (k : Classified) (s : State) : State :=
  let n := bytes.length
  match (s.port p).state, k.action with
  | .disabled, _ => countUnknown s
  | .faulted, _ => countDrop p .faulted s
  | .ready, _ =>
    if deliverable s p then forwardDown p { cell := cell, length := n, rewrite := none } k.activity s
    else (holdFrame p cell n k s).2
  | _, .drop => countDrop p .action s
  | .waking, _ | .resuming, _ => (holdFrame p cell n k s).2
  | _, .hold => (holdFrame p cell n k s).2
  | .pausing, _ => holdAndNeed p cell n k s
  | .asleep, _ => holdOrPark p cell n k s
  | .paused, .answerOrWake =>
    match lookUpPoll p bytes k.keyOffset s with
    | (some e, s') => answerPoll p e bytes k.seqOffset s'
    | (none, s') => holdOrPark p cell n k s'
  | .paused, .holdAndWake => holdOrPark p cell n k s

/-- A downstream frame for one port that found no cell (R89): another cause that would drop it is counted instead;
otherwise NO_CELL. A poll for a parked PAUSED port is PARKED, with no look-up (log 41). -/
def noCellToPort (p : Port) (k : Classified) (s : State) : State :=
  let r := s.port p
  let resting := r.state = .paused || r.state = .asleep
  if r.state = .disabled then countUnknown s
  else if r.state = .faulted then countDrop p .faulted s
  else if r.state ≠ .ready && k.action = .drop then countDrop p .action s
  else if resting && r.park && k.action.waking then countDrop p .parked s
  else
    let s := countDrop p .noCell s
    if k.cls = .capture then raise .captureDrop (Detail.port p) s else s

/-! ### Groups and all ports (R81, R82) -/

/-- The READY ports of a list. -/
def readyOf (s : State) (ps : List Port) : List Port := ps.filter fun p => (s.port p).state = .ready

/-- One copy of a frame goes into the transmit queue of each port of a list, in its order (R81, R82). -/
def copyTo (ps : List Port) (cell : CellNo) (length : Nat) (activity : Bool) (s : State) : State :=
  ps.foldl (fun s p => forwardDown p { cell := cell, length := length, rewrite := none } activity s) s

/-- The frame is counted with a cause for each port of a list. -/
def countDrops (ps : List Port) (cause : DropCause) (s : State) : State :=
  ps.foldl (fun s p => countDrop p cause s) s

/-- A flooded frame (R82; R89 without a cell; log 17 for a flooded CAPTURE frame without one). -/
def flood (cell : Option CellNo) (bytes : List Byte) (s : State) : State :=
  let (k, s) := classify false none bytes s
  match cell with
  | some c => copyTo (readyOf s allPorts) c bytes.length k.activity s
  | none =>
    let s := countDrops (readyOf s allPorts) .noCell s
    if k.cls = .capture then raise .captureDrop Detail.bare s else s

/-- A group is enabled and not poisoned, as CLS knows it without a read (R72, R89). -/
def groupServes (s : State) (g : Group) : Bool := s.tbm.group[g].val.enabled && !s.tbm.group[g].poison

/-- A downstream frame resolved to a group (R81, R118; R89 without a cell, where the GROUP entry is not read: log 17). -/
def deliverToGroup (g : Group) (cell : Option CellNo) (bytes : List Byte) (s : State) : State :=
  let (k, s) := classify false none bytes s
  match cell with
  | some c =>
    if k.cls = .capture then takeTrigger g c k.activity s
    else
      match readGroup g s with
      | (none, s) => countUnknown s
      | (some cfg, s) =>
        if cfg.enabled then copyTo (readyOf s (portList cfg.members)) c bytes.length k.activity s
        else countUnknown s
  | none =>
    let members := portList s.tbm.group[g].val.members
    if !groupServes s g then countUnknown s
    else if k.cls = .capture then
      raise .captureDrop (Detail.group g 1)
        (countDrops (members.filter fun p => (s.port p).enabled) .noCell s)
    else countDrops (readyOf s members) .noCell s

/-! ### Lookup and dispatch (R71, R72) -/

/-- The enabled port that holds a station address (R72 step 2). -/
def portWithStation? (s : State) (a : Addr) : Option Port := allPorts.find? fun p => (s.port p).station = some a

/-- The group that a multicast address resolves to: one that serves first, and of equals the lowest (R72 step 3). -/
def groupWithAddress? (s : State) (a : Addr) : Option Group :=
  match allGroups.find? fun g => (s.group g).address = a && groupServes s g with
  | some g => some g
  | none => allGroups.find? fun g => (s.group g).address = a

/-- An unknown unicast destination, counted also for the one DISABLED port that holds the address (R72 step 5). -/
def unknownUnicast (a : Addr) (s : State) : State :=
  match allPorts.filter fun p => (s.port p).state = .disabled && (s.port p).cfg.station = a with
  | [p] => countDrop p .disabled (countUnknown s)
  | _ => countUnknown s

/-- Every downstream frame that R71 does not take is resolved in the order of R72 and handed on. -/
def resolveDown (cell : Option CellNo) (bytes : List Byte) (s : State) : State :=
  let a := frameDest bytes
  if a = broadcast then flood cell bytes s
  else if !isGroupAddr a then
    match portWithStation? s a with
    | none => unknownUnicast a s
    | some p =>
      let (k, s) := classify false (some p) bytes s
      match cell with
      | some c => deliverToPort p c bytes k s
      | none => noCellToPort p k s
  else
    match groupWithAddress? s a with
    | some g => deliverToGroup g cell bytes s
    | none => flood cell bytes s

/-- The request that a management frame becomes in the FIFO (R146). -/
def requestOf (bytes : List Byte) : Request :=
  { source := frameSource bytes, frameLength := bytes.length, body := bytes.drop 14 }

/-- MGA takes or drops a management frame for the part (R146). -/
def takeRequest (bytes : List Byte) (s : State) : State :=
  let m := s.mga
  let src := frameSource bytes
  let admitted := (m.managerA = 0 && m.managerB = 0) || (m.managerA ≠ 0 && src = m.managerA) ||
    (m.managerB ≠ 0 && src = m.managerB)
  if !admitted then raise .accessDenied Detail.bare (s.modDevice fun c => { c with denied := bump c.denied })
  else if natAt bytes 15 1 ≠ 1 then countUnknown s
  else if frameDest bytes = broadcast && natAt bytes 18 1 ≠ 1 then countUnknown s
  else if Config.fifoDepth ≤ m.fifo.length then
    s.modDevice fun c => { c with fifoOverflows := bump c.fifoOverflows }
  else s.modMga fun m => { m with fifo := m.fifo ++ [requestOf bytes] }

/-- The dispatch of an uplink frame that has passed the length check (R71). -/
def dispatchDown (cell : Option CellNo) (bytes : List Byte) (s : State) : State :=
  let a := frameDest bytes
  if frameType bytes = Config.managementEtherType && (a = s.mga.factory || a = broadcast) then
    match cell with
    | some _ => takeRequest bytes s
    | none => s.modDevice fun c => { c with fifoOverflows := bump c.fifoOverflows }
  else if a = s.mga.factory then countUnknown s
  else resolveDown cell bytes s

/-! ### Upstream (R83 to R85) -/

/-- An upstream frame is readiness evidence, or camera-initiated activity, by the port's readiness mode (R20, R36). -/
def showsCamera (mode : ReadinessMode) (cls : FrameClass) : Bool :=
  cls = .readySign || (mode = .anyFrame && cls ≠ .probeAnswer)

/-- Step 1 of R84: evidence, confirmation, failure, probe answers and camera-initiated activity (Table 4-5). -/
def cameraShows (p : Port) (bytes : List Byte) (k : Classified) (s : State) : State :=
  let r := s.port p
  match r.state with
  | .waking | .resuming =>
    if awaitsEvidence r.op && showsCamera r.cfg.readiness k.cls then acceptEvidence p s else s
  | .pausing =>
    if r.op.kind = .pause && r.op.phase = .confirm then
      match r.cfg.confirmMode with
      | .ack => if k.cls = .standbyAck then enterPaused p s else s
      | .silence => if k.activity then pauseFailed p (s.modOp p fun op => { op with activitySeen := true }) else s
    else s
  | .paused =>
    if k.cls = .probeAnswer then judgeProbeAnswer p (k.seqOffset.bind (word16At? bytes)) s
    else if showsCamera r.cfg.readiness k.cls && !r.park then takeNeed .sense p s
    else s
  | _ => s

/-- FST forwards an upstream frame to the uplink (R85). -/
def forwardUp (p : Port) (cell : CellNo) (length : Nat) (s : State) : State :=
  if !s.uplink.linkUp then countDrop p .uplink s
  else if txFull s .uplink then countDrop p .txFull s
  else
    (appendTx .uplink { cell := cell, length := length, rewrite := none } s).modCounts p
      fun c => { c with forwardedUp := bump c.forwardedUp }

/-- An upstream frame that has passed the length check (R83, R84; R89 without a cell). Steps 2 to 4 follow the state
that the frame found. -/
def upstream (p : Port) (cell : Option CellNo) (bytes : List Byte) (s : State) : State :=
  if frameType bytes = Config.managementEtherType then
    s.modDevice fun c => { c with denied := bump c.denied }
  else
    match (s.port p).state with
    | .disabled => countDrop p .disabled s
    | .faulted => countDrop p .faulted s
    | st =>
      let (k, s) := classify true (some p) bytes s
      match cell with
      | none => countDrop p .noCell s
      | some c =>
        let s := cameraShows p bytes k s
        let s := if k.activity then restartIdle p s else s
        let s := if k.cls = .pollAnswer then considerLearning p st bytes k.keyOffset k.seqOffset s else s
        if k.cls = .probeAnswer then s else forwardUp p c bytes.length s

/-! ### Ends of reception (R70) -/

/-- A frame passes the check at the end of reception (R70). -/
def acceptable (bytes : List Byte) (goodCheck : Bool) : Bool :=
  goodCheck && Config.minFrame ≤ bytes.length && bytes.length ≤ Config.cellBytes

/-- The end of a reception at an ingress: the check of R70, with `drop` for a frame that fails it and `take` for one that
passes; the ingress reference is given up after the disposition (R88), also after the events that it raises and their
notices (the model's choice, log 57). With no reception in progress there is no frame to end (log 1). -/
def endReception (e : EtherPort) (bytes : List Byte) (goodCheck : Bool) (drop : State → State)
    (take : Option CellNo → State → State) (s : State) : State :=
  match s.receiving e with
  | .idle => s
  | .bufferOnly =>
    let s := s.setReceiving e .idle
    if acceptable bytes goodCheck then take none s else drop s
  | .intoCell c =>
    let s := storeCell c bytes (s.setReceiving e .idle)
    dropRef c (if acceptable bytes goodCheck then take (some c) s else drop s)

/-- A frame finishes arriving on the uplink (R70, R71). -/
def receiveUplink (bytes : List Byte) (goodCheck : Bool) (s : State) : State :=
  endReception .uplink bytes goodCheck (fun s => s.modDevice fun c => { c with lengthErrors := bump c.lengthErrors })
    (fun cell s => dispatchDown cell bytes s) s

/-- A frame finishes arriving on a camera port (R70, R84). -/
def receiveCamera (p : Port) (bytes : List Byte) (goodCheck : Bool) (s : State) : State :=
  endReception (.camera p) bytes goodCheck (countDrop p .length) (fun cell s => upstream p cell bytes s) s

/-- A reception starts (R70): the ingress takes the cell at the head of the free list, or its buffer alone. -/
def startReception (e : EtherPort) (s : State) : State :=
  match s.receiving e, s.free with
  | .idle, [] => s.setReceiving e .bufferOnly
  | .idle, c :: rest => addRef c (({ s with free := rest } : State).setReceiving e (.intoCell c))
  | _, _ => s

end Sys2Proof.Machine
end

