-- ==== Sys2Proof/Machine/Operands.lean ====
section
/-! DEFINITION. The operands of management requests: the header fields, operations, commands and tables (Tables 9-2,
9-5, 9-6), the checks that a request meets before it is performed (R148), and the payload forms of the table entries
(Table 9-4 and its NOTE, Table 9-10). -/

namespace Sys2Proof.Machine

/-! ### The header (Table 9-2; offsets count from frame byte 14) -/

/-- The version. -/
def Request.version (r : Request) : Nat := natAt r.body 0 1
/-- The tag. -/
def Request.tag (r : Request) : Nat := natAt r.body 2 2
/-- The operation code. -/
def Request.op (r : Request) : Nat := natAt r.body 4 1
/-- The table number. -/
def Request.table (r : Request) : Nat := natAt r.body 6 1
/-- The index. -/
def Request.index (r : Request) : Nat := natAt r.body 7 1
/-- The length field. -/
def Request.length (r : Request) : Nat := natAt r.body 8 2

/-- The payload, or none where the length field does not fit (R148 step 2). Bytes after it are padding. -/
def Request.payload? (r : Request) : Option (List Byte) :=
  if r.length ≤ Config.maxPayload && r.length + 10 ≤ r.body.length then some (bytesAt r.body 10 r.length) else none

/-- The payload of a request that has passed R148 step 2. -/
def Request.payload (r : Request) : List Byte := r.payload?.getD []

/-- The port that the index names (after R148 step 5). -/
def Request.port (r : Request) : Port := Fin.ofNat 16 r.index

/-- The group that the index names (after R148 step 5). -/
def Request.group (r : Request) : Group := Fin.ofNat 8 r.index

/-! ### Operations and commands (Table 9-5) -/

/-- The operations. -/
inductive Op where
  | identify | readEntry | writeEntry | patchField | portCommand | groupCommand | readEvents | setEventMask
  | readCounters | restart
  deriving DecidableEq, Repr

/-- Operation codes (Table 9-5). -/
def opOf : Nat → Option Op
  | 1 => some .identify | 2 => some .readEntry | 3 => some .writeEntry | 4 => some .patchField
  | 5 => some .portCommand | 6 => some .groupCommand | 7 => some .readEvents | 8 => some .setEventMask
  | 9 => some .readCounters | 10 => some .restart | _ => none

/-- The port commands. -/
inductive PortCommand where
  | enable | disable | park | unpark | pin | unpin | wake | pause | sleep | clear
  deriving DecidableEq, Repr

/-- Port command codes (Table 9-5 NOTE). -/
def portCommandOf : Nat → Option PortCommand
  | 1 => some .enable | 2 => some .disable | 3 => some .park | 4 => some .unpark | 5 => some .pin
  | 6 => some .unpin | 7 => some .wake | 8 => some .pause | 9 => some .sleep | 10 => some .clear | _ => none

/-- The group commands. -/
inductive GroupCommand where
  | arm | disarm | prepare | cancel
  deriving DecidableEq, Repr

/-- Group command codes (Table 9-5 NOTE). -/
def groupCommandOf : Nat → Option GroupCommand
  | 1 => some .arm | 2 => some .disarm | 3 => some .prepare | 4 => some .cancel | _ => none

/-- The row of the command table that performs a request. -/
inductive Row where
  | op (o : Op)
  | port (c : PortCommand)
  | group (c : GroupCommand)
  | unknown
  deriving DecidableEq, Repr

/-- The command code of a PORT_COMMAND or GROUP_COMMAND: the first payload byte. -/
def Request.command? (r : Request) : Option Nat := r.payload?.bind fun bs => bs.head?.map (·.toNat)

/-- A row performs a head request: the one of its operation, and for the port and group commands the one of its code.
A PORT_COMMAND or GROUP_COMMAND whose code names no command is answered by whichever of its rows comes (log 4). -/
def rowServes (row : Row) (r : Request) : Bool :=
  match row, opOf r.op with
  | .unknown, none => true
  | .port c, some .portCommand =>
    match r.command?.bind portCommandOf with
    | some c' => c = c'
    | none => true
  | .group c, some .groupCommand =>
    match r.command?.bind groupCommandOf with
    | some c' => c = c'
    | none => true
  | .op o, some o' => o = o' && o ≠ .portCommand && o ≠ .groupCommand
  | _, _ => false

/-! ### Tables (Table 9-6) -/

/-- The tables of Table 9-6. -/
inductive Table where
  | portConfig | template | rule | classAction | group | domain | device | portStatus | groupStatus | proxy
  deriving DecidableEq, Repr

/-- Table numbers. -/
def tableOf : Nat → Option Table
  | 1 => some .portConfig | 2 => some .template | 3 => some .rule | 4 => some .classAction | 5 => some .group
  | 6 => some .domain | 7 => some .device | 8 => some .portStatus | 9 => some .groupStatus | 10 => some .proxy
  | _ => none

/-- Entries of a table. -/
def Table.entries : Table → Nat
  | .portConfig => 16 | .template => 48 | .rule => 32 | .classAction => 9 | .group => 8 | .domain => 4
  | .device => 1 | .portStatus => 16 | .groupStatus => 8 | .proxy => 64

/-- A table that management writes and patches. -/
def Table.writable : Table → Bool
  | .portStatus | .groupStatus | .proxy => false
  | _ => true

/-- The sizes of a table's writable fields, in field order (Table 9-4 and its NOTE, Table 9-10). -/
def Table.fieldSizes : Table → List Nat
  | .portConfig => [6, 2, 2, 2, 1, 1, 1, 1, 2, 2, 2, 2, 2, 1, 2, 2, 2, 2, 1, 2]
  | .template => [1, 128, 1]
  | .rule => [1, 1, 2, 1, 1, 4, 4, 1, 1, 1]
  | .classAction => [1, 1]
  | .group => [6, 2, 1, 1, 2, 2, 2, 1]
  | .domain => [2]
  | .device => [6, 6, 6, 1, 1, 1]
  | .portStatus | .groupStatus | .proxy => []

/-- The write size of a table (Table 9-6). -/
def Table.writeSize (t : Table) : Nat := t.fieldSizes.sum

/-- The size of the field that PATCH_FIELD may name, or none: no such field, a read-only field, or the bytes of a
TEMPLATE (R153; log 14). -/
def Table.patchSize (t : Table) (n : Nat) : Option Nat :=
  if t = .template && n = 1 then none else t.fieldSizes[n]?

/-- The numbers carried by fields of the given sizes, in order. -/
def splitFields : List Nat → List Byte → List Nat
  | [], _ => []
  | k :: ks, bs => beNat (bs.take k) :: splitFields ks (bs.drop k)

/-- Fields of the given sizes, in order. -/
def joinFields (sizes values : List Nat) : List Byte := (sizes.zip values).flatMap fun x => natBE x.1 x.2

/-- A carried value lies in its field's encoding (R148 step 7): the enumerations and yes-or-no fields. -/
def Table.encodes (t : Table) (n v : Nat) : Bool :=
  match t, n with
  | .portConfig, 5 => v ≤ 1
  | .portConfig, 6 => v ≤ 2
  | .portConfig, 13 => v ≤ 1
  | .rule, 0 => v ≤ 1
  | .rule, 1 => v ≤ 2
  | .rule, 7 => v ≤ 8
  | .classAction, 0 => v ≤ 3
  | .classAction, 1 => v ≤ 1
  | .group, 2 => v ≤ 1
  | .group, 3 => v ≤ 1
  | .group, 7 => v ≤ 1
  | _, _ => true

/-- Every carried value of a whole entry lies in its encoding. -/
def Table.encodesAll (t : Table) (payload : List Byte) : Bool :=
  (splitFields t.fieldSizes payload).zipIdx.all fun x => t.encodes x.2 x.1

/-! ### The checks of R148 -/

/-- Step 4: the table of the three table operations. -/
def tableRefusal (o : Op) (r : Request) : Option Status :=
  match tableOf r.table with
  | none => some .badTable
  | some t => if !t.writable && o ≠ .readEntry then some .badTable else none

/-- Step 5: the index. -/
def indexRefusal (o : Op) (r : Request) : Option Status :=
  let limit := match o with
    | .readEntry | .writeEntry | .patchField => (tableOf r.table).elim 0 Table.entries
    | .portCommand => 16
    | .groupCommand => 8
    | .readCounters => 17
    | _ => 256
  if r.index < limit then none else some .badIndex

/-- Steps 6 and 7 of a PATCH_FIELD: the field number, the length, the encoding. -/
def patchRefusal (t : Table) (payload : List Byte) : Option Status :=
  match payload with
  | [] => some .length
  | n :: value =>
    match t.patchSize n.toNat with
    | none => some .range
    | some k =>
      if value.length ≠ k then some .length
      else if t.encodes n.toNat (beNat value) then none
      else some .range

/-- Step 6 of a GROUP_COMMAND: the command code, then the length that it calls for. -/
def groupCommandRefusal (payload : List Byte) : Option Status :=
  match payload with
  | [] => some .length
  | c :: rest =>
    match groupCommandOf c.toNat with
    | none => some .range
    | some .prepare => if rest.length = 4 then none else some .length
    | some _ => if rest.length = 0 then none else some .length

/-- Steps 6 and 7: the payload length and the encoding of its values. -/
def payloadRefusal (o : Op) (r : Request) (payload : List Byte) : Option Status :=
  match o with
  | .writeEntry =>
    match tableOf r.table with
    | none => some .badTable
    | some t =>
      if payload.length ≠ t.writeSize then some .length
      else if t.encodesAll payload then none
      else some .range
  | .patchField => (tableOf r.table).elim (some .badTable) fun t => patchRefusal t payload
  | .portCommand =>
    if payload.length ≠ 1 then some .length
    else if (portCommandOf (beNat payload)).isSome then none
    else some .range
  | .groupCommand => groupCommandRefusal payload
  | .setEventMask => if payload.length = 2 then none else some .length
  | .identify | .readEntry | .readEvents | .readCounters | .restart => if payload.length = 0 then none else some .length

/-- The status of the first check of R148 that a request fails, or none. -/
def requestRefusal (r : Request) : Option Status :=
  if r.version ≠ 1 then some .unknownOp
  else
    match r.payload? with
    | none => some .length
    | some payload =>
      match opOf r.op with
      | none => some .unknownOp
      | some o =>
        let table := match o with
          | .readEntry | .writeEntry | .patchField => tableRefusal o r
          | _ => none
        table <|> indexRefusal o r <|> payloadRefusal o r payload

/-! ### Enumerations as carried (Table 9-4 NOTE): the position in the list that gives them -/

/-- Port states in the order of Table 1-4. -/
def PortState.code : PortState → Nat
  | .disabled => 0 | .asleep => 1 | .waking => 2 | .ready => 3 | .pausing => 4 | .paused => 5 | .resuming => 6
  | .faulted => 7

/-- Classes in the order of Table 4-3. -/
def FrameClass.ofCode : Nat → FrameClass
  | 0 => .capture | 1 => .control | 2 => .liveview | 3 => .poll | 4 => .bulk | 5 => .pollAnswer
  | 6 => .standbyAck | 7 => .readySign | _ => .probeAnswer

/-- Directions DOWN, UP, BOTH. -/
def Direction.code : Direction → Nat
  | .down => 0 | .up => 1 | .both => 2

/-- The direction of a code. -/
def Direction.ofCode : Nat → Direction
  | 0 => .down | 1 => .up | _ => .both

/-- Not-ready actions HOLD_AND_WAKE, HOLD, ANSWER_OR_WAKE, DROP. -/
def Action.code : Action → Nat
  | .holdAndWake => 0 | .hold => 1 | .answerOrWake => 2 | .drop => 3

/-- The action of a code. -/
def Action.ofCode : Nat → Action
  | 0 => .holdAndWake | 1 => .hold | 2 => .answerOrWake | _ => .drop

/-- Readiness modes SIGN, ANY_FRAME. -/
def ReadinessMode.code : ReadinessMode → Nat
  | .sign => 0 | .anyFrame => 1

/-- Methods FRAME, LINE, POWER. -/
def Method.ofCode : Nat → Method
  | 0 => .frame | 1 => .line | _ => .power

/-- Confirm modes ACK, SILENCE. -/
def ConfirmMode.code : ConfirmMode → Nat
  | .ack => 0 | .silence => 1

/-- Policies PARTIAL, ABANDON. -/
def Policy.code : Policy → Nat
  | .partialSet => 0 | .abandon => 1

/-- Operation kinds (Table 9-8). -/
def OpKind.code : OpKind → Nat
  | .none => 0 | .cold => 1 | .resume => 2 | .pause => 3

/-- Statuses (Table 9-7). -/
def Status.code : Status → Nat
  | .ok => 0 | .unknownOp => 1 | .badTable => 2 | .badIndex => 3 | .range => 4 | .state => 5 | .poisoned => 6
  | .budgetInUse => 7 | .invalidConfig => 8 | .memberUnavailable => 9 | .parkedMember => 10 | .conflict => 11
  | .length => 12

/-! ### Entries field by field -/

/-- The fields of a PORT_CONFIG entry (Table 9-4). -/
def PortConfig.fields (c : PortConfig) : List Nat :=
  [c.station.toNat, c.standby, c.active, c.inrush, c.holdLimit, c.readiness.code, methodCode (some c.firstMethod),
   c.attempts, c.attemptWindow, c.spacing, c.coldWindow, c.offHold, c.pulseWidth, c.confirmMode.code,
   c.confirmWindow, c.idle, c.deepIdle, c.probeInterval, c.missLimit, c.ageLimit]

/-- Sets one field of a PORT_CONFIG entry to a carried value. -/
def PortConfig.setField (c : PortConfig) (n v : Nat) : PortConfig :=
  match n with
  | 0 => { c with station := BitVec.ofNat 48 v }
  | 1 => { c with standby := v }
  | 2 => { c with active := v }
  | 3 => { c with inrush := v }
  | 4 => { c with holdLimit := v }
  | 5 => { c with readiness := if v = 0 then .sign else .anyFrame }
  | 6 => { c with firstMethod := Method.ofCode v }
  | 7 => { c with attempts := v }
  | 8 => { c with attemptWindow := v }
  | 9 => { c with spacing := v }
  | 10 => { c with coldWindow := v }
  | 11 => { c with offHold := v }
  | 12 => { c with pulseWidth := v }
  | 13 => { c with confirmMode := if v = 0 then .ack else .silence }
  | 14 => { c with confirmWindow := v }
  | 15 => { c with idle := v }
  | 16 => { c with deepIdle := v }
  | 17 => { c with probeInterval := v }
  | 18 => { c with missLimit := v }
  | 19 => { c with ageLimit := v }
  | _ => c

/-- The fields of a TEMPLATE entry: the bytes beyond the length are carried as zero (R151; log 13). -/
def Template.fields (t : Template) : List Nat :=
  [t.length, beNat (padTo 128 ((t.bytes.take 128).take t.length)), t.seqOffset]

/-- Sets one field of a TEMPLATE entry to a carried value. -/
def Template.setField (t : Template) (n v : Nat) : Template :=
  match n with
  | 0 => { t with length := v }
  | 1 => { t with bytes := natBE 128 v }
  | 2 => { t with seqOffset := v }
  | _ => t

/-- The fields of a RULE entry (Table 4-1). -/
def Rule.fields (r : Rule) : List Nat :=
  [boolNat r.enabled, r.direction.code, r.scope.toNat, r.offset, r.length, r.mask.toNat, r.value.toNat,
   r.cls.index.val, offsetNat r.keyOffset, offsetNat r.seqOffset]

/-- Sets one field of a RULE entry to a carried value. -/
def Rule.setField (r : Rule) (n v : Nat) : Rule :=
  match n with
  | 0 => { r with enabled := v != 0 }
  | 1 => { r with direction := Direction.ofCode v }
  | 2 => { r with scope := BitVec.ofNat 16 v }
  | 3 => { r with offset := v }
  | 4 => { r with length := v }
  | 5 => { r with mask := BitVec.ofNat 32 v }
  | 6 => { r with value := BitVec.ofNat 32 v }
  | 7 => { r with cls := FrameClass.ofCode v }
  | 8 => { r with keyOffset := offsetOf v }
  | 9 => { r with seqOffset := offsetOf v }
  | _ => r

/-- The fields of a CLASS_ACTION entry (Table 4-3). -/
def ClassAction.fields (a : ClassAction) : List Nat := [a.action.code, boolNat a.activity]

/-- Sets one field of a CLASS_ACTION entry to a carried value. -/
def ClassAction.setField (a : ClassAction) (n v : Nat) : ClassAction :=
  match n with
  | 0 => { a with action := Action.ofCode v }
  | 1 => { a with activity := v != 0 }
  | _ => a

/-- The fields of a GROUP entry (Table 7-2). -/
def GroupConfig.fields (c : GroupConfig) : List Nat :=
  [c.address.toNat, c.members.toNat, c.policy.code, boolNat c.strict, c.window, c.margin, c.armHold,
   boolNat c.enabled]

/-- Sets one field of a GROUP entry to a carried value. -/
def GroupConfig.setField (c : GroupConfig) (n v : Nat) : GroupConfig :=
  match n with
  | 0 => { c with address := BitVec.ofNat 48 v }
  | 1 => { c with members := BitVec.ofNat 16 v }
  | 2 => { c with policy := if v = 0 then .partialSet else .abandon }
  | 3 => { c with strict := v != 0 }
  | 4 => { c with window := v }
  | 5 => { c with margin := v }
  | 6 => { c with armHold := v }
  | 7 => { c with enabled := v != 0 }
  | _ => c

/-- A whole entry from the values of its write form, field by field. -/
def setAll {α : Type} (setField : α → Nat → Nat → α) (start : α) (values : List Nat) : α :=
  values.zipIdx.foldl (fun e x => setField e x.2 x.1) start

/-- The PORT_CONFIG entry of a write form. -/
def PortConfig.ofPayload (bs : List Byte) : PortConfig :=
  setAll PortConfig.setField PortConfig.default (splitFields Table.portConfig.fieldSizes bs)

/-- The TEMPLATE entry of a write form; bytes beyond the length are no part of it and are stored as zero (log 13). -/
def Template.ofPayload (bs : List Byte) : Template :=
  let t := setAll Template.setField Template.absent (splitFields Table.template.fieldSizes bs)
  { t with bytes := padTo 128 (t.bytes.take t.length) }

/-- The RULE entry of a write form. -/
def Rule.ofPayload (bs : List Byte) : Rule :=
  setAll Rule.setField Rule.default (splitFields Table.rule.fieldSizes bs)

/-- The CLASS_ACTION entry of a write form. -/
def ClassAction.ofPayload (bs : List Byte) : ClassAction :=
  setAll ClassAction.setField { action := .drop, activity := false } (splitFields Table.classAction.fieldSizes bs)

/-- The GROUP entry of a write form. -/
def GroupConfig.ofPayload (bs : List Byte) : GroupConfig :=
  setAll GroupConfig.setField GroupConfig.default (splitFields Table.group.fieldSizes bs)

end Sys2Proof.Machine
end

