-- ==== Sys2Proof/Machine/Management.lean ====
section
/-! DEFINITION. How MGA performs a request: the response (R149), the performing of the head request (R147, R148), the
read forms (R150, R151, Tables 9-8 to 9-10, 10-2, 10-3) and the writes and patches of the tables (R152 to R154). -/

namespace Sys2Proof.Machine

/-! ### Responses and the head request -/

/-- The response to a request (R149). -/
def responseFrame (r : Request) (status : Status) (payload : List Byte) (factory : Addr) : List Byte :=
  managementFrame r.source factory 2 r.tag r.op status.code r.table r.index payload

/-- MGA builds the response and appends it to the uplink transmit queue, or counts it as lost (R149). -/
def respond (r : Request) (status : Status) (payload : List Byte) (s : State) : Placement × State :=
  match originate .uplink (responseFrame r status payload s.mga.factory) s with
  | (.placed c, s') => (.placed c, s')
  | (other, s') => (other, s'.modMga fun m => { m with responsesLost := bump m.responsesLost })

/-- What performing a request comes to: its status, the payload of its response, and the state. -/
abbrev Performed := Status × List Byte × State

/-- MGA may perform a request: the part runs and no RESTART waits (R158). -/
def mayPerform (s : State) : Bool := s.phase = .running && s.mga.restart.isNone

/-- The end of a request (R147, R149): its response is built and appended or lost, and it leaves the FIFO, of which `rest`
stays. -/
def finishRequest (r : Request) (rest : List Request) (status : Status) (payload : List Byte) (s : State) : State :=
  (respond r status payload s).2.modMga fun m => { m with fifo := rest }

/-- What performing a request comes to: the status of the first check that it fails, or else its effect (R148). -/
def performed (effect : Request → State → Performed) (r : Request) (s : State) : Performed :=
  match requestRefusal r with
  | some status => (status, [], s)
  | none => effect r s

/-- A row performs the head request (R147): it is checked (R148); its effect is made and all that follows from it is
done; then the request ends with its response. A row that does not perform the head request, or finds none, does nothing
(log 4). -/
def performHead (row : Row) (effect : Request → State → Performed) (s : State) : State :=
  if mayPerform s then
    match s.mga.fifo with
    | [] => s
    | r :: rest =>
      if rowServes row r then
        let (status, payload, s1) := performed effect r s
        finishRequest r rest status payload (settle s1)
      else s
  else s

/-- The head request, where a row performs it and it passes every check (R147, R148). -/
def headPassed (row : Row) (s : State) : Option Request :=
  s.mga.fifo.head?.filter fun r => mayPerform s && rowServes row r && (requestRefusal r).isNone

/-- As `performHead`, for a row of whose outcome a part comes after the response (R23, R24, R155): `later` makes it, from
the request, the state before it and the state after its response. -/
def performHeadThen (row : Row) (effect : Request → State → Performed) (later : Request → State → State → State)
    (s : State) : State :=
  let t := performHead row effect s
  match headPassed row s with
  | some r => later r s t
  | none => t

/-- A status with no payload. -/
def answer (status : Status) (s : State) : Performed := (status, [], s)

/-! ### Read forms -/

/-- A record that may be empty or an entry that may be absent: its first byte is then 0xFF and the others zero
(Table 9-8 NOTE). -/
def orAbsent {α : Type} (width : Nat) (form : α → List Byte) : Option α → List Byte
  | some x => form x
  | none => natBE 1 0xFF ++ List.replicate (width - 1) 0

/-- An estimate with its validity (Table 9-8 NOTE). -/
def estimateForm (e : Option Nat) : List Byte := natBE 1 (boolNat e.isSome) ++ natBE 2 (e.getD 0)

/-- PORT_STATUS (Table 9-8), 42 B. -/
def portStatusForm (s : State) (p : Port) : List Byte :=
  let r := s.port p
  natBE 1 r.state.code ++ natBE 1 (boolNat r.pin) ++ natBE 1 (boolNat r.park) ++
  natBE 1 (boolNat (deliverable s p)) ++ natBE 1 (boolNat r.releasing) ++ natBE 1 r.hold.length ++
  natBE 1 r.egress.queue.length ++ natBE 1 (boolNat r.linkUp) ++ natBE 1 (boolNat r.feed) ++
  natBE 1 (boolNat r.wakeLine) ++
  orAbsent 4 (fun f : FaultRecord =>
    natBE 1 f.code.code ++ natBE 1 f.stateAt.code ++ natBE 1 (methodCode f.method) ++ natBE 1 f.attempts) r.fault ++
  orAbsent 5 (fun w : LastWake =>
    natBE 1 w.cls.rank ++ natBE 1 (methodCode (some w.method)) ++ natBE 2 w.time ++ natBE 1 (boolNat w.updated))
    r.lastWake ++
  natBE 1 r.op.kind.code ++ natBE 1 (methodCode r.op.method) ++ natBE 1 r.op.started ++
  estimateForm r.est.resume ++ natBE 1 r.est.resumeSamples ++ estimateForm r.est.cold ++
  natBE 1 r.est.coldSamples ++
  orAbsent 5 (fun e : WakeEntry =>
    natBE 1 e.cls.rank ++ natBE 2 e.arrival ++ natBE 1 e.passes ++ natBE 1 (boolNat e.blocking)) (wakeEntry? s p) ++
  orAbsent 5 (fun e : ScheduleEntry => natBE 1 e.group.val ++ natBE 4 e.countdown) (scheduleEntry? s p) ++
  natBE 2 r.charge

/-- GROUP_STATUS (Table 9-9), 31 B. -/
def groupStatusForm (s : State) (g : Group) : List Byte :=
  let a := (s.group g).arm
  let x := (s.group g).slot
  natBE 1 (boolNat a.armed) ++ natBE 1 (boolNat a.intact) ++ natBE 4 a.hold ++ orAbsent 4 (natBE 4) a.target ++
  natBE 2 a.members.toNat ++ natBE 2 a.watched.toNat ++ natBE 1 (boolNat a.breakReported) ++
  natBE 1 (boolNat x.pending) ++ natBE 1 x.cell.val ++ natBE 2 x.window ++ natBE 2 x.members.toNat ++
  natBE 1 x.policy.code ++ natBE 1 (boolNat x.strict) ++ natBE 1 (boolNat x.activity) ++
  natBE 2 x.delivered.toNat ++ natBE 2 x.missed.toNat ++ natBE 2 x.unreachable.toNat ++ natBE 1 x.outcome.code

/-- DOMAIN (Table 9-10), 4 B. -/
def domainForm (s : State) (d : Domain) : List Byte := natBE 2 s.adm.limits[d] ++ natBE 2 s.adm.committed[d]

/-- DEVICE (Table 9-10), 36 B. -/
def deviceForm (s : State) : List Byte :=
  let m := s.mga
  addrBytes m.managerA ++ addrBytes m.managerB ++ addrBytes m.report ++ natBE 1 m.linkTimeout ++
  natBE 1 s.adm.passLimit ++ natBE 1 m.learnShift ++ addrBytes m.factory ++
  natBE 2 Config.managementEtherType ++ natBE 2 s.free.length ++ natBE 4 m.responsesLost ++ natBE 1 m.fifo.length

/-- PROXY of an occupied record (Table 6-2), 266 B. The zero bytes beyond the stored length are the model's choice (log
44). -/
def proxyForm (e : ProxyEntry) (age : Nat) : List Byte :=
  natBE 1 1 ++ natBE 2 e.key.toNat ++ natBE 2 e.length ++ padTo 256 (e.bytes.take e.length) ++
  natBE 1 (offsetNat e.seqOffset) ++ natBE 4 age

/-- The counters of a port (Table 10-2), 82 B. -/
def portCountersForm (r : PortRec) : List Byte :=
  let c := r.counts
  ([c.forwardedDown, c.forwardedUp, c.held, c.released, c.answered] ++ c.dropped.toList ++
    [c.learned, c.tooLong, c.lost, c.discarded]).flatMap (natBE 4) ++
  natBE 1 r.probe.mismatches ++
  (match r.probe.capture with
    | some (e, x) => natBE 1 1 ++ natBE 2 e.toNat ++ natBE 2 x.toNat
    | none => List.replicate 5 0)

/-- The device counters (Table 10-3), 24 B. -/
def deviceCountersForm (c : DeviceCounts) : List Byte :=
  [c.lengthErrors, c.unknownDest, c.denied, c.fifoOverflows, c.corrections, c.poisonings].flatMap (natBE 4)

/-- The identity that IDENTIFY returns (R150), 14 B. -/
def identityForm (factory : Addr) : List Byte :=
  natBE 2 Config.partNumber ++ natBE 1 1 ++ natBE 1 16 ++ natBE 1 4 ++ natBE 1 8 ++ addrBytes factory ++
  natBE 2 Config.managementEtherType

/-! ### READ_ENTRY (R151) -/

/-- The owner's effect of a PORT_CONFIG entry found poisoned: an enabled port is faulted with code TABLE (R9). -/
def portConfigPoisoned (p : Port) (s : State) : State :=
  if (s.port p).enabled then enterFaulted p .table s else s

/-- A read of PORT_CONFIG by a reader other than PCT, with the owner's effect (R9, R141). -/
def readPortConfigWithEffect (p : Port) (s : State) : Option PortConfig × State :=
  match readPortConfig p s with
  | (none, s') => (none, portConfigPoisoned p s')
  | (some c, s') => (some c, s')

/-- The answer to a read of a TBM entry: its form, or POISONED with an empty payload (R151). -/
def answerRead {α : Type} (form : α → List Byte) : Option α × State → Performed
  | (some e, s) => (.ok, form e, s)
  | (none, s) => (.poisoned, [], s)

/-- READ_ENTRY of a PROXY record: a free one makes no read and is all zero; one found poisoned is discarded (R151). -/
def readProxyEntry (i : Fin 64) (s : State) : Performed :=
  let c := (s.port (proxyPort i)).proxies[proxySlot i]
  if c.occupied then answerRead (fun e => proxyForm e c.age) (readProxy i s)
  else (.ok, List.replicate 266 0, s)

/-- READ_ENTRY (R151). One that poisons a PROBE template leaves probing as it is (the model's choice, log 59). -/
def performReadEntry (r : Request) (s : State) : Performed :=
  match tableOf r.table with
  | none => answer .badTable s
  | some .portConfig =>
    answerRead (fun c => joinFields Table.portConfig.fieldSizes c.fields) (readPortConfigWithEffect r.port s)
  | some .template =>
    answerRead (fun t => joinFields Table.template.fieldSizes t.fields) (readTemplate (Fin.ofNat 48 r.index) s)
  | some .rule => answerRead (fun e => joinFields Table.rule.fieldSizes e.fields) (readRule (Fin.ofNat 32 r.index) s)
  | some .classAction =>
    answerRead (fun e => joinFields Table.classAction.fieldSizes e.fields) (readClassAction (Fin.ofNat 9 r.index) s)
  | some .group => answerRead (fun c => joinFields Table.group.fieldSizes c.fields) (readGroup r.group s)
  | some .domain => (.ok, domainForm s (Fin.ofNat 4 r.index), s)
  | some .device => (.ok, deviceForm s, s)
  | some .portStatus => (.ok, portStatusForm s r.port, s)
  | some .groupStatus => (.ok, groupStatusForm s r.group, s)
  | some .proxy => readProxyEntry (Fin.ofNat 64 r.index) s

/-! ### PORT_CONFIG writes (R2, R3) -/

/-- `v` lies outside lo–hi. -/
def outside (lo hi v : Nat) : Bool := v < lo || hi < v

/-- The refusal of one written field of a PORT_CONFIG entry, as the entry would stand (R2, R3). -/
def PortConfig.fieldRefusal (c : PortConfig) (n : Nat) : Option Status :=
  let bad := match n with
    | 1 | 2 | 3 =>
      1000 < c.standby || 1000 < c.active || 1000 < c.inrush || c.active < c.standby || c.inrush < c.active
    | 4 => outside 1 32 c.holdLimit
    | 7 => outside 1 8 c.attempts
    | 8 => outside 50 65535 c.attemptWindow
    | 9 => outside 0 10000 c.spacing
    | 10 => outside 500 65535 c.coldWindow
    | 11 => outside 100 5000 c.offHold
    | 12 => outside 10 2559 c.pulseWidth
    | 14 => outside 50 10000 c.confirmWindow
    | 18 => outside 1 15 c.missLimit
    | _ => false
  if bad then some .range else none

/-- The entry as stored: the pulse width rounded down to a multiple of 10 ms (R2), and the tuning fields clamped (R3). -/
def PortConfig.clamped (c : PortConfig) : PortConfig :=
  { c with
    pulseWidth := c.pulseWidth / 10 * 10
    idle := min c.idle 3600
    probeInterval := if c.probeInterval = 0 then 0 else max 250 (min c.probeInterval 10000)
    ageLimit := min c.ageLimit 600 }

/-- Fields 0–14 are fixed fields (Table 9-4 NOTE). -/
def isFixedField (n : Nat) : Bool := n < 15

/-- Probing that runs for a PAUSED port after a write of its probe interval or PROBE template (R45): the countdown is
loaded with the interval; an outstanding probe stays so. Running probing goes on also where the template has become
absent, until the next expiry (log 39). -/
def reloadProbing (p : Port) (s : State) : State :=
  if (s.port p).state = .paused && (s.port p).cfg.probeInterval != 0 &&
      ((s.port p).probe.running || templatePresent s p .probe) then
    s.modPort p fun r => { r with probe := { r.probe with running := true, countdown := r.cfg.probeInterval } }
  else s

/-- The effect of a taken write of one field, from the copy of the entry as stored (R2, R3, R45). -/
def portConfigFieldEffect (p : Port) (s : State) (n : Nat) : State :=
  let r := s.port p
  match n with
  | 15 => restartIdle p s
  | 16 => if r.state = .paused then s.modPort p fun r => { r with deepIdle := 0 } else s
  | 17 =>
    if r.cfg.probeInterval = 0 then
      (stopProbing p s).modProbe p fun x => { x with mismatches := 0, capture := none }
    else reloadProbing p s
  | 19 => if r.cfg.ageLimit = 0 then clearProxies p s else s
  | _ => s

/-- A write of fields of a PORT_CONFIG entry (R2, R3, R152): refused with STATE where it names a fixed field of a port
that is not DISABLED; then by the first field refused; else stored, with its effects. -/
def writePortFields (p : Port) (written : List Nat) (c : PortConfig) (s : State) : Status × State :=
  if written.any isFixedField && (s.port p).state ≠ .disabled then (.state, s)
  else
    match written.findSome? c.fieldRefusal with
    | some status => (status, s)
    | none =>
      let c := c.clamped
      let s := (writePortConfig p c s).modPort p fun r =>
        { r with cfg := c, est := if written.any isFixedField then Estimates.invalid else r.est }
      (.ok, written.foldl (portConfigFieldEffect p) s)

/-! ### TEMPLATE, RULE, CLASS_ACTION and GROUP writes -/

/-- The port of a TEMPLATE entry (R28). -/
def templatePort (i : Fin 48) : Port := ⟨i.val / 3, by omega⟩

/-- A TEMPLATE entry is refused with RANGE (R28): its length, its offset, or a PROBE offset beyond the frame it would
produce. -/
def templateRefused (i : Fin 48) (t : Template) : Bool :=
  128 < t.length || 126 < t.seqOffset || (i.val % 3 = 2 && max t.length Config.minFrame < t.seqOffset + 2)

/-- A write of a TEMPLATE entry as it would stand (R28); a taken write of a present PROBE template may start probing
(R45). -/
def writeTemplateEntry (i : Fin 48) (t : Template) (s : State) : Status × State :=
  if templateRefused i t then (.range, s)
  else
    let s := writeTemplate i t s
    (.ok,
      if i.val % 3 = 2 && t.length != 0 && !(s.port (templatePort i)).probe.running then
        reloadProbing (templatePort i) s
      else s)

/-- The legal pairs of class and direction (Table 4-2). -/
def legalDirection (c : FrameClass) (d : Direction) : Bool :=
  match c with
  | .capture | .control | .liveview | .poll => d = .down
  | .bulk => true
  | .pollAnswer | .standbyAck | .readySign | .probeAnswer => d = .up

/-- A RULE entry is refused with RANGE (R73). -/
def ruleRefused (r : Rule) : Bool :=
  255 < r.offset || outside 1 4 r.length || 2 ^ (8 * r.length) ≤ r.mask.toNat ||
    (r.keyOffset.any fun o => 254 < o) || (r.seqOffset.any fun o => 254 < o) || !legalDirection r.cls r.direction

/-- A write of a RULE entry as it would stand (R73). -/
def writeRuleEntry (i : Fin 32) (r : Rule) (s : State) : Status × State :=
  if ruleRefused r then (.range, s) else (.ok, writeRule i r s)

/-- A write of a CLASS_ACTION entry as it would stand (R76). -/
def writeClassActionEntry (i : Fin 9) (a : ClassAction) (s : State) : Status × State :=
  if a.action = .answerOrWake && i ≠ FrameClass.poll.index then (.range, s) else (.ok, writeClassAction i a s)

/-- The address of a group that a write leaves enabled is refused with INVALID_CONFIG (R117). -/
def groupAddressRefused (g : Group) (c : GroupConfig) (s : State) : Bool :=
  c.enabled &&
    (!isGroupAddr c.address || c.address = broadcast ||
      allGroups.any fun h => h ≠ g && groupServes s h && s.tbm.group[h].val.address = c.address)

/-- The refusal of one written field of a GROUP entry by its range (R116). -/
def GroupConfig.fieldRefusal (c : GroupConfig) (n : Nat) : Option Status :=
  let bad := match n with
    | 4 => outside 100 60000 c.window
    | 5 => outside 0 5000 c.margin
    | 6 => outside 1 600 c.armHold
    | _ => false
  if bad then some .range else none

/-- The member set of an armed group is written (R116): intactness breaks, and the arm members become the new set, with
the idle timers of ports that join held and of ports that leave restarted. -/
def rewriteMembers (g : Group) (members : PortSet) (s : State) : State :=
  if (s.group g).arm.armed then
    let old := (s.group g).arm.members
    let s := (breakArm g 0 s).modArm g fun a => { a with members := members, watched := 0 }
    (portList (old ||| members)).foldl (fun s p => restartIdle p s) s
  else s

/-- A write of fields of a GROUP entry as it would stand (R116, R117; log 15 for the order of the refusals and of the
effects). -/
def writeGroupFields (g : Group) (written : List Nat) (c : GroupConfig) (s : State) : Status × State :=
  if (s.group g).slot.pending then (.state, s)
  else if groupAddressRefused g c s then (.invalidConfig, s)
  else
    match written.findSome? c.fieldRefusal with
    | some status => (status, s)
    | none =>
      let s := (writeGroup g c s).modGroup g fun r => { r with address := c.address }
      let s := if written.contains 1 then rewriteMembers g c.members s else s
      (.ok, if written.contains 7 && !c.enabled then clearArm g s else s)

/-! ### DOMAIN and DEVICE writes (R52, R154) -/

/-- A write of a domain limit (R52). -/
def writeLimit (d : Domain) (limit : Nat) (s : State) : Status × State :=
  if Config.maxLimit < limit then (.range, s)
  else if limit < s.adm.committed[d] then (.budgetInUse, s)
  else (.ok, applyLimit d limit s)

/-- The refusal of one written DEVICE field (R154). -/
def deviceFieldRefusal (n v : Nat) : Option Status :=
  let bad := match n with
    | 3 => outside 1 4 v
    | 4 => outside 0 15 v
    | 5 => outside 1 4 v
    | _ => false
  if bad then some .range else none

/-- Stores one DEVICE field (R154). -/
def setDeviceField (s : State) (n v : Nat) : State :=
  match n with
  | 0 => s.modMga fun m => { m with managerA := BitVec.ofNat 48 v }
  | 1 => s.modMga fun m => { m with managerB := BitVec.ofNat 48 v }
  | 2 => s.modMga fun m => { m with report := BitVec.ofNat 48 v }
  | 3 => s.modMga fun m => { m with linkTimeout := v }
  | 4 => applyPassLimit v s
  | 5 => s.modMga fun m => { m with learnShift := v }
  | _ => s

/-- A write of DEVICE fields, each a field number and a value (R152, R154). -/
def writeDevice (fields : List (Nat × Nat)) (s : State) : Status × State :=
  match fields.findSome? fun x => deviceFieldRefusal x.1 x.2 with
  | some status => (status, s)
  | none => (.ok, fields.foldl (fun s x => setDeviceField s x.1 x.2) s)

/-! ### WRITE_ENTRY and PATCH_FIELD (R152, R153, R143) -/

/-- A status and a state as the outcome of a request with no payload in its response. -/
def answered (x : Status × State) : Performed := (x.1, [], x.2)

/-- WRITE_ENTRY (R152). -/
def performWriteEntry (r : Request) (s : State) : Performed :=
  let bs := r.payload
  match tableOf r.table with
  | some .portConfig => answered (writePortFields r.port (List.range 20) (PortConfig.ofPayload bs) s)
  | some .template => answered (writeTemplateEntry (Fin.ofNat 48 r.index) (Template.ofPayload bs) s)
  | some .rule => answered (writeRuleEntry (Fin.ofNat 32 r.index) (Rule.ofPayload bs) s)
  | some .classAction => answered (writeClassActionEntry (Fin.ofNat 9 r.index) (ClassAction.ofPayload bs) s)
  | some .group => answered (writeGroupFields r.group (List.range 8) (GroupConfig.ofPayload bs) s)
  | some .domain => answered (writeLimit (Fin.ofNat 4 r.index) (beNat bs) s)
  | some .device =>
    answered (writeDevice ((splitFields Table.device.fieldSizes bs).zipIdx.map fun x => (x.2, x.1)) s)
  | _ => answer .badTable s

/-- A patch of a TBM entry (R143): POISONED where the read hands nothing over; else the write of the entry with the one
field changed. -/
def patchRead {α : Type} (write : α → State → Status × State) : Option α × State → Performed
  | (none, s) => answer .poisoned s
  | (some e, s) => answered (write e s)

/-- PATCH_FIELD (R143, R153). A read that poisons a PROBE template leaves probing as it is (the model's choice, log 59). -/
def performPatchField (r : Request) (s : State) : Performed :=
  let n := natAt r.payload 0 1
  let v := beNat (r.payload.drop 1)
  match tableOf r.table with
  | some .portConfig =>
    patchRead (fun c => writePortFields r.port [n] (c.setField n v)) (readPortConfigWithEffect r.port s)
  | some .template =>
    let i := Fin.ofNat 48 r.index
    patchRead (fun t => writeTemplateEntry i (t.setField n v)) (readTemplate i s)
  | some .rule =>
    let i := Fin.ofNat 32 r.index
    patchRead (fun e => writeRuleEntry i (e.setField n v)) (readRule i s)
  | some .classAction =>
    let i := Fin.ofNat 9 r.index
    patchRead (fun a => writeClassActionEntry i (a.setField n v)) (readClassAction i s)
  | some .group =>
    patchRead (fun c => writeGroupFields r.group [n] (c.setField n v)) (readGroup r.group s)
  | some .domain => answered (writeLimit (Fin.ofNat 4 r.index) v s)
  | some .device => answered (writeDevice [(n, v)] s)
  | _ => answer .badTable s

end Sys2Proof.Machine
end

