-- ==== Sys2Proof/Machine/PortCommands.lean ====
section
/-! DEFINITION. The meanings of the port commands (R5, R6, R10, R21 to R25, R155, Table 1-6). Each performs the request
at the head of the FIFO by `performHead`, with the effect that its own definition gives. -/

namespace Sys2Proof.Machine

/-- A PORT_COMMAND row performs the head request with an effect on the port that the request names (R155). -/
def performPort (c : PortCommand) (effect : Port → State → Status × State) (s : State) : State :=
  performHead (.port c) (fun r s => answered (effect r.port s)) s

/-- As `performPort`, for a command of whose outcome a part comes after the response (R155). -/
def performPortThen (c : PortCommand) (effect : Port → State → Status × State) (later : Port → State → State → State)
    (s : State) : State :=
  performHeadThen (.port c) (fun r s => answered (effect r.port s)) (fun r => later r.port) s

/-- PCT takes a configuration entry as read: the copy that the blocks work from, and ADM's copies of the draws (R9). -/
def takeConfig (p : Port) (cfg : PortConfig) (s : State) : State :=
  s.modPort p fun r =>
    { r with cfg := cfg, draws := { standby := cfg.standby, active := cfg.active, inrush := cfg.inrush } }

/-- The station address of a port to be enabled cannot serve (R5). -/
def stationRefused (p : Port) (a : Addr) (s : State) : Bool :=
  a = 0 || isGroupAddr a || (allPorts.any fun q => q ≠ p && (s.port q).station = some a) ||
    (allGroups.any fun g => groupServes s g && s.tbm.group[g].val.address = a) || a = s.mga.factory

/-- ENABLE (R5). -/
def enablePort (p : Port) (s : State) : Status × State :=
  if (s.port p).state ≠ .disabled then (.state, s)
  else
    match readPortConfig p s with
    | (none, s) => (.invalidConfig, s)
    | (some cfg, s) =>
      if stationRefused p cfg.station s then (.invalidConfig, s)
      else
        (.ok, enterAsleep p ((takeConfig p cfg s).modPort p fun r => { r with station := some cfg.station }))

/-- DISABLE (R6). -/
def disablePort (p : Port) (s : State) : Status × State :=
  if (s.port p).state = .disabled then (.ok, s) else (.ok, enterDisabled p s)

/-- PARK (R22); a reachable member of a pending trigger that rests becomes unreachable (R120),
from G0 to G7 (log 52). -/
def parkPort (p : Port) (s : State) : Status × State :=
  let r := s.port p
  if r.pin then (.conflict, s)
  else
    let s := s.modPort p fun r => { r with park := true }
    (.ok,
      if r.state = .paused || r.state = .asleep then
        allGroups.foldl (fun s g => if reachableMember s g p then markUnreachable g p s else s) s
      else s)

/-- UNPARK (R22): an entry that becomes eligible starts a scan (R56). -/
def unparkPort (p : Port) (s : State) : Status × State :=
  if (s.port p).park then
    let s := s.modPort p fun r => { r with park := false }
    (.ok, if eligible s p && (wakeEntry? s p).isSome then scan s else s)
  else (.ok, s)

/-- PIN (R21). -/
def pinPort (p : Port) (s : State) : Status × State :=
  let r := s.port p
  if r.park then (.conflict, s)
  else if r.pin then (.ok, s)
  else (.ok, restartIdle p (s.modPort p fun r => { r with pin := true }))

/-- UNPIN (R21). -/
def unpinPort (p : Port) (s : State) : Status × State :=
  if (s.port p).pin then (.ok, restartIdle p (s.modPort p fun r => { r with pin := false })) else (.ok, s)

/-- The need of a WAKE makes a new entry, which ADM's check at its creation finds never admissible (R23, R58). -/
def wakeOverBudget (p : Port) (s : State) : Bool := eligible s p && (wakeEntry? s p).isNone && neverAdmissible s p

/-- WAKE, up to its response (R23, Table 1-6). A need that faults the port with BUDGET is taken after it. -/
def wakePort (p : Port) (s : State) : Status × State :=
  let r := s.port p
  match r.state with
  | .disabled | .faulted => (.state, s)
  | .waking | .ready | .resuming => (.ok, s)
  | .pausing => (.ok, takeNeed .traffic p s)
  | .asleep | .paused =>
    if r.park then (.conflict, s) else (.ok, if wakeOverBudget p s then s else takeNeed .traffic p s)

/-- What follows the response to WAKE: the need that faults the port with BUDGET (R23, R155; log 37). -/
def afterWake (p : Port) (before after : State) : State :=
  if wakeOverBudget p before then settle (takeNeed .traffic p after) else after

/-- PAUSE, up to its response, which is sent when the port has entered PAUSING (R24; log 16 for a configuration entry
found poisoned at the entry, log 38 for the frame, which is tried before the response). -/
def pausePort (p : Port) (s : State) : Status × State :=
  if (s.port p).state ≠ .ready then (.state, s)
  else
    match tryPause p s with
    | (.started, s') | (.frameLost, s') => (.ok, s')
    | (.templateAbsent, s') | (.configPoisoned, s') => (.invalidConfig, s')

/-- The PAUSE frame of a PAUSE cannot be placed (R39). -/
def pauseLost (p : Port) (s : State) : Bool := (s.port p).state = .ready && (tryPause p s).1 = .frameLost

/-- What follows the response to PAUSE: the failure of a pause whose frame could not be placed (R24, R39, R155). -/
def afterPause (p : Port) (before after : State) : State :=
  if pauseLost p before then settle (pauseFailed p after) else after

/-- SLEEP (R25). -/
def sleepPort (p : Port) (s : State) : Status × State :=
  let st := (s.port p).state
  if st = .ready || st = .paused then (.ok, enterAsleep p s) else (.state, s)

/-- CLEAR (R10). -/
def clearPort (p : Port) (s : State) : Status × State :=
  if (s.port p).state ≠ .faulted then (.state, s)
  else
    match readPortConfig p s with
    | (none, s) => (.poisoned, s)
    | (some cfg, s) => (.ok, enterAsleep p (takeConfig p cfg s))

/-! ### The meanings -/

/-- ENABLE. -/
def execEnable (s : State) : Host.Outcome State Fault Refusal := .next (performPort .enable enablePort s)

/-- DISABLE. -/
def execDisable (s : State) : Host.Outcome State Fault Refusal := .next (performPort .disable disablePort s)

/-- PARK. -/
def execPark (s : State) : Host.Outcome State Fault Refusal := .next (performPort .park parkPort s)

/-- UNPARK. -/
def execUnpark (s : State) : Host.Outcome State Fault Refusal := .next (performPort .unpark unparkPort s)

/-- PIN. -/
def execPin (s : State) : Host.Outcome State Fault Refusal := .next (performPort .pin pinPort s)

/-- UNPIN. -/
def execUnpin (s : State) : Host.Outcome State Fault Refusal := .next (performPort .unpin unpinPort s)

/-- WAKE. -/
def execWake (s : State) : Host.Outcome State Fault Refusal :=
  .next (performPortThen .wake wakePort afterWake s)

/-- PAUSE. -/
def execPause (s : State) : Host.Outcome State Fault Refusal :=
  .next (performPortThen .pause pausePort afterPause s)

/-- SLEEP. -/
def execSleep (s : State) : Host.Outcome State Fault Refusal := .next (performPort .sleep sleepPort s)

/-- CLEAR. -/
def execClear (s : State) : Host.Outcome State Fault Refusal := .next (performPort .clear clearPort s)

end Sys2Proof.Machine
end

