-- ==== Sys2Proof/Machine/GroupCommands.lean ====
section
/-! DEFINITION. The meanings of the group commands (R127, R128, R132, R134, R156). -/

namespace Sys2Proof.Machine

/-- A GROUP_COMMAND row performs the head request with an effect on the group that the request names (R156). -/
def performGroup (c : GroupCommand) (effect : Group → Request → State → Performed) (s : State) : State :=
  performHead (.group c) (fun r s => effect r.group r s) s

/-- ARM and PREPARE read the group's entry and make the checks of R128; where they pass, the group is armed with the
entry. -/
def checkedArm (g : Group) (take : GroupConfig → State → State) (s : State) : Performed :=
  match readGroup g s with
  | (none, s) => answer .state s
  | (some c, s) =>
    match armRefusal c s with
    | some status => answer status s
    | none => answer .ok (take c s)

/-- A taken ARM: the group is armed, and the members that rest or pause get RENDEZVOUS needs (R128). -/
def armAndWake (g : Group) (c : GroupConfig) (s : State) : State :=
  rendezvousNeeds ((portList c.members).filter (needsWake s)) (armGroup g c s)

/-- ARM (R128). -/
def performArm (g : Group) (s : State) : Performed := checkedArm g (armAndWake g) s

/-- DISARM (R132). -/
def performDisarm (g : Group) (s : State) : Performed := answer .ok (clearArm g s)

/-- The lead of a PREPARE, after the command code (R156). -/
def Request.lead (r : Request) : Nat := natAt r.payload 1 4

/-- PREPARE (R134; log 23 for the order of the checks). -/
def performPrepare (g : Group) (lead : Nat) (s : State) : Performed :=
  if Config.maxLeadMs < lead then answer .range s
  else checkedArm g (fun c => prepareGroup g c lead) s

/-- CANCEL (R127). -/
def performCancel (g : Group) (s : State) : Performed :=
  if (s.group g).slot.pending then
    let s := dropTrigger g .cancelled s
    (.ok, natBE 2 (s.group g).slot.missed.toNat, s)
  else answer .state s

/-! ### The meanings -/

/-- ARM. -/
def execArm (s : State) : Host.Outcome State Fault Refusal :=
  .next (performGroup .arm (fun g _ s => performArm g s) s)

/-- DISARM. -/
def execDisarm (s : State) : Host.Outcome State Fault Refusal :=
  .next (performGroup .disarm (fun g _ s => performDisarm g s) s)

/-- PREPARE. -/
def execPrepare (s : State) : Host.Outcome State Fault Refusal :=
  .next (performGroup .prepare (fun g r s => performPrepare g r.lead s) s)

/-- CANCEL. -/
def execCancel (s : State) : Host.Outcome State Fault Refusal :=
  .next (performGroup .cancel (fun g _ s => performCancel g s) s)

end Sys2Proof.Machine
end

