-- ==== Sys2Proof/Machine/TableCommands.lean ====
section
/-! DEFINITION. The meanings of the other management rows: IDENTIFY, the table operations, the event and counter
operations, RESTART, and a request whose operation code names nothing (R148, R150 to R153, R157, R158, R161, R163,
R165). -/

namespace Sys2Proof.Machine

/-- READ_EVENTS (R163): the payload is built, and its events are cleared with the notice-outstanding flag. -/
def performReadEvents (s : State) : Performed := (.ok, eventsPayload s, clearReported s)

/-- SET_EVENT_MASK (R161). -/
def performSetMask (r : Request) (s : State) : Performed :=
  answer .ok (setMasks (BitVec.ofNat 16 (natAt r.payload 0 2)) s)

/-- READ_COUNTERS (R165): the 4 B counts are returned and set to 0; the probe mismatch counter and its capture are
kept. -/
def performReadCounters (r : Request) (s : State) : Performed :=
  if r.index = 16 then
    (.ok, deviceCountersForm s.evu.counts, s.modDevice fun _ => DeviceCounts.zero)
  else (.ok, portCountersForm (s.port r.port), s.modCounts r.port fun _ => Counts.zero)

/-- The wait that follows the response of a RESTART (R158): until the response has left, or 1000 ms; a lost response
waits for nothing (log 27). -/
def restartWait : Placement → RestartWait
  | .placed c => { countdown := Config.restartWaitMs, cell := some c }
  | .noCell | .queueFull => { countdown := 0, cell := none }

/-- RESTART (R158, steps 1 and 2): its response is appended, the request leaves the FIFO, and the wait begins. A refused
RESTART waits for nothing. -/
def performRestart (s : State) : State :=
  if mayPerform s then
    match s.mga.fifo with
    | [] => s
    | r :: rest =>
      if rowServes (.op .restart) r then
        match requestRefusal r with
        | some status => finishRequest r rest status [] s
        | none =>
          let (placed, s) := respond r .ok [] s
          s.modMga fun m => { m with fifo := rest, restart := some (restartWait placed) }
      else s
  else s

/-! ### The meanings -/

/-- IDENTIFY (R150). -/
def execIdentify (s : State) : Host.Outcome State Fault Refusal :=
  .next (performHead (.op .identify) (fun _ s => (.ok, identityForm s.mga.factory, s)) s)

/-- READ_ENTRY (R151). -/
def execReadEntry (s : State) : Host.Outcome State Fault Refusal :=
  .next (performHead (.op .readEntry) performReadEntry s)

/-- WRITE_ENTRY (R152). -/
def execWriteEntry (s : State) : Host.Outcome State Fault Refusal :=
  .next (performHead (.op .writeEntry) performWriteEntry s)

/-- PATCH_FIELD (R143, R153). -/
def execPatchField (s : State) : Host.Outcome State Fault Refusal :=
  .next (performHead (.op .patchField) performPatchField s)

/-- READ_EVENTS (R163). -/
def execReadEvents (s : State) : Host.Outcome State Fault Refusal :=
  .next (performHead (.op .readEvents) (fun _ s => performReadEvents s) s)

/-- SET_EVENT_MASK (R161). -/
def execSetEventMask (s : State) : Host.Outcome State Fault Refusal :=
  .next (performHead (.op .setEventMask) performSetMask s)

/-- READ_COUNTERS (R165). -/
def execReadCounters (s : State) : Host.Outcome State Fault Refusal :=
  .next (performHead (.op .readCounters) performReadCounters s)

/-- RESTART (R158). -/
def execRestart (s : State) : Host.Outcome State Fault Refusal := .next (performRestart s)

/-- A request whose operation code is not in Table 9-5 is answered with UNKNOWN_OP or, where an earlier check fails, with
that check's status, and has no effect (R148). -/
def execUnknownOpRequest (s : State) : Host.Outcome State Fault Refusal :=
  .next (performHead .unknown (fun _ s => answer .unknownOp s) s)

end Sys2Proof.Machine
end

