-- ==== Sys2Proof/Machine/Resets.lean ====
section
/-! DEFINITION. The soft restart (R26, R50, R69, R86, R102, R114, R138, R145, R158, R159, R167) and the full reset
(R169). -/

namespace Sys2Proof.Machine

/-! ### Soft restart -/

/-- The state that the soft restart leaves a port in (R26). -/
def restartState (r : PortRec) : PortState :=
  match r.state with
  | .pausing => .ready
  | .waking | .resuming => if r.feed then .paused else .asleep
  | st => st

/-- One port after the soft restart (R26, R50, R102, R114, R167): configuration, draws, flags, fault and last-wake
records, estimates, lines and links are kept. A PAUSED port begins probing as at entry into PAUSED. -/
def restartPort (s : State) (p : Port) : PortRec :=
  let r := s.port p
  let st := restartState r
  let probes := st = .paused && r.cfg.probeInterval != 0 && templatePresent s p .probe
  { r with
    state := st, charge := stateCharge r.draws st, idle := 0, deepIdle := 0, link := 0, senseFilter := none,
    wakeLine := false, op := { r.op with kind := .none, phase := .none, countdown := 0, pulse := none },
    probe := { ProbeRecord.reset with running := probes, countdown := if probes then r.cfg.probeInterval else 0 },
    hold := [], egress := Egress.empty, receiving := .idle, releasing := false, counts := Counts.zero,
    proxies := Vector.replicate 4 ProxyControl.free }

/-- One group after the soft restart (R138): the arm is cleared as by DISARM, and the slot is FREE with empty sets. -/
def restartGroup (r : GroupRec) : GroupRec :=
  { r with
    arm := { r.arm with armed := false, intact := false, hold := 0, target := none, members := 0, watched := 0 },
    slot := Slot.reset }

/-- Table memory after the soft restart (R145): the poison marks of PROXY are cleared, and a new scrub pass starts. -/
def restartTbm (t : Tbm) : Tbm :=
  { t with
    proxy := t.proxy.map fun e => { e with poison := false }, scrubPeriod := Config.scrubPeriodMs,
    scrubNext := some 0 }

/-- EVU after the soft restart (R167): the masks are kept. -/
def restartEvu (v : Evu) : Evu :=
  { events := v.events.map fun e => { pending := false, mask := e.mask, detail := none },
    noticeOutstanding := false, counts := DeviceCounts.zero }

/-- What the soft restart makes of every block but the committed charges (R158 step 3). The mark that UPLINK_DOWN has been
raised is cleared with the uplink link timer, so a loss that goes on raises it again (the model's choice, log 58). -/
def restartBlocks (s : State) : State :=
  { s with
    owed := []
    ports := Vector.ofFn (restartPort s)
    uplink := { Uplink.reset with linkUp := s.uplink.linkUp }
    cells := s.cells.map fun c => { c with refs := 0 }
    free := List.finRange 256
    tbm := restartTbm s.tbm
    adm := { s.adm with wakeQueue := [], arrivals := 0, schedule := [] }
    groups := s.groups.map restartGroup
    mga := { s.mga with fifo := [], responsesLost := 0, restart := none }
    evu := restartEvu s.evu }

/-- The soft restart of every block (R158 step 3): ADM recomputes the committed charges (R69). -/
def softRestart (s : State) : State :=
  let s := restartBlocks s
  s.modAdm fun a => { a with committed := Vector.ofFn (domainCharge s) }

/-- The restart that a RESTART waits for is due: its response has left or was lost, or the wait is over (R158). -/
def restartDue (s : State) : Bool :=
  s.phase = .running && s.mga.restart.any fun w => w.cell.isNone || w.countdown = 0

/-! ### Full reset -/

/-- A reception is abandoned and gives its cell up (R86, R169). -/
def abandonReception (e : EtherPort) (s : State) : State :=
  let s' := s.setReceiving e .idle
  match s.receiving e with
  | .intoCell c => dropRef c s'
  | .idle | .bufferOnly => s'

/-- A port at the assertion of RESET (R169): feed off, wake line low, the transmission cut, and every operation,
release and countdown ended. -/
def haltPort (p : Port) (s : State) : State :=
  abandonReception (.camera p) <|
    (endOperation p (feedOff p s)).modPort p fun r =>
      { r with
        senseFilter := none, releasing := false, probe := { r.probe with running := false, countdown := 0 } }

/-- A group at the assertion of RESET (R169): its arm and its rendezvous end without an event. -/
def haltGroup (g : Group) (s : State) : State :=
  let s := if (s.group g).slot.pending then dropRef (s.group g).slot.cell s else s
  s.modGroup g restartGroup

/-- RESET is asserted (R169; log 11 for what of the state stands until it is released). -/
def haltAll (s : State) : State :=
  let s := allGroups.foldl (fun s g => haltGroup g s) (allPorts.foldl (fun s p => haltPort p s) s)
  let s := (abandonReception .uplink s).modUplink fun u => { u with egress := { u.egress with sending := none } }
  let s := s.modAdm fun a => { a with schedule := [] }
  let s := s.modMga fun m => { m with restart := none }
  { s with phase := .inReset, owed := [] }

/-- A port at its full-reset values; its input lines keep their levels. -/
def freshPort (r : PortRec) : PortRec :=
  { PortRec.reset with senseIn := r.senseIn, feedFaultIn := r.feedFaultIn }

/-- RESET is released (R169): every block takes its full-reset values; TBM begins writing its tables. The levels of the
lines and of the uplink link come from outside, and the factory station address is the part's own. -/
def releaseReset (s : State) : State :=
  { State.reset with
    pending := s.pending
    phase := .initialising
    ports := s.ports.map freshPort
    uplink := { Uplink.reset with linkUp := s.uplink.linkUp }
    tbm := s.tbm
    mga := { Mga.reset with factory := s.mga.factory } }

/-- The table initialisation ends (R145, R169): every protected entry is written, and the part runs. -/
def endInitialisation (s : State) : State := { s with phase := .running, tbm := Tbm.reset }

/-! ### The meanings -/

/-- SOFT_RESTART: the restart that a RESTART waits for, when it is due. -/
def execSoftRestart (s : State) : Host.Outcome State Fault Refusal :=
  .next (if restartDue s then softRestart s else s)

/-- RESET_ASSERTED: taken in every phase; an assertion during the initialisation restarts the full reset. -/
def execResetAsserted (s : State) : Host.Outcome State Fault Refusal := .next (haltAll s)

/-- RESET_RELEASED. -/
def execResetReleased (s : State) : Host.Outcome State Fault Refusal :=
  .next (if s.phase = .inReset then releaseReset s else s)

/-- TABLE_INITIALISATION_END. -/
def execTableInitialisationEnd (s : State) : Host.Outcome State Fault Refusal :=
  .next (if s.phase = .initialising then endInitialisation s else s)

end Sys2Proof.Machine
end

