-- ==== Sys2Proof/Machine/FrameSteps.lean ====
section
/-! DEFINITION. The meanings of the frame events, of the transmissions (R93), and of the steps that FST, ADM and GRP
take by themselves (R96, R60, R122). -/

namespace Sys2Proof.Machine

/-- A command has its effect while the part runs, and what follows from it is done (log 2); in full reset and during
the table initialisation it has none (R169). -/
def whileRunning (effect : State → State) (s : State) : State :=
  if s.phase = .running then settle (effect s) else s

/-! ### Transmission (R93) -/

/-- The bytes that an egress sends for an entry: as the cell holds them, with the member's station address in bytes 0-5
where the entry has a rewrite. -/
def sentBytes (s : State) (e : TxEntry) : List Byte :=
  let bs := (s.cell e.cell).data.take e.length
  match e.rewrite with
  | none => bs
  | some p => overlay bs 0 (addrBytes (s.port p).cfg.station)

/-- An egress can begin to send: its link is up, it sends nothing, and its queue has a head. -/
def canTransmit (s : State) (e : EtherPort) : Bool :=
  s.linkIsUp e && (s.egress e).sending.isNone && !(s.egress e).queue.isEmpty

/-- An egress takes its head entry and begins to send it (R93). -/
def startTransmission (e : EtherPort) (s : State) : State :=
  match (s.egress e).queue with
  | [] => s
  | x :: _ => if canTransmit s e then s.modEgress e fun g => { g with sending := some (sentBytes s x) } else s

/-- MGA hears that the response of a RESTART has left (R158 step 2). -/
def noteResponseSent (c : CellNo) (s : State) : State :=
  s.modMga fun m =>
    { m with restart := m.restart.map fun w => if w.cell = some c then { w with cell := none } else w }

/-- The last byte of a frame leaves: its entry is removed and its cell gives up one reference (R93, R88). -/
def endTransmission (e : EtherPort) (s : State) : State :=
  match (s.egress e).sending, (s.egress e).queue with
  | some _, x :: rest =>
    let s := dropRef x.cell (s.modEgress e fun _ => { queue := rest, sending := none })
    if e = .uplink then noteResponseSent x.cell s else s
  | _, _ => s

/-! ### The meanings -/

/-- RECEPTION_START (R70). -/
def execReceptionStart (e : EtherPort) (s : State) : Host.Outcome State Fault Refusal :=
  .next (whileRunning (startReception e) s)

/-- UPLINK_FRAME_RECEIVED (R70, R71). -/
def execUplinkFrameReceived (bytes : List Byte) (goodCheck : Bool) (s : State) : Host.Outcome State Fault Refusal :=
  .next (whileRunning (receiveUplink bytes goodCheck) s)

/-- CAMERA_FRAME_RECEIVED (R70, R84). -/
def execCameraFrameReceived (p : Port) (bytes : List Byte) (goodCheck : Bool) (s : State) :
    Host.Outcome State Fault Refusal :=
  .next (whileRunning (receiveCamera p bytes goodCheck) s)

/-- TRANSMISSION_START (R93). -/
def execTransmissionStart (e : EtherPort) (s : State) : Host.Outcome State Fault Refusal :=
  .next (whileRunning (startTransmission e) s)

/-- TRANSMISSION_END (R93). -/
def execTransmissionEnd (e : EtherPort) (s : State) : Host.Outcome State Fault Refusal :=
  .next (whileRunning (endTransmission e) s)

/-- RELEASE_STEP (R96). -/
def execReleaseStep (p : Port) (s : State) : Host.Outcome State Fault Refusal :=
  .next (whileRunning (stepRelease p) s)

/-- ADMISSION_SCAN (R60). -/
def execAdmissionScan (s : State) : Host.Outcome State Fault Refusal := .next (whileRunning scan s)

/-- TRIGGER_REEVALUATION (R122). -/
def execTriggerReevaluation (g : Group) (s : State) : Host.Outcome State Fault Refusal :=
  .next (whileRunning (reevaluate g) s)

end Sys2Proof.Machine
end

