-- ==== Sys2Proof/Machine/Lines.lean ====
section
/-! DEFINITION. The meanings of the events on the links and lines (R8, R18, R19, R85, R93, R164, R168). A line or a link
has its level in every phase of the part. -/

namespace Sys2Proof.Machine

/-- A camera link goes down: a transmission is cut, and its entry stays at the head (R18, R93). -/
def linkDown (p : Port) (s : State) : State :=
  s.modPort p fun r => { r with linkUp := false, egress := { r.egress with sending := none } }

/-- A camera link comes up: the link timer returns to 0 ms (R18). The link of a camera with no feed is down (R93). -/
def linkUp (p : Port) (s : State) : State :=
  if (s.port p).feed then s.modPort p fun r => { r with linkUp := true, link := 0 } else s

/-- The uplink link goes down: a transmission is cut (R85, R93). -/
def uplinkDown (s : State) : State :=
  s.modUplink fun u => { u with linkUp := false, egress := { u.egress with sending := none } }

/-- The uplink link comes up: its timer returns to 0 ms (R164). -/
def uplinkUp (s : State) : State := s.modUplink fun u => { u with linkUp := true, timer := 0, raised := false }

/-- The sense input rises: from low, it starts the filter (R19). A rise while the part does not run sets the level and
starts no filter (the model's choice, log 53). -/
def senseRise (p : Port) (s : State) : State :=
  let starts := s.phase = .running && !(s.port p).senseIn
  s.modPort p fun r =>
    { r with senseIn := true, senseFilter := if starts then some Config.senseFilterMs else r.senseFilter }

/-- The sense input falls: a running filter is cleared (R19). -/
def senseFall (p : Port) (s : State) : State := s.modPort p fun r => { r with senseIn := false, senseFilter := none }

/-- The feed-fault input is found at a level: while the feed is on, a high one faults the port (R8). -/
def sampleFeedFault (p : Port) (level : Bool) (s : State) : State :=
  let s := s.modPort p fun r => { r with feedFaultIn := level }
  if level && (s.port p).feed then enterFaulted p .feed s else s

/-! ### The meanings -/

/-- CAMERA_LINK_DOWN. -/
def execCameraLinkDown (p : Port) (s : State) : Host.Outcome State Fault Refusal := .next (linkDown p s)

/-- CAMERA_LINK_UP. -/
def execCameraLinkUp (p : Port) (s : State) : Host.Outcome State Fault Refusal := .next (linkUp p s)

/-- UPLINK_LINK_DOWN. -/
def execUplinkLinkDown (s : State) : Host.Outcome State Fault Refusal := .next (uplinkDown s)

/-- UPLINK_LINK_UP. -/
def execUplinkLinkUp (s : State) : Host.Outcome State Fault Refusal := .next (uplinkUp s)

/-- SENSE_INPUT_RISE. -/
def execSenseInputRise (p : Port) (s : State) : Host.Outcome State Fault Refusal := .next (senseRise p s)

/-- SENSE_INPUT_FALL. -/
def execSenseInputFall (p : Port) (s : State) : Host.Outcome State Fault Refusal := .next (senseFall p s)

/-- FEED_FAULT_ASSERTED (log 5): in full reset every feed is off, so the level alone is kept. -/
def execFeedFaultAsserted (p : Port) (level : Bool) (s : State) : Host.Outcome State Fault Refusal :=
  .next
    (if s.phase = .running then settle (sampleFeedFault p level s)
      else s.modPort p fun r => { r with feedFaultIn := level })

end Sys2Proof.Machine
end

