-- ==== Sys2Proof/Machine/Expiries.lean ====
section
/-! DEFINITION. The expiries of the timers (Table 11-2): when each is due, and its meaning. An expiry that is not due
changes nothing (log 1). -/

namespace Sys2Proof.Machine

/-- An effect that is made when it is due. -/
def whenDue (due : State → Bool) (effect : State → State) (s : State) : State := if due s then effect s else s

/-! ### PCT -/

/-- The idle timer of a READY port has expired (R16). -/
def idleExpired (p : Port) (s : State) : Bool :=
  let r := s.port p
  r.state = .ready && !held s p && r.cfg.idle != 0 && r.cfg.idle * 1000 ≤ r.idle

/-- The port pauses, or goes to ASLEEP where the PAUSE template is absent (R13). A pause whose frame could not be placed
fails (R39) after the needs that the entry into PAUSING handed on (log 50). -/
def idleOver (p : Port) (s : State) : State :=
  match tryPause p s with
  | (.templateAbsent, s') => enterAsleep p s'
  | (.configPoisoned, s') | (.started, s') => s'
  | (.frameLost, s') => pauseFailed p (settle s')

/-- The deep-idle timer of a PAUSED port has expired (R17). -/
def deepIdleExpired (p : Port) (s : State) : Bool :=
  let r := s.port p
  r.state = .paused && r.cfg.deepIdle != 0 && r.cfg.deepIdle * 1000 ≤ r.deepIdle

/-- The states in which the link timer counts (R18). -/
def linkWatched (st : PortState) : Bool := st = .ready || st = .pausing || st = .paused || st = .resuming

/-- The link timer has reached the link timeout (R18). -/
def linkExpired (p : Port) (s : State) : Bool :=
  let r := s.port p
  linkWatched r.state && s.mga.linkTimeout * 1000 ≤ r.link

/-- The sense filter has completed (R19). -/
def senseQualified (p : Port) (s : State) : Bool := (s.port p).senseFilter = some 0

/-- A qualified rising edge, by the port's state (R19). -/
def senseEdge (p : Port) (s : State) : State :=
  let s := s.modPort p fun r => { r with senseFilter := none }
  let r := s.port p
  if r.state = .paused && !r.park then takeNeed .sense p s else restartIdle p s

/-! ### WKE -/

/-- A phase of an operation of a kind has run out, in the port state that the operation belongs to (R27). -/
def phaseOver (st : PortState) (kind : OpKind) (phase : Phase) (r : PortRec) : Bool :=
  r.state = st && r.op.kind = kind && r.op.phase = phase && r.op.countdown = 0

/-- The window of a COLD attempt has expired (R30). -/
def coldWindowOver (p : Port) (s : State) : Bool := phaseOver .waking .cold .window (s.port p)

/-- The window of a RESUME attempt has expired (R32 to R34). -/
def attemptWindowOver (p : Port) (s : State) : Bool := phaseOver .resuming .resume .window (s.port p)

/-- The spacing has expired (R35). -/
def spacingOver (p : Port) (s : State) : Bool := phaseOver .resuming .resume .spacing (s.port p)

/-- The off-hold has expired (R30, R34). -/
def offHoldDue (p : Port) (s : State) : Bool :=
  phaseOver .waking .cold .offHold (s.port p) || phaseOver .resuming .resume .offHold (s.port p)

/-- The pulse countdown has expired (R33). -/
def pulseDue (p : Port) (s : State) : Bool := (s.port p).op.pulse = some 0

/-- The wake line goes low at the expiry of the pulse countdown (R33). -/
def pulseOver (p : Port) (s : State) : State := closeWindow p s

/-- The confirm window has expired (R40, R41). -/
def confirmDue (p : Port) (s : State) : Bool := phaseOver .pausing .pause .confirm (s.port p)

/-- The end of the confirm window: a confirmation in SILENCE mode with no activity seen, else a failure (R40, R41). -/
def confirmOver (p : Port) (s : State) : State :=
  let r := s.port p
  if r.cfg.confirmMode = .silence && !r.op.activitySeen then enterPaused p s else pauseFailed p s

/-- The probe interval has expired (R43). -/
def probeDue (p : Port) (s : State) : Bool :=
  let r := s.port p
  r.state = .paused && r.probe.running && r.probe.countdown = 0

/-! ### ADM, GRP and EVU -/

/-- The port's schedule entry is due (R66). -/
def scheduleExpired (p : Port) (s : State) : Bool := (scheduleEntry? s p).any fun e => e.countdown = 0

/-- The rendezvous window has expired (R123). -/
def windowDue (g : Group) (s : State) : Bool := (s.group g).slot.pending && (s.group g).slot.window = 0

/-- The arm hold has expired (R132). -/
def holdDue (g : Group) (s : State) : Bool := (s.group g).arm.armed && (s.group g).arm.hold = 0

/-- The arm expires (R132). A strict trigger is refused before ARM_EXPIRED is raised (log 46). -/
def holdOver (g : Group) (s : State) : State := raise .armExpired (Detail.group g) (clearArm g s)

/-- The preparation target has come (R136). -/
def targetDue (g : Group) (s : State) : Bool := (s.group g).arm.armed && (s.group g).arm.target = some 0

/-- The uplink link timer has reached the link timeout, for a loss that has not raised the event yet (R164). -/
def uplinkExpired (s : State) : Bool :=
  !s.uplink.linkUp && !s.uplink.raised && s.mga.linkTimeout * 1000 ≤ s.uplink.timer

/-- UPLINK_DOWN is raised, and the timer stops (R164). -/
def uplinkOver (s : State) : State :=
  raise .uplinkDown Detail.bare (s.modUplink fun u => { u with raised := true })

/-! ### The meanings -/

/-- IDLE_TIMER_EXPIRY (R13). -/
def execIdleTimerExpiry (p : Port) (s : State) : Host.Outcome State Fault Refusal :=
  .next (whileRunning (whenDue (idleExpired p) (idleOver p)) s)

/-- DEEP_IDLE_EXPIRY (R17). -/
def execDeepIdleExpiry (p : Port) (s : State) : Host.Outcome State Fault Refusal :=
  .next (whileRunning (whenDue (deepIdleExpired p) (enterAsleep p)) s)

/-- LINK_TIMER_EXPIRY (R18). -/
def execLinkTimerExpiry (p : Port) (s : State) : Host.Outcome State Fault Refusal :=
  .next (whileRunning (whenDue (linkExpired p) (enterFaulted p .linkLost)) s)

/-- SENSE_FILTER_EXPIRY (R19). -/
def execSenseFilterExpiry (p : Port) (s : State) : Host.Outcome State Fault Refusal :=
  .next (whileRunning (whenDue (senseQualified p) (senseEdge p)) s)

/-- COLD_BOOT_WINDOW_EXPIRY (R30). -/
def execColdBootWindowExpiry (p : Port) (s : State) : Host.Outcome State Fault Refusal :=
  .next (whileRunning (whenDue (coldWindowOver p) (coldAttemptFailed p)) s)

/-- ATTEMPT_WINDOW_EXPIRY (R35). -/
def execAttemptWindowExpiry (p : Port) (s : State) : Host.Outcome State Fault Refusal :=
  .next (whileRunning (whenDue (attemptWindowOver p) (resumeAttemptFailed p)) s)

/-- SPACING_EXPIRY (R35). -/
def execSpacingExpiry (p : Port) (s : State) : Host.Outcome State Fault Refusal :=
  .next (whileRunning (whenDue (spacingOver p) (startAttempt p)) s)

/-- OFF_HOLD_EXPIRY (R30, R34). -/
def execOffHoldExpiry (p : Port) (s : State) : Host.Outcome State Fault Refusal :=
  .next (whileRunning (whenDue (offHoldDue p) (offHoldOver p)) s)

/-- PULSE_COUNTDOWN_EXPIRY (R33). -/
def execPulseCountdownExpiry (p : Port) (s : State) : Host.Outcome State Fault Refusal :=
  .next (whileRunning (whenDue (pulseDue p) (pulseOver p)) s)

/-- PAUSE_CONFIRM_WINDOW_EXPIRY (R40, R41). -/
def execPauseConfirmWindowExpiry (p : Port) (s : State) : Host.Outcome State Fault Refusal :=
  .next (whileRunning (whenDue (confirmDue p) (confirmOver p)) s)

/-- PROBE_INTERVAL_EXPIRY (R43). -/
def execProbeIntervalExpiry (p : Port) (s : State) : Host.Outcome State Fault Refusal :=
  .next (whileRunning (whenDue (probeDue p) (probeIntervalOver p)) s)

/-- SCHEDULE_ENTRY_DUE (R66). -/
def execScheduleEntryDue (p : Port) (s : State) : Host.Outcome State Fault Refusal :=
  .next (whileRunning (whenDue (scheduleExpired p) (scheduleDue p)) s)

/-- RENDEZVOUS_WINDOW_EXPIRY (R123). -/
def execRendezvousWindowExpiry (g : Group) (s : State) : Host.Outcome State Fault Refusal :=
  .next (whileRunning (whenDue (windowDue g) (windowOver g)) s)

/-- ARM_HOLD_EXPIRY (R132). -/
def execArmHoldExpiry (g : Group) (s : State) : Host.Outcome State Fault Refusal :=
  .next (whileRunning (whenDue (holdDue g) (holdOver g)) s)

/-- PREPARATION_TARGET_EXPIRY (R136). -/
def execPreparationTargetExpiry (g : Group) (s : State) : Host.Outcome State Fault Refusal :=
  .next (whileRunning (whenDue (targetDue g) (targetOver g)) s)

/-- UPLINK_LINK_TIMER_EXPIRY (R164). -/
def execUplinkLinkTimerExpiry (s : State) : Host.Outcome State Fault Refusal :=
  .next (whileRunning (whenDue uplinkExpired uplinkOver) s)

end Sys2Proof.Machine
end

