-- ==== Sys2Proof/Machine/Scrubber.lean ====
section
/-! DEFINITION. The scrubber of table memory (R144). -/

namespace Sys2Proof.Machine

/-- The protected entries in the order of a pass: PORT_CONFIG, TEMPLATE, RULE, CLASS_ACTION, GROUP, PROXY, each table in
ascending index (R144). -/
inductive ScrubEntry where
  | portConfig (p : Port)
  | template (i : Fin 48)
  | rule (i : Fin 32)
  | classAction (i : Fin 9)
  | group (g : Group)
  | proxy (i : Fin 64)
  deriving DecidableEq, Repr

/-- The entries of one pass. -/
def scrubPass : List ScrubEntry :=
  (List.finRange 16).map .portConfig ++ (List.finRange 48).map .template ++ (List.finRange 32).map .rule ++
    (List.finRange 9).map .classAction ++ (List.finRange 8).map .group ++ (List.finRange 64).map .proxy

/-- One visit is one read, and its finding is acted on as for any read (R144). A poisoned template, rule or class action
has no effect but the mark (for a PROBE template the model's choice, log 59); a free proxy record is passed over. -/
def visitEntry (e : ScrubEntry) (s : State) : State :=
  match e with
  | .portConfig p => (readPortConfigWithEffect p s).2
  | .template i => (readTemplate i s).2
  | .rule i => (readRule i s).2
  | .classAction i => (readClassAction i s).2
  | .group g => (readGroup g s).2
  | .proxy i => (readProxy i s).2

/-- A pass is due: the period has run out, and the pass before has ended (R144; log 30). -/
def passDue (s : State) : Bool := s.tbm.scrubPeriod = 0 && s.tbm.scrubNext.isNone

/-- A pass starts, and the next is due 1000 ms later (R144). -/
def startPass (s : State) : State :=
  s.modTbm fun t => { t with scrubPeriod := Config.scrubPeriodMs, scrubNext := some 0 }

/-- The pass in progress visits its next entry; after the last it has ended. With no pass in progress there is nothing
to visit (log 1). -/
def visitNext (s : State) : State :=
  match s.tbm.scrubNext with
  | none => s
  | some n =>
    let s := s.modTbm fun t => { t with scrubNext := if n + 1 < scrubPass.length then some (n + 1) else none }
    match scrubPass[n]? with
    | none => s
    | some e => visitEntry e s

/-! ### The meanings -/

/-- SCRUB_PASS_START (R144). -/
def execScrubPassStart (s : State) : Host.Outcome State Fault Refusal :=
  .next (whileRunning (whenDue passDue startPass) s)

/-- SCRUB_VISIT (R144). -/
def execScrubVisit (s : State) : Host.Outcome State Fault Refusal := .next (whileRunning visitNext s)

end Sys2Proof.Machine
end

