-- ==== Sys2Proof/Machine/Timebase.lean ====
section
/-! DEFINITION. What the part does when no command waits (R170; log 3): it first queues what it does by itself without
waiting for time, and with nothing of that kind left one tick passes and the expiries that are due are queued. -/

namespace Sys2Proof.Machine

/-! ### One tick (R170) -/

/-- The link timer is held at 0 ms: a POWER attempt of a resume path, from the feed turn-off to the close of its window
(R18, R34). -/
def powerAttempt (op : Operation) : Bool :=
  op.kind = .resume && op.method = some .power && (op.phase = .offHold || op.phase = .window)

/-- The operation record at a tick: the phase and pulse countdowns fall, and the elapsed time of a COLD or RESUME
operation rises from its first attempt on and stops at 65535 ms (R46). -/
def tickOp (op : Operation) : Operation :=
  if op.kind = .none then op
  else
    { op with
      countdown := op.countdown - 1
      pulse := op.pulse.map (· - 1)
      elapsed :=
        if (op.kind = .cold || op.kind = .resume) && op.started != 0 then min (op.elapsed + 1) Config.timeMaxMs
        else op.elapsed }

/-- The age of an occupied proxy record rises and stops at 600 000 ms (R104). -/
def tickProxy (x : ProxyControl) : ProxyControl :=
  if x.occupied then { x with age := min (x.age + 1) Config.ageMaxMs } else x

/-- One port at a tick (R16, R17, R18, R19, R43, R104). `isHeld` says that the idle timer is held. -/
def tickPort (isHeld : Bool) (r : PortRec) : PortRec :=
  { r with
    idle := if r.state = .ready && !isHeld then r.idle + 1 else r.idle
    deepIdle := if r.state = .paused then r.deepIdle + 1 else r.deepIdle
    link := if linkWatched r.state && !r.linkUp && !powerAttempt r.op then r.link + 1 else r.link
    senseFilter := r.senseFilter.map (· - 1)
    op := tickOp r.op
    probe := if r.probe.running then { r.probe with countdown := r.probe.countdown - 1 } else r.probe
    proxies := r.proxies.map tickProxy }

/-- One group at a tick: the window while PENDING (R125), the hold and the target while armed (R132, R136). -/
def tickGroup (r : GroupRec) : GroupRec :=
  { r with
    arm :=
      if r.arm.armed then { r.arm with hold := r.arm.hold - 1, target := r.arm.target.map (· - 1) } else r.arm
    slot := if r.slot.pending then { r.slot with window := r.slot.window - 1 } else r.slot }

/-- One tick: each owner advances its timers (R170, Table 11-2). -/
def tick (s : State) : State :=
  { s with
    ports := Vector.ofFn fun p => tickPort (held s p) (s.port p)
    uplink :=
      if !s.uplink.linkUp && !s.uplink.raised then { s.uplink with timer := s.uplink.timer + 1 } else s.uplink
    tbm := { s.tbm with scrubPeriod := s.tbm.scrubPeriod - 1 }
    adm := { s.adm with schedule := s.adm.schedule.map fun e => { e with countdown := e.countdown - 1 } }
    groups := s.groups.map tickGroup
    mga :=
      { s.mga with restart := s.mga.restart.map fun w => { w with countdown := w.countdown - 1 } } }

/-! ### The expiries that are due, owner by owner in the order of Table 11-2 -/

/-- A command for each port or group of a list for which it is due. -/
def dueOf {α : Type} (xs : List α) (due : α → State → Bool) (make : α → Instr) (s : State) : List Instr :=
  (xs.filter fun x => due x s).map make

/-- The scrub visit that a tick makes while a pass is in progress (log 3). -/
def scrubWork (s : State) : List Instr :=
  (if passDue s then [.scrubPassStart] else []) ++ (if s.tbm.scrubNext.isSome then [.scrubVisit] else [])

/-- What came due at a tick. -/
def dueWork (s : State) : List Instr :=
  dueOf allPorts idleExpired .idleTimerExpiry s ++ dueOf allPorts deepIdleExpired .deepIdleExpiry s ++
  dueOf allPorts linkExpired .linkTimerExpiry s ++ dueOf allPorts senseQualified .senseFilterExpiry s ++
  dueOf allPorts pulseDue .pulseCountdownExpiry s ++ dueOf allPorts coldWindowOver .coldBootWindowExpiry s ++
  dueOf allPorts attemptWindowOver .attemptWindowExpiry s ++ dueOf allPorts spacingOver .spacingExpiry s ++
  dueOf allPorts offHoldDue .offHoldExpiry s ++ dueOf allPorts confirmDue .pauseConfirmWindowExpiry s ++
  dueOf allPorts probeDue .probeIntervalExpiry s ++ dueOf allPorts scheduleExpired .scheduleEntryDue s ++
  dueOf allGroups windowDue .rendezvousWindowExpiry s ++ dueOf allGroups holdDue .armHoldExpiry s ++
  dueOf allGroups targetDue .preparationTargetExpiry s ++ scrubWork s ++
  (if restartDue s then [.softRestart] else []) ++ (if uplinkExpired s then [.uplinkLinkTimerExpiry] else [])

/-! ### What the part does without waiting for time -/

/-- The row that performs a request. -/
def rowFor (r : Request) : Instr :=
  match opOf r.op with
  | none => .unknownOpRequest
  | some .identify => .identify
  | some .readEntry => .readEntry
  | some .writeEntry => .writeEntry
  | some .patchField => .patchField
  | some .readEvents => .readEvents
  | some .setEventMask => .setEventMask
  | some .readCounters => .readCounters
  | some .restart => .restart
  | some .portCommand =>
    match r.command?.bind portCommandOf with
    | some .enable | none => .enable
    | some .disable => .disable
    | some .park => .park
    | some .unpark => .unpark
    | some .pin => .pin
    | some .unpin => .unpin
    | some .wake => .wake
    | some .pause => .pause
    | some .sleep => .sleep
    | some .clear => .clear
  | some .groupCommand =>
    match r.command?.bind groupCommandOf with
    | some .arm | none => .arm
    | some .disarm => .disarm
    | some .prepare => .prepare
    | some .cancel => .cancel

/-- The performing of the head request (R147). -/
def headWork (s : State) : List Instr :=
  if mayPerform s then (s.mga.fifo.head?.map rowFor).toList else []

/-- The seventeen egress ports. -/
def allEgress : List EtherPort := allPorts.map .camera ++ [.uplink]

/-- A release has a step to make (R96). -/
def canRelease (p : Port) (s : State) : Bool :=
  (s.port p).releasing && ((s.port p).hold.isEmpty || !txFull s (.camera p))

/-- What the part does by itself: a high feed-fault input faults (R8), releases step (R96), egresses send (R93), the head
request is performed (R147), and a restart that is due is made (R158). -/
def ownWork (s : State) : List Instr :=
  dueOf allPorts (fun p s => (s.port p).feed && (s.port p).feedFaultIn) (fun p => .feedFaultAsserted p true) s ++
  dueOf allPorts canRelease .releaseStep s ++ dueOf allEgress (fun e s => canTransmit s e) .transmissionStart s ++
  headWork s ++ (if restartDue s then [.softRestart] else [])

/-- A running part with no command waiting (log 3). In full reset and during the table initialisation it idles, and no
tick is counted (R169). -/
def passTime (s : State) : State :=
  if s.phase = .running then
    match ownWork s with
    | [] =>
      let s := tick s
      { s with pending := dueWork s }
    | work => { s with pending := work }
  else s

end Sys2Proof.Machine
end

