-- ==== Sys2Proof/Machine/Dispatch.lean ====
section
/-! DEFINITION. The meaning of each command. -/

namespace Sys2Proof.Machine

def exec (i : Instr) (s : State) : Host.Outcome State Fault Refusal :=
  match i with
  -- frames
  | .receptionStart e => Sys2Proof.Machine.execReceptionStart e s
  | .uplinkFrameReceived bytes good => Sys2Proof.Machine.execUplinkFrameReceived bytes good s
  | .cameraFrameReceived p bytes good => Sys2Proof.Machine.execCameraFrameReceived p bytes good s
  -- management requests
  | .identify => Sys2Proof.Machine.execIdentify s
  | .readEntry => Sys2Proof.Machine.execReadEntry s
  | .writeEntry => Sys2Proof.Machine.execWriteEntry s
  | .patchField => Sys2Proof.Machine.execPatchField s
  | .enable => Sys2Proof.Machine.execEnable s
  | .disable => Sys2Proof.Machine.execDisable s
  | .park => Sys2Proof.Machine.execPark s
  | .unpark => Sys2Proof.Machine.execUnpark s
  | .pin => Sys2Proof.Machine.execPin s
  | .unpin => Sys2Proof.Machine.execUnpin s
  | .wake => Sys2Proof.Machine.execWake s
  | .pause => Sys2Proof.Machine.execPause s
  | .sleep => Sys2Proof.Machine.execSleep s
  | .clear => Sys2Proof.Machine.execClear s
  | .arm => Sys2Proof.Machine.execArm s
  | .disarm => Sys2Proof.Machine.execDisarm s
  | .prepare => Sys2Proof.Machine.execPrepare s
  | .cancel => Sys2Proof.Machine.execCancel s
  | .readEvents => Sys2Proof.Machine.execReadEvents s
  | .setEventMask => Sys2Proof.Machine.execSetEventMask s
  | .readCounters => Sys2Proof.Machine.execReadCounters s
  | .restart => Sys2Proof.Machine.execRestart s
  | .softRestart => Sys2Proof.Machine.execSoftRestart s
  -- the frame store, admission and re-evaluation
  | .transmissionStart e => Sys2Proof.Machine.execTransmissionStart e s
  | .transmissionEnd e => Sys2Proof.Machine.execTransmissionEnd e s
  | .releaseStep p => Sys2Proof.Machine.execReleaseStep p s
  | .admissionScan => Sys2Proof.Machine.execAdmissionScan s
  | .triggerReevaluation g => Sys2Proof.Machine.execTriggerReevaluation g s
  -- links and lines
  | .cameraLinkDown p => Sys2Proof.Machine.execCameraLinkDown p s
  | .cameraLinkUp p => Sys2Proof.Machine.execCameraLinkUp p s
  | .uplinkLinkDown => Sys2Proof.Machine.execUplinkLinkDown s
  | .uplinkLinkUp => Sys2Proof.Machine.execUplinkLinkUp s
  | .uplinkLinkTimerExpiry => Sys2Proof.Machine.execUplinkLinkTimerExpiry s
  | .senseInputRise p => Sys2Proof.Machine.execSenseInputRise p s
  | .senseInputFall p => Sys2Proof.Machine.execSenseInputFall p s
  | .senseFilterExpiry p => Sys2Proof.Machine.execSenseFilterExpiry p s
  | .feedFaultAsserted p level => Sys2Proof.Machine.execFeedFaultAsserted p level s
  -- full reset
  | .resetAsserted => Sys2Proof.Machine.execResetAsserted s
  | .resetReleased => Sys2Proof.Machine.execResetReleased s
  | .tableInitialisationEnd => Sys2Proof.Machine.execTableInitialisationEnd s
  -- expiries
  | .idleTimerExpiry p => Sys2Proof.Machine.execIdleTimerExpiry p s
  | .deepIdleExpiry p => Sys2Proof.Machine.execDeepIdleExpiry p s
  | .linkTimerExpiry p => Sys2Proof.Machine.execLinkTimerExpiry p s
  | .coldBootWindowExpiry p => Sys2Proof.Machine.execColdBootWindowExpiry p s
  | .attemptWindowExpiry p => Sys2Proof.Machine.execAttemptWindowExpiry p s
  | .spacingExpiry p => Sys2Proof.Machine.execSpacingExpiry p s
  | .offHoldExpiry p => Sys2Proof.Machine.execOffHoldExpiry p s
  | .pulseCountdownExpiry p => Sys2Proof.Machine.execPulseCountdownExpiry p s
  | .pauseConfirmWindowExpiry p => Sys2Proof.Machine.execPauseConfirmWindowExpiry p s
  | .probeIntervalExpiry p => Sys2Proof.Machine.execProbeIntervalExpiry p s
  | .scheduleEntryDue p => Sys2Proof.Machine.execScheduleEntryDue p s
  | .rendezvousWindowExpiry g => Sys2Proof.Machine.execRendezvousWindowExpiry g s
  | .armHoldExpiry g => Sys2Proof.Machine.execArmHoldExpiry g s
  | .preparationTargetExpiry g => Sys2Proof.Machine.execPreparationTargetExpiry g s
  -- the scrubber, and requests that name no operation
  | .scrubPassStart => Sys2Proof.Machine.execScrubPassStart s
  | .scrubVisit => Sys2Proof.Machine.execScrubVisit s
  | .unknownOpRequest => Sys2Proof.Machine.execUnknownOpRequest s

end Sys2Proof.Machine
end

