-- ==== Sys2Proof/Safety.lean ====
section
/-! DEFINITION. The laws of the part that the statements speak of, what the statements assume of a state, what groups make
of a member's move, and what one read of a protected entry makes. -/

namespace Sys2Proof.Machine

/-! ### Laws of the part -/

/-- The draws of a configuration stand in order (NOTE to Table 1-2). -/
def PortConfig.Ordered (c : PortConfig) : Prop := c.standby ≤ c.active ∧ c.active ≤ c.inrush

/-- ADM's copies of the draws of a port stand in order. -/
def Draws.Ordered (d : Draws) : Prop := d.standby ≤ d.active ∧ d.active ≤ d.inrush

/-- A state in which the feed is off by Table 1-4. -/
def PortState.resting : PortState → Bool
  | .disabled | .asleep | .faulted => true
  | _ => false

/-- The laws of one port record: its charge is the one that its state sets (R4, R51), its draws stand in order, its feed is
off in DISABLED, ASLEEP and FAULTED (R4), its camera link is down while the feed is off (R168), and its transmit queue
holds at most 32 entries (R90). -/
structure PortRec.Lawful (r : PortRec) : Prop where
  charged : r.charge = stateCharge r.draws r.state
  ordered : r.draws.Ordered
  restOff : r.state.resting → r.feed = false
  linkFeed : r.linkUp → r.feed
  txBound : r.egress.queue.length ≤ Config.txDepth

/-- The laws of the part over power and queues: every port record is lawful; the committed charge of a domain is the sum of
the charges of its ports (R51) and never exceeds the domain's limit (R51); every stored configuration has its draws in
order (R2); the uplink transmit queue and the request FIFO keep their depths (R90, R146). -/
structure State.Lawful (s : State) : Prop where
  ports : ∀ p : Port, (s.port p).Lawful
  committed : ∀ d : Domain, s.adm.committed[d] = domainCharge s d
  within : ∀ d : Domain, s.adm.committed[d] ≤ s.adm.limits[d]
  stored : ∀ p : Port, s.tbm.portConfig[p].val.Ordered
  uplink : s.uplink.egress.queue.length ≤ Config.txDepth
  fifo : s.mga.fifo.length ≤ Config.fifoDepth

/-- The laws of the wake queue and the schedule list: a wake-queue entry exists only for a port in PAUSING, PAUSED or ASLEEP
(R56); a port has at most one pending wake need, counting both (R64); the queue stands in the order of its arrival numbers,
which lie below the arrival counter of 0-65535 (R54). -/
structure State.WakeLawful (s : State) : Prop where
  waits : ∀ e ∈ s.adm.wakeQueue,
    (s.port e.port).state = .pausing ∨ (s.port e.port).state = .paused ∨ (s.port e.port).state = .asleep
  single : (s.adm.wakeQueue.map (·.port) ++ s.adm.schedule.map (·.port)).Nodup
  ordered : s.adm.wakeQueue.Pairwise fun a b => a.arrival < b.arrival
  numbered : ∀ e ∈ s.adm.wakeQueue, e.arrival < s.adm.arrivals
  counter : s.adm.arrivals ≤ 65535

/-- An ingress is filling cell c. -/
def Reception.fills (c : CellNo) : Reception → Bool
  | .intoCell d => d = c
  | .idle | .bufferOnly => false

/-- How many entries name cell c: hold-queue entries, transmit-queue entries and pending-trigger slots, plus one for an
ingress that is filling it (R87). -/
def State.refsTo (s : State) (c : CellNo) : Nat :=
  (allPorts.map fun p =>
    (s.port p).hold.countP (·.cell = c) + (s.port p).egress.queue.countP (·.cell = c) +
      ((s.port p).receiving.fills c).toNat).sum +
  s.uplink.egress.queue.countP (·.cell = c) + (s.uplink.receiving.fills c).toNat +
  allGroups.countP fun g => (s.group g).slot.pending && (s.group g).slot.cell = c

/-- The law of the frame store (R87): each cell's reference count equals the number of entries that name it, a cell is on
the free list exactly when its count is 0, and the free list holds no cell twice. -/
structure State.CellsLawful (s : State) : Prop where
  counted : ∀ c : CellNo, (s.cell c).refs = s.refsTo c
  listed : ∀ c : CellNo, c ∈ s.free ↔ (s.cell c).refs = 0
  once : s.free.Nodup

/-- What WKE has learned for a port lies in range: a valid estimate and a measured time between 1 and 65535 ms, a sample
count at most 255 (R46, R47, R12). -/
structure PortRec.Learned (r : PortRec) : Prop where
  resume : ∀ v ∈ r.est.resume, 1 ≤ v ∧ v ≤ Config.timeMaxMs
  cold : ∀ v ∈ r.est.cold, 1 ≤ v ∧ v ≤ Config.timeMaxMs
  resumeSamples : r.est.resumeSamples ≤ 255
  coldSamples : r.est.coldSamples ≤ 255
  measured : ∀ w ∈ r.lastWake, 1 ≤ w.time ∧ w.time ≤ Config.timeMaxMs

/-! ### What the statements assume of a state -/

/-- The part runs, and no work handed on inside an earlier command is left: none ever is between commands (log 2). -/
structure State.Settled (s : State) : Prop where
  running : s.phase = .running
  settled : s.owed = []

/-- MGA may perform a request, and request r stands at the head of the FIFO, `rest` behind it, and is the row's to
perform. -/
structure State.Serves (s : State) (row : Row) (r : Request) (rest : List Request) : Prop extends s.Settled where
  free : s.mga.restart = none
  head : s.mga.fifo = r :: rest
  row : rowServes row r = true

/-- As Serves, for a request that passes every check of R148. -/
structure State.Accepts (s : State) (row : Row) (r : Request) (rest : List Request) : Prop extends
    s.Serves row r rest where
  passes : requestRefusal r = none

/-- A frame has been received whole into cell c at an ingress, whose count holds the reference of the ingress (R87), and
its length passes the check of R70. -/
structure State.Receives (s : State) (e : EtherPort) (c : CellNo) (bytes : List Byte) : Prop extends s.Settled where
  into : s.receiving e = .intoCell c
  counted : 0 < (s.cell c).refs
  long : Config.minFrame ≤ bytes.length
  short : bytes.length ≤ Config.cellBytes

/-- The state in which a received frame is disposed of: it stands in its cell, and its ingress no longer receives. -/
def State.arrived (s : State) (e : EtherPort) (c : CellNo) (bytes : List Byte) : State :=
  storeCell c bytes (s.setReceiving e .idle)

/-- The frame in cell c at the uplink is for port p alone: its destination is unicast, not the part's own, and the station
address of the enabled port p (R71, R72). -/
structure State.Addresses (s : State) (p : Port) (c : CellNo) (bytes : List Byte) : Prop extends
    s.Receives .uplink c bytes where
  unicast : isGroupAddr (frameDest bytes) = false
  other : frameDest bytes ≠ s.mga.factory
  station : portWithStation? s (frameDest bytes) = some p

/-- What CLS makes of a downstream frame for port p in cell c: the class, offsets, action and activity that it records, and
the state after its reads. -/
def State.classifiedDown (s : State) (p : Port) (c : CellNo) (bytes : List Byte) : Classified × State :=
  classify false (some p) bytes (s.arrived .uplink c bytes)

/-- What CLS makes of an upstream frame of port p in cell c. -/
def State.classifiedUp (s : State) (p : Port) (c : CellNo) (bytes : List Byte) : Classified × State :=
  classify true (some p) bytes (s.arrived (.camera p) c bytes)

/-- What CLS makes of a downstream frame for a group or for all ports, with no scope test. -/
def State.classifiedWide (s : State) (c : CellNo) (bytes : List Byte) : Classified × State :=
  classify false none bytes (s.arrived .uplink c bytes)

/-- The row that a management command performs, for the management commands. -/
def rowOf : Instr → Option Row
  | .identify => some (.op .identify)
  | .readEntry => some (.op .readEntry)
  | .writeEntry => some (.op .writeEntry)
  | .patchField => some (.op .patchField)
  | .readEvents => some (.op .readEvents)
  | .setEventMask => some (.op .setEventMask)
  | .readCounters => some (.op .readCounters)
  | .restart => some (.op .restart)
  | .enable => some (.port .enable)
  | .disable => some (.port .disable)
  | .park => some (.port .park)
  | .unpark => some (.port .unpark)
  | .pin => some (.port .pin)
  | .unpin => some (.port .unpin)
  | .wake => some (.port .wake)
  | .pause => some (.port .pause)
  | .sleep => some (.port .sleep)
  | .clear => some (.port .clear)
  | .arm => some (.group .arm)
  | .disarm => some (.group .disarm)
  | .prepare => some (.group .prepare)
  | .cancel => some (.group .cancel)
  | .unknownOpRequest => some .unknown
  | _ => none

/-- An entry with no bad bit and no poison mark: a read of it hands its contents over and changes nothing (R139). -/
def Protected.Clean {α : Type} {n : Nat} (e : Protected α n) : Prop :=
  e.poison = false ∧ ∀ w : Fin n, e.words[w] = .good

/-! ### What a rest does to a port, and what it leaves alone -/

/-- The counts of a port after n discarded frames, each counted by itself (R91, R94, R101). -/
def Counts.discarding (n : Nat) (c : Counts) : Counts :=
  { c with dropped := c.dropped.set 8 (bump^[n] c.dropped[8]) }

/-- A port record after the entry into a resting state that keeps the hold queue (R15): feed, link and wake line off, the
operation, probing, the release and the timers stopped, the records free and the transmit queue discarded. -/
def PortRec.rested (st : PortState) (r : PortRec) : PortRec :=
  { r with
    state := st, charge := 0, feed := false, linkUp := false, wakeLine := false
    op := { r.op with kind := .none, phase := .none, countdown := 0, pulse := none }
    probe := { r.probe with running := false, countdown := 0, outstanding := none, misses := 0 }
    proxies := Vector.replicate 4 ProxyControl.free, egress := Egress.empty, releasing := false
    idle := 0, deepIdle := 0, link := 0, counts := r.counts.discarding r.egress.queue.length }

/-- A port record after the entry into DISABLED or FAULTED (R6, R7): as for a rest, and the hold queue is discarded. -/
def PortRec.shut (st : PortState) (r : PortRec) : PortRec :=
  { r.rested st with hold := [], counts := r.counts.discarding (r.hold.length + r.egress.queue.length) }

/-- Port p concerns no group that its move into `new` would change: no intactness breaks, and it is no reachable member of a
pending trigger. -/
def State.unwatched (s : State) (p : Port) (new : PortState) : Prop :=
  ∀ g : Group, breaksArm (s.group g).arm p (s.port p).state new = false ∧ reachableMember s g p = false

/-- u is s after port p has entered ASLEEP (R15), before what follows from it is done. -/
structure EntersAsleep (p : Port) (s u : State) : Prop where
  port : u.port p = (s.port p).rested .asleep
  others : ∀ q : Port, q ≠ p → u.port q = s.port q
  adm : u.adm = { s.adm with committed := s.adm.committed.set (domainOf p) (domainCharge u (domainOf p)) }
  rest : u.tbm = s.tbm ∧ u.mga = s.mga ∧ u.phase = s.phase ∧ u.pending = s.pending
  /-- the intactness of a group that watches the port breaks (R130) -/
  broken : ∀ g : Group, (s.group g).arm.armed = true → (s.group g).arm.intact = true →
    hasPort (s.group g).arm.watched p = true → (s.port p).state = .ready →
    (u.group g).arm.intact = false ∧ (u.group g).arm.watched = 0 ∧ (u.group g).arm.breakReported = true
  /-- where no group is concerned, no group and no event changes, and the discarded frames give up their cells -/
  alone : s.unwatched p .asleep → u.groups = s.groups ∧ u.evu = s.evu ∧ u.uplink = s.uplink ∧
    (∀ c : CellNo, (u.cell c).refs = (s.cell c).refs - (s.port p).egress.queue.countP (·.cell = c) ∧
      (u.cell c).data = (s.cell c).data) ∧
    u.owed = s.owed ++ (if 0 < (s.port p).charge then [.scan] else []) ++
      (if (s.port p).state = .ready ∧ anyWaking s p ∧ (s.port p).park = false then [.need .traffic p] else [])

/-- u is s after port p has entered `st`, DISABLED or FAULTED (R6, R7), before what follows from it is done; `change` is what
the entry does to the port's record beyond the shutting down, `event` the event it raises. -/
structure ShutsDown (p : Port) (st : PortState) (change : PortRec → PortRec) (event : State → State) (s u : State) :
    Prop where
  port : u.port p = change ((s.port p).shut st)
  others : ∀ q : Port, q ≠ p → u.port q = s.port q
  adm : u.adm =
    { s.adm with
      committed := s.adm.committed.set (domainOf p) (domainCharge u (domainOf p))
      wakeQueue := s.adm.wakeQueue.filter (·.port ≠ p), schedule := s.adm.schedule.filter (·.port ≠ p) }
  rest : u.tbm = s.tbm ∧ u.mga = s.mga ∧ u.phase = s.phase ∧ u.pending = s.pending
  /-- the intactness of every armed group that holds the port breaks (R6, R7, R130) -/
  broken : ∀ g : Group, (s.group g).arm.armed = true → (s.group g).arm.intact = true →
    hasPort (s.group g).arm.members p = true →
    (u.group g).arm.intact = false ∧ (u.group g).arm.watched = 0 ∧ (u.group g).arm.breakReported = true
  /-- where no group is concerned, only the event of the entry is raised, after the discarded frames have given up their
  cells (the order: log 20) -/
  alone : s.unwatched p st → ∃ v : State, u = event v ∧ v.groups = s.groups ∧ v.evu = s.evu ∧ v.uplink = s.uplink ∧
    (∀ c : CellNo,
      (v.cell c).refs = (s.cell c).refs - (s.port p).hold.countP (·.cell = c) -
        (s.port p).egress.queue.countP (·.cell = c) ∧
      (v.cell c).data = (s.cell c).data) ∧
    v.owed = s.owed ++ if 0 < (s.port p).charge then [.scan] else []

/-! ### What groups make of a member's move, and what a read does to an entry -/

/-- The move of port p from `old` to `new` breaks this arm now (R130): it is armed and intact, and p leaves READY from its
watched set, or is a member that enters DISABLED or FAULTED. A SLEEP of a PAUSED member breaks none (log 60). -/
def ArmRecord.broken (a : ArmRecord) (p : Port) (old new : PortState) : Bool :=
  a.armed && a.intact && ((hasPort a.watched p && old = .ready && new ≠ .ready) ||
    (hasPort a.members p && (new = .disabled || new = .faulted)))

/-- The move refuses the group's pending trigger (R131). -/
def GroupRec.refuses (r : GroupRec) (p : Port) (old new : PortState) : Bool :=
  r.arm.broken p old new && r.slot.pending && r.slot.strict

/-- Port p becomes an unreachable member of a trigger by entering `new` (R120); `park` is its park flag. -/
def losesReach (park : Bool) : PortState → Bool
  | .disabled | .faulted => true
  | .paused | .asleep => park
  | .waking | .ready | .pausing | .resuming => false

/-- Port p gets a new RENDEZVOUS need for a trigger by entering `new` (R121); `park` is its park flag. -/
def needsAgain (park : Bool) : PortState → Bool
  | .pausing | .paused | .asleep => !park
  | .disabled | .faulted | .waking | .ready | .resuming => false

/-- Port p is a reachable member of the group's pending trigger. -/
def GroupRec.reaches (r : GroupRec) (p : Port) : Bool :=
  r.slot.pending && hasPort r.slot.members p && !hasPort r.slot.unreachable p

/-- The arm of a group after the move (R130): a member joins the watched set at READY, and a break empties it. -/
def GroupRec.armAfter (r : GroupRec) (p : Port) (old new : PortState) : ArmRecord :=
  if new = .ready then
    if r.arm.armed && r.arm.intact && hasPort r.arm.members p then
      { r.arm with watched := r.arm.watched ||| onlyPort p }
    else r.arm
  else if r.arm.broken p old new then { r.arm with intact := false, watched := 0, breakReported := true }
  else r.arm

/-- The slot of a group after the move (R120, R131; log 45). -/
def GroupRec.slotAfter (r : GroupRec) (p : Port) (park : Bool) (old new : PortState) : Slot :=
  if r.refuses p old new then
    { r.slot with pending := false, delivered := 0, missed := r.slot.members, outcome := .refused }
  else if r.reaches p && losesReach park new then
    { r.slot with unreachable := r.slot.unreachable ||| onlyPort p }
  else r.slot

/-- What group g hands on at the move (R120, R121, R122). -/
def GroupRec.handsOn (r : GroupRec) (g : Group) (p : Port) (park : Bool) (old new : PortState) : List Work :=
  if !r.refuses p old new && r.reaches p then
    if losesReach park new then [.reevaluate g] else if needsAgain park new then [.need .rendezvous p] else []
  else []

/-- u is s after every group has heard that port p has moved from `old` to `new` (R1, R115). Before that the move has
handed on `before`, and after it `after`. That the groups hear in ascending order, and that they hear between the two, is
the model's choice (logs 2 and 52). -/
structure GroupsHear (p : Port) (old new : PortState) (before after : List Work) (s u : State) : Prop where
  /-- the arm and the slot of every group -/
  group : ∀ g : Group, u.group g =
    { s.group g with
      arm := (s.group g).armAfter p old new, slot := (s.group g).slotAfter p (s.port p).park old new }
  /-- what is handed on -/
  owed : u.owed = s.owed ++ before ++
    (allGroups.flatMap fun g => (s.group g).handsOn g p (s.port p).park old new) ++ after
  /-- ARM_BROKEN, with the port that broke the arm; the group of highest index raises it last (R130) -/
  armBroken : ∀ g : Group, (s.group g).arm.broken p old new = true → (s.group g).arm.breakReported = false →
    u.evu.events[Event.armBroken.num].pending = true ∧
    ((∀ h : Group, g < h → (s.group h).arm.broken p old new = true → (s.group h).arm.breakReported = true) →
      u.evu.events[Event.armBroken.num].detail = some ⟨some g.val, 0, onlyPort p⟩)
  /-- TRIGGER_REFUSED of a strict trigger (R131) -/
  refused : ∀ g : Group, (s.group g).refuses p old new = true →
    u.evu.events[Event.triggerRefused.num].pending = true ∧
    ((∀ h : Group, g < h → (s.group h).refuses p old new = false) →
      u.evu.events[Event.triggerRefused.num].detail = some ⟨some g.val, 0, 0⟩)

/-- What one read of a protected entry e makes (R139 to R141), for entry `index` of table number `table`: the contents handed
over and the state after it. `put` stores an entry in the table. -/
structure ReadsAs {α : Type} {n : Nat} (e : Protected α n) (table index : Nat) (put : Protected α n → State → State)
    (s : State) (read : Option α × State) : Prop where
  clean : e.poison = false → (∀ w : Fin n, e.words[w] = .good) → read = (some e.val, s)
  /-- corrected words are written back and counted, each by itself (R140) -/
  corrected : e.poison = false → WordCheck.twoBad ∉ e.words.toList → WordCheck.oneBad ∈ e.words.toList →
    read = (some e.val, raise .tableCorrected ⟨some index, table, 0⟩
      ((put { e with words := Vector.replicate n .good } s).modDevice fun d =>
        { d with corrections := min (d.corrections + e.words.toList.countP (· == .oneBad)) 4294967295 }))
  /-- the mark is set (R141) -/
  poisoned : e.poison = false → WordCheck.twoBad ∈ e.words.toList →
    read = (none, raise .tablePoisoned ⟨some index, table, 0⟩
      ((put { e with poison := true } s).modDevice fun d => { d with poisonings := min (d.poisonings + 1) 4294967295 }))
  /-- a poisoned entry is found so with no new count or event (R139) -/
  marked : e.poison = true → read = (none, s)

/-- The commands that have an effect in every phase of the part: the resets, and the links and lines, which have their
levels whatever the part does. -/
def actsAlways : Instr → Bool
  | .resetAsserted | .resetReleased | .tableInitialisationEnd | .cameraLinkDown _ | .cameraLinkUp _ | .uplinkLinkDown
  | .uplinkLinkUp | .senseInputRise _ | .senseInputFall _ | .feedFaultAsserted _ _ => true
  | _ => false

end Sys2Proof.Machine
end

