-- ==== Sys2Proof/Certificates/Slice0/Obligations.lean ====
section
/-! DEFINITION. The statements for the provers. -/

open Sys2Proof Sys2Proof.Machine

/-- A step performs the command at the front of the queue. For every state whose queue of waiting commands has command c
in front, one step is exec of c on the state with the rest of the queue: whatever exec answers, step answers. (The
queue is the model's own, log 7.) (R147, 95_what_each_step_holds.md) -/
def Obligations.StepPerformsFrontCommand : Prop :=
  ∀ (c : Instr) (rest : List Instr) (s : State), s.pending = c :: rest → step s = exec c { s with pending := rest }

/-- With no command waiting the part queues its own work, or one tick passes and exactly the commands that are due are
queued. The model's choice (log 3). On an empty queue: outside the running phase nothing changes; while the part runs,
what it does by itself without waiting for time is queued, and with nothing of that kind left one tick passes and the
commands of what is then due are queued. In any state a command is due exactly when its condition holds: an idle,
deep-idle or link timer at its threshold in its states, a sense filter, a pulse or a phase countdown of the operation
of its state, a running probe interval or a schedule entry at 0, a pending window, an arm hold or a target at 0, a
scrub period run out with no pass in progress (log 30), a pass in progress (one visit a tick), a RESTART whose wait is
over or whose response has left, an uplink loss at the link timeout that has not raised UPLINK_DOWN. By itself the
part does exactly: the fault of a high feed-fault input with the feed on, the step of a release with its hold queue
empty or a place in its transmit queue, the start of a transmission at an egress with its link up, nothing in
transmission and an entry, the row of the head request while no RESTART waits (for a code that names no command ENABLE
or ARM, log 4), and a restart that is due. No command stands twice; they stand owner by owner, and by port or group
(log 3). (R170, R169, R147, R96, R93, R8, R158, R16, R17, R18, R144, R164) -/
def Obligations.EmptyQueueDoesOwnWorkThenTicks : Prop :=
  ∀ s : State,
    (s.pending = [] →
      (s.phase ≠ .running → step s = .next s) ∧
      (s.phase = .running → ownWork s ≠ [] → step s = .next { s with pending := ownWork s }) ∧
      (s.phase = .running → ownWork s = [] → step s = .next { tick s with pending := dueWork (tick s) })) ∧
    (let op := fun (p : Port) (st : PortState) (kind : OpKind) (phase : Phase) =>
        (s.port p).state = st ∧ (s.port p).op.kind = kind ∧ (s.port p).op.phase = phase ∧ (s.port p).op.countdown = 0
      let restarts := s.phase = .running ∧ ∃ w : RestartWait, s.mga.restart = some w ∧ (w.cell = none ∨ w.countdown = 0)
      let sends := fun (linkUp : Bool) (e : Egress) => linkUp = true ∧ e.sending = none ∧ e.queue ≠ []
      let rowOfHead := fun r : Request =>
        let code := if natAt r.body 8 2 ≤ 1024 ∧ natAt r.body 8 2 + 10 ≤ r.body.length ∧ 1 ≤ natAt r.body 8 2 then
          natAt r.body 10 1 else 0
        let port : List Instr := [.enable, .enable, .disable, .park, .unpark, .pin, .unpin, .wake, .pause, .sleep, .clear]
        let group : List Instr := [.arm, .arm, .disarm, .prepare, .cancel]
        let rows : List Instr := [.unknownOpRequest, .identify, .readEntry, .writeEntry, .patchField,
          port[code]?.getD .enable, group[code]?.getD .arm, .readEvents, .setEventMask, .readCounters, .restart]
        rows[natAt r.body 4 1]?.getD .unknownOpRequest
      (∀ i : Instr, i ∈ dueWork s ↔ match i with
        | .idleTimerExpiry p => (s.port p).state = .ready ∧ (s.port p).pin = false ∧
          (∀ g : Group, (s.group g).arm.armed = true → hasPort (s.group g).arm.members p = false) ∧
          (s.port p).cfg.idle ≠ 0 ∧ (s.port p).cfg.idle * 1000 ≤ (s.port p).idle
        | .deepIdleExpiry p => (s.port p).state = .paused ∧ (s.port p).cfg.deepIdle ≠ 0 ∧
          (s.port p).cfg.deepIdle * 1000 ≤ (s.port p).deepIdle
        | .linkTimerExpiry p => ((s.port p).state = .ready ∨ (s.port p).state = .pausing ∨ (s.port p).state = .paused ∨
          (s.port p).state = .resuming) ∧ s.mga.linkTimeout * 1000 ≤ (s.port p).link
        | .senseFilterExpiry p => (s.port p).senseFilter = some 0
        | .pulseCountdownExpiry p => (s.port p).op.pulse = some 0
        | .coldBootWindowExpiry p => op p .waking .cold .window
        | .attemptWindowExpiry p => op p .resuming .resume .window
        | .spacingExpiry p => op p .resuming .resume .spacing
        | .offHoldExpiry p => op p .waking .cold .offHold ∨ op p .resuming .resume .offHold
        | .pauseConfirmWindowExpiry p => op p .pausing .pause .confirm
        | .probeIntervalExpiry p =>
          (s.port p).state = .paused ∧ (s.port p).probe.running = true ∧ (s.port p).probe.countdown = 0
        | .scheduleEntryDue p => ∃ e : ScheduleEntry, scheduleEntry? s p = some e ∧ e.countdown = 0
        | .rendezvousWindowExpiry g => (s.group g).slot.pending = true ∧ (s.group g).slot.window = 0
        | .armHoldExpiry g => (s.group g).arm.armed = true ∧ (s.group g).arm.hold = 0
        | .preparationTargetExpiry g => (s.group g).arm.armed = true ∧ (s.group g).arm.target = some 0
        | .scrubPassStart => s.tbm.scrubPeriod = 0 ∧ s.tbm.scrubNext = none
        | .scrubVisit => s.tbm.scrubNext ≠ none
        | .softRestart => restarts
        | .uplinkLinkTimerExpiry =>
          s.uplink.linkUp = false ∧ s.uplink.raised = false ∧ s.mga.linkTimeout * 1000 ≤ s.uplink.timer
        | _ => False) ∧
      (∀ i : Instr, i ∈ ownWork s ↔ match i with
        | .feedFaultAsserted p level => level = true ∧ (s.port p).feed = true ∧ (s.port p).feedFaultIn = true
        | .releaseStep p =>
          (s.port p).releasing = true ∧ ((s.port p).hold = [] ∨ (s.port p).egress.queue.length < 32)
        | .transmissionStart (.camera p) => sends (s.port p).linkUp (s.port p).egress
        | .transmissionStart .uplink => sends s.uplink.linkUp s.uplink.egress
        | .softRestart => restarts
        | i => s.phase = .running ∧ s.mga.restart = none ∧
          ∃ (r : Request) (rest : List Request), s.mga.fifo = r :: rest ∧ i = rowOfHead r)) ∧
    (let place := fun i : Instr => match i with
        | .idleTimerExpiry p => p.val
        | .deepIdleExpiry p => 16 + p.val
        | .linkTimerExpiry p => 32 + p.val
        | .senseFilterExpiry p => 48 + p.val
        | .pulseCountdownExpiry p => 64 + p.val
        | .coldBootWindowExpiry p => 80 + p.val
        | .attemptWindowExpiry p => 96 + p.val
        | .spacingExpiry p => 112 + p.val
        | .offHoldExpiry p => 128 + p.val
        | .pauseConfirmWindowExpiry p => 144 + p.val
        | .probeIntervalExpiry p => 160 + p.val
        | .scheduleEntryDue p => 176 + p.val
        | .rendezvousWindowExpiry g => 192 + g.val
        | .armHoldExpiry g => 200 + g.val
        | .preparationTargetExpiry g => 208 + g.val
        | .scrubPassStart => 216
        | .scrubVisit => 217
        | .feedFaultAsserted p _ => 220 + p.val
        | .releaseStep p => 240 + p.val
        | .transmissionStart (.camera p) => 260 + p.val
        | .transmissionStart .uplink => 276
        | .softRestart => 278
        | .uplinkLinkTimerExpiry => 279
        | _ => 277;
      (dueWork s).Pairwise (fun i j => place i < place j) ∧ (ownWork s).Pairwise (fun i j => place i < place j))

/-- Every command is answered with a next state and leaves the waiting commands alone. For every command and every state,
exec answers a next state (never a fault and never a refusal), and the queue of waiting commands is as before. (Both
are the model's choice: that none faults or is refused, log 35; that exec keeps the queue of waiting commands, log 7.)
(R147, R148, R169, R7) -/
def Obligations.NoCommandStopsThePart : Prop :=
  ∀ (c : Instr) (s : State), ∃ t : State, exec c s = .next t ∧ t.pending = s.pending

/-- In full reset and during the table initialisation no other command has an effect. While the part is held in reset or
is initialising its tables, every command changes nothing, but for the three of the reset itself and the links and
lines, which have their levels whatever the part does (log 6): no frame is received, no request performed, no expiry
taken, no scrub visit made; and on an empty queue no tick is counted. (R169, R145) -/
def Obligations.OnlyResetsLinksAndLinesActOutsideRunning : Prop :=
  ∀ s : State, s.phase ≠ .running →
    (∀ c : Instr, actsAlways c = false → exec c s = .next s) ∧ (s.pending = [] → step s = .next s)

/-- The state right after full reset holds the values that the chapters give. At State.reset every port is DISABLED with
feed and wake line low, flags clear, records empty, timers stopped, WKE, FST and SAU at their full-reset values;
limits, charges and committed charges 0, pass limit 4, wake queue and schedule list empty, arrival counter 0; cells 0
to 255 free in order; groups unarmed with FREE slots; every table entry its reset contents with fresh check bits and
no poison; MGA and EVU at their full-reset values. Only values that the manual gives are stated, but for the 128 zero
bytes that a TEMPLATE of length 0 holds (the model's choice, log 13). (R26, R49, R69, R86, R102, R114, R138, R145,
R159, R167) -/
def Obligations.ResetHoldsFullResetValues : Prop :=
  let s := State.reset
  (∀ p : Port,
    let r := s.port p
    r.state = .disabled ∧ r.feed = false ∧ r.wakeLine = false ∧ r.pin = false ∧ r.park = false ∧ r.fault = none ∧
      r.lastWake = none ∧ r.idle = 0 ∧ r.deepIdle = 0 ∧ r.link = 0 ∧ r.senseFilter = none ∧ r.charge = 0 ∧
      r.op.kind = .none ∧ r.op.method = none ∧ r.op.started = 0 ∧ r.probe.running = false ∧ r.probe.nextSeq = 0 ∧
      r.probe.outstanding = none ∧ r.probe.answered = false ∧ r.probe.misses = 0 ∧ r.probe.mismatches = 0 ∧
      r.probe.capture = none ∧ r.est = { resume := none, resumeSamples := 0, cold := none, coldSamples := 0 } ∧
      r.hold = [] ∧ r.egress.queue = [] ∧ r.releasing = false ∧ r.station = none ∧ r.counts = Counts.zero ∧
      (∀ i : Fin 4, r.proxies[i].occupied = false)) ∧
  (∀ d : Domain, s.adm.limits[d] = 0 ∧ s.adm.committed[d] = 0) ∧ s.adm.passLimit = 4 ∧ s.adm.wakeQueue = [] ∧
  s.adm.schedule = [] ∧ s.adm.arrivals = 0 ∧
  (∀ c : CellNo, (s.cell c).refs = 0) ∧ s.free = List.finRange 256 ∧ s.uplink.egress.queue = [] ∧
  (∀ g : Group,
    let a := (s.group g).arm
    let x := (s.group g).slot
    a.armed = false ∧ a.intact = false ∧ a.hold = 0 ∧ a.target = none ∧ a.members = 0 ∧ a.watched = 0 ∧
      a.breakReported = false ∧ x.pending = false ∧ x.delivered = 0 ∧ x.missed = 0 ∧ x.unreachable = 0 ∧
      x.outcome = .none ∧ (s.group g).address = 0) ∧
  (∀ p : Port, s.tbm.portConfig[p] = .fresh
    ⟨0, 0, 0, 0, 12, .sign, .frame, 2, 1500, 200, 8000, 500, 100, .silence, 1000, 120, 0, 0, 3, 0⟩) ∧
  (∀ i : Fin 48, s.tbm.template[i] = .fresh ⟨0, List.replicate 128 0, 0⟩) ∧
  (∀ i : Fin 32, s.tbm.rule[i] = .fresh ⟨false, .both, 0xFFFF, 0, 1, 0, 0, .bulk, none, none⟩) ∧
  s.tbm.classAction.map (·.val) = #v[⟨.holdAndWake, true⟩, ⟨.holdAndWake, true⟩, ⟨.drop, true⟩, ⟨.answerOrWake, false⟩,
    ⟨.holdAndWake, true⟩, ⟨.drop, false⟩, ⟨.drop, false⟩, ⟨.drop, true⟩, ⟨.drop, false⟩] ∧
  (∀ i : Fin 9, s.tbm.classAction[i] = .fresh s.tbm.classAction[i].val) ∧
  (∀ g : Group, s.tbm.group[g] = .fresh ⟨0, 0, .partialSet, false, 5000, 250, 60, false⟩) ∧
  (∀ i : Fin 64, s.tbm.proxy[i] = .fresh ⟨0, 64, List.replicate 64 0, none⟩) ∧
  s.mga.fifo = [] ∧ s.mga.managerA = 0 ∧ s.mga.managerB = 0 ∧ s.mga.report = 0 ∧ s.mga.responsesLost = 0 ∧
  s.mga.linkTimeout = 2 ∧ s.mga.learnShift = 3 ∧
  (∀ e : Fin 16, s.evu.events[e] = ⟨false, false, none⟩) ∧ s.evu.noticeOutstanding = false ∧ s.uplink.timer = 0 ∧
  s.evu.counts = ⟨0, 0, 0, 0, 0, 0⟩

/-- The state right after full reset keeps the laws of the part. State.reset meets each of the laws that the other
statements carry over every step: the laws of power and queues, of the wake queue, of the frame store, and of what WKE
has learned. (R4, R51, R54, R56, R64, R87, R90, R47) -/
def Obligations.ResetStateKeepsEveryLaw : Prop :=
  State.reset.Lawful ∧ State.reset.WakeLawful ∧ State.reset.CellsLawful ∧
    ∀ p : Port, (State.reset.port p).Learned

/-- No step breaks the power budget: the committed charge of a domain never exceeds its limit. From every state that keeps
them, every step leads to a state that keeps these laws: each port's charge is the one that its state sets; a domain's
committed charge is the sum of its four ports' charges and never exceeds its limit; a port in DISABLED, ASLEEP or
FAULTED has its feed off; a camera link is down while the feed is off; stored and copied draws stand in order; a
transmit queue holds at most 32 entries and the request FIFO at most 8. (A limit of 0 dW and a write of a limit are
among the steps.) (R51, R4, R58, R52, R90, R92, R146, R168, R2) -/
def Obligations.StepKeepsPowerLaws : Prop :=
  ∀ s t : State, s.Lawful → step s = .next t → t.Lawful

/-- A wake-queue entry exists only for a PAUSING, PAUSED or ASLEEP port, and no port has two wake needs. From every state
that keeps them, every step leads to a state that keeps these laws: a wake-queue entry exists only for a port in
PAUSING, PAUSED or ASLEEP; a port has at most one pending wake need, counting the wake queue and the schedule list
together; the queue stands in the order of its arrival numbers, all below the arrival counter, which is at most 65535.
(R56, R64, R54, R57, R67) -/
def Obligations.StepKeepsWakeQueueLaws : Prop :=
  ∀ s t : State, s.WakeLawful → step s = .next t → t.WakeLawful

/-- Each cell's reference count equals the entries that name it, and the free list is exactly the cells of count 0. From
every state that keeps it, every step leads to a state that keeps the law of the frame store: each cell's reference
count equals the number of hold-queue, transmit-queue and pending-trigger entries that name it, plus one while an
ingress fills it; a cell is on the free list exactly when that count is 0; and no cell stands on the free list twice.
(R87, R88) -/
def Obligations.StepKeepsCellLaw : Prop :=
  ∀ s t : State, s.CellsLawful → step s = .next t → t.CellsLawful

/-- A valid wake-time estimate always lies between 1 ms and 65535 ms. From every state in which what WKE has learned for
every port lies in range, every step leads to such a state: each valid estimate and each measured time lies between 1
and 65535 ms, and no sample count exceeds 255. (R47, R46, R12) -/
def Obligations.StepKeepsEstimatesInRange : Prop :=
  ∀ s t : State, (∀ p : Port, (s.port p).Learned) → step s = .next t → ∀ p : Port, (t.port p).Learned

/-- One tick advances each running timer by 1 ms and nothing else. A tick changes, at each port, only: the idle timer of a
READY port that is not held; the deep-idle timer of a PAUSED port; the link timer of a READY, PAUSING, PAUSED or
RESUMING port whose link is down, but for a POWER attempt of a resume path; the running sense filter, operation
countdowns, elapsed time (to at most 65535) and probe interval; and the ages of occupied proxy records (to at most
600000). Every schedule countdown falls by 1; a pending slot's window, an armed group's hold and target fall by 1; the
uplink link timer rises while the link is down and UPLINK_DOWN is not raised for it; the scrub period and a RESTART's
wait fall by 1. All else is unchanged. (R170, R16, R17, R18, R46, R65, R104, R125, R132, R136, R164) -/
def Obligations.TickAdvancesEachOwnersTimers : Prop :=
  ∀ s : State,
    (∀ p : Port,
      let r := s.port p
      let r' := (tick s).port p
      r'.idle = (if r.state = .ready ∧ held s p = false then r.idle + 1 else r.idle) ∧
      r'.deepIdle = (if r.state = .paused then r.deepIdle + 1 else r.deepIdle) ∧
      r'.link = (if (r.state = .ready ∨ r.state = .pausing ∨ r.state = .paused ∨ r.state = .resuming) ∧
          r.linkUp = false ∧ powerAttempt r.op = false then r.link + 1 else r.link) ∧
      r'.senseFilter = r.senseFilter.map (· - 1) ∧
      (r.op.kind = .none → r'.op = r.op) ∧
      (r.op.kind ≠ .none → r'.op = { r.op with
        countdown := r.op.countdown - 1, pulse := r.op.pulse.map (· - 1),
        elapsed := if r.op.kind ≠ .pause ∧ r.op.started ≠ 0 then min (r.op.elapsed + 1) 65535 else r.op.elapsed }) ∧
      r'.probe = (if r.probe.running then { r.probe with countdown := r.probe.countdown - 1 } else r.probe) ∧
      (∀ i : Fin 4, r'.proxies[i] =
        if r.proxies[i].occupied then { r.proxies[i] with age := min (r.proxies[i].age + 1) 600000 } else r.proxies[i]) ∧
      r' = { r with
        idle := r'.idle, deepIdle := r'.deepIdle, link := r'.link, senseFilter := r'.senseFilter, op := r'.op,
        probe := r'.probe, proxies := r'.proxies }) ∧
    (∀ g : Group, (tick s).group g =
      { s.group g with
        arm := if (s.group g).arm.armed then
            { (s.group g).arm with
              hold := (s.group g).arm.hold - 1, target := (s.group g).arm.target.map (· - 1) }
          else (s.group g).arm
        slot := if (s.group g).slot.pending then { (s.group g).slot with window := (s.group g).slot.window - 1 }
          else (s.group g).slot }) ∧
    (tick s).uplink = (if s.uplink.linkUp = false ∧ s.uplink.raised = false then
      { s.uplink with timer := s.uplink.timer + 1 } else s.uplink) ∧
    (tick s).adm = { s.adm with schedule := s.adm.schedule.map fun e => { e with countdown := e.countdown - 1 } } ∧
    (tick s).tbm = { s.tbm with scrubPeriod := s.tbm.scrubPeriod - 1 } ∧
    (tick s).mga = { s.mga with restart := s.mga.restart.map fun w => { w with countdown := w.countdown - 1 } } ∧
    (tick s).cells = s.cells ∧ (tick s).free = s.free ∧ (tick s).evu = s.evu ∧ (tick s).phase = s.phase ∧
    (tick s).owed = s.owed ∧ (tick s).pending = s.pending

/-- RESET_ASSERTED, RESET_RELEASED and TABLE_INITIALISATION_END lead from any state to the full-reset values. From every
state, whatever runs: at the assertion every feed and wake line goes low, every operation, release, probe, arm,
rendezvous and countdown ends, every reception is abandoned and every transmission cut, and no event is raised; at the
release the part begins to initialise its tables; at its end every block holds its full-reset values and the part
runs. The levels of the sense and feed-fault inputs and of the uplink link, the part's own factory station address and
the queue of commands are carried over (the model's choice, logs 6, 8 and 11). The last two commands change nothing in
any other phase (log 1). (R169, R145, R168, R159, R86) -/
def Obligations.FullResetReachesResetValuesFromAnyState : Prop :=
  ∀ s : State, ∃ a b c : State,
    exec .resetAsserted s = .next a ∧ exec .resetReleased a = .next b ∧ exec .tableInitialisationEnd b = .next c ∧
    a.phase = .inReset ∧ a.owed = [] ∧ a.evu = s.evu ∧ a.adm.schedule = [] ∧
    (∀ p : Port,
      let r := a.port p
      r.feed = false ∧ r.wakeLine = false ∧ r.op.kind = .none ∧ r.releasing = false ∧ r.probe.running = false ∧
        r.senseFilter = none ∧ r.receiving = .idle ∧ r.egress.sending = none) ∧
    (∀ g : Group, (a.group g).arm.armed = false ∧ (a.group g).slot.pending = false) ∧
    a.uplink.receiving = .idle ∧ a.uplink.egress.sending = none ∧
    b.phase = .initialising ∧
    c = { State.reset with
      pending := s.pending
      ports := s.ports.map fun r => { PortRec.reset with senseIn := r.senseIn, feedFaultIn := r.feedFaultIn }
      uplink := { Uplink.reset with linkUp := s.uplink.linkUp }
      mga := { Mga.reset with factory := s.mga.factory } } ∧
    (s.phase ≠ .inReset → exec .resetReleased s = .next s) ∧
    (s.phase ≠ .initialising → exec .tableInitialisationEnd s = .next s)

/-- A due soft restart takes every block to its restart values and keeps what the chapters keep. When a RESTART's wait is
over, SOFT_RESTART gives each port its state after the restart (PAUSING becomes READY; WAKING and RESUMING become
PAUSED with the feed on and ASLEEP with it off; the others stay), abandons operations, empties queues, frees every
cell and record and zeroes counts; charges follow the new states and committed charges are their sums; an uplink loss
counts from 0 ms again, also one that has raised UPLINK_DOWN (the model's choice, log 58); configuration, draws, pin
and park flags, fault and last-wake records, estimates and lines are kept. ADM, GRP, TBM, MGA and EVU hold their
restart values. When no restart is due it changes nothing (log 1). (The PROBE template of a PAUSED port is judged
present without a read: the model's reading, log 24.) (R26, R50, R69, R86, R102, R114, R138, R145, R158, R159, R167) -/
def Obligations.SoftRestartOfEveryBlock : Prop :=
  ∀ s : State,
    (restartDue s = false → exec .softRestart s = .next s) ∧
    (restartDue s = true → ∃ t : State, exec .softRestart s = .next t ∧
      (∀ p : Port,
        let r := s.port p
        let r' := t.port p
        r'.state = (match r.state with
          | .pausing => .ready
          | .waking | .resuming => if r.feed then .paused else .asleep
          | st => st) ∧
        r'.charge = stateCharge r.draws r'.state ∧ r'.idle = 0 ∧ r'.deepIdle = 0 ∧ r'.link = 0 ∧
        r'.senseFilter = none ∧ r'.wakeLine = false ∧ r'.op.kind = .none ∧ r'.op.method = r.op.method ∧
        r'.op.started = r.op.started ∧
        r'.probe.running = (r'.state = .paused && r.cfg.probeInterval != 0 && templatePresent s p .probe) ∧
        (r'.probe.running → r'.probe.countdown = r.cfg.probeInterval) ∧
        r'.probe.nextSeq = 0 ∧ r'.probe.outstanding = none ∧ r'.probe.misses = 0 ∧ r'.probe.mismatches = 0 ∧
        r'.probe.capture = none ∧ r'.hold = [] ∧ r'.egress = Egress.empty ∧ r'.receiving = .idle ∧
        r'.releasing = false ∧ r'.counts = Counts.zero ∧ (∀ i : Fin 4, r'.proxies[i].occupied = false) ∧
        r'.cfg = r.cfg ∧ r'.draws = r.draws ∧ r'.pin = r.pin ∧ r'.park = r.park ∧ r'.fault = r.fault ∧
        r'.lastWake = r.lastWake ∧ r'.est = r.est ∧ r'.feed = r.feed ∧ r'.senseIn = r.senseIn ∧
        r'.feedFaultIn = r.feedFaultIn ∧ r'.linkUp = r.linkUp ∧ r'.station = r.station) ∧
      (∀ d : Domain, t.adm.committed[d] = domainCharge t d) ∧ t.adm.limits = s.adm.limits ∧
      t.adm.passLimit = s.adm.passLimit ∧ t.adm.wakeQueue = [] ∧ t.adm.schedule = [] ∧ t.adm.arrivals = 0 ∧
      (∀ c : CellNo, (t.cell c).refs = 0) ∧ t.free = List.finRange 256 ∧
      (∀ g : Group,
        (t.group g).arm.armed = false ∧ (t.group g).arm.intact = false ∧ (t.group g).arm.target = none ∧
        (t.group g).arm.members = 0 ∧ (t.group g).arm.watched = 0 ∧
        (t.group g).arm.breakReported = (s.group g).arm.breakReported ∧ (t.group g).slot.pending = false ∧
        (t.group g).slot.delivered = 0 ∧ (t.group g).slot.missed = 0 ∧ (t.group g).slot.unreachable = 0 ∧
        (t.group g).slot.outcome = .none ∧ (t.group g).address = (s.group g).address) ∧
      t.tbm = { s.tbm with
        proxy := s.tbm.proxy.map fun e => { e with poison := false }, scrubPeriod := 1000, scrubNext := some 0 } ∧
      t.uplink = { egress := Egress.empty, receiving := .idle, linkUp := s.uplink.linkUp, timer := 0, raised := false } ∧
      t.mga = { s.mga with fifo := [], responsesLost := 0, restart := none } ∧
      (∀ e : Fin 16, t.evu.events[e] = { pending := false, mask := s.evu.events[e].mask, detail := none }) ∧
      t.evu.noticeOutstanding = false ∧ t.evu.counts = DeviceCounts.zero ∧ t.phase = .running ∧ t.owed = [] ∧
      t.pending = s.pending)

/-- A reception takes the cell at the head of the free list, or the receiver's buffer alone. At a running part whose
ingress receives nothing: with a free cell, RECEPTION_START takes the cell at the head of the free list, gives it one
reference (so its count is 1 where the law of the frame store holds) and fills it; with none, the frame is received
into the buffer alone. Nothing else changes. A start at an ingress that receives already changes nothing (the model's
choice, log 1). (R70, R87, R88, R89) -/
def Obligations.ReceptionTakesTheHeadCell : Prop :=
  ∀ (e : EtherPort) (s : State), s.Settled →
    (s.receiving e = .idle → s.free = [] → exec (.receptionStart e) s = .next (s.setReceiving e .bufferOnly)) ∧
    (∀ (c : CellNo) (rest : List CellNo), s.receiving e = .idle → s.free = c :: rest → ∃ t : State,
      exec (.receptionStart e) s = .next t ∧
      t = addRef c (({ s with free := rest } : State).setReceiving e (.intoCell c)) ∧
      t.receiving e = .intoCell c ∧ (t.cell c).refs = (s.cell c).refs + 1 ∧ t.free = rest ∧
      (s.CellsLawful → (t.cell c).refs = 1)) ∧
    (s.receiving e ≠ .idle → exec (.receptionStart e) s = .next s)

/-- A frame that fails its check, and one that found no cell, is dropped, counted, and has no other effect. A frame
shorter than 64 B, longer than 2048 B or with a bad check sequence that ends its reception in a cell is counted (on
the uplink as a length error of the device, on a camera port in that port's dropped count with cause LENGTH) and gives
up the reference of its ingress; the cell holds its bytes up to 2048. One received into the buffer alone is counted in
the same way. One received so that passes the checks is looked up and classified, and another cause that would drop it
is counted instead: an unknown destination (counted also for the one DISABLED port with the address in its working
copy: the model's choice, log 31), a DISABLED or FAULTED port, ACTION, PARKED (for a poll too, with no look-up: the
model's choice, log 41), a disabled or poisoned group (known without a read, as its members are: the model's reading,
log 17). Otherwise NO_CELL is counted: upstream at its port; for a port there; for a group, CAPTURE at each member
that is not DISABLED, another class at each READY member; flooded at each READY port. CAPTURE then raises CAPTURE_DROP
with the port or group, or for a flood with no subject (log 17). Nothing else changes. (Management frames: their own
statements.) (R70, R88, R89, R72) -/
def Obligations.BadFrameIsDroppedAndCounted : Prop :=
  (∀ (p : Port) (bytes : List Byte) (good : Bool) (s : State), s.Settled →
    (good = false ∨ bytes.length < 64 ∨ 2048 < bytes.length) →
    (∀ c : CellNo, s.receiving .uplink = .intoCell c → exec (.uplinkFrameReceived bytes good) s =
      .next (dropRef c ((s.arrived .uplink c bytes).modDevice fun d => { d with lengthErrors := bump d.lengthErrors }))) ∧
    (s.receiving .uplink = .bufferOnly → exec (.uplinkFrameReceived bytes good) s =
      .next ((s.setReceiving .uplink .idle).modDevice fun d => { d with lengthErrors := bump d.lengthErrors })) ∧
    (∀ c : CellNo, s.receiving (.camera p) = .intoCell c → exec (.cameraFrameReceived p bytes good) s =
      .next (dropRef c (countDrop p .length (s.arrived (.camera p) c bytes)))) ∧
    (s.receiving (.camera p) = .bufferOnly → exec (.cameraFrameReceived p bytes good) s =
      .next (countDrop p .length (s.setReceiving (.camera p) .idle)))) ∧
  (∀ (bytes : List Byte) (s : State), s.Settled → 64 ≤ bytes.length → bytes.length ≤ 2048 →
    (∀ p : Port, s.receiving (.camera p) = .bufferOnly → frameType bytes ≠ 0x88B6 →
      let w := s.setReceiving (.camera p) .idle
      let answers := fun t : State => exec (.cameraFrameReceived p bytes true) s = .next t
      ((s.port p).state = .disabled → answers (countDrop p .disabled w)) ∧
      ((s.port p).state = .faulted → answers (countDrop p .faulted w)) ∧
      ((s.port p).state ≠ .disabled → (s.port p).state ≠ .faulted →
        answers (countDrop p .noCell (classify true (some p) bytes w).2))) ∧
    (s.receiving .uplink = .bufferOnly →
      let a := frameDest bytes
      let w := s.setReceiving .uplink .idle
      let answers := fun t : State => exec (.uplinkFrameReceived bytes true) s = .next t
      let holders := allPorts.filter fun p => (s.port p).state = .disabled && (s.port p).cfg.station = a
      let k := (classify false none bytes w).1
      let u := (classify false none bytes w).2
      let missed := fun lost : Port → Bool => { u with
        ports := Vector.ofFn fun q =>
          if lost q then { u.port q with counts := { (u.port q).counts with
            dropped := (u.port q).counts.dropped.set 7 (bump (u.port q).counts.dropped[7]) } }
          else u.port q }
      (a = s.mga.factory → frameType bytes ≠ 0x88B6 → answers (countUnknown w)) ∧
      (a ≠ s.mga.factory → isGroupAddr a = false → portWithStation? s a = none →
        (∀ p : Port, holders = [p] → answers (countDrop p .disabled (countUnknown w))) ∧
        (holders.length ≠ 1 → answers (countUnknown w))) ∧
      (∀ p : Port, a ≠ s.mga.factory → isGroupAddr a = false → portWithStation? s a = some p →
        let k := (classify false (some p) bytes w).1
        let u := (classify false (some p) bytes w).2
        let st := (s.port p).state
        let parked := (st = .paused ∨ st = .asleep) ∧ (s.port p).park = true ∧
          (k.action = .holdAndWake ∨ k.action = .answerOrWake)
        (st = .faulted → answers (countDrop p .faulted u)) ∧
        (st ≠ .faulted → st ≠ .disabled → st ≠ .ready → k.action = .drop → answers (countDrop p .action u)) ∧
        (parked → answers (countDrop p .parked u)) ∧
        (st ≠ .faulted → st ≠ .disabled → (st = .ready ∨ k.action ≠ .drop) → ¬ parked →
          answers (if k.cls = .capture then raise .captureDrop ⟨some p.val, 0, 0⟩ (countDrop p .noCell u)
            else countDrop p .noCell u))) ∧
      (∀ g : Group, a ≠ s.mga.factory → a ≠ broadcast → isGroupAddr a = true → groupWithAddress? s a = some g →
        let c := s.tbm.group[g]
        (c.val.enabled = false ∨ c.poison = true → answers (countUnknown u)) ∧
        (c.val.enabled = true → c.poison = false → k.cls = .capture → answers (raise .captureDrop ⟨some g.val, 1, 0⟩
          (missed fun q => hasPort c.val.members q && (s.port q).state ≠ .disabled))) ∧
        (c.val.enabled = true → c.poison = false → k.cls ≠ .capture →
          answers (missed fun q => hasPort c.val.members q && (s.port q).state = .ready))) ∧
      (a ≠ s.mga.factory → (a = broadcast ∧ frameType bytes ≠ 0x88B6 ∨
          a ≠ broadcast ∧ isGroupAddr a = true ∧ groupWithAddress? s a = none) →
        answers (if k.cls = .capture then raise .captureDrop ⟨none, 0, 0⟩ (missed fun q => (s.port q).state = .ready)
          else missed fun q => (s.port q).state = .ready))))

/-- An upstream frame with the management EtherType is dropped at its camera port. A camera frame that passes the length
check and carries the management EtherType is dropped whatever its destination and whatever its port's state: the
device counter of denied accesses rises by 1 and the cell gives up the reference of the ingress. It is not classified:
no rule and no class action is read, and the port is as before but for its ended reception. This holds for a frame in
a cell and for one received into the buffer alone. (R83) -/
def Obligations.UpstreamManagementFrameIsDenied : Prop :=
  ∀ (p : Port) (bytes : List Byte) (s : State), s.Settled → 64 ≤ bytes.length → bytes.length ≤ 2048 →
    frameType bytes = 0x88B6 →
    (∀ c : CellNo, s.receiving (.camera p) = .intoCell c → exec (.cameraFrameReceived p bytes true) s =
      .next (dropRef c ((s.arrived (.camera p) c bytes).modDevice fun d => { d with denied := bump d.denied }))) ∧
    (s.receiving (.camera p) = .bufferOnly → exec (.cameraFrameReceived p bytes true) s =
      .next ((s.setReceiving (.camera p) .idle).modDevice fun d => { d with denied := bump d.denied }))

/-- An upstream frame of a DISABLED or FAULTED port is dropped; of a READY, ASLEEP or waking port it is forwarded, where
it is no evidence. A camera frame that passes the checks: from a DISABLED or FAULTED port it is dropped and counted
with that cause, unclassified. From a READY port, with any class but PROBE_ANSWER, an activity class sets the idle
timer to 0 ms, a POLL_ANSWER is considered for learning as from READY (what that does:
LearnedAnswerGoesIntoOneRecord), and the frame is appended to the uplink transmit queue and counted as forwarded up;
at a full queue it is dropped with TX_FULL, and with the uplink down with UPLINK. A PROBE_ANSWER of a READY port is
consumed. From an ASLEEP port, and from a WAKING or RESUMING port of which it is no evidence (outside WINDOW of a COLD
or RESUME operation, or of a class that the readiness mode does not take), a frame of any class but PROBE_ANSWER is
forwarded or dropped in the same way and touches neither timers nor records (Table 4-5), and a PROBE_ANSWER is
consumed. u is the state after the reads of the classification. Nothing else changes. (R84, R85, R77, R16, R36, R105) -/
def Obligations.UpstreamFrameIsForwardedOrDropped : Prop :=
  ∀ (p : Port) (c : CellNo) (bytes : List Byte) (s : State), s.Receives (.camera p) c bytes →
    frameType bytes ≠ 0x88B6 →
    ((s.port p).state = .disabled → exec (.cameraFrameReceived p bytes true) s =
      .next (dropRef c (countDrop p .disabled (s.arrived (.camera p) c bytes)))) ∧
    ((s.port p).state = .faulted → exec (.cameraFrameReceived p bytes true) s =
      .next (dropRef c (countDrop p .faulted (s.arrived (.camera p) c bytes)))) ∧
    ((s.port p).state = .ready →
      let k := (s.classifiedUp p c bytes).1
      let u := (s.classifiedUp p c bytes).2
      let w := u.modPort p fun r => { r with idle := if k.activity then 0 else r.idle }
      let v := if k.cls = .pollAnswer then considerLearning p .ready bytes k.keyOffset k.seqOffset w else w
      k.cls ≠ .probeAnswer →
      (s.uplink.linkUp = false → exec (.cameraFrameReceived p bytes true) s = .next (dropRef c (countDrop p .uplink v))) ∧
      (s.uplink.linkUp = true → txFull v .uplink = true →
        exec (.cameraFrameReceived p bytes true) s = .next (dropRef c (countDrop p .txFull v))) ∧
      (s.uplink.linkUp = true → txFull v .uplink = false → exec (.cameraFrameReceived p bytes true) s =
        .next ((v.modEgress .uplink fun g => { g with queue := g.queue ++ [⟨c, bytes.length, none⟩] }).modCounts p
          fun n => { n with forwardedUp := bump n.forwardedUp }))) ∧
    (let k := (s.classifiedUp p c bytes).1
      let u := (s.classifiedUp p c bytes).2
      let r := s.port p
      let answers := fun t : State => exec (.cameraFrameReceived p bytes true) s = .next t
      let evidence := (r.op.kind = .cold ∨ r.op.kind = .resume) ∧ r.op.phase = .window ∧
        (k.cls = .readySign ∨ r.cfg.readiness = .anyFrame ∧ k.cls ≠ .probeAnswer)
      let quiet := r.state = .asleep ∨ (r.state = .waking ∨ r.state = .resuming) ∧ ¬ evidence;
      (r.state = .ready → k.cls = .probeAnswer →
        answers (dropRef c (u.modPort p fun r => { r with idle := if k.activity then 0 else r.idle }))) ∧
      (quiet → k.cls = .probeAnswer → answers (dropRef c u)) ∧
      (quiet → k.cls ≠ .probeAnswer →
        (s.uplink.linkUp = false → answers (dropRef c (countDrop p .uplink u))) ∧
        (s.uplink.linkUp = true → txFull u .uplink = true → answers (dropRef c (countDrop p .txFull u))) ∧
        (s.uplink.linkUp = true → txFull u .uplink = false → answers
          ((u.modEgress .uplink fun g => { g with queue := g.queue ++ [⟨c, bytes.length, none⟩] }).modCounts p
            fun n => { n with forwardedUp := bump n.forwardedUp }))))

/-- A frame for a READY port goes to its transmit queue, or is held behind a release in progress. A unicast frame for an
enabled READY port, whatever its class and action: at a deliverable port with room it is appended to the transmit
queue and counted as forwarded down, and an activity class sets the idle timer to 0 ms; at a full transmit queue it is
dropped with TX_FULL. At a port that is not deliverable (a release is in progress) it is held with its marks and makes
no need; at a full hold queue it is dropped with HOLD_FULL and HOLD_DROP is raised, and CAPTURE_DROP for a CAPTURE
frame. u is the state after the reads of the classification; nothing else changes. (HOLD_DROP before CAPTURE_DROP, and
the frame's cell given up after them: the model's choices, logs 56 and 57.) (R79, R77, R78, R90, R92, R97) -/
def Obligations.DownstreamFrameAtReadyPort : Prop :=
  ∀ (p : Port) (c : CellNo) (bytes : List Byte) (s : State), s.Addresses p c bytes → (s.port p).state = .ready →
    let k := (s.classifiedDown p c bytes).1
    let u := (s.classifiedDown p c bytes).2
    let full := raise .holdDrop (Detail.port p) (countDrop p .holdFull u)
    (deliverable u p = true → txFull u (.camera p) = false → exec (.uplinkFrameReceived bytes true) s =
      .next (u.modPort p fun r => { r with
        egress := { r.egress with queue := r.egress.queue ++ [⟨c, bytes.length, none⟩] }
        counts := { r.counts with forwardedDown := bump r.counts.forwardedDown }
        idle := if k.activity then 0 else r.idle })) ∧
    (deliverable u p = true → txFull u (.camera p) = true →
      exec (.uplinkFrameReceived bytes true) s = .next (dropRef c (countDrop p .txFull u))) ∧
    (deliverable u p = false → (u.port p).hold.length < (u.port p).cfg.holdLimit →
      exec (.uplinkFrameReceived bytes true) s =
        .next (u.modPort p fun r => { r with
          hold := r.hold ++ [⟨c, bytes.length, k.cls, k.activity, k.action.waking⟩]
          counts := { r.counts with held := bump r.counts.held } })) ∧
    (deliverable u p = false → (u.port p).cfg.holdLimit ≤ (u.port p).hold.length →
      exec (.uplinkFrameReceived bytes true) s =
        .next (dropRef c (if k.cls = .capture then raise .captureDrop (Detail.port p) full else full)))

/-- A frame for a port that is not READY is held, held with a TRAFFIC need, or dropped, by its action and the port's
state. A unicast frame for an enabled port: in FAULTED it is dropped with cause FAULTED. In any other state but READY
a DROP frame is dropped with cause ACTION. With room in the hold queue: in WAKING and RESUMING every other frame, and
in PAUSING, PAUSED and ASLEEP a HOLD frame, parked or not, is held with its marks and makes no need; a frame with a
waking action is held and then hands ADM a TRAFFIC need in PAUSING, and in an unparked ASLEEP or (HOLD_AND_WAKE)
PAUSED port; at a parked ASLEEP or PAUSED one it is dropped with cause PARKED. A frame that would be held at a full
hold queue is dropped with HOLD_FULL, HOLD_DROP is raised with the port, and CAPTURE_DROP for a CAPTURE frame, and it
makes no need. (HOLD_DROP before CAPTURE_DROP, and the frame's cell given up after them: the model's choices, logs 56
and 57.) (ANSWER_OR_WAKE in PAUSED: PollAtPausedPort.) u is the state after the reads of the classification. (R80,
R22, R78, R90, R91, R53) -/
def Obligations.DownstreamFrameAtPortThatIsNotReady : Prop :=
  ∀ (p : Port) (c : CellNo) (bytes : List Byte) (s : State), s.Addresses p c bytes →
    let k := (s.classifiedDown p c bytes).1
    let u := (s.classifiedDown p c bytes).2
    let st := (s.port p).state
    let kept := u.modPort p fun r => { r with
      hold := r.hold ++ [⟨c, bytes.length, k.cls, k.activity, k.action.waking⟩]
      counts := { r.counts with held := bump r.counts.held } }
    (st = .faulted → exec (.uplinkFrameReceived bytes true) s = .next (dropRef c (countDrop p .faulted u))) ∧
    (st ≠ .ready → st ≠ .faulted → st ≠ .disabled → k.action = .drop →
      exec (.uplinkFrameReceived bytes true) s = .next (dropRef c (countDrop p .action u))) ∧
    ((u.port p).hold.length < (u.port p).cfg.holdLimit →
      ((st = .waking ∨ st = .resuming) ∧ k.action ≠ .drop ∨
        (st = .pausing ∨ st = .paused ∨ st = .asleep) ∧ k.action = .hold →
          exec (.uplinkFrameReceived bytes true) s = .next kept) ∧
      (st = .pausing ∧ k.action.waking ∨ st = .asleep ∧ k.action.waking ∧ (s.port p).park = false ∨
        st = .paused ∧ k.action = .holdAndWake ∧ (s.port p).park = false →
          exec (.uplinkFrameReceived bytes true) s =
            .next (settle (dropRef c (takeNeed .traffic p (addRef c kept)))))) ∧
    ((s.port p).park = true → st = .asleep ∧ k.action.waking ∨ st = .paused ∧ k.action = .holdAndWake →
      exec (.uplinkFrameReceived bytes true) s = .next (dropRef c (countDrop p .parked u))) ∧
    ((u.port p).cfg.holdLimit ≤ (u.port p).hold.length →
      (st = .waking ∨ st = .resuming) ∧ k.action ≠ .drop ∨
        (st = .pausing ∨ st = .paused ∨ st = .asleep) ∧ k.action = .hold ∨
        st = .pausing ∧ k.action.waking ∨ st = .asleep ∧ k.action.waking ∧ (s.port p).park = false ∨
        st = .paused ∧ k.action = .holdAndWake ∧ (s.port p).park = false →
      let full := raise .holdDrop ⟨some p.val, 0, 0⟩ (countDrop p .holdFull u)
      exec (.uplinkFrameReceived bytes true) s =
        .next (dropRef c (if k.cls = .capture then raise .captureDrop ⟨some p.val, 0, 0⟩ full else full)))

/-- A poll for a PAUSED port is answered from a fresh record, and otherwise held with a TRAFFIC need or dropped as PARKED.
An ANSWER_OR_WAKE frame for a PAUSED port is looked up by SAU. On a hit with a free cell and a place in the uplink
transmit queue, the answer of R109 is built in the cell at the head of the free list and appended, the answered count
rises, and the request gives up its cell. Without a free cell, or with 32 entries in that queue, the answer is lost
and counted so, and the request is consumed all the same (a cell taken rejoins the tail of the free list: the model's
choice, log 10). On a miss or a stale record, with room in the hold queue, it is held with a TRAFFIC need at an
unparked port and dropped with cause PARKED at a parked one; without room, at an unparked port, it is dropped with
HOLD_FULL, HOLD_DROP and for CAPTURE also CAPTURE_DROP. (HOLD_DROP before CAPTURE_DROP, and the frame's cell given up
after them: the model's choices, logs 56 and 57.) The port's state and timers are not touched by an answer. (R108,
R109, R80, R88, R90) -/
def Obligations.PollAtPausedPort : Prop :=
  ∀ (p : Port) (c : CellNo) (bytes : List Byte) (s : State), s.Addresses p c bytes → (s.port p).state = .paused →
    let k := (s.classifiedDown p c bytes).1
    let u := (s.classifiedDown p c bytes).2
    let found := (lookUpPoll p bytes k.keyOffset u).1
    let v := (lookUpPoll p bytes k.keyOffset u).2
    k.action = .answerOrWake →
    (∀ (e : ProxyEntry) (d : CellNo) (rest : List CellNo), found = some e → v.free = d :: rest →
      txFull v .uplink = false →
      let bs := answerFrame e (v.port p).cfg.station bytes k.seqOffset
      exec (.uplinkFrameReceived bytes true) s =
        .next (dropRef c ((appendTx .uplink ⟨d, bs.length, none⟩
          (storeCell d bs { v with free := rest })).modCounts p fun n => { n with answered := bump n.answered }))) ∧
    (∀ e : ProxyEntry, found = some e → v.free = [] → exec (.uplinkFrameReceived bytes true) s =
      .next (dropRef c (v.modCounts p fun n => { n with lost := bump n.lost }))) ∧
    (found = none → (s.port p).park = true →
      exec (.uplinkFrameReceived bytes true) s = .next (dropRef c (countDrop p .parked v))) ∧
    (found = none → (s.port p).park = false → (v.port p).hold.length < (v.port p).cfg.holdLimit →
      exec (.uplinkFrameReceived bytes true) s =
        .next (settle (dropRef c (takeNeed .traffic p (addRef c (v.modPort p fun r => { r with
          hold := r.hold ++ [⟨c, bytes.length, k.cls, k.activity, true⟩]
          counts := { r.counts with held := bump r.counts.held } })))))) ∧
    (∀ (e : ProxyEntry) (d : CellNo) (rest : List CellNo), found = some e → v.free = d :: rest →
      32 ≤ v.uplink.egress.queue.length → exec (.uplinkFrameReceived bytes true) s =
        .next (dropRef c (({ v with free := rest ++ [d] } : State).modCounts p fun n => { n with lost := bump n.lost }))) ∧
    (found = none → (s.port p).park = false → (v.port p).cfg.holdLimit ≤ (v.port p).hold.length →
      let full := raise .holdDrop ⟨some p.val, 0, 0⟩ (countDrop p .holdFull v)
      exec (.uplinkFrameReceived bytes true) s =
        .next (dropRef c (if k.cls = .capture then raise .captureDrop ⟨some p.val, 0, 0⟩ full else full)))

/-- A poll is a hit exactly when an occupied record holds its key and is below the answer age limit. For a port each of
whose occupied proxy records is clean and unpoisoned, with no two of the same key: a poll with no readable key is a
miss; a poll whose key no occupied record holds is a miss; a record that holds the key gives its entry where its age
is below the answer age limit in ms, and none (stale) where it is not. The look-up changes nothing. (R103, R104, R108) -/
def Obligations.PollIsAHitOnAFreshRecordOfItsKey : Prop :=
  ∀ (p : Port) (bytes : List Byte) (keyOffset : Option Nat) (s : State),
    (∀ i : Fin 4, (s.port p).proxies[i].occupied = true →
      s.tbm.proxy[proxyIndex p i].poison = false ∧ ∀ w : Fin 65, s.tbm.proxy[proxyIndex p i].words[w] = .good) →
    (∀ i j : Fin 4, (s.port p).proxies[i].occupied = true → (s.port p).proxies[j].occupied = true →
      s.tbm.proxy[proxyIndex p i].val.key = s.tbm.proxy[proxyIndex p j].val.key → i = j) →
    (keyOffset.bind (word16At? bytes) = none → lookUpPoll p bytes keyOffset s = (none, s)) ∧
    (∀ key : BitVec 16, keyOffset.bind (word16At? bytes) = some key →
      (∀ i : Fin 4, (s.port p).proxies[i].occupied = true → s.tbm.proxy[proxyIndex p i].val.key = key →
        lookUpPoll p bytes keyOffset s =
          (if (s.port p).proxies[i].age < (s.port p).cfg.ageLimit * 1000 then some s.tbm.proxy[proxyIndex p i].val
            else none, s)) ∧
      ((∀ i : Fin 4, (s.port p).proxies[i].occupied = true → s.tbm.proxy[proxyIndex p i].val.key ≠ key) →
        lookUpPoll p bytes keyOffset s = (none, s)))

/-- A poll answer of a READY or PAUSING port is learned whole into the record of its key, a free record or the oldest.
SAU's consideration of a POLL_ANSWER that CLS hands it from port p found in state st, at a port whose occupied records
are clean and unpoisoned: outside READY and PAUSING, with an answer age limit of 0, or with no readable key, nothing
changes; above 256 B the answer-too-long count rises; otherwise one record i becomes occupied with age 0 ms and its
entry holds the key, the length, the bytes and the sequence offset where it fits, written with fresh check bits, the
learned count rises, and the other records and everything else are unchanged. The record i is one that held the key;
where none did, the free one of lowest index; where none was free, one of the greatest age. (R105, R106, R107) -/
def Obligations.LearnedAnswerGoesIntoOneRecord : Prop :=
  ∀ (p : Port) (st : PortState) (bytes : List Byte) (keyOffset seqOffset : Option Nat) (s : State),
    (∀ i : Fin 4, (s.port p).proxies[i].occupied = true →
      s.tbm.proxy[proxyIndex p i].poison = false ∧ ∀ w : Fin 65, s.tbm.proxy[proxyIndex p i].words[w] = .good) →
    let learns := (st = .ready ∨ st = .pausing) ∧ (s.port p).cfg.ageLimit ≠ 0
    let t := considerLearning p st bytes keyOffset seqOffset s
    (¬ learns → t = s) ∧ (keyOffset.bind (word16At? bytes) = none → t = s) ∧
    (∀ key : BitVec 16, learns → keyOffset.bind (word16At? bytes) = some key →
      (256 < bytes.length → t = s.modCounts p fun n => { n with tooLong := bump n.tooLong }) ∧
      (bytes.length ≤ 256 → ∃ i : Fin 4,
        t = ((writeProxy (proxyIndex p i)
            { key := key, length := bytes.length, bytes := bytes,
              seqOffset := seqOffset.filter fun o => decide (o + 2 ≤ bytes.length) } s).modPort p fun r =>
          { r with
            proxies := r.proxies.set i { occupied := true, age := 0 }
            counts := { r.counts with learned := bump r.counts.learned } }) ∧
        let holds := fun j : Fin 4 => (s.port p).proxies[j].occupied = true ∧ s.tbm.proxy[proxyIndex p j].val.key = key
        (holds i ∨
          (∀ j, ¬ holds j) ∧ (s.port p).proxies[i].occupied = false ∧
            (∀ j, j < i → (s.port p).proxies[j].occupied = true) ∨
          (∀ j, ¬ holds j) ∧ (∀ j : Fin 4, (s.port p).proxies[j].occupied = true) ∧
            (∀ j : Fin 4, (s.port p).proxies[j].age ≤ (s.port p).proxies[i].age) ∧
            (∀ j, j < i → (s.port p).proxies[j].age < (s.port p).proxies[i].age))))

/-- A frame for an unknown unicast address is dropped and counted, also for the one DISABLED port that holds the address.
A frame on the uplink that passes the checks, with a unicast destination that is not the part's own and that no
enabled port holds, is dropped and counted as an unknown destination; where exactly one DISABLED port holds the
address in its configuration, that port's dropped count with cause DISABLED rises too. A frame for the part's own
address with another EtherType is dropped and counted as an unknown destination. Nothing else changes. (The DISABLED
port is found by the working copy of its configuration: the model's choice, log 31.) (R71, R72) -/
def Obligations.UnknownDestinationIsCounted : Prop :=
  ∀ (c : CellNo) (bytes : List Byte) (s : State), s.Receives .uplink c bytes →
    let a := frameDest bytes
    let holders := allPorts.filter fun p => (s.port p).state = .disabled && (s.port p).cfg.station = a
    (a = s.mga.factory → frameType bytes ≠ 0x88B6 → exec (.uplinkFrameReceived bytes true) s =
      .next (dropRef c (countUnknown (s.arrived .uplink c bytes)))) ∧
    (a ≠ s.mga.factory → isGroupAddr a = false → portWithStation? s a = none →
      (∀ p : Port, holders = [p] → exec (.uplinkFrameReceived bytes true) s =
        .next (dropRef c (countDrop p .disabled (countUnknown (s.arrived .uplink c bytes))))) ∧
      (holders.length ≠ 1 → exec (.uplinkFrameReceived bytes true) s =
        .next (dropRef c (countUnknown (s.arrived .uplink c bytes)))))

/-- A broadcast frame, and a multicast frame of no group, is copied to every READY port and to no other. A frame on the
uplink that passes the checks and is flooded: at each READY port with room one entry that names the cell is appended
and counted as forwarded down, and an activity class sets the idle timer to 0 ms; at a READY port with a full queue
the copy is dropped with TX_FULL; no other port is touched. The cell has one reference more for each copy placed and
gives up that of the ingress; where none was placed and no other entry names it, it joins the tail of the free list.
Everything else is as the reads of the classification left it. (R82, R77, R88, R92) -/
def Obligations.FloodedFrameReachesEveryReadyPort : Prop :=
  ∀ (c : CellNo) (bytes : List Byte) (s : State), s.Receives .uplink c bytes →
    frameDest bytes ≠ s.mga.factory →
    (frameDest bytes = broadcast ∧ frameType bytes ≠ 0x88B6 ∨
      frameDest bytes ≠ broadcast ∧ isGroupAddr (frameDest bytes) = true ∧
        groupWithAddress? s (frameDest bytes) = none) →
    let k := (s.classifiedWide c bytes).1
    let u := (s.classifiedWide c bytes).2
    let copies := allPorts.countP fun q => (u.port q).state = .ready && !txFull u (.camera q)
    ∃ t : State, exec (.uplinkFrameReceived bytes true) s = .next t ∧
      (∀ q : Port, t.port q =
        if (u.port q).state ≠ .ready then u.port q
        else if txFull u (.camera q) then
          { u.port q with counts := { (u.port q).counts with
            dropped := (u.port q).counts.dropped.set 6 (bump (u.port q).counts.dropped[6]) } }
        else
          { u.port q with
            egress := { (u.port q).egress with queue := (u.port q).egress.queue ++ [⟨c, bytes.length, none⟩] }
            counts := { (u.port q).counts with forwardedDown := bump (u.port q).counts.forwardedDown }
            idle := if k.activity then 0 else (u.port q).idle }) ∧
      (t.cell c).refs = (u.cell c).refs + copies - 1 ∧ (∀ d : CellNo, d ≠ c → t.cell d = u.cell d) ∧
      (t.cell c).data = (u.cell c).data ∧
      t.free = (if (u.cell c).refs + copies = 1 then u.free ++ [c] else u.free) ∧
      t.uplink = u.uplink ∧ t.adm = u.adm ∧ t.groups = u.groups ∧ t.tbm = u.tbm ∧ t.mga = u.mga ∧ t.evu = u.evu ∧
      t.phase = u.phase ∧ t.owed = [] ∧ t.pending = s.pending

/-- A group frame of a class other than CAPTURE is copied to the READY members of an enabled group. A frame on the uplink
that passes the checks, resolves to a group and is of a class other than CAPTURE: where GRP's read finds the entry
poisoned or the group disabled, it is dropped and counted as an unknown destination; where the group is enabled, one
copy goes to each READY member, in ascending order, as forwarding would place it, or is dropped with TX_FULL at a full
queue, and members in other states get none. The cell has one reference more for each copy placed and gives up that of
the ingress; where none was placed and no other entry names it, it joins the tail of the free list. Everything else is
as the reads left it. (R81, R77, R88, R92) -/
def Obligations.GroupFrameIsCopiedToReadyMembers : Prop :=
  ∀ (g : Group) (c : CellNo) (bytes : List Byte) (s : State), s.Receives .uplink c bytes →
    frameDest bytes ≠ s.mga.factory → frameDest bytes ≠ broadcast → isGroupAddr (frameDest bytes) = true →
    groupWithAddress? s (frameDest bytes) = some g →
    let k := (s.classifiedWide c bytes).1
    let read := readGroup g (s.classifiedWide c bytes).2
    let v := read.2
    k.cls ≠ .capture →
    (read.1 = none → exec (.uplinkFrameReceived bytes true) s = .next (dropRef c (countUnknown v))) ∧
    (∀ cfg : GroupConfig, read.1 = some cfg → cfg.enabled = false →
      exec (.uplinkFrameReceived bytes true) s = .next (dropRef c (countUnknown v))) ∧
    (∀ cfg : GroupConfig, read.1 = some cfg → cfg.enabled = true →
      let copies := allPorts.countP fun q =>
        hasPort cfg.members q && (v.port q).state = .ready && !txFull v (.camera q)
      ∃ t : State, exec (.uplinkFrameReceived bytes true) s = .next t ∧
        (∀ q : Port, t.port q =
          if (v.port q).state ≠ .ready ∨ hasPort cfg.members q = false then v.port q
          else if txFull v (.camera q) then
            { v.port q with counts := { (v.port q).counts with
              dropped := (v.port q).counts.dropped.set 6 (bump (v.port q).counts.dropped[6]) } }
          else
            { v.port q with
              egress := { (v.port q).egress with queue := (v.port q).egress.queue ++ [⟨c, bytes.length, none⟩] }
              counts := { (v.port q).counts with forwardedDown := bump (v.port q).counts.forwardedDown }
              idle := if k.activity then 0 else (v.port q).idle }) ∧
        (t.cell c).refs = (v.cell c).refs + copies - 1 ∧ (t.cell c).data = (v.cell c).data ∧
        (∀ d : CellNo, d ≠ c → t.cell d = v.cell d) ∧
        t.free = (if (v.cell c).refs + copies = 1 then v.free ++ [c] else v.free) ∧
        t.uplink = v.uplink ∧ t.adm = v.adm ∧ t.groups = v.groups ∧ t.tbm = v.tbm ∧ t.mga = v.mga ∧ t.evu = v.evu ∧
        t.phase = v.phase ∧ t.owed = [] ∧ t.pending = s.pending)

/-- A trigger is dropped, an overrun, refused, delivered at once or made pending, by the first step that applies. A
CAPTURE frame that resolves to group g: where GRP's read finds the entry poisoned, or the group is disabled or has no
members, it is dropped and counted as an unknown destination; else with the slot PENDING it is dropped with
TRIGGER_OVERRUN; else a strict group that is not armed and intact drops it with TRIGGER_REFUSED; else, with every
member deliverable, it is delivered at its arrival to every member (what that does:
DeliveryPlacesOneEntryForEachTarget); else it is made pending (what that does: PendingTriggerSortsItsMembers). v is
the state after the reads; in the first three cases nothing else changes. (That the frame's cell is given up after the
event: the model's choice, log 57.) (R118, R81, R137) -/
def Obligations.TriggerIsJudgedInOrder : Prop :=
  ∀ (g : Group) (c : CellNo) (bytes : List Byte) (s : State), s.Receives .uplink c bytes →
    frameDest bytes ≠ s.mga.factory → frameDest bytes ≠ broadcast → isGroupAddr (frameDest bytes) = true →
    groupWithAddress? s (frameDest bytes) = some g →
    let k := (s.classifiedWide c bytes).1
    let read := readGroup g (s.classifiedWide c bytes).2
    let v := read.2
    let a := (v.group g).arm
    k.cls = .capture →
    (read.1 = none → exec (.uplinkFrameReceived bytes true) s = .next (dropRef c (countUnknown v))) ∧
    (∀ cfg : GroupConfig, read.1 = some cfg →
      (cfg.enabled = false ∨ cfg.members = 0 →
        exec (.uplinkFrameReceived bytes true) s = .next (dropRef c (countUnknown v))) ∧
      (cfg.enabled = true → cfg.members ≠ 0 →
        ((v.group g).slot.pending = true → exec (.uplinkFrameReceived bytes true) s =
          .next (dropRef c (raise .triggerOverrun (Detail.group g) v))) ∧
        ((v.group g).slot.pending = false →
          (cfg.strict = true ∧ (a.armed = false ∨ a.intact = false) → exec (.uplinkFrameReceived bytes true) s =
            .next (dropRef c (raise .triggerRefused (Detail.group g) v))) ∧
          (cfg.strict = false ∨ a.armed = true ∧ a.intact = true →
            (deliverableOf v cfg.members = cfg.members → exec (.uplinkFrameReceived bytes true) s =
              .next (dropRef c (deliverAtArrival g cfg c k.activity v))) ∧
            (deliverableOf v cfg.members ≠ cfg.members → exec (.uplinkFrameReceived bytes true) s =
              .next (settle (dropRef c (makePending g cfg c k.activity v))))))))

/-- A trigger made pending copies its group's settings, sorts its members and hands ADM its RENDEZVOUS needs. A trigger
made pending takes a reference to its cell and fills the slot: PENDING, the cell, the rendezvous window, the members,
policy, strict flag and activity mark, empty delivered and missed sets, outcome NONE, and as unreachable the members
that are DISABLED or FAULTED, or PAUSED or ASLEEP and parked. Under ABANDON with an unreachable member it is abandoned
at once with no need made. Otherwise one RENDEZVOUS need is handed to ADM for each reachable member in PAUSING, PAUSED
or ASLEEP, in ascending port order, and the trigger waits, with no re-evaluation at its arrival, even where the
reachable members are all deliverable (the model's reading, log 34). (R119, R122, R53) -/
def Obligations.PendingTriggerSortsItsMembers : Prop :=
  ∀ (g : Group) (cfg : GroupConfig) (c : CellNo) (activity : Bool) (s : State),
    let t := (addRef c s).modSlot g fun _ =>
      { pending := true, cell := c, window := cfg.window, members := cfg.members, policy := cfg.policy,
        strict := cfg.strict, activity := activity, delivered := 0, missed := 0,
        unreachable := portsWhere fun p => hasPort cfg.members p &&
          ((s.port p).state = .disabled || (s.port p).state = .faulted ||
            ((s.port p).state = .paused || (s.port p).state = .asleep) && (s.port p).park),
        outcome := .none }
    let x := (t.group g).slot
    (cfg.policy = .abandon → x.unreachable ≠ 0 → makePending g cfg c activity s = abandonTrigger g t) ∧
    (cfg.policy = .partialSet ∨ x.unreachable = 0 → makePending g cfg c activity s =
      ((portList cfg.members).filter fun p => ((s.port p).state = .pausing || (s.port p).state = .paused ||
        (s.port p).state = .asleep) && !hasPort x.unreachable p).foldl (fun s p => takeNeed .rendezvous p s) t)

/-- A delivery, later or at arrival, places one rewritten entry for each target with room, frees the slot and says who got
it. The delivery of a pending trigger to a set of its members, and of a trigger at its arrival to every member: each
target with room in its transmit queue gets one entry that names the trigger's cell and carries the target as its
rewrite, counted as forwarded down, and the activity mark sets the idle timer of a READY target to 0 ms; a target with
a full queue counts TX_FULL; no other port is touched. The cell gains one reference for each entry and gives up the
slot's, which a delivery at arrival has added first; with none left it joins the tail of the free list. The slot is
FREE; its delivered set is the targets that got an entry, its missed set the other members; the outcome is DELIVERED
with none missed, else PARTIAL, and RENDEZVOUS_INCOMPLETE is raised with the group, the outcome's code and the missed
set. At arrival the slot shows the cell, members, policy, strict flag and activity mark of the trigger and an empty
unreachable set; its window stands. (That it shows those, beside the sets and the outcome that R124 names: Table 7-3
and the model's reading, log 54.) (R124, R118, R125, R93, R101, R77, R88) -/
def Obligations.DeliveryPlacesOneEntryForEachTarget : Prop :=
  ∀ (g : Group) (s : State),
    let delivers := fun (c : CellNo) (activity : Bool) (members targets : PortSet) (slot : Slot) (refs : Nat) (t : State) =>
      let placed := portsWhere fun p => hasPort targets p && !txFull s (.camera p)
      let missed := members &&& ~~~ placed
      (∀ q : Port, t.port q =
        if hasPort targets q = false then s.port q
        else if txFull s (.camera q) then
          { s.port q with counts := { (s.port q).counts with
            dropped := (s.port q).counts.dropped.set 6 (bump (s.port q).counts.dropped[6]) } }
        else
          { s.port q with
            egress := { (s.port q).egress with
              queue := (s.port q).egress.queue ++ [⟨c, (s.cell c).data.length, some q⟩] }
            counts := { (s.port q).counts with forwardedDown := bump (s.port q).counts.forwardedDown }
            idle := if activity = true ∧ (s.port q).state = .ready then 0 else (s.port q).idle }) ∧
      t.group g = { s.group g with slot := { slot with
        pending := false, delivered := placed, missed := missed,
        outcome := if missed = 0 then .delivered else .partialSet } } ∧
      (∀ h : Group, h ≠ g → t.group h = s.group h) ∧
      (∃ w : State, t = (if missed = 0 then w else raise .rendezvousIncomplete ⟨some g.val, 2, missed⟩ w) ∧
        (w.cell c).refs = refs + (portList placed).length - 1 ∧ (w.cell c).data = (s.cell c).data ∧
        (∀ d : CellNo, d ≠ c → w.cell d = s.cell d) ∧
        w.free = s.free ++ (if refs + (portList placed).length = 1 then [c] else []) ∧
        w.uplink = s.uplink ∧ w.evu = s.evu) ∧
      (missed ≠ 0 → t.evu.events[Event.rendezvousIncomplete.num].pending = true ∧
        t.evu.events[Event.rendezvousIncomplete.num].detail = some ⟨some g.val, 2, missed⟩) ∧
      (missed = 0 → t.evu = s.evu) ∧ t.adm = s.adm ∧ t.tbm = s.tbm ∧ t.mga = s.mga ∧ t.owed = s.owed ∧
      t.phase = s.phase ∧ t.pending = s.pending
    (∀ targets : PortSet,
      let x := (s.group g).slot
      delivers x.cell x.activity x.members targets x (s.cell x.cell).refs (deliverPending g targets s)) ∧
    (∀ (cfg : GroupConfig) (c : CellNo) (activity : Bool),
      delivers c activity cfg.members cfg.members
        { (s.group g).slot with
          cell := c, members := cfg.members, policy := cfg.policy, strict := cfg.strict, activity := activity
          unreachable := 0 }
        ((s.cell c).refs + 1) (deliverAtArrival g cfg c activity s))

/-- A management frame for the part is taken into the FIFO or dropped by the first check that applies. A frame on the
uplink that passes the checks, with the management EtherType and the part's own or the broadcast address: from a
source that neither nonzero manager address names, with one of them nonzero, it is dropped, counted as denied, and
ACCESS_DENIED is raised; else one that is not a REQUEST, or a broadcast that is not IDENTIFY, is dropped and counted
as an unknown destination; else at a FIFO of 8 it is dropped and counted as an overflow; else its request (source,
received length, every byte from byte 14) joins the tail of the FIFO. The cell gives up the reference of the ingress
in every case. One that found no free cell is counted as an overflow. No response is sent. (R146, R71) -/
def Obligations.ManagementRequestIsTakenOrDropped : Prop :=
  ∀ (bytes : List Byte) (s : State), s.Settled → 64 ≤ bytes.length → bytes.length ≤ 2048 →
    frameType bytes = 0x88B6 → (frameDest bytes = s.mga.factory ∨ frameDest bytes = broadcast) →
    let known := s.mga.managerA = 0 ∧ s.mga.managerB = 0 ∨
      s.mga.managerA ≠ 0 ∧ frameSource bytes = s.mga.managerA ∨ s.mga.managerB ≠ 0 ∧ frameSource bytes = s.mga.managerB
    let proper := natAt bytes 15 1 = 1 ∧ (frameDest bytes = broadcast → natAt bytes 18 1 = 1)
    (∀ c : CellNo, s.receiving .uplink = .intoCell c →
      let u := s.arrived .uplink c bytes
      (¬ known → exec (.uplinkFrameReceived bytes true) s =
        .next (dropRef c (raise .accessDenied Detail.bare (u.modDevice fun d => { d with denied := bump d.denied })))) ∧
      (known → ¬ proper → exec (.uplinkFrameReceived bytes true) s = .next (dropRef c (countUnknown u))) ∧
      (known → proper → 8 ≤ s.mga.fifo.length → exec (.uplinkFrameReceived bytes true) s =
        .next (dropRef c (u.modDevice fun d => { d with fifoOverflows := bump d.fifoOverflows }))) ∧
      (known → proper → s.mga.fifo.length < 8 → exec (.uplinkFrameReceived bytes true) s =
        .next (dropRef c (u.modMga fun m =>
          { m with fifo := m.fifo ++ [⟨frameSource bytes, bytes.length, bytes.drop 14⟩] })))) ∧
    (s.receiving .uplink = .bufferOnly → exec (.uplinkFrameReceived bytes true) s =
      .next ((s.setReceiving .uplink .idle).modDevice fun d => { d with fifoOverflows := bump d.fifoOverflows }))

/-- The first rule in ascending index that fits and matches gives a frame its class and offsets, and none gives BULK. With
every rule and class action clean and unpoisoned, classification changes nothing. Where rule i fits the frame and
matches it and no rule before it does both, the frame takes the class and the two offsets of rule i; where no rule
does, the class is BULK with no offsets. The action and the activity flag are those of the class's entry. A rule fits
when it is enabled, its direction agrees, and its scope holds the one port there is, if any; it matches when the frame
reaches its field and the field and the value agree under the mask. (R74, R75, R76) -/
def Obligations.FirstFittingRuleClassifiesAFrame : Prop :=
  ∀ (up : Bool) (scope : Option Port) (bytes : List Byte) (s : State),
    (∀ i : Fin 32, s.tbm.rule[i].poison = false ∧ ∀ w : Fin 5, s.tbm.rule[i].words[w] = .good) →
    (∀ i : Fin 9, s.tbm.classAction[i].poison = false ∧ ∀ w : Fin 1, s.tbm.classAction[i].words[w] = .good) →
    let takes := fun i : Fin 32 =>
      let r := s.tbm.rule[i].val
      r.enabled = true ∧ (r.direction = .both ∨ r.direction = .up ∧ up = true ∨ r.direction = .down ∧ up = false) ∧
        (∀ p ∈ scope, hasPort r.scope p = true) ∧ r.offset + r.length ≤ bytes.length ∧
        BitVec.ofNat 32 (natAt bytes r.offset r.length) &&& r.mask = r.value &&& r.mask
    let result := fun (cls : FrameClass) (key seq : Option Nat) =>
      (({ cls := cls, keyOffset := key, seqOffset := seq, action := s.tbm.classAction[cls.index].val.action,
          activity := s.tbm.classAction[cls.index].val.activity } : Classified), s)
    (∀ i : Fin 32, takes i → (∀ j, j < i → ¬ takes j) → classify up scope bytes s =
      result s.tbm.rule[i].val.cls s.tbm.rule[i].val.keyOffset s.tbm.rule[i].val.seqOffset) ∧
    ((∀ i, ¬ takes i) → classify up scope bytes s = result .bulk none none)

/-- Readiness evidence in a window makes a WAKING or RESUMING port READY, learned from and recorded, and starts the
release of its held frames. A camera frame that passes the checks, at a WAKING or RESUMING port whose COLD or RESUME
operation is in WINDOW with method m, and that is evidence by the readiness mode (READY_SIGN; in ANY_FRAME mode every
class but PROBE_ANSWER): the operation ends with the wake line low, its sample is the elapsed time clamped to 1-65535
and is applied to the estimate of the method's path, the port is READY with the active draw as its charge, idle and
link timers 0, the last-wake record holds class, method, sample and whether the estimate was updated, and its wake-
queue entry is gone. The release starts: as many held frames as the transmit queue has places for move from the head
of the hold queue to its tail, each counted as released and as forwarded down, and the release flag is set where
frames are left. The port joins the watched set of each armed, intact group that has it as a member. A scan is handed
on where the charge has fallen, and, where the hold queue is now empty, the re-evaluation of each pending trigger that
holds the port (the scan first, then the groups in ascending order: the model's choices, logs 2 and 52). No cell's
count changes where the held frames' cells are referenced; all else is as the reads of the classification left it. v
is that state; the frame, a POLL_ANSWER too, which is not learned since it found the port WAKING or RESUMING (R84,
R105), is then forwarded, an activity class leaves the idle timer at 0 ms, its cell is disposed of, and what follows
is settled. (R36, R12, R46, R51, R57, R59, R78, R95, R96, R98, R122, R130) -/
def Obligations.ReadinessEvidenceEndsTheWake : Prop :=
  ∀ (p : Port) (c : CellNo) (bytes : List Byte) (m : Method) (s : State), s.Receives (.camera p) c bytes →
    frameType bytes ≠ 0x88B6 →
    let k := (s.classifiedUp p c bytes).1
    let u := (s.classifiedUp p c bytes).2
    let r := u.port p
    (r.state = .waking ∧ r.op.kind = .cold ∨ r.state = .resuming ∧ r.op.kind = .resume) → r.op.phase = .window →
    r.op.method = some m → (k.cls = .readySign ∨ r.cfg.readiness = .anyFrame ∧ k.cls ≠ .probeAnswer) →
    ∃ v : State,
      exec (.cameraFrameReceived p bytes true) s = .next (settle (dropRef c (forwardUp p c bytes.length
        (v.modPort p fun x => { x with idle := if k.activity then 0 else x.idle })))) ∧
      (let sample := max 1 (min r.op.elapsed 65535)
        let learned := applySample u.mga.learnShift m sample r.est
        let moved := r.hold.take (32 - r.egress.queue.length)
        let left := r.hold.drop (32 - r.egress.queue.length);
      v.port p = { r with
        state := .ready, charge := r.draws.active, wakeLine := false, idle := 0, link := 0, est := learned.1
        op := { r.op with kind := .none, phase := .none, countdown := 0, pulse := none }
        lastWake := some { cls := r.op.cls, method := m, time := sample, updated := learned.2 }
        hold := left
        egress := { r.egress with queue := r.egress.queue ++ moved.map fun h => ⟨h.cell, h.length, none⟩ }
        counts := { r.counts with
          released := bump^[moved.length] r.counts.released
          forwardedDown := bump^[moved.length] r.counts.forwardedDown }
        releasing := if r.hold = [] then r.releasing else !left.isEmpty } ∧
      v.owed = (if r.draws.active < r.charge then [.scan] else []) ++ (if left = [] then (allGroups.filter fun g =>
        (u.group g).slot.pending && hasPort (u.group g).slot.members p).map .reevaluate else [])) ∧
      (∀ q : Port, q ≠ p → v.port q = u.port q) ∧
      v.adm = { u.adm with
        committed := u.adm.committed.set (domainOf p) (domainCharge v (domainOf p))
        wakeQueue := u.adm.wakeQueue.filter (·.port ≠ p) } ∧
      (∀ g : Group, v.group g = { u.group g with arm :=
        let a := (u.group g).arm
        if a.armed = true ∧ a.intact = true ∧ hasPort a.members p = true then
          { a with watched := a.watched ||| onlyPort p } else a }) ∧
      ((∀ h ∈ r.hold, 0 < (u.cell h.cell).refs) → v.cells = u.cells ∧ v.free = u.free) ∧
      v.uplink = u.uplink ∧ v.tbm = u.tbm ∧ v.mga = u.mga ∧ v.evu = u.evu ∧ v.phase = u.phase ∧ v.pending = u.pending

/-- An estimate takes its first sample whole and then moves toward each sample by the shifted difference. For a learn
shift k of 1-4 and a sample of 1-65535 ms applied to the estimate of its path: an invalid estimate takes the sample; a
valid one of 1-65535 ms moves by q, the difference divided by 2 to the power k and truncated toward zero, or by 1
toward the sample where that is 0 and the difference is not; the result lies between 1 and 65535 ms, never past the
sample; the updated flag is set exactly when the estimate became valid or changed its value. POWER feeds the cold
estimate, FRAME and LINE the resume estimate; the other estimate is unchanged. (R47) -/
def Obligations.EstimateLearnsTowardTheSample : Prop :=
  ∀ (k sample : Nat) (m : Method) (e : Estimates), 1 ≤ k → k ≤ 4 → 1 ≤ sample → sample ≤ 65535 →
    let old := if m = .power then e.cold else e.resume
    let r := applySample k m sample e
    let new := if m = .power then r.1.cold else r.1.resume
    (m = .power → r.1.resume = e.resume ∧ r.1.resumeSamples = e.resumeSamples) ∧
    (m ≠ .power → r.1.cold = e.cold ∧ r.1.coldSamples = e.coldSamples) ∧
    (old = none → new = some sample ∧ r.2 = true) ∧
    (∀ v : Nat, old = some v → 1 ≤ v → v ≤ 65535 → ∃ w : Nat, new = some w ∧
      (let d : Int := (sample : Int) - (v : Int)
        let q : Int := d.tdiv (2 ^ k)
        ((w : Int) = (v : Int) + if q = 0 then d.sign else q) ∧
        (d = 0 → w = v) ∧ (0 < d → v < w ∧ w ≤ sample) ∧ (d < 0 → w < v ∧ sample ≤ w)) ∧
      1 ≤ w ∧ w ≤ 65535 ∧ (r.2 = true ↔ w ≠ v))

/-- At a PAUSED port a PROBE_ANSWER is judged and consumed, and camera-initiated activity makes a SENSE need. A camera
frame that passes the checks at a PAUSED port: a PROBE_ANSWER is judged by WKE against the outstanding probe (with
none, or with probing not running, it is ignored) and is consumed; a READY_SIGN, or in ANY_FRAME mode any class but
PROBE_ANSWER, at an unparked port hands ADM a SENSE need and the frame is then forwarded; at a parked port, or of
another class, it is forwarded with no need. A POLL_ANSWER is not learned in PAUSED. (That the frame's cell is given
up after what the need does: the model's choice, log 57.) (R20, R44, R42, R105) -/
def Obligations.PausedPortHearsItsCamera : Prop :=
  ∀ (p : Port) (c : CellNo) (bytes : List Byte) (s : State), s.Receives (.camera p) c bytes →
    frameType bytes ≠ 0x88B6 → (s.port p).state = .paused →
    let k := (s.classifiedUp p c bytes).1
    let u := (s.classifiedUp p c bytes).2
    let shows := k.cls = .readySign ∨ (s.port p).cfg.readiness = .anyFrame
    let awake := fun v : State => if k.activity then restartIdle p v else v
    (k.cls = .probeAnswer → exec (.cameraFrameReceived p bytes true) s =
      .next (dropRef c (u.modPort p fun r => { r with
        probe := match r.probe.running, r.probe.outstanding with
          | true, some expected =>
            { r.probe with
              answered := true, misses := 0
              mismatches := match k.seqOffset.bind (word16At? bytes) with
                | some n => if n = expected then r.probe.mismatches else min (r.probe.mismatches + 1) 255
                | none => r.probe.mismatches
              capture := match k.seqOffset.bind (word16At? bytes) with
                | some n => if n ≠ expected ∧ r.probe.mismatches = 0 then some (expected, n) else r.probe.capture
                | none => r.probe.capture }
          | _, _ => r.probe }))) ∧
    (k.cls ≠ .probeAnswer → shows → (s.port p).park = false → exec (.cameraFrameReceived p bytes true) s =
      .next (settle (dropRef c (forwardUp p c bytes.length (awake (takeNeed .sense p u)))))) ∧
    (k.cls ≠ .probeAnswer → (¬ shows ∨ (s.port p).park = true) → exec (.cameraFrameReceived p bytes true) s =
      .next (dropRef c (forwardUp p c bytes.length u)))

/-- In CONFIRM a STANDBY_ACK confirms an ACK pause, and an activity class fails a SILENCE pause. A camera frame that
passes the checks at a PAUSING port whose operation is in CONFIRM: in ACK mode a STANDBY_ACK moves the port to PAUSED;
in SILENCE mode a frame of an activity class returns it to READY with PAUSE_FAILED; any other frame, in either mode,
leaves the operation running. The frame is then handled by its class: an activity class restarts the idle timer of a
READY port, a POLL_ANSWER is considered for learning as from PAUSING, and all but PROBE_ANSWER are forwarded. (That
the frame's cell is given up after PAUSE_FAILED: the model's choice, log 57. What entering PAUSED and failing a pause
do: the statements of PAUSE_CONFIRM_WINDOW_EXPIRY.) (R40, R41, R14, R16) -/
def Obligations.PauseIsConfirmedOrFailsByTheCamera : Prop :=
  ∀ (p : Port) (c : CellNo) (bytes : List Byte) (s : State), s.Receives (.camera p) c bytes →
    frameType bytes ≠ 0x88B6 → (s.port p).state = .pausing → (s.port p).op.kind = .pause →
    (s.port p).op.phase = .confirm →
    let k := (s.classifiedUp p c bytes).1
    let u := (s.classifiedUp p c bytes).2
    let ack := (s.port p).cfg.confirmMode = .ack ∧ k.cls = .standbyAck
    let loud := (s.port p).cfg.confirmMode = .silence ∧ k.activity = true
    let handled := fun v : State =>
      let v := if k.activity then restartIdle p v else v
      let v := if k.cls = .pollAnswer then considerLearning p .pausing bytes k.keyOffset k.seqOffset v else v
      if k.cls = .probeAnswer then v else forwardUp p c bytes.length v
    (ack → exec (.cameraFrameReceived p bytes true) s = .next (settle (dropRef c (handled (enterPaused p u))))) ∧
    (loud → exec (.cameraFrameReceived p bytes true) s =
      .next (settle (dropRef c (handled (pauseFailed p
        (u.modOp p fun op => { op with activitySeen := true })))))) ∧
    (¬ ack → ¬ loud → exec (.cameraFrameReceived p bytes true) s = .next (settle (dropRef c (handled u))))

/-- A request that fails a check is answered with that check's status and has no other effect; a row acts on its own head
request alone. For each of the 23 management rows: where the head request is the row's to perform and fails a check of
R148, the request leaves the FIFO with a response that has the status of the first check failed and no payload, and
nothing else changes. With an empty FIFO, with a RESTART waiting (R158), or with a head request that another row
performs, the row changes nothing (the model's choice, logs 1 and 4). A request whose operation is not one of Table
9-5 fails always: UNKNOWN_OP_REQUEST answers it with LENGTH where the version is 1 and the length field does not fit
the frame or exceeds 1024, else with UNKNOWN_OP. (R147, R148, R149) -/
def Obligations.RefusedRequestIsAnsweredAndHasNoEffect : Prop :=
  ∀ (c : Instr) (row : Row) (s : State), rowOf c = some row →
    (∀ (r : Request) (rest : List Request) (st : Status), s.Serves row r rest → requestRefusal r = some st →
      exec c s = .next (finishRequest r rest st [] s)) ∧
    (s.mga.fifo = [] ∨ s.mga.restart ≠ none ∨ (∃ r ∈ s.mga.fifo.head?, rowServes row r = false) → exec c s = .next s) ∧
    (∀ (r : Request) (rest : List Request), s.Serves .unknown r rest →
      let badLength := 1024 < natAt r.body 8 2 ∨ r.body.length < natAt r.body 8 2 + 10
      exec .unknownOpRequest s =
        .next (finishRequest r rest (if natAt r.body 0 1 = 1 ∧ badLength then .length else .unknownOp) [] s))

/-- A request is checked in the order of R148: version, length field, operation, table, index, payload length, encoding.
The status of the first check that a request fails, from its bytes: a version other than 1 is UNKNOWN_OP; a length
field above 1024 or above what the frame holds is LENGTH; an operation outside 1-10 is UNKNOWN_OP; for the three table
operations a table outside 1-10, or a read-only one written or patched, is BAD_TABLE; an index not below the table's
entries, 16, 8 or 17 is BAD_INDEX; then the payload length and the encoding: LENGTH for IDENTIFY, READ_ENTRY,
READ_EVENTS, READ_COUNTERS and RESTART with a payload, for SET_EVENT_MASK without 2 B, for a PORT_COMMAND without 1 B
and a GROUP_COMMAND without the length of its code, RANGE for an unknown port or group command code. A WRITE_ENTRY
without the write size of its table is LENGTH, one with a value outside an enumeration or yes-or-no encoding RANGE. A
PATCH_FIELD with no payload is LENGTH, one of a field number that its table does not have or that is read-only, or of
the bytes of a TEMPLATE (at this step: the model's choice, log 14), RANGE; one whose value has not the field's size
LENGTH, one outside the field's encoding RANGE. A request with none of these passes. (R148, R143, R153, R156) -/
def Obligations.RequestIsCheckedInOrder : Prop :=
  ∀ r : Request,
    let op := natAt r.body 4 1
    let table := natAt r.body 6 1
    let index := natAt r.body 7 1
    let n := natAt r.body 8 2
    let code := natAt r.body 10 1
    let entries := ([0, 16, 48, 32, 9, 8, 4, 1, 16, 8, 64] : List Nat)
    (natAt r.body 0 1 ≠ 1 → requestRefusal r = some .unknownOp) ∧
    (natAt r.body 0 1 = 1 → (1024 < n ∨ r.body.length < n + 10) → requestRefusal r = some .length) ∧
    (natAt r.body 0 1 = 1 → n ≤ 1024 → n + 10 ≤ r.body.length →
      ((op = 0 ∨ 10 < op) → requestRefusal r = some .unknownOp) ∧
      ((op = 2 ∨ op = 3 ∨ op = 4) → (table = 0 ∨ 10 < table) → requestRefusal r = some .badTable) ∧
      ((op = 3 ∨ op = 4) → (table = 8 ∨ table = 9 ∨ table = 10) → requestRefusal r = some .badTable) ∧
      (op = 2 ∨ (op = 3 ∨ op = 4) ∧ table < 8 → 1 ≤ table → table ≤ 10 → entries[table]?.getD 0 ≤ index →
        requestRefusal r = some .badIndex) ∧
      (op = 5 ∧ 16 ≤ index ∨ op = 6 ∧ 8 ≤ index ∨ op = 9 ∧ 17 ≤ index → requestRefusal r = some .badIndex) ∧
      (op = 1 ∨ op = 7 ∨ op = 10 ∨ op = 9 ∧ index < 17 ∨
          op = 2 ∧ 1 ≤ table ∧ table ≤ 10 ∧ index < entries[table]?.getD 0 →
        requestRefusal r = if n = 0 then none else some .length) ∧
      (op = 8 → requestRefusal r = if n = 2 then none else some .length) ∧
      (op = 5 → index < 16 → requestRefusal r =
        if n ≠ 1 then some .length else if 1 ≤ code ∧ code ≤ 10 then none else some .range) ∧
      (op = 6 → index < 8 → requestRefusal r =
        if n = 0 then some .length
        else if code = 0 ∨ 4 < code then some .range
        else if n = (if code = 3 then 5 else 1) then none
        else some .length) ∧
      (let sizes : List (List Nat) :=
          [[], [6, 2, 2, 2, 1, 1, 1, 1, 2, 2, 2, 2, 2, 1, 2, 2, 2, 2, 1, 2], [1, 128, 1], [1, 1, 2, 1, 1, 4, 4, 1, 1, 1],
            [1, 1], [6, 2, 1, 1, 2, 2, 2, 1], [2], [6, 6, 6, 1, 1, 1]]
        let fields := sizes[table]?.getD []
        let x := fun k : Nat => natAt r.body (10 + k) 1
        let encoded := (table = 1 → x 13 ≤ 1 ∧ x 14 ≤ 2 ∧ x 26 ≤ 1) ∧ (table = 3 → x 0 ≤ 1 ∧ x 1 ≤ 2 ∧ x 14 ≤ 8) ∧
          (table = 4 → x 0 ≤ 3 ∧ x 1 ≤ 1) ∧ (table = 5 → x 8 ≤ 1 ∧ x 9 ≤ 1 ∧ x 16 ≤ 1)
        let named := (table = 1 → (code = 5 ∨ code = 13 → x 1 ≤ 1) ∧ (code = 6 → x 1 ≤ 2)) ∧
          (table = 3 → (code = 0 → x 1 ≤ 1) ∧ (code = 1 → x 1 ≤ 2) ∧ (code = 7 → x 1 ≤ 8)) ∧
          (table = 4 → (code = 0 → x 1 ≤ 3) ∧ (code = 1 → x 1 ≤ 1)) ∧
          (table = 5 → code = 2 ∨ code = 3 ∨ code = 7 → x 1 ≤ 1);
      (op = 3 → 1 ≤ table → table ≤ 7 → index < entries[table]?.getD 0 → requestRefusal r =
        if n ≠ fields.sum then some .length else if encoded then none else some .range) ∧
      (op = 4 → 1 ≤ table → table ≤ 7 → index < entries[table]?.getD 0 → requestRefusal r =
        if n = 0 then some .length
        else if fields.length ≤ code ∨ table = 2 ∧ code = 1 then some .range
        else if n ≠ fields[code]?.getD 0 + 1 then some .length
        else if named then none
        else some .range)))

/-- A response goes to the request's source and mirrors its header; it is placed at the uplink's tail or lost; RESTART
then waits for it. The end of a request: the response has the destination, source, EtherType, version, kind, mirrored
fields, status, length and payload at the offsets of Table 9-2, then zero bytes to 64 B; status codes stand in the
order of Table 9-7. With a free cell and room it is built in the head cell and appended to the uplink transmit queue;
with no free cell, or a queue of 32, it is lost and the count of lost responses rises (a cell taken rejoins the tail
of the free list, the model's choice, log 10). The request leaves the FIFO in every case. A RESTART ends so too and
begins its wait: 1000 ms for a placed response, which names its cell; a lost one waits for nothing (the model's
choice, log 27). (R149, R88, R158, R166) -/
def Obligations.ResponseIsBuiltAndPlacedOrLost : Prop :=
  ∀ (r : Request) (rest : List Request) (st : Status) (payload : List Byte) (s : State), payload.length ≤ 1024 →
    let bs := responseFrame r st payload s.mga.factory
    (bytesAt bs 0 6 = addrBytes r.source ∧ bytesAt bs 6 6 = addrBytes s.mga.factory ∧ natAt bs 12 2 = 0x88B6 ∧
      natAt bs 14 1 = 1 ∧ natAt bs 15 1 = 2 ∧ natAt bs 16 2 = natAt r.body 2 2 ∧ natAt bs 18 1 = natAt r.body 4 1 ∧
      natAt bs 19 1 = st.code ∧ natAt bs 20 1 = natAt r.body 6 1 ∧ natAt bs 21 1 = natAt r.body 7 1 ∧
      natAt bs 22 2 = payload.length ∧ bytesAt bs 24 payload.length = payload ∧
      bs.length = max 64 (24 + payload.length) ∧
      ∀ i : Nat, 24 + payload.length ≤ i → i < bs.length → bs[i]? = some 0) ∧
    [Status.ok, .unknownOp, .badTable, .badIndex, .range, .state, .poisoned, .budgetInUse, .invalidConfig,
      .memberUnavailable, .parkedMember, .conflict, .length].map Status.code = List.range 13 ∧
    (let lost := fun u : State => u.modMga fun m => { m with fifo := rest, responsesLost := bump m.responsesLost }
      let waits := fun (w : RestartWait) (u : State) => u.modMga fun m => { m with restart := some w }
      let ok := responseFrame r .ok [] s.mga.factory;
      (s.free = [] → finishRequest r rest st payload s = lost s ∧
        (s.Accepts (.op .restart) r rest → exec .restart s = .next (waits ⟨0, none⟩ (lost s)))) ∧
      (∀ (c : CellNo) (free : List CellNo), s.free = c :: free →
        (32 ≤ s.uplink.egress.queue.length → finishRequest r rest st payload s = lost { s with free := free ++ [c] } ∧
          (s.Accepts (.op .restart) r rest →
            exec .restart s = .next (waits ⟨0, none⟩ (lost { s with free := free ++ [c] })))) ∧
        (s.uplink.egress.queue.length < 32 →
          let placed := fun bytes : List Byte =>
            (appendTx .uplink ⟨c, bytes.length, none⟩ (storeCell c bytes { s with free := free })).modMga
              fun m => { m with fifo := rest }
          finishRequest r rest st payload s = placed bs ∧
          (s.Accepts (.op .restart) r rest → exec .restart s = .next (waits ⟨1000, some c⟩ (placed ok))))))

/-- IDENTIFY returns the identity; READ_COUNTERS returns and zeroes counts; READ_EVENTS returns and clears the reported
events. A taken IDENTIFY answers with 14 B (0x1604, 1, 16, 4, 8, the factory station address, 0x88B6) and changes no
state. READ_COUNTERS for a port answers with its counts in the order of Table 10-2 and the probe mismatches with their
capture, and sets each 4 B count of that port alone to 0; for index 16 with the six device counters, which it zeroes.
READ_EVENTS answers with the reported set, the number of records and one record for each reported event in ascending
number, and clears the pending flags of those events and the notice-outstanding flag; masks, records and counters are
kept. Nothing else changes but the end of the request. (R150, R163, R165, R157) -/
def Obligations.IdentityCountersAndEventsAreRead : Prop :=
  ∀ (r : Request) (rest : List Request) (s : State),
    (s.Accepts (.op .identify) r rest → exec .identify s = .next (finishRequest r rest .ok
      ([0x16, 0x04, 1, 16, 4, 8] ++ addrBytes s.mga.factory ++ [0x88, 0xB6]) s)) ∧
    (s.Accepts (.op .readCounters) r rest →
      (∀ p : Port, natAt r.body 7 1 = p.val →
        let c := (s.port p).counts
        let head := [c.forwardedDown, c.forwardedUp, c.held, c.released, c.answered]
        let tail := [c.learned, c.tooLong, c.lost, c.discarded]
        let capture := match (s.port p).probe.capture with
          | some (expected, received) => natBE 1 1 ++ natBE 2 expected.toNat ++ natBE 2 received.toNat
          | none => [0, 0, 0, 0, 0]
        exec .readCounters s = .next (finishRequest r rest .ok
          ((head ++ c.dropped.toList ++ tail).flatMap (natBE 4) ++ natBE 1 (s.port p).probe.mismatches ++ capture)
          (s.modPort p fun x => { x with counts := Counts.zero }))) ∧
      (natAt r.body 7 1 = 16 →
        let c := s.evu.counts
        exec .readCounters s = .next (finishRequest r rest .ok
          (natBE 4 c.lengthErrors ++ natBE 4 c.unknownDest ++ natBE 4 c.denied ++ natBE 4 c.fifoOverflows ++
            natBE 4 c.corrections ++ natBE 4 c.poisonings)
          (s.modEvu fun v => { v with counts := ⟨0, 0, 0, 0, 0, 0⟩ })))) ∧
    (s.Accepts (.op .readEvents) r rest → ∃ (set : PortSet) (t : State),
      (∀ e : Fin 16, set.getLsbD e.val = (s.evu.events[e].pending && s.evu.events[e].mask)) ∧
      (let reported := (List.finRange 16).filter fun e => set.getLsbD e.val;
        exec .readEvents s = .next (finishRequest r rest .ok
          (natBE 2 set.toNat ++ natBE 1 reported.length ++ reported.flatMap fun e =>
            let d := s.evu.events[e].detail.getD ⟨none, 0, 0⟩
            natBE 1 e.val ++ natBE 1 (d.subject.getD 0xFF) ++ natBE 1 d.code ++ natBE 2 d.set.toNat) t)) ∧
      t = { s with evu := t.evu } ∧
      (∀ e : Fin 16, t.evu.events[e] =
        { s.evu.events[e] with pending := s.evu.events[e].pending && !s.evu.events[e].mask }) ∧
      t.evu.noticeOutstanding = false ∧ t.evu.counts = s.evu.counts)

/-- A raise sets the pending flag and the record; an event that becomes reported, by a raise or by SET_EVENT_MASK, sends
one notice. A raise sets the event's pending flag and replaces its detail record, and changes no other event. A taken
SET_EVENT_MASK replaces all sixteen mask flags with the bits of its payload and changes no pending flag and no record.
Where an event becomes reported (a raise with its mask set that found it not pending; a mask write that sets the mask
of a pending one) a notice is judged once: with the notice-outstanding flag clear, a nonzero report address, a free
cell and room at the uplink, the notice that carries the events as they now stand is appended and the flag set;
otherwise it is lost and the flag is as it was. (The tail of the free list for a cell not used: the model's choice,
log 10.) (R160, R161, R162, R88) -/
def Obligations.EventBecomesReportedAndIsNoticed : Prop :=
  ∀ s : State,
    let frame := fun u : State => managementFrame u.mga.report u.mga.factory 3 0 0 0 0 0 (eventsPayload u)
    let judged := fun u : State =>
      if u.evu.noticeOutstanding = true ∨ u.mga.report = 0 then u
      else
        match u.free with
        | [] => u
        | c :: free =>
          if 32 ≤ u.uplink.egress.queue.length then { u with free := free ++ [c] }
          else (appendTx .uplink ⟨c, (frame u).length, none⟩ (storeCell c (frame u) { u with free := free })).modEvu
            fun v => { v with noticeOutstanding := true }
    (∀ (e : Event) (d : Detail),
      let old := s.evu.events[e.num]
      let u := s.modEvu fun v =>
        { v with events := v.events.set e.num { pending := true, mask := old.mask, detail := some d } }
      raise e d s = if old.mask = true ∧ old.pending = false then judged u else u) ∧
    (∀ (r : Request) (rest : List Request), s.Accepts (.op .setEventMask) r rest →
      let mask := BitVec.ofNat 16 (natAt r.body 10 2)
      let u := s.modEvu fun v =>
        { v with events := Vector.ofFn fun e => { v.events[e] with mask := mask.getLsbD e.val } }
      let some_reported := ∃ e : Fin 16,
        s.evu.events[e].pending = true ∧ s.evu.events[e].mask = false ∧ mask.getLsbD e.val = true
      (some_reported → exec .setEventMask s = .next (finishRequest r rest .ok [] (judged u))) ∧
      (¬ some_reported → exec .setEventMask s = .next (finishRequest r rest .ok [] u)))

/-- PIN and PARK set their flag and refuse with CONFLICT beside the other; UNPIN and UNPARK clear it. PIN at a parked port
and PARK at a pinned one are refused with CONFLICT and change nothing. PIN sets the flag, and sets the idle timer of a
READY port that was not pinned to 0 ms; UNPIN clears it, and sets the timer of a READY port that was pinned to 0 ms.
PARK sets the flag; at a PAUSED or ASLEEP port each pending trigger that has it as a reachable member counts it
unreachable and its re-evaluation follows, in ascending group order (the model's choice, logs 2 and 52), with no scan
and no need. UNPARK clears the flag; at a parked PAUSED or ASLEEP port with a wake-queue entry a scan follows. Nothing
else changes but the end of the request. (R21, R22, R16, R56, R120) -/
def Obligations.PinAndParkFlagsExcludeEachOther : Prop :=
  ∀ (p : Port) (r : Request) (rest : List Request) (s : State), natAt r.body 7 1 = p.val →
    let x := s.port p
    let resting := x.state = .paused ∨ x.state = .asleep
    (s.Accepts (.port .pin) r rest →
      (x.park = true → exec .pin s = .next (finishRequest r rest .conflict [] s)) ∧
      (x.park = false → exec .pin s = .next (finishRequest r rest .ok [] (s.modPort p fun x =>
        { x with pin := true, idle := if x.pin = false ∧ x.state = .ready then 0 else x.idle })))) ∧
    (s.Accepts (.port .unpin) r rest → exec .unpin s = .next (finishRequest r rest .ok [] (s.modPort p fun x =>
      { x with pin := false, idle := if x.pin = true ∧ x.state = .ready then 0 else x.idle }))) ∧
    (s.Accepts (.port .park) r rest →
      (x.pin = true → exec .park s = .next (finishRequest r rest .conflict [] s)) ∧
      (x.pin = false → ∃ u : State, exec .park s = .next (finishRequest r rest .ok [] (settle u)) ∧
        (let concerned := fun g : Group => (x.state = .paused || x.state = .asleep) && (s.group g).slot.pending &&
            hasPort (s.group g).slot.members p && !hasPort (s.group g).slot.unreachable p;
          u = { s.modPort p fun x => { x with park := true } with groups := u.groups, owed := u.owed } ∧
          (∀ g : Group,
            (concerned g = true → u.group g = { s.group g with
              slot := { (s.group g).slot with unreachable := (s.group g).slot.unreachable ||| onlyPort p } }) ∧
            (concerned g = false → u.group g = s.group g)) ∧
          u.owed = (allGroups.filter concerned).map .reevaluate))) ∧
    (s.Accepts (.port .unpark) r rest →
      let u := s.modPort p fun x => { x with park := false }
      (x.park = true ∧ resting ∧ (∃ e ∈ s.adm.wakeQueue, e.port = p) →
        exec .unpark s = .next (finishRequest r rest .ok [] (settle (scan u)))) ∧
      (x.park = false ∨ ¬ resting ∨ (∀ e ∈ s.adm.wakeQueue, e.port ≠ p) →
        exec .unpark s = .next (finishRequest r rest .ok [] u)))

/-- A wake need merges into the port's entry or makes a new one with the next arrival number; WAKE hands a TRAFFIC need. A
need for a port in PAUSING, or in PAUSED or ASLEEP and not parked: where the port has a wake-queue entry, the entry
keeps its place and takes the higher class; otherwise a new entry joins the queue with the next arrival number (at
65535 the queue is renumbered first), pass count 0 and the blocking flag where the pass limit is 0, of the need's
class or SCHEDULED, the higher, where it replaces a schedule entry, and a resting port whose inrush draw exceeds the
limit is faulted with BUDGET. A scan follows. At any other port the need is discarded. WAKE is refused with STATE at a
DISABLED or FAULTED port and with CONFLICT at a parked PAUSED or ASLEEP one, changes nothing at a WAKING, READY or
RESUMING one, and hands a TRAFFIC need elsewhere, with OK after the need and its scan; where the need makes a new
entry that faults the port with BUDGET, OK is sent first and the need taken after it (R23, R155; that no part of this
need comes before OK is the model's reading, log 37). (R23, R53, R54, R55, R67, R58, R155) -/
def Obligations.WakeNeedMergesOrMakesAnEntry : Prop :=
  ∀ (cls : WakeClass) (p : Port) (s : State),
    let st := (s.port p).state
    let resting := st = .paused ∨ st = .asleep
    let takes := st = .pausing ∨ resting ∧ (s.port p).park = false
    (¬ takes → takeNeed cls p s = s) ∧
    (takes → (∃ e ∈ s.adm.wakeQueue, e.port = p) → takeNeed cls p s = scan (s.modAdm fun a =>
      { a with wakeQueue := a.wakeQueue.map fun e =>
          if e.port = p then { e with cls := if e.cls.rank ≤ cls.rank then e.cls else cls } else e })) ∧
    (takes → (∀ e ∈ s.adm.wakeQueue, e.port ≠ p) →
      let c := if (∃ e ∈ s.adm.schedule, e.port = p) ∧ 1 < cls.rank then .scheduled else cls
      let wraps := s.adm.arrivals = 65535
      let q := if wraps then s.adm.wakeQueue.mapIdx fun i e => { e with arrival := i } else s.adm.wakeQueue
      let n := if wraps then s.adm.wakeQueue.length else s.adm.arrivals
      let u := { s with adm := { s.adm with
        schedule := s.adm.schedule.filter (·.port ≠ p)
        wakeQueue := q ++ [⟨p, c, n, 0, s.adm.passLimit = 0⟩], arrivals := n + 1 } }
      (resting ∧ s.adm.limits[domainOf p] < (s.port p).draws.inrush →
        takeNeed cls p s = scan (enterFaulted p .budget u)) ∧
      (¬ resting ∨ (s.port p).draws.inrush ≤ s.adm.limits[domainOf p] → takeNeed cls p s = scan u)) ∧
    (∀ (r : Request) (rest : List Request), s.Accepts (.port .wake) r rest → natAt r.body 7 1 = p.val →
      (st = .disabled ∨ st = .faulted → exec .wake s = .next (finishRequest r rest .state [] s)) ∧
      (resting ∧ (s.port p).park = true → exec .wake s = .next (finishRequest r rest .conflict [] s)) ∧
      (st = .waking ∨ st = .ready ∨ st = .resuming → exec .wake s = .next (finishRequest r rest .ok [] s)) ∧
      (let faults := resting ∧ (s.port p).park = false ∧ (∀ e ∈ s.adm.wakeQueue, e.port ≠ p) ∧
          s.adm.limits[domainOf p] < (s.port p).draws.inrush;
      (takes → ¬ faults → exec .wake s = .next (finishRequest r rest .ok [] (settle (takeNeed .traffic p s)))) ∧
      (faults → exec .wake s = .next (settle (takeNeed .traffic p (finishRequest r rest .ok [] s))))))

/-- A due schedule entry makes a SCHEDULED need, and a qualified sense edge a SENSE need, where the port rests unparked.
SCHEDULE_ENTRY_DUE for a port whose schedule entry has counted down: the entry is removed, and a PAUSED or ASLEEP port
that is not parked gets a SCHEDULED need; at any other the entry is discarded. SENSE_FILTER_EXPIRY with the filter
counted down: the filter ends, and a PAUSED port that is not parked gets a SENSE need; a READY port's idle timer is
set to 0 ms; at any other port the edge has no effect. When neither is due they change nothing (the model's choice,
log 1). (R66, R19, R16, R53) -/
def Obligations.DueScheduleEntryAndSenseEdgeMakeNeeds : Prop :=
  ∀ (p : Port) (s : State), s.Settled →
    let r := s.port p
    (let due := ∃ e : ScheduleEntry, scheduleEntry? s p = some e ∧ e.countdown = 0
      let u := { s with adm := { s.adm with schedule := s.adm.schedule.filter (·.port ≠ p) } }
      let wakes := (r.state = .paused ∨ r.state = .asleep) ∧ r.park = false;
      (due → wakes → exec (.scheduleEntryDue p) s = .next (settle (takeNeed .scheduled p u))) ∧
      (due → ¬ wakes → exec (.scheduleEntryDue p) s = .next u) ∧
      (¬ due → exec (.scheduleEntryDue p) s = .next s)) ∧
    (let u := s.modPort p fun r => { r with senseFilter := none };
      (r.senseFilter = some 0 → r.state = .paused → r.park = false →
        exec (.senseFilterExpiry p) s = .next (settle (takeNeed .sense p u))) ∧
      (r.senseFilter = some 0 → r.state = .ready →
        exec (.senseFilterExpiry p) s = .next (u.modPort p fun r => { r with idle := 0 })) ∧
      (r.senseFilter = some 0 → r.state ≠ .ready → (r.state ≠ .paused ∨ r.park = true) →
        exec (.senseFilterExpiry p) s = .next u) ∧
      (r.senseFilter ≠ some 0 → exec (.senseFilterExpiry p) s = .next s))

/-- An idle expiry and PAUSE start the pause of a READY port that has a PAUSE template. At a READY port: with the PAUSE
template absent or poisoned, an idle expiry moves it to ASLEEP and PAUSE is refused with INVALID_CONFIG. With it
present, the configuration is read; poisoned, it faults the port with TABLE (PAUSE then answers INVALID_CONFIG, the
model's choice, log 16); else, at a port that no group is concerned with and with a free cell and room, the port is
PAUSING with the active draw, idle timer 0 ms, no release, and a PAUSE operation in CONFIRM, its PAUSE frame is the
new tail of its transmit queue, and held waking frames hand ADM a TRAFFIC need. With no free cell or no room the frame
is counted as dropped (a cell taken rejoins the tail of the free list, log 10), and once what the entry handed on is
done, and PAUSE is answered OK, the pause fails (the model's choices of order: logs 38 and 50). A failure leaves the
port READY, the operation ended, idle timer 0 ms, its wake-queue entry gone, PAUSE_FAILED raised and the release of
the held frames begun; it joins the watched set of an armed intact group. An idle expiry that is not due changes
nothing (log 1); PAUSE at a port not READY is refused with STATE. (That the scan of a fallen charge comes before the
TRAFFIC need is log 2; method none, attempt 0 and 0 started in a PAUSE are log 48: the model's choices.) (R13, R24,
R39, R28, R29, R99, R16, R9, R14, R95, R130) -/
def Obligations.PauseStartsFromReady : Prop :=
  ∀ (p : Port) (s : State), s.Settled →
    let due := (s.port p).state = .ready ∧ held s p = false ∧ (s.port p).cfg.idle ≠ 0 ∧
      (s.port p).cfg.idle * 1000 ≤ (s.port p).idle
    let pauses := fun (r : Request) (rest : List Request) => s.Accepts (.port .pause) r rest ∧ natAt r.body 7 1 = p.val
    let v := (readPresent p .pause s).2
    let w := (readPortConfig p v).2
    (¬ due → exec (.idleTimerExpiry p) s = .next s) ∧
    ((s.port p).state ≠ .ready → ∀ r rest, pauses r rest → exec .pause s = .next (finishRequest r rest .state [] s)) ∧
    ((s.port p).state = .ready → (readPresent p .pause s).1 = none →
      (due → ∃ u : State, EntersAsleep p v u ∧ exec (.idleTimerExpiry p) s = .next (settle u)) ∧
      (∀ r rest, pauses r rest → exec .pause s = .next (finishRequest r rest .invalidConfig [] v))) ∧
    (∀ t : Template, (s.port p).state = .ready → (readPresent p .pause s).1 = some t →
      ((readPortConfig p v).1 = none →
        (due → exec (.idleTimerExpiry p) s = .next (settle (enterFaulted p .table w))) ∧
        (∀ r rest, pauses r rest →
          exec .pause s = .next (finishRequest r rest .invalidConfig [] (settle (enterFaulted p .table w))))) ∧
      (∀ (cfg : PortConfig) (c : CellNo) (free : List CellNo), (readPortConfig p v).1 = some cfg →
        w.unwatched p .pausing → w.free = c :: free → (w.port p).egress.queue.length < 32 →
        ∃ u : State,
          (due → exec (.idleTimerExpiry p) s = .next (settle u)) ∧
          (∀ r rest, pauses r rest → exec .pause s = .next (finishRequest r rest .ok [] (settle u))) ∧
          (let frame := templateFrame t cfg.station s.mga.factory none;
            u.port p = { w.port p with
              state := .pausing, charge := (w.port p).draws.active, idle := 0, cfg := cfg, releasing := false
              op := { Operation.reset with
                kind := .pause, phase := .confirm, countdown := cfg.confirmWindow, cls := (w.port p).op.cls }
              egress := { (w.port p).egress with queue := (w.port p).egress.queue ++ [⟨c, frame.length, none⟩] } } ∧
            u.cell c = { refs := (w.cell c).refs + 1, data := frame.take 2048 }) ∧
          (∀ q : Port, q ≠ p → u.port q = w.port q) ∧ (∀ d : CellNo, d ≠ c → u.cell d = w.cell d) ∧ u.free = free ∧
          u.adm = { w.adm with committed := w.adm.committed.set (domainOf p) (domainCharge u (domainOf p)) } ∧
          u.uplink = w.uplink ∧ u.groups = w.groups ∧ u.tbm = w.tbm ∧ u.mga = w.mga ∧ u.evu = w.evu ∧
          u.phase = w.phase ∧ u.pending = w.pending ∧
          u.owed = (if (w.port p).draws.active < (w.port p).charge then [.scan] else []) ++
            if (w.port p).hold.any (·.waking) then [.need .traffic p] else []) ∧
      (∀ cfg : PortConfig, (readPortConfig p v).1 = some cfg → w.unwatched p .pausing →
        (w.free = [] ∨ 32 ≤ (w.port p).egress.queue.length) → ∃ u : State,
          (due → exec (.idleTimerExpiry p) s = .next (settle (pauseFailed p (settle u)))) ∧
          (∀ r rest, pauses r rest →
            exec .pause s = .next (settle (pauseFailed p (finishRequest r rest .ok [] (settle u))))) ∧
          ((settle u).port p).state = .pausing ∧
          (let x := w.port p
            let cause : Fin 10 := if w.free = [] then 7 else 6;
          u.port p = { x with
            state := .pausing, charge := x.draws.active, idle := 0, cfg := cfg, releasing := false
            op := { Operation.reset with
              kind := .pause, phase := .confirm, countdown := cfg.confirmWindow, cls := x.op.cls }
            counts := { x.counts with dropped := x.counts.dropped.set cause (bump x.counts.dropped[cause]) } }) ∧
          (∀ q : Port, q ≠ p → u.port q = w.port q) ∧
          u.adm = { w.adm with committed := w.adm.committed.set (domainOf p) (domainCharge u (domainOf p)) } ∧
          u.cells = w.cells ∧ u.free = w.free.tail ++ w.free.head?.toList ∧ u.uplink = w.uplink ∧ u.groups = w.groups ∧
          u.tbm = w.tbm ∧ u.mga = w.mga ∧ u.evu = w.evu ∧ u.phase = w.phase ∧ u.pending = w.pending ∧
          u.owed = (if (w.port p).draws.active < (w.port p).charge then [.scan] else []) ++
            if (w.port p).hold.any (·.waking) then [.need .traffic p] else [])) ∧
    (∀ y : State, (y.port p).state = .pausing → ∃ u : State,
      let r := y.port p
      (r.hold ≠ [] → pauseFailed p y = stepRelease p (u.modPort p fun x => { x with releasing := true })) ∧
      (r.hold = [] → pauseFailed p y = noteDeliverable p u) ∧
      u.port p = { r with
        state := .ready, charge := r.draws.active, idle := 0, wakeLine := false
        op := { r.op with kind := .none, phase := .none, countdown := 0, pulse := none } } ∧
      (∀ q : Port, q ≠ p → u.port q = y.port q) ∧
      (∀ g : Group, u.group g = { y.group g with arm :=
        let a := (y.group g).arm
        if a.armed = true ∧ a.intact = true ∧ hasPort a.members p = true then
          { a with watched := a.watched ||| onlyPort p } else a }) ∧
      u.adm = { y.adm with
        committed := y.adm.committed.set (domainOf p) (domainCharge u (domainOf p))
        wakeQueue := y.adm.wakeQueue.filter (·.port ≠ p) } ∧
      (∃ x : State, x = { y with ports := x.ports, groups := x.groups, adm := x.adm, owed := x.owed } ∧
        (let z := raise .pauseFailed ⟨some p.val, 0, 0⟩ x;
          u.cells = z.cells ∧ u.free = z.free ∧ u.uplink = z.uplink ∧ u.evu = z.evu)) ∧
      u.tbm = y.tbm ∧ u.mga = y.mga ∧ u.phase = y.phase ∧ u.pending = y.pending ∧
      u.owed = y.owed ++ if r.draws.active < r.charge then [.scan] else [])

/-- SLEEP, a deep-idle expiry, ENABLE and CLEAR take a port to ASLEEP, each from its own states. SLEEP takes a READY or
PAUSED port to ASLEEP (else STATE); a deep-idle expiry a PAUSED port whose deep-idle timer has reached a nonzero
threshold (else it changes nothing, log 1); ENABLE a DISABLED port whose entry reads unpoisoned and whose station
address is nonzero, unicast, no other enabled port's, no enabled group's and not the part's own (else STATE or
INVALID_CONFIG), with its configuration, draws and station address taken over; CLEAR a FAULTED port whose entry reads
unpoisoned (else STATE or POISONED), with configuration and draws taken over. EntersAsleep says all that the entry
changes: feed, link and wake line off, operation, probing, release and timers stopped, records free, transmit queue
discarded, hold queue and wake-queue entry kept, charge 0. (That the scan of the fallen charge is done before the
TRAFFIC need of held frames at a READY port, and that SLEEP of a PAUSED member breaks no arm: the model's choices,
logs 2 and 60.) (R5, R10, R15, R17, R25, R130) -/
def Obligations.PortGoesToAsleep : Prop :=
  ∀ (p : Port) (s : State), s.Settled →
    let st := (s.port p).state
    let asks := fun (c : PortCommand) (r : Request) (rest : List Request) =>
      s.Accepts (.port c) r rest ∧ natAt r.body 7 1 = p.val
    let v := (readPortConfig p s).2
    let refusedStation := fun a : Addr =>
      a = 0 ∨ isGroupAddr a = true ∨ (∃ q : Port, q ≠ p ∧ (v.port q).station = some a) ∨
        (∃ g : Group, v.tbm.group[g].val.enabled = true ∧ v.tbm.group[g].poison = false ∧
          v.tbm.group[g].val.address = a) ∨ a = v.mga.factory
    let taken := fun (cfg : PortConfig) (station : Option Addr) => v.modPort p fun r =>
      { r with cfg := cfg, draws := ⟨cfg.standby, cfg.active, cfg.inrush⟩, station := station }
    let due := st = .paused ∧ (s.port p).cfg.deepIdle ≠ 0 ∧ (s.port p).cfg.deepIdle * 1000 ≤ (s.port p).deepIdle
    (∀ r rest, asks .sleep r rest →
      (st = .ready ∨ st = .paused → ∃ u : State, EntersAsleep p s u ∧
        exec .sleep s = .next (finishRequest r rest .ok [] (settle u))) ∧
      (st ≠ .ready → st ≠ .paused → exec .sleep s = .next (finishRequest r rest .state [] s))) ∧
    (due → ∃ u : State, EntersAsleep p s u ∧ exec (.deepIdleExpiry p) s = .next (settle u)) ∧
    (¬ due → exec (.deepIdleExpiry p) s = .next s) ∧
    (∀ r rest, asks .enable r rest →
      (st ≠ .disabled → exec .enable s = .next (finishRequest r rest .state [] s)) ∧
      (st = .disabled → (readPortConfig p s).1 = none →
        exec .enable s = .next (finishRequest r rest .invalidConfig [] v)) ∧
      (∀ cfg : PortConfig, st = .disabled → (readPortConfig p s).1 = some cfg →
        (refusedStation cfg.station → exec .enable s = .next (finishRequest r rest .invalidConfig [] v)) ∧
        (¬ refusedStation cfg.station → ∃ u : State, EntersAsleep p (taken cfg (some cfg.station)) u ∧
          exec .enable s = .next (finishRequest r rest .ok [] (settle u))))) ∧
    (∀ r rest, asks .clear r rest →
      (st ≠ .faulted → exec .clear s = .next (finishRequest r rest .state [] s)) ∧
      (st = .faulted → (readPortConfig p s).1 = none →
        exec .clear s = .next (finishRequest r rest .poisoned [] v)) ∧
      (∀ cfg : PortConfig, st = .faulted → (readPortConfig p s).1 = some cfg →
        ∃ u : State, EntersAsleep p (taken cfg (s.port p).station) u ∧
          exec .clear s = .next (finishRequest r rest .ok [] (settle u))))

/-- DISABLE, a link timer expiry and a high feed-fault input shut a port down; groups react to every move of a member.
DISABLE takes a port in any state but DISABLED there, the sense filter cleared and its station address dropped; in
DISABLED it is OK and changes nothing. A link timer at the link timeout or above, in READY, PAUSING, PAUSED or
RESUMING, faults the port with LINK_LOST; a feed-fault input sampled high while the feed of a port that is not FAULTED
is on faults it with FEED; PORT_FAULT is raised with port and code, and the fault record holds code, state at fault,
the attempts started in a COLD or RESUME operation (else 0) and its method (else none): POWER for COLD; for RESUME the
one of the last attempt started, so in the spacing after an escalation the method before (R27; log 19). Otherwise the
expiry changes nothing, and the sample only the input's level (logs 1 and 5). ShutsDown says what the entry changes at
the port: as a rest, with hold queue, wake-queue and schedule entries gone, and PORT_FAULT after all of it (the order:
log 20). GroupsHear says what each group makes of this, of SLEEP, and of every move: an arm's break with ARM_BROKEN
and the port (SLEEP of a PAUSED member breaks none, log 60), the joining of the watched set at READY, a strict trigger
refused (its member then not added to the unreachable set, log 45), a reachable member of a pending trigger
unreachable with a re-evaluation, or, PAUSING, PAUSED or ASLEEP and unparked, with a new RENDEZVOUS need (after the
move, log 29). The scan comes first, then the groups in ascending order, then the held frames' need (logs 2 and 52).
These orders and log 60 are the model's choices. (R6, R7, R8, R18, R27, R25, R120, R121, R130, R131, R51) -/
def Obligations.PortIsShutDown : Prop :=
  ∀ (p : Port) (s : State), s.Settled →
    let st := (s.port p).state
    let op := (s.port p).op
    let method := match op.kind, op.attempt, op.method with
      | .cold, _, _ => some Method.power
      | .resume, 0, some .power => some .line
      | .resume, 0, some .line => some .frame
      | .resume, _, m => m
      | _, _, _ => none
    let attempts := match op.kind with
      | .cold | .resume => op.started
      | _ => 0
    let record := fun (code : FaultCode) (r : PortRec) => { r with fault := some ⟨code, st, method, attempts⟩ }
    let raised := fun (code : Nat) (u : State) => u.evu.events[Event.portFault.num].pending = true ∧
      u.evu.events[Event.portFault.num].detail = some ⟨some p.val, code, 0⟩
    let scans : List Work := if 0 < (s.port p).charge then [.scan] else []
    let due := (st = .ready ∨ st = .pausing ∨ st = .paused ∨ st = .resuming) ∧
      s.mga.linkTimeout * 1000 ≤ (s.port p).link
    (∀ (r : Request) (rest : List Request), s.Accepts (.port .disable) r rest → natAt r.body 7 1 = p.val →
      (st = .disabled → exec .disable s = .next (finishRequest r rest .ok [] s)) ∧
      (st ≠ .disabled → ∃ u : State,
        ShutsDown p .disabled (fun x => { x with senseFilter := none, station := none }) id s u ∧
        GroupsHear p st .disabled scans [] s u ∧
        exec .disable s = .next (finishRequest r rest .ok [] (settle u)))) ∧
    (due → ∃ u : State, ShutsDown p .faulted (record .linkLost) (raise .portFault ⟨some p.val, 2, 0⟩) s u ∧
      GroupsHear p st .faulted scans [] s u ∧ raised 2 u ∧ exec (.linkTimerExpiry p) s = .next (settle u)) ∧
    (¬ due → exec (.linkTimerExpiry p) s = .next s) ∧
    ((s.port p).feed = true → st ≠ .faulted → ∃ u : State,
      ShutsDown p .faulted (record .feed) (raise .portFault ⟨some p.val, 3, 0⟩)
        (s.modPort p fun r => { r with feedFaultIn := true }) u ∧
      GroupsHear p st .faulted scans [] s u ∧ raised 3 u ∧ exec (.feedFaultAsserted p true) s = .next (settle u)) ∧
    (∀ level : Bool, level = false ∨ (s.port p).feed = false ∨ st = .faulted →
      exec (.feedFaultAsserted p level) s = .next (s.modPort p fun r => { r with feedFaultIn := level })) ∧
    (∀ (r : Request) (rest : List Request), s.Accepts (.port .sleep) r rest → natAt r.body 7 1 = p.val →
      (st = .ready ∨ st = .paused) → ∃ u : State, EntersAsleep p s u ∧
        GroupsHear p st .asleep scans
          (if st = .ready ∧ (s.port p).hold.any (·.waking) = true ∧ (s.port p).park = false then [.need .traffic p] else [])
          s u ∧
        exec .sleep s = .next (finishRequest r rest .ok [] (settle u))) ∧
    (∀ new : PortState,
      let charge := match new with
        | .disabled | .asleep | .faulted => 0
        | .paused => (s.port p).draws.standby
        | .ready | .pausing => (s.port p).draws.active
        | .waking | .resuming => (s.port p).draws.inrush
      let u := changeState p new s
      GroupsHear p st new (if charge < (s.port p).charge then [.scan] else []) [] s u ∧
      u.port p = { s.port p with state := new, charge := charge } ∧ (∀ q : Port, q ≠ p → u.port q = s.port q) ∧
      u.adm = { s.adm with committed := s.adm.committed.set (domainOf p) (domainCharge u (domainOf p)) } ∧
      u.tbm = s.tbm ∧ u.mga = s.mga)

/-- ARM arms a group whose members can serve and wakes them; DISARM and the arm hold's expiry clear the arm. ARM: an entry
found poisoned or a disabled group is STATE, a DISABLED or FAULTED member MEMBER_UNAVAILABLE, a parked one
PARKED_MEMBER, in that order, with no other effect; else the group is armed and intact with nothing reported broken,
the arm hold loaded, the members copied and the READY ones watched and their idle timers 0 ms, and each member in
PAUSING, PAUSED or ASLEEP gets a RENDEZVOUS need in ascending order. DISARM (at an unarmed group nothing) and an armed
group's expired hold clear the arm but for the break-reported flag, remove its schedule entries, set the READY
members' idle timers to 0 ms, and end a strict pending trigger as REFUSED, all missed, with TRIGGER_REFUSED; the
expiry then raises ARM_EXPIRED. (A hold countdown of 0 after the arm is cleared, and TRIGGER_REFUSED before
ARM_EXPIRED, and that a hold that is not due changes nothing: the model's choices, logs 22, 46 and 1.) (R128, R129,
R131, R132, R68, R137) -/
def Obligations.GroupIsArmedAndDisarmed : Prop :=
  ∀ (g : Group) (s : State), s.Settled →
    let asks := fun (c : GroupCommand) (r : Request) (rest : List Request) =>
      s.Accepts (.group c) r rest ∧ natAt r.body 7 1 = g.val
    let v := (readGroup g s).2
    let idled := fun (members : PortSet) (q : Port) (w : State) => { w.port q with
      idle := if hasPort members q = true ∧ (w.port q).state = .ready then 0 else (w.port q).idle }
    let cleared := fun u : State =>
      let a := (s.group g).arm
      let x := (s.group g).slot
      (u.group g).arm = { a with armed := false, intact := false, hold := 0, target := none, members := 0, watched := 0 } ∧
      u.adm = { s.adm with schedule := s.adm.schedule.filter (·.group ≠ g) } ∧
      (∀ q : Port, u.port q = idled a.members q s) ∧ (∀ h : Group, h ≠ g → u.group h = s.group h) ∧
      u.tbm = s.tbm ∧ u.mga = s.mga ∧ u.phase = s.phase ∧ u.pending = s.pending ∧ u.owed = s.owed ∧
      (x.pending = false ∨ x.strict = false → (u.group g).slot = x ∧ u.evu = s.evu ∧ u.cells = s.cells ∧
        u.free = s.free ∧ u.uplink = s.uplink) ∧
      (x.pending = true ∧ x.strict = true →
        (u.group g).slot = { x with pending := false, delivered := 0, missed := x.members, outcome := .refused } ∧
        u.evu.events[Event.triggerRefused.num].pending = true ∧
        u.evu.events[Event.triggerRefused.num].detail = some ⟨some g.val, 0, 0⟩)
    (∀ r rest, asks .arm r rest →
      ((readGroup g s).1 = none → exec .arm s = .next (finishRequest r rest .state [] v)) ∧
      (∀ c : GroupConfig, (readGroup g s).1 = some c →
        let lost := ∃ q : Port, hasPort c.members q = true ∧ ((v.port q).state = .disabled ∨ (v.port q).state = .faulted)
        let parked := ∃ q : Port, hasPort c.members q = true ∧ (v.port q).park = true
        (c.enabled = false → exec .arm s = .next (finishRequest r rest .state [] v)) ∧
        (c.enabled = true → lost → exec .arm s = .next (finishRequest r rest .memberUnavailable [] v)) ∧
        (c.enabled = true → ¬ lost → parked → exec .arm s = .next (finishRequest r rest .parkedMember [] v)) ∧
        (c.enabled = true → ¬ lost → ¬ parked → ∃ u : State,
          exec .arm s = .next (finishRequest r rest .ok [] (settle
            (((portList c.members).filter fun q => (v.port q).state = .pausing || (v.port q).state = .paused ||
              (v.port q).state = .asleep).foldl (fun s q => takeNeed .rendezvous q s) u))) ∧
          u = { v with groups := u.groups, ports := u.ports } ∧ (∀ q : Port, u.port q = idled c.members q v) ∧
          (∀ h : Group, h ≠ g → u.group h = v.group h) ∧
          u.group g = { v.group g with arm :=
            { armed := true, intact := true, hold := c.armHold * 1000, target := (v.group g).arm.target,
              members := c.members, breakReported := false,
              watched := portsWhere fun q => hasPort c.members q && (v.port q).state = .ready } }))) ∧
    (∀ r rest, asks .disarm r rest →
      ((s.group g).arm.armed = false → exec .disarm s = .next (finishRequest r rest .ok [] s)) ∧
      ((s.group g).arm.armed = true → ∃ u : State, cleared u ∧ exec .disarm s = .next (finishRequest r rest .ok [] u))) ∧
    ((s.group g).arm.armed = true → (s.group g).arm.hold = 0 → ∃ u : State, cleared u ∧
      exec (.armHoldExpiry g) s = .next (raise .armExpired ⟨some g.val, 0, 0⟩ u)) ∧
    ((s.group g).arm.armed = false ∨ (s.group g).arm.hold ≠ 0 → exec (.armHoldExpiry g) s = .next s)

/-- PREPARE plans each resting member's wake by its estimate and the margin; PREPARE_LATE names who is not READY at the
target. PREPARE: a lead above 120 000 ms is RANGE (checked first, the model's choice, log 23); then the checks of ARM.
A taken PREPARE removes the group's schedule entries, arms the group as ARM does, and plans each member in PAUSING,
PAUSED or ASLEEP in ascending order: with e the cold estimate (ASLEEP) or the resume estimate, where invalid the cold
boot or the attempt window, plus the margin, a lead of at most e hands a SCHEDULED need, a longer one requests a
schedule entry at lead - e; then the target is loaded with the lead, and comes at once for a lead of 0. A request is
ignored beside a wake-queue entry or an earlier schedule entry, replaces a later one, and else is appended. At the
target the members that are not READY are named in PREPARE_LATE, if any. (The members and their offsets are fixed at
the start, and a request judges no port state: the model's choice, log 40; that a target that is not due changes
nothing: log 1.) (R134, R135, R136, R64, R65) -/
def Obligations.GroupIsPreparedForItsTarget : Prop :=
  ∀ (g : Group) (s : State), s.Settled →
    let v := (readGroup g s).2
    (∀ (r : Request) (rest : List Request), s.Accepts (.group .prepare) r rest → natAt r.body 7 1 = g.val →
      let lead := natAt r.body 11 4
      let answers := fun (st : Status) (u : State) => exec .prepare s = .next (finishRequest r rest st [] u)
      (120000 < lead → answers .range s) ∧
      (lead ≤ 120000 → (readGroup g s).1 = none → answers .state v) ∧
      (∀ c : GroupConfig, lead ≤ 120000 → (readGroup g s).1 = some c →
        (∀ st : Status, armRefusal c v = some st → answers st v) ∧
        (armRefusal c v = none →
          let start := armGroup g c (v.modAdm fun a => { a with schedule := a.schedule.filter (·.group ≠ g) })
          let estimate := fun x : PortRec =>
            (if x.state = .asleep then x.est.cold.getD x.cfg.coldWindow else x.est.resume.getD x.cfg.attemptWindow) +
              c.margin
          let plan := (((portList c.members).filter fun q => (v.port q).state = .pausing || (v.port q).state = .paused ||
              (v.port q).state = .asleep).map fun q => (q, estimate (v.port q))).foldl
            (fun (u : State) (m : Port × Nat) =>
              if lead ≤ m.2 then takeNeed .scheduled m.1 u else requestSchedule m.1 g (lead - m.2) u) start
          let u := plan.modGroup g fun x => { x with arm := { x.arm with target := some lead } }
          (lead ≠ 0 → answers .ok (settle u)) ∧ (lead = 0 → answers .ok (settle (targetOver g u)))))) ∧
    (∀ (p : Port) (offset : Nat),
      let entry : ScheduleEntry := ⟨p, g, offset⟩
      let others := s.adm.schedule.filter (·.port ≠ p)
      requestSchedule p g offset s = { s with adm := { s.adm with schedule :=
        if (∃ e ∈ s.adm.wakeQueue, e.port = p) ∨ (∃ e, scheduleEntry? s p = some e ∧ e.countdown ≤ offset) then
          s.adm.schedule
        else others ++ [entry] } }) ∧
    (let due := (s.group g).arm.armed = true ∧ (s.group g).arm.target = some 0
      let u := v.modGroup g fun x => { x with arm := { x.arm with target := none } };
      (¬ due → exec (.preparationTargetExpiry g) s = .next s) ∧
      (due → (readGroup g s).1 = none → exec (.preparationTargetExpiry g) s = .next u) ∧
      (∀ c : GroupConfig, due → (readGroup g s).1 = some c →
        let late := portsWhere fun q => hasPort c.members q && (v.port q).state ≠ .ready
        (late = 0 → exec (.preparationTargetExpiry g) s = .next u) ∧
        (late ≠ 0 → exec (.preparationTargetExpiry g) s = .next (raise .prepareLate ⟨some g.val, 0, late⟩ u))))

/-- CANCEL, the rendezvous window and a re-evaluation end a pending trigger, each as its rule says. CANCEL drops a pending
trigger with outcome CANCELLED and every member missed, and answers with the missed set; with a FREE slot it is
refused with STATE. An expired window drops it as ABANDONED under ABANDON, and under PARTIAL delivers it to the
reachable deliverable members; RENDEZVOUS_INCOMPLETE is raised in both (the model's reading, log 21), and the event of
an end after the slot's cell is given up (the model's choice, log 57). A re-evaluation of a strict trigger whose group
is not armed and intact drops it as REFUSED with TRIGGER_REFUSED; else under ABANDON an unreachable member abandons it
and all members deliverable delivers it to all, and under PARTIAL all reachable members deliverable delivers it to
them; else it waits. With a FREE slot, or a window that runs, these change nothing (log 1). (R122, R123, R127, R131) -/
def Obligations.PendingTriggerEnds : Prop :=
  ∀ (g : Group) (s : State), s.Settled →
    let x := (s.group g).slot
    let a := (s.group g).arm
    let dropped := fun o : TriggerOutcome => dropRef x.cell (s.modGroup g fun y =>
      { y with slot := { x with pending := false, delivered := 0, missed := x.members, outcome := o } })
    let abandoned := raise .rendezvousIncomplete ⟨some g.val, 3, x.members⟩ (dropped .abandoned)
    (∀ (r : Request) (rest : List Request), s.Accepts (.group .cancel) r rest → natAt r.body 7 1 = g.val →
      (x.pending = true →
        exec .cancel s = .next (finishRequest r rest .ok (natBE 2 x.members.toNat) (dropped .cancelled))) ∧
      (x.pending = false → exec .cancel s = .next (finishRequest r rest .state [] s))) ∧
    (x.pending = false → exec (.rendezvousWindowExpiry g) s = .next s ∧ exec (.triggerReevaluation g) s = .next s) ∧
    (x.window ≠ 0 → exec (.rendezvousWindowExpiry g) s = .next s) ∧
    (x.pending = true → x.window = 0 →
      (x.policy = .abandon → exec (.rendezvousWindowExpiry g) s = .next abandoned) ∧
      (x.policy = .partialSet →
        let targets := portsWhere fun p => hasPort x.members p && !hasPort x.unreachable p && deliverable s p
        let placed := portsWhere fun p => hasPort targets p && !txFull s (.camera p)
        let missed := x.members &&& ~~~ placed
        let copied := (portList targets).foldl (fun s p => deliverCopy x.cell x.activity s p) s
        exec (.rendezvousWindowExpiry g) s = .next (raise .rendezvousIncomplete ⟨some g.val, 2, missed⟩
          (dropRef x.cell (copied.modGroup g fun y =>
            { y with slot := { x with pending := false, delivered := placed, missed := missed, outcome := .partialSet } }))))) ∧
    (x.pending = true →
      let broken := x.strict = true ∧ (a.armed = false ∨ a.intact = false)
      let reachable := x.members &&& ~~~ x.unreachable
      (broken → exec (.triggerReevaluation g) s = .next (raise .triggerRefused ⟨some g.val, 0, 0⟩ (dropped .refused))) ∧
      (¬ broken → x.policy = .abandon →
        (x.unreachable ≠ 0 → exec (.triggerReevaluation g) s = .next abandoned) ∧
        (x.unreachable = 0 → (∀ p : Port, hasPort x.members p = true → deliverable s p = true) →
          exec (.triggerReevaluation g) s = .next (deliverPending g x.members s)) ∧
        (x.unreachable = 0 → (∃ p : Port, hasPort x.members p = true ∧ deliverable s p = false) →
          exec (.triggerReevaluation g) s = .next s)) ∧
      (¬ broken → x.policy = .partialSet →
        ((∀ p : Port, hasPort reachable p = true → deliverable s p = true) →
          exec (.triggerReevaluation g) s = .next (deliverPending g reachable s)) ∧
        ((∃ p : Port, hasPort reachable p = true ∧ deliverable s p = false) →
          exec (.triggerReevaluation g) s = .next s)))

/-- READ_ENTRY answers with the entry's read form, or POISONED with the owner's effect; a payload form is read back as its
entry. READ_ENTRY of a TBM entry makes one read and answers with its fields in the order and sizes of Table 9-4 (a
TEMPLATE as length, 128 B with zeros after the length, sequence offset), or with POISONED where the read hands nothing
over: an enabled port is then faulted with TABLE, a group takes the effects of its poisoned entry (what reads find and
do: the statement of the scrubber), and probing goes on where a PROBE template is poisoned (the model's choice, log
59). DOMAIN answers limit and committed charge, DEVICE its 36 B, PORT_STATUS the 42 B of Table 9-8 and GROUP_STATUS
the 31 B of Table 9-9, field by field, with no change. A free PROXY record answers 266 zero bytes with no read; an
occupied one answers yes, key, length, 256 B (zeros after the length: the model's choice, log 44), sequence offset and
age, or is discarded with POISONED. Nothing else changes but the end of the request. The codes of the enumerations
stand in the order of their lists. The entry that a write form stands for: the payload form of an entry whose fields
fit their sizes is read back as that entry (a TEMPLATE with zeros after its length, log 13). (R151, R139, R9, R137,
R112, R152) -/
def Obligations.EntryIsReadInItsForm : Prop :=
  let portForm := fun c : PortConfig =>
    natBE 6 c.station.toNat ++ natBE 2 c.standby ++ natBE 2 c.active ++ natBE 2 c.inrush ++ natBE 1 c.holdLimit ++
      natBE 1 c.readiness.code ++ natBE 1 (methodCode (some c.firstMethod)) ++ natBE 1 c.attempts ++
      natBE 2 c.attemptWindow ++ natBE 2 c.spacing ++ natBE 2 c.coldWindow ++ natBE 2 c.offHold ++
      natBE 2 c.pulseWidth ++ natBE 1 c.confirmMode.code ++ natBE 2 c.confirmWindow ++ natBE 2 c.idle ++
      natBE 2 c.deepIdle ++ natBE 2 c.probeInterval ++ natBE 1 c.missLimit ++ natBE 2 c.ageLimit
  let templateForm := fun t : Template =>
    natBE 1 t.length ++ padTo 128 ((t.bytes.take 128).take t.length) ++ natBE 1 t.seqOffset
  let ruleForm := fun e : Rule =>
    natBE 1 (boolNat e.enabled) ++ natBE 1 e.direction.code ++ natBE 2 e.scope.toNat ++ natBE 1 e.offset ++
      natBE 1 e.length ++ natBE 4 e.mask.toNat ++ natBE 4 e.value.toNat ++ natBE 1 e.cls.index.val ++
      natBE 1 (e.keyOffset.getD 255) ++ natBE 1 (e.seqOffset.getD 255)
  let actionForm := fun a : ClassAction => natBE 1 a.action.code ++ natBE 1 (boolNat a.activity)
  let groupForm := fun c : GroupConfig =>
    natBE 6 c.address.toNat ++ natBE 2 c.members.toNat ++ natBE 1 c.policy.code ++ natBE 1 (boolNat c.strict) ++
      natBE 2 c.window ++ natBE 2 c.margin ++ natBE 2 c.armHold ++ natBE 1 (boolNat c.enabled)
  (∀ (r : Request) (rest : List Request) (s : State), s.Accepts (.op .readEntry) r rest →
    let table := natAt r.body 6 1
    let index := natAt r.body 7 1
    let yes := fun b : Bool => natBE 1 (if b then 1 else 0)
    let ok := fun (bs : List Byte) (u : State) => exec .readEntry s = .next (finishRequest r rest .ok bs u)
    let poisoned := fun u : State => exec .readEntry s = .next (finishRequest r rest .poisoned [] u)
    (table = 1 → ∀ p : Port, index = p.val →
      (∀ c : PortConfig, (readPortConfig p s).1 = some c → ok (portForm c) (readPortConfig p s).2) ∧
      ((readPortConfig p s).1 = none →
        ((s.port p).state = .disabled → poisoned (readPortConfig p s).2) ∧
        ((s.port p).state ≠ .disabled → poisoned (settle (enterFaulted p .table (readPortConfig p s).2))))) ∧
    (table = 2 → ∀ i : Fin 48, index = i.val →
      (∀ t : Template, (readTemplate i s).1 = some t → ok (templateForm t) (readTemplate i s).2) ∧
      ((readTemplate i s).1 = none → poisoned (readTemplate i s).2)) ∧
    (table = 3 → ∀ i : Fin 32, index = i.val →
      (∀ e : Rule, (readRule i s).1 = some e → ok (ruleForm e) (readRule i s).2) ∧
      ((readRule i s).1 = none → poisoned (readRule i s).2)) ∧
    (table = 4 → ∀ i : Fin 9, index = i.val →
      (∀ a : ClassAction, (readClassAction i s).1 = some a → ok (actionForm a) (readClassAction i s).2) ∧
      ((readClassAction i s).1 = none → poisoned (readClassAction i s).2)) ∧
    (table = 5 → ∀ g : Group, index = g.val →
      (∀ c : GroupConfig, (readGroup g s).1 = some c → ok (groupForm c) (readGroup g s).2) ∧
      ((readGroup g s).1 = none → poisoned (readGroup g s).2)) ∧
    (table = 6 → ∀ d : Domain, index = d.val → ok (natBE 2 s.adm.limits[d] ++ natBE 2 s.adm.committed[d]) s) ∧
    (table = 7 → ok (natBE 6 s.mga.managerA.toNat ++ natBE 6 s.mga.managerB.toNat ++ natBE 6 s.mga.report.toNat ++
      natBE 1 s.mga.linkTimeout ++ natBE 1 s.adm.passLimit ++ natBE 1 s.mga.learnShift ++
      natBE 6 s.mga.factory.toNat ++ [0x88, 0xB6] ++ natBE 2 s.free.length ++ natBE 4 s.mga.responsesLost ++
      natBE 1 s.mga.fifo.length) s) ∧
    (table = 8 → ∀ p : Port, index = p.val →
      let x := s.port p
      let bs :=
        natBE 1 x.state.code ++ yes x.pin ++ yes x.park ++ yes (x.state = .ready && x.hold.isEmpty && !x.releasing) ++
        yes x.releasing ++ natBE 1 x.hold.length ++ natBE 1 x.egress.queue.length ++ yes x.linkUp ++ yes x.feed ++
        yes x.wakeLine ++
        (match x.fault with
          | some f => natBE 1 f.code.code ++ natBE 1 f.stateAt.code ++ natBE 1 (methodCode f.method) ++ natBE 1 f.attempts
          | none => [0xFF, 0, 0, 0]) ++
        (match x.lastWake with
          | some w => natBE 1 w.cls.rank ++ natBE 1 (methodCode (some w.method)) ++ natBE 2 w.time ++ yes w.updated
          | none => [0xFF, 0, 0, 0, 0]) ++
        natBE 1 x.op.kind.code ++ natBE 1 (methodCode x.op.method) ++ natBE 1 x.op.started ++
        yes x.est.resume.isSome ++ natBE 2 (x.est.resume.getD 0) ++ natBE 1 x.est.resumeSamples ++
        yes x.est.cold.isSome ++ natBE 2 (x.est.cold.getD 0) ++ natBE 1 x.est.coldSamples ++
        (match s.adm.wakeQueue.find? (·.port = p) with
          | some e => natBE 1 e.cls.rank ++ natBE 2 e.arrival ++ natBE 1 e.passes ++ yes e.blocking
          | none => [0xFF, 0, 0, 0, 0]) ++
        (match s.adm.schedule.find? (·.port = p) with
          | some e => natBE 1 e.group.val ++ natBE 4 e.countdown
          | none => [0xFF, 0, 0, 0, 0]) ++
        natBE 2 x.charge
      ok bs s ∧ bs.length = 42) ∧
    (table = 9 → ∀ g : Group, index = g.val →
      let a := (s.group g).arm
      let x := (s.group g).slot
      let bs :=
        yes a.armed ++ yes a.intact ++ natBE 4 a.hold ++
        (match a.target with
          | some n => natBE 4 n
          | none => [0xFF, 0, 0, 0]) ++
        natBE 2 a.members.toNat ++ natBE 2 a.watched.toNat ++ yes a.breakReported ++ yes x.pending ++
        natBE 1 x.cell.val ++ natBE 2 x.window ++ natBE 2 x.members.toNat ++ natBE 1 x.policy.code ++ yes x.strict ++
        yes x.activity ++ natBE 2 x.delivered.toNat ++ natBE 2 x.missed.toNat ++ natBE 2 x.unreachable.toNat ++
        natBE 1 x.outcome.code
      ok bs s ∧ bs.length = 31) ∧
    (table = 10 → ∀ (p : Port) (i : Fin 4), index = 4 * p.val + i.val →
      let j := proxyIndex p i
      ((s.port p).proxies[i].occupied = false → ok (List.replicate 266 0) s) ∧
      ((s.port p).proxies[i].occupied = true →
        (∀ e : ProxyEntry, (readProxy j s).1 = some e → ok
          (natBE 1 1 ++ natBE 2 e.key.toNat ++ natBE 2 e.length ++ padTo 256 (e.bytes.take e.length) ++
            natBE 1 (e.seqOffset.getD 255) ++ natBE 4 (s.port p).proxies[i].age) (readProxy j s).2) ∧
        ((readProxy j s).1 = none → poisoned (readProxy j s).2)))) ∧
  ([.disabled, .asleep, .waking, .ready, .pausing, .paused, .resuming, .faulted].map PortState.code = List.range 8 ∧
    [.noResponse, .budget, .linkLost, .feed, .table].map FaultCode.code = List.range 5 ∧
    [some .frame, some .line, some .power, none].map methodCode = List.range 4 ∧
    [.rendezvous, .scheduled, .traffic, .sense].map WakeClass.rank = List.range 4 ∧
    [.none, .cold, .resume, .pause].map OpKind.code = List.range 4 ∧
    [.none, .delivered, .partialSet, .abandoned, .refused, .cancelled, .poisoned].map TriggerOutcome.code =
      List.range 7 ∧
    [.capture, .control, .liveview, .poll, .bulk, .pollAnswer, .standbyAck, .readySign, .probeAnswer].map
      FrameClass.index = List.finRange 9 ∧
    [.holdAndWake, .hold, .answerOrWake, .drop].map Action.code = List.range 4 ∧
    [.down, .up, .both].map Direction.code = List.range 3 ∧ [.sign, .anyFrame].map ReadinessMode.code = List.range 2 ∧
    [.ack, .silence].map ConfirmMode.code = List.range 2 ∧ [.partialSet, .abandon].map Policy.code = List.range 2) ∧
  (∀ c : PortConfig, (∀ n ∈ [c.holdLimit, c.attempts, c.missLimit], n < 256) →
    (∀ n ∈ [c.standby, c.active, c.inrush, c.attemptWindow, c.spacing, c.coldWindow, c.offHold, c.pulseWidth,
      c.confirmWindow, c.idle, c.deepIdle, c.probeInterval, c.ageLimit], n < 65536) →
    PortConfig.ofPayload (portForm c) = c) ∧
  (∀ t : Template, t.length ≤ 128 → t.bytes.length = 128 → (∀ b ∈ t.bytes.drop t.length, b = 0) → t.seqOffset < 256 →
    Template.ofPayload (templateForm t) = t) ∧
  (∀ e : Rule, e.offset < 256 → e.length < 256 → (∀ o ∈ e.keyOffset, o < 255) → (∀ o ∈ e.seqOffset, o < 255) →
    Rule.ofPayload (ruleForm e) = e) ∧
  (∀ a : ClassAction, ClassAction.ofPayload (actionForm a) = a) ∧
  (∀ c : GroupConfig, (∀ n ∈ [c.window, c.margin, c.armHold], n < 65536) → GroupConfig.ofPayload (groupForm c) = c)

/-- WRITE_ENTRY stores a whole entry with fresh check bits, or refuses it and stores nothing. PORT_CONFIG: STATE outside
DISABLED, RANGE for a value out of range, else stored with pulse width rounded and tuning fields clamped, the copies
replaced, the estimates invalid, mismatches cleared by interval 0 and records by age limit 0. TEMPLATE, RULE,
CLASS_ACTION: RANGE or stored; a present PROBE template starts a PAUSED port's probing. GROUP: STATE while PENDING,
then INVALID_CONFIG for its address, then RANGE (the order is the model's choice, log 15); else stored, with CLS's
copy of the address; at an armed group the new members are held and intactness breaks, with ARM_BROKEN where it was
intact and nothing reported yet (R130); written not enabled the arm is then cleared (R132), where R116 says with no
event: that the break comes first, sets break reported and raises ARM_BROKEN, naming no port, is the model's choice
too, log 15. DOMAIN: RANGE above 2000, BUDGET_IN_USE below the committed charge, else the limit, its checks (in
arrival order: the model's choice, log 49) and a scan. DEVICE: RANGE or all six fields. (A hold countdown of 0 after
the arm is cleared: the model's choice, log 22.) (R152, R2, R3, R28, R73, R76, R116, R117, R52, R154, R130, R132) -/
def Obligations.WholeEntryIsWrittenOrRefused : Prop :=
  ∀ (r : Request) (rest : List Request) (s : State), s.Accepts (.op .writeEntry) r rest →
    let table := natAt r.body 6 1
    let index := natAt r.body 7 1
    let bs := r.payload
    let answers := fun (st : Status) (u : State) => exec .writeEntry s = .next (finishRequest r rest st [] u)
    (table = 1 → ∀ p : Port, index = p.val →
      let c := PortConfig.ofPayload bs
      let bad := 1000 < c.standby ∨ 1000 < c.active ∨ 1000 < c.inrush ∨ c.active < c.standby ∨ c.inrush < c.active ∨
        c.holdLimit < 1 ∨ 32 < c.holdLimit ∨ c.attempts < 1 ∨ 8 < c.attempts ∨ c.attemptWindow < 50 ∨
        65535 < c.attemptWindow ∨ 10000 < c.spacing ∨ c.coldWindow < 500 ∨ 65535 < c.coldWindow ∨ c.offHold < 100 ∨
        5000 < c.offHold ∨ c.pulseWidth < 10 ∨ 2559 < c.pulseWidth ∨ c.confirmWindow < 50 ∨ 10000 < c.confirmWindow ∨
        c.missLimit < 1 ∨ 15 < c.missLimit
      let d := { c with
        pulseWidth := c.pulseWidth / 10 * 10, idle := min c.idle 3600, ageLimit := min c.ageLimit 600
        probeInterval := if c.probeInterval = 0 then 0 else max 250 (min c.probeInterval 10000) }
      ((s.port p).state ≠ .disabled → answers .state s) ∧
      ((s.port p).state = .disabled → bad → answers .range s) ∧
      ((s.port p).state = .disabled → ¬ bad → answers .ok ((writePortConfig p d s).modPort p fun x =>
        { x with
          cfg := d, est := Estimates.invalid
          probe := if d.probeInterval = 0 then { x.probe with
            running := false, countdown := 0, outstanding := none, misses := 0, mismatches := 0, capture := none }
            else x.probe
          proxies := if d.ageLimit = 0 then Vector.replicate 4 ProxyControl.free else x.proxies }))) ∧
    (table = 2 → ∀ i : Fin 48, index = i.val →
      let t := Template.ofPayload bs
      let x := s.port (templatePort i)
      let bad := 128 < t.length ∨ 126 < t.seqOffset ∨ i.val % 3 = 2 ∧ max t.length 64 < t.seqOffset + 2
      let starts := i.val % 3 = 2 ∧ t.length ≠ 0 ∧ x.state = .paused ∧ x.cfg.probeInterval ≠ 0 ∧ x.probe.running = false
      (bad → answers .range s) ∧ (¬ bad → ¬ starts → answers .ok (writeTemplate i t s)) ∧
      (¬ bad → starts → answers .ok ((writeTemplate i t s).modPort (templatePort i) fun y =>
        { y with probe := { y.probe with running := true, countdown := y.cfg.probeInterval } }))) ∧
    (table = 3 → ∀ i : Fin 32, index = i.val →
      let e := Rule.ofPayload bs
      let legal := match e.cls with
        | .capture | .control | .liveview | .poll => e.direction = .down
        | .bulk => True
        | _ => e.direction = .up
      let bad := e.length < 1 ∨ 4 < e.length ∨ 2 ^ (8 * e.length) ≤ e.mask.toNat ∨ ¬ legal
      (bad → answers .range s) ∧ (¬ bad → answers .ok (writeRule i e s))) ∧
    (table = 4 → ∀ i : Fin 9, index = i.val →
      let a := ClassAction.ofPayload bs
      (a.action = .answerOrWake ∧ i ≠ 3 → answers .range s) ∧
      (a.action ≠ .answerOrWake ∨ i = 3 → answers .ok (writeClassAction i a s))) ∧
    (table = 5 → ∀ g : Group, index = g.val →
      let c := GroupConfig.ofPayload bs
      let a := (s.group g).arm
      let badAddress := c.enabled = true ∧ (isGroupAddr c.address = false ∨ c.address = broadcast ∨
        ∃ h : Group, h ≠ g ∧ s.tbm.group[h].val.enabled = true ∧ s.tbm.group[h].poison = false ∧
          s.tbm.group[h].val.address = c.address)
      let badRange := c.window < 100 ∨ 60000 < c.window ∨ 5000 < c.margin ∨ c.armHold < 1 ∨ 600 < c.armHold
      let stored := (writeGroup g c s).modGroup g fun x => { x with address := c.address }
      ((s.group g).slot.pending = true → answers .state s) ∧
      ((s.group g).slot.pending = false → badAddress → answers .invalidConfig s) ∧
      ((s.group g).slot.pending = false → ¬ badAddress → badRange → answers .range s) ∧
      ((s.group g).slot.pending = false → ¬ badAddress → ¬ badRange →
        (a.armed = false → answers .ok stored) ∧
        (a.armed = true → ∃ u : State, answers .ok u ∧
          (∀ q : Port, u.port q = { s.port q with
            idle := if (hasPort a.members q = true ∨ hasPort c.members q = true) ∧ (s.port q).state = .ready then 0
              else (s.port q).idle }) ∧
          (∀ h : Group, h ≠ g → u.group h = s.group h) ∧ (u.group g).slot = (s.group g).slot ∧
          (u.group g).address = c.address ∧ u.tbm = stored.tbm ∧ u.mga = s.mga ∧ u.phase = s.phase ∧
          u.pending = s.pending ∧
          (let broken := { a with
            intact := false, watched := 0, members := c.members, breakReported := a.breakReported || a.intact };
          (c.enabled = true → (u.group g).arm = broken ∧ u.adm = s.adm) ∧
          (c.enabled = false →
            (u.group g).arm = { broken with armed := false, hold := 0, target := none, members := 0 } ∧
            u.adm = { s.adm with schedule := s.adm.schedule.filter (·.group ≠ g) })) ∧
          (a.intact = false ∨ a.breakReported = true → u.evu = s.evu) ∧
          (a.intact = true ∧ a.breakReported = false →
            u.evu.events[Event.armBroken.num].pending = true ∧
            u.evu.events[Event.armBroken.num].detail = some ⟨some g.val, 0, 0⟩)))) ∧
    (table = 6 → ∀ d : Domain, index = d.val →
      let limit := beNat bs
      let set := s.modAdm fun a => { a with limits := a.limits.set d limit }
      let checked := s.adm.wakeQueue.filter fun e =>
        domainOf e.port = d && ((s.port e.port).state = .asleep || (s.port e.port).state = .paused)
      (2000 < limit → answers .range s) ∧ (limit ≤ 2000 → limit < s.adm.committed[d] → answers .budgetInUse s) ∧
      (limit ≤ 2000 → s.adm.committed[d] ≤ limit →
        answers .ok (settle (scan (checked.foldl (fun u e =>
          if limit < (u.port e.port).draws.inrush then enterFaulted e.port .budget u else u) set))))) ∧
    (table = 7 →
      let timeout := natAt bs 18 1
      let pass := natAt bs 19 1
      let shift := natAt bs 20 1
      let bad := timeout < 1 ∨ 4 < timeout ∨ 15 < pass ∨ shift < 1 ∨ 4 < shift
      (bad → answers .range s) ∧
      (¬ bad → answers .ok { s with
        mga := { s.mga with
          managerA := addrAt bs 0, managerB := addrAt bs 6, report := addrAt bs 12, linkTimeout := timeout
          learnShift := shift }
        adm := { s.adm with
          passLimit := pass
          wakeQueue := s.adm.wakeQueue.map fun e =>
            { e with blocking := e.blocking || decide (pass ≤ e.passes) } } }))

/-- PATCH_FIELD reads the entry and writes it back with one field changed, refuses the value, or answers POISONED.
PATCH_FIELD of a TBM entry makes one read: where it hands nothing over the answer is POISONED (an enabled port is then
faulted with TABLE; probing goes on where a PROBE template is poisoned: the model's choice, log 59). PORT_CONFIG:
STATE for a fixed field (0-14) outside DISABLED, RANGE where the value is out of range as the entry would stand, else
stored rounded and clamped with the copies replaced; a fixed field makes the estimates invalid, the idle and deep-idle
thresholds restart their timers, a probe interval reloads, starts or (0) stops probing and clears the mismatches, an
age limit of 0 clears the records. TEMPLATE, RULE, CLASS_ACTION: RANGE as the entry would stand, or stored; a present
PROBE template starts a PAUSED port's probing. GROUP: STATE while PENDING, INVALID_CONFIG for the address as the entry
would stand, RANGE for the written field (the order: log 15), else stored, with CLS's copy of the address; at an armed
group the member set holds the new members and breaks intactness, enabled = no clears the arm, and every other field
leaves the arm alone. DOMAIN: RANGE above 2000, BUDGET_IN_USE below the committed charge, else the limit, its checks
(in arrival order: log 49) and a scan. DEVICE: RANGE or the field. Setting field n to a value in its encoding changes
field n of the form and no other. (The probe interval judges the PROBE template without a read, log 24, and running
probing goes on, log 39; ARM_BROKEN names no port, log 15; a hold of 0 after the arm is cleared, log 22: the model's
choices.) (R143, R153, R2, R3, R45, R9, R28, R73, R76, R116, R117, R52) -/
def Obligations.OneFieldIsPatched : Prop :=
  (∀ (r : Request) (rest : List Request) (s : State), s.Accepts (.op .patchField) r rest →
    let table := natAt r.body 6 1
    let index := natAt r.body 7 1
    let n := natAt r.payload 0 1
    let v := beNat (r.payload.drop 1)
    let answers := fun (st : Status) (u : State) => exec .patchField s = .next (finishRequest r rest st [] u)
    (table = 1 → ∀ p : Port, index = p.val →
      let u := (readPortConfig p s).2
      ((readPortConfig p s).1 = none →
        ((s.port p).state = .disabled → answers .poisoned u) ∧
        ((s.port p).state ≠ .disabled → answers .poisoned (settle (enterFaulted p .table u)))) ∧
      (∀ old : PortConfig, (readPortConfig p s).1 = some old →
        let c := old.setField n v
        let bad := (n = 1 ∨ n = 2 ∨ n = 3) ∧ (1000 < c.standby ∨ 1000 < c.active ∨ 1000 < c.inrush ∨
            c.active < c.standby ∨ c.inrush < c.active) ∨
          n = 4 ∧ (v < 1 ∨ 32 < v) ∨ n = 7 ∧ (v < 1 ∨ 8 < v) ∨ n = 8 ∧ (v < 50 ∨ 65535 < v) ∨ n = 9 ∧ 10000 < v ∨
          n = 10 ∧ (v < 500 ∨ 65535 < v) ∨ n = 11 ∧ (v < 100 ∨ 5000 < v) ∨ n = 12 ∧ (v < 10 ∨ 2559 < v) ∨
          n = 14 ∧ (v < 50 ∨ 10000 < v) ∨ n = 18 ∧ (v < 1 ∨ 15 < v)
        let d := { c with
          pulseWidth := c.pulseWidth / 10 * 10, idle := min c.idle 3600, ageLimit := min c.ageLimit 600
          probeInterval := if c.probeInterval = 0 then 0 else max 250 (min c.probeInterval 10000) }
        (n < 15 → (s.port p).state ≠ .disabled → answers .state u) ∧
        ((15 ≤ n ∨ (s.port p).state = .disabled) → bad → answers .range u) ∧
        ((15 ≤ n ∨ (s.port p).state = .disabled) → ¬ bad → answers .ok ((writePortConfig p d u).modPort p fun x =>
          { x with
            cfg := d
            est := if n < 15 then Estimates.invalid else x.est
            idle := if n = 15 ∧ x.state = .ready then 0 else x.idle
            deepIdle := if n = 16 ∧ x.state = .paused then 0 else x.deepIdle
            probe :=
              if n ≠ 17 then x.probe
              else if d.probeInterval = 0 then { x.probe with
                running := false, countdown := 0, outstanding := none, misses := 0, mismatches := 0, capture := none }
              else if x.state = .paused ∧ (x.probe.running = true ∨ templatePresent u p .probe = true) then
                { x.probe with running := true, countdown := d.probeInterval }
              else x.probe
            proxies := if n = 19 ∧ d.ageLimit = 0 then Vector.replicate 4 ProxyControl.free else x.proxies })))) ∧
    (table = 2 → ∀ i : Fin 48, index = i.val →
      let u := (readTemplate i s).2
      ((readTemplate i s).1 = none → answers .poisoned u) ∧
      (∀ old : Template, (readTemplate i s).1 = some old →
        let t := if n = 0 then { old with length := v } else { old with seqOffset := v }
        let x := s.port (templatePort i)
        let bad := 128 < t.length ∨ 126 < t.seqOffset ∨ i.val % 3 = 2 ∧ max t.length 64 < t.seqOffset + 2
        let starts := i.val % 3 = 2 ∧ t.length ≠ 0 ∧ x.state = .paused ∧ x.cfg.probeInterval ≠ 0 ∧
          x.probe.running = false
        (bad → answers .range u) ∧ (¬ bad → ¬ starts → answers .ok (writeTemplate i t u)) ∧
        (¬ bad → starts → answers .ok ((writeTemplate i t u).modPort (templatePort i) fun y =>
          { y with probe := { y.probe with running := true, countdown := y.cfg.probeInterval } })))) ∧
    (table = 3 → ∀ i : Fin 32, index = i.val →
      let u := (readRule i s).2
      ((readRule i s).1 = none → answers .poisoned u) ∧
      (∀ old : Rule, (readRule i s).1 = some old →
        let e := old.setField n v
        let legal := match e.cls with
          | .capture | .control | .liveview | .poll => e.direction = .down
          | .bulk => True
          | _ => e.direction = .up
        let bad := 255 < e.offset ∨ e.length < 1 ∨ 4 < e.length ∨ 2 ^ (8 * e.length) ≤ e.mask.toNat ∨
          (∃ o ∈ e.keyOffset, 254 < o) ∨ (∃ o ∈ e.seqOffset, 254 < o) ∨ ¬ legal
        (bad → answers .range u) ∧ (¬ bad → answers .ok (writeRule i e u)))) ∧
    (table = 4 → ∀ i : Fin 9, index = i.val →
      let u := (readClassAction i s).2
      ((readClassAction i s).1 = none → answers .poisoned u) ∧
      (∀ old : ClassAction, (readClassAction i s).1 = some old →
        let a := old.setField n v
        (a.action = .answerOrWake ∧ i ≠ 3 → answers .range u) ∧
        (a.action ≠ .answerOrWake ∨ i = 3 → answers .ok (writeClassAction i a u)))) ∧
    (table = 5 → ∀ g : Group, index = g.val →
      let u := (readGroup g s).2
      ((readGroup g s).1 = none → answers .poisoned u) ∧
      (∀ old : GroupConfig, (readGroup g s).1 = some old →
        let c := old.setField n v
        let a := (s.group g).arm
        let badAddress := c.enabled = true ∧ (isGroupAddr c.address = false ∨ c.address = broadcast ∨
          ∃ h : Group, h ≠ g ∧ s.tbm.group[h].val.enabled = true ∧ s.tbm.group[h].poison = false ∧
            s.tbm.group[h].val.address = c.address)
        let badRange := n = 4 ∧ (v < 100 ∨ 60000 < v) ∨ n = 5 ∧ 5000 < v ∨ n = 6 ∧ (v < 1 ∨ 600 < v)
        let stored := (writeGroup g c u).modGroup g fun x => { x with address := c.address }
        ((s.group g).slot.pending = true → answers .state u) ∧
        ((s.group g).slot.pending = false → badAddress → answers .invalidConfig u) ∧
        ((s.group g).slot.pending = false → ¬ badAddress → badRange → answers .range u) ∧
        ((s.group g).slot.pending = false → ¬ badAddress → ¬ badRange →
          (a.armed = false → answers .ok stored) ∧ (n ≠ 1 → n ≠ 7 ∨ v ≠ 0 → answers .ok stored) ∧
          (a.armed = true → n = 1 ∨ n = 7 ∧ v = 0 → ∃ w : State, answers .ok w ∧
            (∀ q : Port, w.port q = { s.port q with
              idle := if (hasPort a.members q = true ∨ n = 1 ∧ hasPort c.members q = true) ∧ (s.port q).state = .ready
                then 0 else (s.port q).idle }) ∧
            (∀ h : Group, h ≠ g → w.group h = s.group h) ∧ (w.group g).slot = (s.group g).slot ∧
            (w.group g).address = c.address ∧ w.tbm = stored.tbm ∧ w.mga = s.mga ∧ w.phase = s.phase ∧
            w.pending = s.pending ∧
            (n = 1 →
              (w.group g).arm = { a with
                intact := false, watched := 0, members := c.members, breakReported := a.breakReported || a.intact } ∧
              w.adm = s.adm ∧ (a.intact = false ∨ a.breakReported = true → w.evu = u.evu) ∧
              (a.intact = true ∧ a.breakReported = false →
                w.evu.events[Event.armBroken.num].pending = true ∧
                w.evu.events[Event.armBroken.num].detail = some ⟨some g.val, 0, 0⟩)) ∧
            (n = 7 →
              (w.group g).arm = { a with
                armed := false, intact := false, hold := 0, target := none, members := 0, watched := 0 } ∧
              w.adm = { s.adm with schedule := s.adm.schedule.filter (·.group ≠ g) } ∧ w.evu = u.evu))))) ∧
    (table = 6 → ∀ d : Domain, index = d.val →
      let set := s.modAdm fun a => { a with limits := a.limits.set d v }
      let checked := s.adm.wakeQueue.filter fun e =>
        domainOf e.port = d && ((s.port e.port).state = .asleep || (s.port e.port).state = .paused)
      (2000 < v → answers .range s) ∧ (v ≤ 2000 → v < s.adm.committed[d] → answers .budgetInUse s) ∧
      (v ≤ 2000 → s.adm.committed[d] ≤ v → answers .ok (settle (scan (checked.foldl (fun u e =>
        if v < (u.port e.port).draws.inrush then enterFaulted e.port .budget u else u) set))))) ∧
    (table = 7 →
      (n = 3 ∨ n = 5 → v < 1 ∨ 4 < v → answers .range s) ∧ (n = 4 → 15 < v → answers .range s) ∧
      (n = 0 → answers .ok (s.modMga fun m => { m with managerA := BitVec.ofNat 48 v })) ∧
      (n = 1 → answers .ok (s.modMga fun m => { m with managerB := BitVec.ofNat 48 v })) ∧
      (n = 2 → answers .ok (s.modMga fun m => { m with report := BitVec.ofNat 48 v })) ∧
      (n = 3 → 1 ≤ v → v ≤ 4 → answers .ok (s.modMga fun m => { m with linkTimeout := v })) ∧
      (n = 4 → v ≤ 15 → answers .ok (s.modAdm fun a =>
        { a with
          passLimit := v
          wakeQueue := a.wakeQueue.map fun e => { e with blocking := e.blocking || decide (v ≤ e.passes) } })) ∧
      (n = 5 → 1 ≤ v → v ≤ 4 → answers .ok (s.modMga fun m => { m with learnShift := v })))) ∧
    (∀ (n v size : Nat),
      (Table.portConfig.fieldSizes[n]? = some size → v < 256 ^ size → Table.portConfig.encodes n v = true →
        ∀ c : PortConfig, (c.setField n v).fields = c.fields.set n v) ∧
      (Table.rule.fieldSizes[n]? = some size → v < 256 ^ size → Table.rule.encodes n v = true →
        ∀ e : Rule, (e.setField n v).fields = e.fields.set n v) ∧
      (Table.classAction.fieldSizes[n]? = some size → v < 256 ^ size → Table.classAction.encodes n v = true →
        ∀ a : ClassAction, (a.setField n v).fields = a.fields.set n v) ∧
      (Table.group.fieldSizes[n]? = some size → v < 256 ^ size → Table.group.encodes n v = true →
        ∀ c : GroupConfig, (c.setField n v).fields = c.fields.set n v))

/-- An egress sends its head entry, rewritten where the entry says so, and at its end gives up the place and the
reference. With the link up, nothing in transmission and an entry at the head, TRANSMISSION_START sends that entry's
bytes as its cell holds them, with the station address of the member in bytes 0-5 where the entry has a rewrite; the
queue and the cell are unchanged. TRANSMISSION_END of the frame in transmission removes the entry, and its cell gives
up one reference, joining the tail of the free list when that was the last; where a RESTART waits for that cell's
response on the uplink, its wait is over. With the link down, nothing to send, or nothing in transmission, they change
nothing (the model's choice, log 1). (R93, R88, R92, R158) -/
def Obligations.EgressSendsItsHeadEntry : Prop :=
  ∀ (e : EtherPort) (s : State), s.Settled →
    let link := match e with
      | .camera p => (s.port p).linkUp
      | .uplink => s.uplink.linkUp
    (link = false ∨ (s.egress e).sending ≠ none ∨ (s.egress e).queue = [] → exec (.transmissionStart e) s = .next s) ∧
    (∀ (x : TxEntry) (rest : List TxEntry), link = true → (s.egress e).sending = none → (s.egress e).queue = x :: rest →
      let stored := (s.cell x.cell).data.take x.length
      (x.rewrite = none → exec (.transmissionStart e) s =
        .next (s.modEgress e fun g => { g with sending := some stored })) ∧
      (∀ p : Port, x.rewrite = some p → exec (.transmissionStart e) s =
        .next (s.modEgress e fun g =>
          { g with sending := some (addrBytes (s.port p).cfg.station ++ stored.drop 6) }))) ∧
    ((s.egress e).sending = none ∨ (s.egress e).queue = [] → exec (.transmissionEnd e) s = .next s) ∧
    (∀ (bs : List Byte) (x : TxEntry) (rest : List TxEntry), (s.egress e).sending = some bs →
      (s.egress e).queue = x :: rest → ∃ t : State, exec (.transmissionEnd e) s = .next t ∧
        t.egress e = { queue := rest, sending := none } ∧ (∀ f : EtherPort, f ≠ e → t.egress f = s.egress f) ∧
        (t.cell x.cell).refs = (s.cell x.cell).refs - 1 ∧ (t.cell x.cell).data = (s.cell x.cell).data ∧
        (∀ d : CellNo, d ≠ x.cell → t.cell d = s.cell d) ∧
        t.free = (if (s.cell x.cell).refs = 1 then s.free ++ [x.cell] else s.free) ∧
        (∀ q : Port, t.port q = { s.port q with egress := t.egress (.camera q) }) ∧
        t.uplink = { s.uplink with egress := t.egress .uplink } ∧
        (e ≠ .uplink → t.mga = s.mga) ∧
        (e = .uplink → t.mga = { s.mga with
          restart := s.mga.restart.map fun w => if w.cell = some x.cell then { w with cell := none } else w }) ∧
        t.adm = s.adm ∧ t.groups = s.groups ∧ t.tbm = s.tbm ∧ t.evu = s.evu ∧ t.phase = s.phase ∧
        t.pending = s.pending ∧ t.owed = [])

/-- A release step moves held frames, oldest first, into the places of the transmit queue, and completes at an empty hold
queue. At a port with its release flag set whose held frames' cells are referenced, RELEASE_STEP moves as many held
frames as there are places from the head of the hold queue to the tail of the transmit queue; each is counted as
released and as forwarded down, and one with the activity mark sets the idle timer of a READY port to 0 ms. No cell's
count changes. Where the hold queue is then empty the flag is cleared, and every pending trigger that holds the port
is re-evaluated, in ascending group order (the model's choice, logs 2 and 52). Everything else is unchanged. With the
flag clear nothing changes (log 1). (R96, R98, R97, R88, R122) -/
def Obligations.ReleaseStepMovesHeldFrames : Prop :=
  ∀ (p : Port) (s : State), s.Settled →
    ((s.port p).releasing = false → exec (.releaseStep p) s = .next s) ∧
    ((s.port p).releasing = true → (∀ h ∈ (s.port p).hold, 0 < (s.cell h.cell).refs) →
      let r := s.port p
      let moved := r.hold.take (32 - r.egress.queue.length)
      let left := r.hold.drop (32 - r.egress.queue.length)
      ∃ u : State, exec (.releaseStep p) s = .next (settle u) ∧
        u.port p = { r with
          hold := left
          egress := { r.egress with queue := r.egress.queue ++ moved.map fun h => ⟨h.cell, h.length, none⟩ }
          counts := { r.counts with
            released := bump^[moved.length] r.counts.released
            forwardedDown := bump^[moved.length] r.counts.forwardedDown }
          idle := if r.state = .ready ∧ moved.any (·.activity) = true then 0 else r.idle
          releasing := !left.isEmpty } ∧
        u = { s.modPort p fun _ => u.port p with owed := u.owed } ∧
        u.owed = (if left = [] then (allGroups.filter fun g =>
          (s.group g).slot.pending && hasPort (s.group g).slot.members p).map .reevaluate else []))

/-- A scan visits eligible entries by class and arrival, admits what the limit allows, and counts passes. The scan order
lists the eligible entries (PAUSED or ASLEEP and not parked) by class, and keeps the queue's order within a class.
ADMISSION_SCAN with no eligible entry, or with one whose test fails, changes nothing. A sole eligible entry whose test
passes is admitted. Of two entries in scan order of one domain, where the first fails its test: a blocking one closes
the domain and nothing changes; one that is not blocking is passed over where the second is admitted, its pass count
rises by 1 to at most 15, and at the pass limit it becomes blocking. Any scan, over all domains: the entries are
visited in scan order; one whose domain is closed or that is no longer eligible is passed by, one whose test passes is
admitted, and a blocking one that fails closes its domain; at the end each entry of the scan order that was not
admitted, while a later entry of its domain was, counts a pass. Admission removes the entry and reads the
configuration: found poisoned, the port is faulted with TABLE (this counts as an admission for the passes: the model's
reading, log 25); else it moves to WAKING with a COLD operation and the feed on, a high feed-fault input then faulting
it with FEED before the next entry is visited (the model's choice, log 55), or to RESUMING with the first attempt, its
charge the inrush draw. (R60, R61, R58, R11, R9, R27, R56) -/
def Obligations.ScanAdmitsInOrderUnderTheLimit : Prop :=
  ∀ s : State, s.Settled →
    (∀ e : WakeEntry, e ∈ scanOrder s ↔ e ∈ s.adm.wakeQueue ∧
      ((s.port e.port).state = .paused ∨ (s.port e.port).state = .asleep) ∧ (s.port e.port).park = false) ∧
    (scanOrder s).Pairwise (fun a b => a.cls.rank ≤ b.cls.rank) ∧
    (∀ c : WakeClass, ((scanOrder s).filter (·.cls = c)).Sublist s.adm.wakeQueue) ∧
    (let fails := fun e : WakeEntry =>
        s.adm.limits[domainOf e.port] + (s.port e.port).charge <
          s.adm.committed[domainOf e.port] + (s.port e.port).draws.inrush;
    (scanOrder s = [] → exec .admissionScan s = .next s) ∧
    (∀ e : WakeEntry, scanOrder s = [e] →
      (fails e → exec .admissionScan s = .next s) ∧
      (¬ fails e → exec .admissionScan s = .next (settle (admitPort e.port e.cls s)))) ∧
    (∀ a b : WakeEntry, scanOrder s = [a, b] → domainOf a.port = domainOf b.port → a.port ≠ b.port → fails a →
      (a.blocking = true ∨ fails b → exec .admissionScan s = .next s) ∧
      (a.blocking = false → ¬ fails b → exec .admissionScan s = .next (settle
        ((admitPort b.port b.cls s).modAdm fun m => { m with wakeQueue := m.wakeQueue.map fun e =>
          if e.port = a.port then
            { e with
              passes := min (e.passes + 1) 15
              blocking := e.blocking || decide (m.passLimit ≤ min (e.passes + 1) 15) }
          else e }))))) ∧
    (let visit := fun (v : State × List Domain × List Port) (e : WakeEntry) =>
        let d := domainOf e.port
        let x := v.1.port e.port
        if d ∈ v.2.1 ∨ ¬ ((x.state = .paused ∨ x.state = .asleep) ∧ x.park = false) then v
        else if v.1.adm.committed[d] + x.draws.inrush ≤ v.1.adm.limits[d] + x.charge then
          (admitPort e.port e.cls v.1, v.2.1, e.port :: v.2.2)
        else if e.blocking then (v.1, d :: v.2.1, v.2.2)
        else v
      let r := (scanOrder s).foldl visit (s, [], [])
      ∃ passed : List Port,
        (∀ p : Port, p ∈ passed ↔ p ∉ r.2.2 ∧ ∃ (before after : List WakeEntry) (e : WakeEntry),
          scanOrder s = before ++ e :: after ∧ e.port = p ∧
            ∃ x ∈ after, domainOf x.port = domainOf p ∧ x.port ∈ r.2.2) ∧
        exec .admissionScan s = .next (settle (r.1.modAdm fun m => { m with wakeQueue := m.wakeQueue.map fun e =>
          if e.port ∈ passed then
            { e with
              passes := min (e.passes + 1) 15
              blocking := e.blocking || decide (m.passLimit ≤ min (e.passes + 1) 15) }
          else e }))) ∧
    (∀ (p : Port) (cls : WakeClass),
      let v := readPortConfig p { s with adm := { s.adm with wakeQueue := s.adm.wakeQueue.filter (·.port ≠ p) } }
      (v.1 = none → admitPort p cls s = enterFaulted p .table v.2) ∧
      (∀ cfg : PortConfig, v.1 = some cfg →
        let start := fun (st : PortState) (op : Operation) (u : State) =>
          u.port p = { s.port p with
            state := st, charge := (s.port p).draws.inrush, cfg := cfg, deepIdle := 0, op := op
            probe := { (s.port p).probe with running := false, countdown := 0, outstanding := none, misses := 0 } } ∧
          (∀ q : Port, q ≠ p → u.port q = s.port q) ∧
          u.adm.committed[domainOf p] = domainCharge u (domainOf p) ∧
          (∀ e ∈ u.adm.wakeQueue, e.port ≠ p) ∧ u.tbm = v.2.tbm
        ((s.port p).state = .asleep → ∃ u : State, start .waking
            { Operation.reset with
              kind := .cold, phase := .window, method := some .power, attempt := 1, started := 1,
              countdown := cfg.coldWindow, cls := cls } u ∧
          (let fed := u.modPort p fun r => { r with feed := true };
          ((s.port p).feedFaultIn = false → admitPort p cls s = fed) ∧
          ((s.port p).feedFaultIn = true → admitPort p cls s = enterFaulted p .feed fed))) ∧
        ((s.port p).state = .paused → ∃ u : State, start .resuming
            { Operation.reset with kind := .resume, method := some cfg.firstMethod, cls := cls } u ∧
          admitPort p cls s = startAttempt p u)))

/-- Link and sense changes set their level, cut a transmission, and start or clear their timers. A camera link that goes
down cuts the transmission, whose entry stays at the head; one that comes up at a port with its feed on returns the
link timer to 0 ms; with the feed off it stays down (the model's choice, log 18). The uplink's link does the same with
EVU's timer, and after the link timeout UPLINK_DOWN is raised once for the loss. A sense input that rises from low
starts the 20 ms filter of a running part, and of no other (the model's choice, log 53); one that falls clears it.
Each holds in every phase of the part (the model's choice, log 6). Nothing else changes; an uplink timer expiry that
is not due changes nothing (log 1). (R18, R19, R85, R93, R164, R168) -/
def Obligations.LinksAndLinesKeepTheirLevels : Prop :=
  ∀ (p : Port) (s : State),
    exec (.cameraLinkDown p) s = .next (s.modPort p fun r =>
      { r with linkUp := false, egress := { r.egress with sending := none } }) ∧
    ((s.port p).feed = true → exec (.cameraLinkUp p) s = .next (s.modPort p fun r => { r with linkUp := true, link := 0 })) ∧
    ((s.port p).feed = false → exec (.cameraLinkUp p) s = .next s) ∧
    exec .uplinkLinkDown s = .next (s.modUplink fun u =>
      { u with linkUp := false, egress := { u.egress with sending := none } }) ∧
    exec .uplinkLinkUp s = .next (s.modUplink fun u => { u with linkUp := true, timer := 0, raised := false }) ∧
    ((s.port p).senseIn = false → s.phase = .running → exec (.senseInputRise p) s =
      .next (s.modPort p fun r => { r with senseIn := true, senseFilter := some 20 })) ∧
    ((s.port p).senseIn = true ∨ s.phase ≠ .running → exec (.senseInputRise p) s =
      .next (s.modPort p fun r => { r with senseIn := true })) ∧
    exec (.senseInputFall p) s = .next (s.modPort p fun r => { r with senseIn := false, senseFilter := none }) ∧
    (s.Settled →
      let due := s.uplink.linkUp = false ∧ s.uplink.raised = false ∧ s.mga.linkTimeout * 1000 ≤ s.uplink.timer
      (due → exec .uplinkLinkTimerExpiry s =
        .next (raise .uplinkDown ⟨none, 0, 0⟩ (s.modUplink fun u => { u with raised := true }))) ∧
      (¬ due → exec .uplinkLinkTimerExpiry s = .next s))

/-- A cold attempt that fails is followed by an off-hold and another, or by NO_RESPONSE; an off-hold ends with the feed
on; a pulse ends low. COLD_BOOT_WINDOW_EXPIRY of a WAKING port: with attempts left the feed goes off (its link with
it) and the operation is in OFF_HOLD with the power-off hold; with none left the port is faulted with NO_RESPONSE,
method POWER and the attempts started, PORT_FAULT raised after the discards of the entry (the order: the model's
choice, log 20). OFF_HOLD_EXPIRY of a WAKING or RESUMING port: the feed goes on and the cold boot window opens, on the
cold path with the attempt counts raised by 1; a high feed-fault input then faults it with FEED, the new attempt
counted (the model's choice, log 47). PULSE_COUNTDOWN_EXPIRY drives the wake line low. Not due, each changes nothing
(the model's choice, log 1). (R30, R34, R33, R7, R8) -/
def Obligations.ColdAndPowerAttemptsRun : Prop :=
  ∀ (p : Port) (s : State), s.Settled →
    let r := s.port p
    let cold := r.state = .waking ∧ r.op.kind = .cold
    let windowDue := cold ∧ r.op.phase = .window ∧ r.op.countdown = 0
    let holdDue := (cold ∨ r.state = .resuming ∧ r.op.kind = .resume) ∧ r.op.phase = .offHold ∧ r.op.countdown = 0
    let opened := s.modPort p fun r => { r with
      feed := true
      op := { r.op with
        attempt := if r.op.kind = .cold then r.op.attempt + 1 else r.op.attempt
        started := if r.op.kind = .cold then r.op.started + 1 else r.op.started
        phase := .window, countdown := r.cfg.coldWindow } }
    (¬ windowDue → exec (.coldBootWindowExpiry p) s = .next s) ∧
    (windowDue → r.op.attempt < r.cfg.attempts → exec (.coldBootWindowExpiry p) s = .next (s.modPort p fun r => { r with
      feed := false, linkUp := false, egress := { r.egress with sending := none }
      op := { r.op with phase := .offHold, countdown := r.cfg.offHold } })) ∧
    (windowDue → r.cfg.attempts ≤ r.op.attempt → ∃ u : State,
      ShutsDown p .faulted (fun x => { x with fault := some ⟨.noResponse, .waking, some .power, r.op.started⟩ })
        (raise .portFault ⟨some p.val, 0, 0⟩) s u ∧
      exec (.coldBootWindowExpiry p) s = .next (settle u)) ∧
    (¬ holdDue → exec (.offHoldExpiry p) s = .next s) ∧
    (holdDue → r.feedFaultIn = false → exec (.offHoldExpiry p) s = .next opened) ∧
    (holdDue → r.feedFaultIn = true → exec (.offHoldExpiry p) s = .next (settle (enterFaulted p .feed opened))) ∧
    (r.op.pulse ≠ some 0 → exec (.pulseCountdownExpiry p) s = .next s) ∧
    (r.op.pulse = some 0 → exec (.pulseCountdownExpiry p) s =
      .next (s.modPort p fun r => { r with wakeLine := false, op := { r.op with pulse := none } }))

/-- A failed resume attempt is followed by another of its method, by the next method, or by NO_RESPONSE.
ATTEMPT_WINDOW_EXPIRY of a RESUMING port ends a pulse and, with attempts left, waits the spacing; with FRAME or LINE
used up sets the next method, attempt 0, raises WAKE_ESCALATED with it and waits the spacing; with POWER used up
faults the port with NO_RESPONSE, PORT_FAULT raised after the discards of the entry (the order: the model's choice,
log 20). A spacing of 0 starts the next attempt at once; else SPACING_EXPIRY starts it. LINE drives the wake line high
for the pulse width and opens the attempt window; POWER turns the feed off for the power-off hold with the link timer
at 0 ms; FRAME sends the RESUME template, placed or not, and opens the window; with the template absent it gives way
to LINE at once, as an escalation where a FRAME attempt was made. Not due, they change nothing (log 1). (At a full
transmit queue the cell of the RESUME frame joins the tail of the free list: the model's choice, log 10.) (R31, R32,
R33, R34, R35, R7) -/
def Obligations.ResumeAttemptsEscalate : Prop :=
  ∀ (p : Port) (s : State), s.Settled →
    let r := s.port p
    let runs := r.state = .resuming ∧ r.op.kind = .resume ∧ r.op.countdown = 0
    let counted := fun op : Operation => { op with
      attempt := op.attempt + 1, started := op.started + 1, elapsed := if op.started = 0 then 0 else op.elapsed }
    let closed := s.modPort p fun r => { r with wakeLine := false, op := { r.op with pulse := none } }
    let escalated := fun (m : Method) (code : Nat) => raise .wakeEscalated ⟨some p.val, code, 0⟩
      (closed.modPort p fun r => { r with op := { r.op with method := some m, attempt := 0 } })
    let spaced := fun u : State => u.modPort p fun r =>
      { r with op := { r.op with phase := .spacing, countdown := r.cfg.spacing } }
    let line := fun u : State => u.modPort p fun r => { r with
      wakeLine := true
      op := { counted r.op with
        method := some .line, phase := .window, countdown := r.cfg.attemptWindow, pulse := some r.cfg.pulseWidth } }
    let waits := fun u : State =>
      (r.cfg.spacing ≠ 0 → exec (.attemptWindowExpiry p) s = .next (spaced u)) ∧
      (r.cfg.spacing = 0 → exec (.attemptWindowExpiry p) s = .next (settle (startAttempt p (spaced u))))
    (¬ (runs ∧ r.op.phase = .window) → exec (.attemptWindowExpiry p) s = .next s) ∧
    (runs → r.op.phase = .window →
      (r.op.attempt < r.cfg.attempts → waits closed) ∧
      (r.cfg.attempts ≤ r.op.attempt →
        (r.op.method = some .frame → waits (escalated .line 1)) ∧ (r.op.method = some .line → waits (escalated .power 2)) ∧
        (r.op.method = some .power → 0 < r.op.attempt → ∃ u : State,
          ShutsDown p .faulted (fun x => { x with fault := some ⟨.noResponse, .resuming, some .power, r.op.started⟩ })
            (raise .portFault ⟨some p.val, 0, 0⟩) closed u ∧
          exec (.attemptWindowExpiry p) s = .next (settle u)))) ∧
    (¬ (runs ∧ r.op.phase = .spacing) → exec (.spacingExpiry p) s = .next s) ∧
    (runs → r.op.phase = .spacing → exec (.spacingExpiry p) s = .next (startAttempt p s)) ∧
    (r.op.method = some .line → startAttempt p s = line s) ∧
    (r.op.method = some .power → startAttempt p s = s.modPort p fun r => { r with
      feed := false, linkUp := false, egress := { r.egress with sending := none }, link := 0
      op := { counted r.op with method := some .power, phase := .offHold, countdown := r.cfg.offHold } }) ∧
    (r.op.method = some .frame →
      let v := (readPresent p .resume s).2
      (∀ t : Template, (readPresent p .resume s).1 = some t →
        let frame := templateFrame t r.cfg.station s.mga.factory none
        let windowed := fun u : State => u.modPort p fun r =>
          { r with op := { counted r.op with phase := .window, countdown := r.cfg.attemptWindow } }
        (v.free = [] → startAttempt p s = windowed (countDrop p .noCell v)) ∧
        (∀ (c : CellNo) (free : List CellNo), v.free = c :: free →
          ((v.port p).egress.queue.length < 32 → startAttempt p s = windowed (appendTx (.camera p)
            ⟨c, frame.length, none⟩ (storeCell c frame { v with free := free }))) ∧
          (32 ≤ (v.port p).egress.queue.length →
            startAttempt p s = windowed (countDrop p .txFull { v with free := free ++ [c] })))) ∧
      ((readPresent p .resume s).1 = none →
        (r.op.attempt = 0 → startAttempt p s = line v) ∧
        (r.op.attempt ≠ 0 → startAttempt p s = line (raise .wakeEscalated ⟨some p.val, 1, 0⟩
          (v.modPort p fun r => { r with op := { r.op with method := some .line, attempt := 0 } })))))

/-- The end of the confirm window confirms a quiet SILENCE pause and fails any other. PAUSE_CONFIRM_WINDOW_EXPIRY of a
PAUSING port. In SILENCE mode with no activity seen the port enters PAUSED: the standby draw, deep-idle timer 0 ms,
the operation ended, probing reset and begun where an interval and a PROBE template are there; a wake-queue entry that
can never be admitted faults the port with BUDGET, and one of an unparked port starts a scan. Otherwise the port
returns to READY: the active draw, the operation ended, idle timer 0 ms, its wake-queue entry removed, PAUSE_FAILED
raised, and the release of the held frames starts. Frame given where no group is concerned with the move. Not due, it
changes nothing (log 1). (The PROBE template is judged present without a read: the model's reading, log 24.) (R40,
R41, R14, R42, R56, R57, R58, R95) -/
def Obligations.ConfirmWindowConfirmsOrFails : Prop :=
  ∀ (p : Port) (s : State), s.Settled →
    let r := s.port p
    let due := r.state = .pausing ∧ r.op.kind = .pause ∧ r.op.phase = .confirm ∧ r.op.countdown = 0
    let quiet := r.cfg.confirmMode = .silence ∧ r.op.activitySeen = false
    let ended := { r.op with kind := .none, phase := .none, countdown := 0, pulse := none }
    let answers := fun u : State => exec (.pauseConfirmWindowExpiry p) s = .next u
    (¬ due → answers s) ∧
    (due → quiet → ∃ u : State,
      (let probes := r.cfg.probeInterval != 0 && templatePresent s p .probe;
      u.port p = { r with
        state := .paused, charge := r.draws.standby, op := ended, wakeLine := false, deepIdle := 0
        probe := { r.probe with
          running := probes, countdown := if probes then r.cfg.probeInterval else 0, nextSeq := 0, outstanding := none
          answered := false, misses := 0 } }) ∧
      (∀ q : Port, q ≠ p → u.port q = s.port q) ∧
      u.adm = { s.adm with committed := s.adm.committed.set (domainOf p) (domainCharge u (domainOf p)) } ∧
      (s.unwatched p .paused → u = { s with
        ports := u.ports, adm := u.adm, owed := if r.draws.standby < r.charge then [.scan] else [] }) ∧
      ((∀ e ∈ s.adm.wakeQueue, e.port ≠ p) → answers (settle u)) ∧
      ((∃ e ∈ s.adm.wakeQueue, e.port = p) →
        (s.adm.limits[domainOf p] < r.draws.inrush → answers (settle (enterFaulted p .budget u))) ∧
        (r.draws.inrush ≤ s.adm.limits[domainOf p] → r.park = false → answers (settle (u.owe .scan))) ∧
        (r.draws.inrush ≤ s.adm.limits[domainOf p] → r.park = true → answers (settle u)))) ∧
    (due → ¬ quiet → ∃ u : State,
      u.port p = { r with
        state := .ready, charge := r.draws.active, op := ended, wakeLine := false, idle := 0 } ∧
      (∀ q : Port, q ≠ p → u.port q = s.port q) ∧
      u.adm = { s.adm with
        committed := s.adm.committed.set (domainOf p) (domainCharge u (domainOf p))
        wakeQueue := s.adm.wakeQueue.filter (·.port ≠ p) } ∧
      u.evu.events[Event.pauseFailed.num].pending = true ∧
      u.evu.events[Event.pauseFailed.num].detail = some ⟨some p.val, 0, 0⟩ ∧ u.tbm = s.tbm ∧ u.mga = s.mga ∧
      (r.hold ≠ [] → answers (settle (stepRelease p (u.modPort p fun x => { x with releasing := true })))) ∧
      (r.hold = [] → answers (settle (noteDeliverable p u))))

/-- An unanswered probe is a miss; at the miss limit the port goes to ASLEEP with CAMERA_DROPPED; else the next probe is
sent. PROBE_INTERVAL_EXPIRY of a PAUSED port whose probing runs: an outstanding unanswered probe raises the miss count
by 1; where it then reaches the limit the port enters ASLEEP and CAMERA_DROPPED is raised. Otherwise the PROBE
template is read: absent or poisoned, probing stops; present, one probe with the next sequence is sent (or, for lack
of a cell or of room, counted as dropped and outstanding all the same), the sequence advances by 1 and wraps at 65535,
answered is no and the countdown is the interval. Not due, it changes nothing (the model's choice, log 1). (At a full
transmit queue the cell of the probe joins the tail of the free list: the model's choice, log 10.) (R43, R42, R15,
R29) -/
def Obligations.ProbeIntervalCountsMissesAndSends : Prop :=
  ∀ (p : Port) (s : State), s.Settled →
    let r := s.port p
    let due := r.state = .paused ∧ r.probe.running = true ∧ r.probe.countdown = 0
    let missed := r.probe.outstanding ≠ none ∧ r.probe.answered = false
    let misses := if missed then r.probe.misses + 1 else r.probe.misses
    let t := s.modPort p fun r => { r with probe := { r.probe with misses := misses } }
    let v := (readPresent p .probe t).2
    (¬ due → exec (.probeIntervalExpiry p) s = .next s) ∧
    (due → missed → r.cfg.missLimit ≤ misses → ∃ u : State, EntersAsleep p t u ∧
      exec (.probeIntervalExpiry p) s = .next (settle (raise .cameraDropped ⟨some p.val, 0, 0⟩ u))) ∧
    (due → (¬ missed ∨ misses < r.cfg.missLimit) →
      ((readPresent p .probe t).1 = none → exec (.probeIntervalExpiry p) s = .next (v.modPort p fun r =>
        { r with probe := { r.probe with running := false, countdown := 0, outstanding := none, misses := 0 } })) ∧
      (∀ e : Template, (readPresent p .probe t).1 = some e →
        let frame := templateFrame e (v.port p).cfg.station v.mga.factory (some (v.port p).probe.nextSeq)
        let sent := fun u : State => u.modPort p fun r => { r with
          probe := { r.probe with
            outstanding := some (v.port p).probe.nextSeq, nextSeq := (v.port p).probe.nextSeq + 1, answered := false
            countdown := r.cfg.probeInterval } }
        (v.free = [] → exec (.probeIntervalExpiry p) s = .next (sent (countDrop p .noCell v))) ∧
        (∀ (c : CellNo) (free : List CellNo), v.free = c :: free →
          ((v.port p).egress.queue.length < 32 → exec (.probeIntervalExpiry p) s = .next (sent (appendTx (.camera p)
            ⟨c, frame.length, none⟩ (storeCell c frame { v with free := free })))) ∧
          (32 ≤ (v.port p).egress.queue.length → exec (.probeIntervalExpiry p) s =
            .next (sent (countDrop p .txFull { v with free := free ++ [c] }))))))

/-- A read finds an entry clean, corrected or poisoned, and its owner acts on it; the scrubber reads every entry once a
pass. SCRUB_PASS_START, with the period run out and no pass in progress, starts a pass and loads the period with 1000
ms (after the pass before: log 30). SCRUB_VISIT reads the next entry: PORT_CONFIG 0-15, TEMPLATE 0-47, RULE 0-31,
CLASS_ACTION 0-8, GROUP 0-7, PROXY 0-63, and ends the pass after the last. Not due, they change nothing (log 1). In
each of the six tables (ReadsAs): a clean entry or one poisoned before changes nothing; a corrected one is written
back good, counted word by word, TABLE_CORRECTED raised; one with a word of two bad bits is marked, counted,
TABLE_POISONED raised, and not handed over. A poisoned configuration faults an enabled port with TABLE. A poisoned
PROBE template leaves probing as it is (the model's choice, log 59). A poisoned GROUP entry drops a pending trigger as
POISONED, all missed, with RENDEZVOUS_INCOMPLETE after its cell is given up (log 57), then clears an arm as DISARM
does (hold 0: log 22). A poisoned PROXY record becomes free, its mark clear, and the discarded count rises; a free one
is not read. A poisoned RULE is skipped by the search, and a poisoned CLASS_ACTION acts as DROP with no activity. A
store writes its entry whole with fresh check bits and clears the mark. (R144, R139, R140, R141, R142, R9, R137, R132,
R112, R75, R76, R74) -/
def Obligations.ScrubberReadsEveryEntryOnceAPass : Prop :=
  ∀ s : State,
    (s.Settled →
      (s.tbm.scrubPeriod = 0 → s.tbm.scrubNext = none → exec .scrubPassStart s =
        .next (s.modTbm fun t => { t with scrubPeriod := 1000, scrubNext := some 0 })) ∧
      (s.tbm.scrubPeriod ≠ 0 ∨ s.tbm.scrubNext ≠ none → exec .scrubPassStart s = .next s) ∧
      (s.tbm.scrubNext = none → exec .scrubVisit s = .next s) ∧
      (∀ n : Nat, s.tbm.scrubNext = some n →
        let u := s.modTbm fun t => { t with scrubNext := if n < 176 then some (n + 1) else none }
        (∀ p : Port, n = p.val →
          ((readPortConfig p u).1 = none → (s.port p).state ≠ .disabled →
            exec .scrubVisit s = .next (settle (enterFaulted p .table (readPortConfig p u).2))) ∧
          ((readPortConfig p u).1 ≠ none ∨ (s.port p).state = .disabled →
            exec .scrubVisit s = .next (readPortConfig p u).2)) ∧
        (∀ i : Fin 48, n = 16 + i.val → exec .scrubVisit s = .next (readTemplate i u).2) ∧
        (∀ i : Fin 32, n = 64 + i.val → exec .scrubVisit s = .next (readRule i u).2) ∧
        (∀ i : Fin 9, n = 96 + i.val → exec .scrubVisit s = .next (readClassAction i u).2) ∧
        (∀ g : Group, n = 105 + g.val → exec .scrubVisit s = .next (readGroup g u).2) ∧
        (∀ i : Fin 64, n = 113 + i.val → exec .scrubVisit s = .next (readProxy i u).2))) ∧
    (∀ p : Port, ReadsAs s.tbm.portConfig[p] 1 p.val
      (fun e u => u.modTbm fun m => { m with portConfig := m.portConfig.set p e }) s (readPortConfig p s)) ∧
    (∀ i : Fin 48, ReadsAs s.tbm.template[i] 2 i.val
      (fun e u => u.modTbm fun m => { m with template := m.template.set i e }) s (readTemplate i s)) ∧
    (∀ i : Fin 32, ReadsAs s.tbm.rule[i] 3 i.val
      (fun e u => u.modTbm fun m => { m with rule := m.rule.set i e }) s (readRule i s)) ∧
    (∀ i : Fin 9, ReadsAs s.tbm.classAction[i] 4 i.val
      (fun e u => u.modTbm fun m => { m with classAction := m.classAction.set i e }) s (readClassAction i s)) ∧
    (∀ g : Group, ∃ v : State, ReadsAs s.tbm.group[g] 5 g.val
        (fun e u => u.modTbm fun m => { m with group := m.group.set g e }) s ((readGroup g s).1, v) ∧
      ((readGroup g s).1 ≠ none → (readGroup g s).2 = v) ∧
      ((readGroup g s).1 = none →
        let x := (s.group g).slot
        let a := (s.group g).arm
        let ended := if x.pending then
            raise .rendezvousIncomplete ⟨some g.val, 6, x.members⟩ (dropRef x.cell (v.modGroup g fun y =>
              { y with slot := { x with pending := false, delivered := 0, missed := x.members, outcome := .poisoned } }))
          else v
        let u := (readGroup g s).2
        (a.armed = false → u = ended) ∧
        (a.armed = true →
          u = { ended with ports := u.ports, groups := u.groups, adm := u.adm } ∧
          u.group g = { ended.group g with
            arm := { a with armed := false, intact := false, hold := 0, target := none, members := 0, watched := 0 } } ∧
          (∀ h : Group, h ≠ g → u.group h = s.group h) ∧
          (∀ q : Port, u.port q = { s.port q with
            idle := if hasPort a.members q = true ∧ (s.port q).state = .ready then 0 else (s.port q).idle }) ∧
          u.adm = { s.adm with schedule := s.adm.schedule.filter (·.group ≠ g) }))) ∧
    (∀ (p : Port) (i : Fin 4),
      let j := proxyIndex p i
      ((s.port p).proxies[i].occupied = false → readProxy j s = (none, s)) ∧
      ((s.port p).proxies[i].occupied = true → ∃ v : State, ReadsAs s.tbm.proxy[j] 10 j.val
          (fun e u => u.modTbm fun m => { m with proxy := m.proxy.set j e }) s ((readProxy j s).1, v) ∧
        ((readProxy j s).1 ≠ none → (readProxy j s).2 = v) ∧
        ((readProxy j s).1 = none → (readProxy j s).2 =
          (v.modPort p fun r => { r with
            proxies := r.proxies.set i { occupied := false, age := 0 }
            counts := { r.counts with discarded := bump r.counts.discarded } }).modTbm
              fun m => { m with proxy := m.proxy.set j { m.proxy[j] with poison := false } }))) ∧
    (∀ (up : Bool) (scope : Option Port) (bytes : List Byte),
      let takes := fun i : Fin 32 =>
        let r := s.tbm.rule[i].val
        s.tbm.rule[i].poison = false ∧ .twoBad ∉ s.tbm.rule[i].words.toList ∧ r.enabled = true ∧
          (r.direction = .both ∨ r.direction = .up ∧ up = true ∨ r.direction = .down ∧ up = false) ∧
          (∀ p ∈ scope, hasPort r.scope p = true) ∧ r.offset + r.length ≤ bytes.length ∧
          BitVec.ofNat 32 (natAt bytes r.offset r.length) &&& r.mask = r.value &&& r.mask
      let after := fun rules : Nat => ((List.finRange 32).take rules).foldl (fun u i => (readRule i u).2) s
      let result := fun (cls : FrameClass) (key seq : Option Nat) (u : State) =>
        let a := readClassAction cls.index u
        (({ cls := cls, keyOffset := key, seqOffset := seq, action := (a.1.map (·.action)).getD .drop,
            activity := (a.1.map (·.activity)).getD false } : Classified), a.2)
      (∀ i : Fin 32, takes i → (∀ j, j < i → ¬ takes j) → classify up scope bytes s =
        result s.tbm.rule[i].val.cls s.tbm.rule[i].val.keyOffset s.tbm.rule[i].val.seqOffset (after (i.val + 1))) ∧
      ((∀ i, ¬ takes i) → classify up scope bytes s = result .bulk none none (after 32))) ∧
    (∀ (p : Port) (v : PortConfig), writePortConfig p v s =
      s.modTbm fun m => { m with portConfig := m.portConfig.set p ⟨v, Vector.replicate 6 .good, false⟩ }) ∧
    (∀ (i : Fin 48) (v : Template), writeTemplate i v s =
      s.modTbm fun m => { m with template := m.template.set i ⟨v, Vector.replicate 33 .good, false⟩ }) ∧
    (∀ (i : Fin 32) (v : Rule), writeRule i v s =
      s.modTbm fun m => { m with rule := m.rule.set i ⟨v, Vector.replicate 5 .good, false⟩ }) ∧
    (∀ (i : Fin 9) (v : ClassAction), writeClassAction i v s =
      s.modTbm fun m => { m with classAction := m.classAction.set i ⟨v, Vector.replicate 1 .good, false⟩ }) ∧
    (∀ (g : Group) (v : GroupConfig), writeGroup g v s =
      s.modTbm fun m => { m with group := m.group.set g ⟨v, Vector.replicate 4 .good, false⟩ }) ∧
    (∀ (i : Fin 64) (v : ProxyEntry), writeProxy i v s =
      s.modTbm fun m => { m with proxy := m.proxy.set i ⟨v, Vector.replicate 65 .good, false⟩ })
end

