-- ==== Sys2Proof/Laws/State.lean ====
section
/-! SUPPORT. One lemma per field per update of State, each true by rfl, so that no proof unfolds a record update; and what
an update of one port, group or cell does to it and to the others. -/

namespace Sys2Proof.Machine

set_option Elab.async false

variable (s : State)

/-! ### modPort -/

@[simp] theorem State.modPort_pending (p : Port) (f : PortRec → PortRec) : (s.modPort p f).pending = s.pending := rfl
@[simp] theorem State.modPort_phase (p : Port) (f : PortRec → PortRec) : (s.modPort p f).phase = s.phase := rfl
@[simp] theorem State.modPort_owed (p : Port) (f : PortRec → PortRec) : (s.modPort p f).owed = s.owed := rfl
@[simp] theorem State.modPort_uplink (p : Port) (f : PortRec → PortRec) : (s.modPort p f).uplink = s.uplink := rfl
@[simp] theorem State.modPort_cells (p : Port) (f : PortRec → PortRec) : (s.modPort p f).cells = s.cells := rfl
@[simp] theorem State.modPort_free (p : Port) (f : PortRec → PortRec) : (s.modPort p f).free = s.free := rfl
@[simp] theorem State.modPort_tbm (p : Port) (f : PortRec → PortRec) : (s.modPort p f).tbm = s.tbm := rfl
@[simp] theorem State.modPort_adm (p : Port) (f : PortRec → PortRec) : (s.modPort p f).adm = s.adm := rfl
@[simp] theorem State.modPort_groups (p : Port) (f : PortRec → PortRec) : (s.modPort p f).groups = s.groups := rfl
@[simp] theorem State.modPort_mga (p : Port) (f : PortRec → PortRec) : (s.modPort p f).mga = s.mga := rfl
@[simp] theorem State.modPort_evu (p : Port) (f : PortRec → PortRec) : (s.modPort p f).evu = s.evu := rfl
@[simp] theorem State.modPort_group (p : Port) (f : PortRec → PortRec) (h : Group) : (s.modPort p f).group h = s.group h := rfl
@[simp] theorem State.modPort_cell (p : Port) (f : PortRec → PortRec) (x : CellNo) : (s.modPort p f).cell x = s.cell x := rfl

/-! ### modGroup -/

@[simp] theorem State.modGroup_pending (g : Group) (f : GroupRec → GroupRec) : (s.modGroup g f).pending = s.pending := rfl
@[simp] theorem State.modGroup_phase (g : Group) (f : GroupRec → GroupRec) : (s.modGroup g f).phase = s.phase := rfl
@[simp] theorem State.modGroup_owed (g : Group) (f : GroupRec → GroupRec) : (s.modGroup g f).owed = s.owed := rfl
@[simp] theorem State.modGroup_ports (g : Group) (f : GroupRec → GroupRec) : (s.modGroup g f).ports = s.ports := rfl
@[simp] theorem State.modGroup_uplink (g : Group) (f : GroupRec → GroupRec) : (s.modGroup g f).uplink = s.uplink := rfl
@[simp] theorem State.modGroup_cells (g : Group) (f : GroupRec → GroupRec) : (s.modGroup g f).cells = s.cells := rfl
@[simp] theorem State.modGroup_free (g : Group) (f : GroupRec → GroupRec) : (s.modGroup g f).free = s.free := rfl
@[simp] theorem State.modGroup_tbm (g : Group) (f : GroupRec → GroupRec) : (s.modGroup g f).tbm = s.tbm := rfl
@[simp] theorem State.modGroup_adm (g : Group) (f : GroupRec → GroupRec) : (s.modGroup g f).adm = s.adm := rfl
@[simp] theorem State.modGroup_mga (g : Group) (f : GroupRec → GroupRec) : (s.modGroup g f).mga = s.mga := rfl
@[simp] theorem State.modGroup_evu (g : Group) (f : GroupRec → GroupRec) : (s.modGroup g f).evu = s.evu := rfl
@[simp] theorem State.modGroup_port (g : Group) (f : GroupRec → GroupRec) (q : Port) : (s.modGroup g f).port q = s.port q := rfl
@[simp] theorem State.modGroup_cell (g : Group) (f : GroupRec → GroupRec) (x : CellNo) : (s.modGroup g f).cell x = s.cell x := rfl

/-! ### modUplink -/

@[simp] theorem State.modUplink_pending (f : Uplink → Uplink) : (s.modUplink f).pending = s.pending := rfl
@[simp] theorem State.modUplink_phase (f : Uplink → Uplink) : (s.modUplink f).phase = s.phase := rfl
@[simp] theorem State.modUplink_owed (f : Uplink → Uplink) : (s.modUplink f).owed = s.owed := rfl
@[simp] theorem State.modUplink_ports (f : Uplink → Uplink) : (s.modUplink f).ports = s.ports := rfl
@[simp] theorem State.modUplink_uplink (f : Uplink → Uplink) : (s.modUplink f).uplink = f s.uplink := rfl
@[simp] theorem State.modUplink_cells (f : Uplink → Uplink) : (s.modUplink f).cells = s.cells := rfl
@[simp] theorem State.modUplink_free (f : Uplink → Uplink) : (s.modUplink f).free = s.free := rfl
@[simp] theorem State.modUplink_tbm (f : Uplink → Uplink) : (s.modUplink f).tbm = s.tbm := rfl
@[simp] theorem State.modUplink_adm (f : Uplink → Uplink) : (s.modUplink f).adm = s.adm := rfl
@[simp] theorem State.modUplink_groups (f : Uplink → Uplink) : (s.modUplink f).groups = s.groups := rfl
@[simp] theorem State.modUplink_mga (f : Uplink → Uplink) : (s.modUplink f).mga = s.mga := rfl
@[simp] theorem State.modUplink_evu (f : Uplink → Uplink) : (s.modUplink f).evu = s.evu := rfl
@[simp] theorem State.modUplink_port (f : Uplink → Uplink) (q : Port) : (s.modUplink f).port q = s.port q := rfl
@[simp] theorem State.modUplink_group (f : Uplink → Uplink) (h : Group) : (s.modUplink f).group h = s.group h := rfl
@[simp] theorem State.modUplink_cell (f : Uplink → Uplink) (x : CellNo) : (s.modUplink f).cell x = s.cell x := rfl

/-! ### modTbm -/

@[simp] theorem State.modTbm_pending (f : Tbm → Tbm) : (s.modTbm f).pending = s.pending := rfl
@[simp] theorem State.modTbm_phase (f : Tbm → Tbm) : (s.modTbm f).phase = s.phase := rfl
@[simp] theorem State.modTbm_owed (f : Tbm → Tbm) : (s.modTbm f).owed = s.owed := rfl
@[simp] theorem State.modTbm_ports (f : Tbm → Tbm) : (s.modTbm f).ports = s.ports := rfl
@[simp] theorem State.modTbm_uplink (f : Tbm → Tbm) : (s.modTbm f).uplink = s.uplink := rfl
@[simp] theorem State.modTbm_cells (f : Tbm → Tbm) : (s.modTbm f).cells = s.cells := rfl
@[simp] theorem State.modTbm_free (f : Tbm → Tbm) : (s.modTbm f).free = s.free := rfl
@[simp] theorem State.modTbm_tbm (f : Tbm → Tbm) : (s.modTbm f).tbm = f s.tbm := rfl
@[simp] theorem State.modTbm_adm (f : Tbm → Tbm) : (s.modTbm f).adm = s.adm := rfl
@[simp] theorem State.modTbm_groups (f : Tbm → Tbm) : (s.modTbm f).groups = s.groups := rfl
@[simp] theorem State.modTbm_mga (f : Tbm → Tbm) : (s.modTbm f).mga = s.mga := rfl
@[simp] theorem State.modTbm_evu (f : Tbm → Tbm) : (s.modTbm f).evu = s.evu := rfl
@[simp] theorem State.modTbm_port (f : Tbm → Tbm) (q : Port) : (s.modTbm f).port q = s.port q := rfl
@[simp] theorem State.modTbm_group (f : Tbm → Tbm) (h : Group) : (s.modTbm f).group h = s.group h := rfl
@[simp] theorem State.modTbm_cell (f : Tbm → Tbm) (x : CellNo) : (s.modTbm f).cell x = s.cell x := rfl

/-! ### modAdm -/

@[simp] theorem State.modAdm_pending (f : Adm → Adm) : (s.modAdm f).pending = s.pending := rfl
@[simp] theorem State.modAdm_phase (f : Adm → Adm) : (s.modAdm f).phase = s.phase := rfl
@[simp] theorem State.modAdm_owed (f : Adm → Adm) : (s.modAdm f).owed = s.owed := rfl
@[simp] theorem State.modAdm_ports (f : Adm → Adm) : (s.modAdm f).ports = s.ports := rfl
@[simp] theorem State.modAdm_uplink (f : Adm → Adm) : (s.modAdm f).uplink = s.uplink := rfl
@[simp] theorem State.modAdm_cells (f : Adm → Adm) : (s.modAdm f).cells = s.cells := rfl
@[simp] theorem State.modAdm_free (f : Adm → Adm) : (s.modAdm f).free = s.free := rfl
@[simp] theorem State.modAdm_tbm (f : Adm → Adm) : (s.modAdm f).tbm = s.tbm := rfl
@[simp] theorem State.modAdm_adm (f : Adm → Adm) : (s.modAdm f).adm = f s.adm := rfl
@[simp] theorem State.modAdm_groups (f : Adm → Adm) : (s.modAdm f).groups = s.groups := rfl
@[simp] theorem State.modAdm_mga (f : Adm → Adm) : (s.modAdm f).mga = s.mga := rfl
@[simp] theorem State.modAdm_evu (f : Adm → Adm) : (s.modAdm f).evu = s.evu := rfl
@[simp] theorem State.modAdm_port (f : Adm → Adm) (q : Port) : (s.modAdm f).port q = s.port q := rfl
@[simp] theorem State.modAdm_group (f : Adm → Adm) (h : Group) : (s.modAdm f).group h = s.group h := rfl
@[simp] theorem State.modAdm_cell (f : Adm → Adm) (x : CellNo) : (s.modAdm f).cell x = s.cell x := rfl

/-! ### modMga -/

@[simp] theorem State.modMga_pending (f : Mga → Mga) : (s.modMga f).pending = s.pending := rfl
@[simp] theorem State.modMga_phase (f : Mga → Mga) : (s.modMga f).phase = s.phase := rfl
@[simp] theorem State.modMga_owed (f : Mga → Mga) : (s.modMga f).owed = s.owed := rfl
@[simp] theorem State.modMga_ports (f : Mga → Mga) : (s.modMga f).ports = s.ports := rfl
@[simp] theorem State.modMga_uplink (f : Mga → Mga) : (s.modMga f).uplink = s.uplink := rfl
@[simp] theorem State.modMga_cells (f : Mga → Mga) : (s.modMga f).cells = s.cells := rfl
@[simp] theorem State.modMga_free (f : Mga → Mga) : (s.modMga f).free = s.free := rfl
@[simp] theorem State.modMga_tbm (f : Mga → Mga) : (s.modMga f).tbm = s.tbm := rfl
@[simp] theorem State.modMga_adm (f : Mga → Mga) : (s.modMga f).adm = s.adm := rfl
@[simp] theorem State.modMga_groups (f : Mga → Mga) : (s.modMga f).groups = s.groups := rfl
@[simp] theorem State.modMga_mga (f : Mga → Mga) : (s.modMga f).mga = f s.mga := rfl
@[simp] theorem State.modMga_evu (f : Mga → Mga) : (s.modMga f).evu = s.evu := rfl
@[simp] theorem State.modMga_port (f : Mga → Mga) (q : Port) : (s.modMga f).port q = s.port q := rfl
@[simp] theorem State.modMga_group (f : Mga → Mga) (h : Group) : (s.modMga f).group h = s.group h := rfl
@[simp] theorem State.modMga_cell (f : Mga → Mga) (x : CellNo) : (s.modMga f).cell x = s.cell x := rfl

/-! ### modEvu -/

@[simp] theorem State.modEvu_pending (f : Evu → Evu) : (s.modEvu f).pending = s.pending := rfl
@[simp] theorem State.modEvu_phase (f : Evu → Evu) : (s.modEvu f).phase = s.phase := rfl
@[simp] theorem State.modEvu_owed (f : Evu → Evu) : (s.modEvu f).owed = s.owed := rfl
@[simp] theorem State.modEvu_ports (f : Evu → Evu) : (s.modEvu f).ports = s.ports := rfl
@[simp] theorem State.modEvu_uplink (f : Evu → Evu) : (s.modEvu f).uplink = s.uplink := rfl
@[simp] theorem State.modEvu_cells (f : Evu → Evu) : (s.modEvu f).cells = s.cells := rfl
@[simp] theorem State.modEvu_free (f : Evu → Evu) : (s.modEvu f).free = s.free := rfl
@[simp] theorem State.modEvu_tbm (f : Evu → Evu) : (s.modEvu f).tbm = s.tbm := rfl
@[simp] theorem State.modEvu_adm (f : Evu → Evu) : (s.modEvu f).adm = s.adm := rfl
@[simp] theorem State.modEvu_groups (f : Evu → Evu) : (s.modEvu f).groups = s.groups := rfl
@[simp] theorem State.modEvu_mga (f : Evu → Evu) : (s.modEvu f).mga = s.mga := rfl
@[simp] theorem State.modEvu_evu (f : Evu → Evu) : (s.modEvu f).evu = f s.evu := rfl
@[simp] theorem State.modEvu_port (f : Evu → Evu) (q : Port) : (s.modEvu f).port q = s.port q := rfl
@[simp] theorem State.modEvu_group (f : Evu → Evu) (h : Group) : (s.modEvu f).group h = s.group h := rfl
@[simp] theorem State.modEvu_cell (f : Evu → Evu) (x : CellNo) : (s.modEvu f).cell x = s.cell x := rfl

/-! ### modCell -/

@[simp] theorem State.modCell_pending (c : CellNo) (f : Cell → Cell) : (s.modCell c f).pending = s.pending := rfl
@[simp] theorem State.modCell_phase (c : CellNo) (f : Cell → Cell) : (s.modCell c f).phase = s.phase := rfl
@[simp] theorem State.modCell_owed (c : CellNo) (f : Cell → Cell) : (s.modCell c f).owed = s.owed := rfl
@[simp] theorem State.modCell_ports (c : CellNo) (f : Cell → Cell) : (s.modCell c f).ports = s.ports := rfl
@[simp] theorem State.modCell_uplink (c : CellNo) (f : Cell → Cell) : (s.modCell c f).uplink = s.uplink := rfl
@[simp] theorem State.modCell_free (c : CellNo) (f : Cell → Cell) : (s.modCell c f).free = s.free := rfl
@[simp] theorem State.modCell_tbm (c : CellNo) (f : Cell → Cell) : (s.modCell c f).tbm = s.tbm := rfl
@[simp] theorem State.modCell_adm (c : CellNo) (f : Cell → Cell) : (s.modCell c f).adm = s.adm := rfl
@[simp] theorem State.modCell_groups (c : CellNo) (f : Cell → Cell) : (s.modCell c f).groups = s.groups := rfl
@[simp] theorem State.modCell_mga (c : CellNo) (f : Cell → Cell) : (s.modCell c f).mga = s.mga := rfl
@[simp] theorem State.modCell_evu (c : CellNo) (f : Cell → Cell) : (s.modCell c f).evu = s.evu := rfl
@[simp] theorem State.modCell_port (c : CellNo) (f : Cell → Cell) (q : Port) : (s.modCell c f).port q = s.port q := rfl
@[simp] theorem State.modCell_group (c : CellNo) (f : Cell → Cell) (h : Group) : (s.modCell c f).group h = s.group h := rfl

/-! ### owe -/

@[simp] theorem State.owe_pending (w : Work) : (s.owe w).pending = s.pending := rfl
@[simp] theorem State.owe_phase (w : Work) : (s.owe w).phase = s.phase := rfl
@[simp] theorem State.owe_owed (w : Work) : (s.owe w).owed = s.owed ++ [w] := rfl
@[simp] theorem State.owe_ports (w : Work) : (s.owe w).ports = s.ports := rfl
@[simp] theorem State.owe_uplink (w : Work) : (s.owe w).uplink = s.uplink := rfl
@[simp] theorem State.owe_cells (w : Work) : (s.owe w).cells = s.cells := rfl
@[simp] theorem State.owe_free (w : Work) : (s.owe w).free = s.free := rfl
@[simp] theorem State.owe_tbm (w : Work) : (s.owe w).tbm = s.tbm := rfl
@[simp] theorem State.owe_adm (w : Work) : (s.owe w).adm = s.adm := rfl
@[simp] theorem State.owe_groups (w : Work) : (s.owe w).groups = s.groups := rfl
@[simp] theorem State.owe_mga (w : Work) : (s.owe w).mga = s.mga := rfl
@[simp] theorem State.owe_evu (w : Work) : (s.owe w).evu = s.evu := rfl
@[simp] theorem State.owe_port (w : Work) (q : Port) : (s.owe w).port q = s.port q := rfl
@[simp] theorem State.owe_group (w : Work) (h : Group) : (s.owe w).group h = s.group h := rfl
@[simp] theorem State.owe_cell (w : Work) (x : CellNo) : (s.owe w).cell x = s.cell x := rfl
@[simp] theorem State.owe_egress (w : Work) (e : EtherPort) : (s.owe w).egress e = s.egress e := by cases e <;> rfl
@[simp] theorem State.modGroup_egress (g : Group) (f : GroupRec → GroupRec) (e : EtherPort) : (s.modGroup g f).egress e = s.egress e := by
  cases e <;> rfl
@[simp] theorem State.modTbm_egress (f : Tbm → Tbm) (e : EtherPort) : (s.modTbm f).egress e = s.egress e := by
  cases e <;> rfl
@[simp] theorem State.modAdm_egress (f : Adm → Adm) (e : EtherPort) : (s.modAdm f).egress e = s.egress e := by
  cases e <;> rfl
@[simp] theorem State.modMga_egress (f : Mga → Mga) (e : EtherPort) : (s.modMga f).egress e = s.egress e := by
  cases e <;> rfl
@[simp] theorem State.modEvu_egress (f : Evu → Evu) (e : EtherPort) : (s.modEvu f).egress e = s.egress e := by
  cases e <;> rfl
@[simp] theorem State.modCell_egress (c : CellNo) (f : Cell → Cell) (e : EtherPort) : (s.modCell c f).egress e = s.egress e := by
  cases e <;> rfl
@[simp] theorem State.modPort_egress_uplink (p : Port) (f : PortRec → PortRec) :
    (s.modPort p f).egress .uplink = s.egress .uplink := rfl
@[simp] theorem State.modUplink_egress_camera (f : Uplink → Uplink) (q : Port) :
    (s.modUplink f).egress (.camera q) = s.egress (.camera q) := rfl

/-! ### One port, group or cell -/

@[simp] theorem State.modPort_port_same (p : Port) (f : PortRec → PortRec) : (s.modPort p f).port p = f (s.port p) := by
  simp [State.port, State.modPort]

theorem State.modPort_port_ne {p q : Port} (f : PortRec → PortRec) (h : q ≠ p) : (s.modPort p f).port q = s.port q := by
  have : p.val ≠ q.val := fun e => h (Fin.ext e.symm)
  simp [State.port, State.modPort, this]

/-- The record of any port after an update of one. -/
theorem State.modPort_port (p q : Port) (f : PortRec → PortRec) :
    (s.modPort p f).port q = if q = p then f (s.port p) else s.port q := by
  by_cases h : q = p
  · subst h; simp
  · simp [State.modPort_port_ne s f h, h]

@[simp] theorem State.modGroup_group_same (g : Group) (f : GroupRec → GroupRec) :
    (s.modGroup g f).group g = f (s.group g) := by simp [State.group, State.modGroup]

theorem State.modGroup_group_ne {g h : Group} (f : GroupRec → GroupRec) (hn : h ≠ g) :
    (s.modGroup g f).group h = s.group h := by
  have : g.val ≠ h.val := fun e => hn (Fin.ext e.symm)
  simp [State.group, State.modGroup, this]

/-- The record of any group after an update of one. -/
theorem State.modGroup_group (g h : Group) (f : GroupRec → GroupRec) :
    (s.modGroup g f).group h = if h = g then f (s.group g) else s.group h := by
  by_cases e : h = g
  · subst e; simp
  · simp [State.modGroup_group_ne s f e, e]

@[simp] theorem State.modCell_cell_same (c : CellNo) (f : Cell → Cell) : (s.modCell c f).cell c = f (s.cell c) := by
  simp [State.cell, State.modCell]

theorem State.modCell_cell_ne {c d : CellNo} (f : Cell → Cell) (hn : d ≠ c) : (s.modCell c f).cell d = s.cell d := by
  have : c.val ≠ d.val := fun e => hn (Fin.ext e.symm)
  simp [State.cell, State.modCell, this]

/-- Any cell after an update of one. -/
theorem State.modCell_cell (c d : CellNo) (f : Cell → Cell) :
    (s.modCell c f).cell d = if d = c then f (s.cell c) else s.cell d := by
  by_cases e : d = c
  · subst e; simp
  · simp [State.modCell_cell_ne s f e, e]

/-! ### Two updates of one thing are one -/

theorem State.modPort_modPort (p : Port) (f g : PortRec → PortRec) :
    (s.modPort p f).modPort p g = s.modPort p fun r => g (f r) := by
  simp [State.modPort]

theorem State.modMga_modMga (f g : Mga → Mga) : (s.modMga f).modMga g = s.modMga fun m => g (f m) := rfl

theorem State.modAdm_modAdm (f g : Adm → Adm) : (s.modAdm f).modAdm g = s.modAdm fun m => g (f m) := rfl

/-- An update that leaves the record of its port as it is leaves the state as it is. -/
theorem State.modPort_id {p : Port} {f : PortRec → PortRec} (h : f (s.port p) = s.port p) : s.modPort p f = s := by
  have hs : s.ports.set p (s.ports[p]) = s.ports := by
    simp
  simp only [State.modPort]
  rw [show f s.ports[p] = s.ports[p] from h, hs]

end Sys2Proof.Machine
end

