-- ==== Sys2Proof/Laws/Calm.lean ====
section
/-! SUPPORT. Which operations leave alone what the laws of the part speak of. `Calm s t` says that t has the states,
charges, draws, committed charges, limits and stored draws of s, and keeps the bounds of the queues; it is reflexive and
transitive, and every bookkeeping operation is calm. -/

namespace Sys2Proof.Machine

set_option Elab.async false

/-- t differs from s only in what the laws do not speak of. -/
structure Calm (s t : State) : Prop where
  pending : t.pending = s.pending
  phase : t.phase = s.phase
  state : ∀ p, (t.port p).state = (s.port p).state
  charge : ∀ p, (t.port p).charge = (s.port p).charge
  draws : ∀ p, (t.port p).draws = (s.port p).draws
  ports : ∀ p, (s.port p).Lawful → (t.port p).Lawful
  unfed : ∀ p, (s.port p).feed = false → (t.port p).feed = false
  committed : t.adm.committed = s.adm.committed
  limits : t.adm.limits = s.adm.limits
  stored : ∀ p : Port, t.tbm.portConfig[p].val = s.tbm.portConfig[p].val
  uplink : s.uplink.egress.queue.length ≤ Config.txDepth → t.uplink.egress.queue.length ≤ Config.txDepth
  fifo : s.mga.fifo.length ≤ Config.fifoDepth → t.mga.fifo.length ≤ Config.fifoDepth

theorem Calm.refl (s : State) : Calm s s :=
  ⟨rfl, rfl, fun _ => rfl, fun _ => rfl, fun _ => rfl, fun _ h => h, fun _ h => h, rfl, rfl, fun _ => rfl, fun h => h, fun h => h⟩

theorem Calm.trans {s t u : State} (h : Calm s t) (k : Calm t u) : Calm s u where
  pending := k.pending.trans h.pending
  phase := k.phase.trans h.phase
  state p := (k.state p).trans (h.state p)
  charge p := (k.charge p).trans (h.charge p)
  draws p := (k.draws p).trans (h.draws p)
  ports p hp := k.ports p (h.ports p hp)
  unfed p hp := k.unfed p (h.unfed p hp)
  committed := k.committed.trans h.committed
  limits := k.limits.trans h.limits
  stored p := (k.stored p).trans (h.stored p)
  uplink hu := k.uplink (h.uplink hu)
  fifo hf := k.fifo (h.fifo hf)

/-- The charge of a domain is read from the charges of the ports alone. -/
theorem domainCharge_congr {s t : State} (h : ∀ p, (t.port p).charge = (s.port p).charge) (d : Domain) :
    domainCharge t d = domainCharge s d := by
  simp only [domainCharge]
  congr 1
  exact List.map_congr_left fun p _ => h p

/-- A calm change keeps the laws. -/
theorem Calm.lawful {s t : State} (h : Calm s t) (l : s.Lawful) : t.Lawful where
  ports p := h.ports p (l.ports p)
  committed d := by rw [h.committed, domainCharge_congr h.charge]; exact l.committed d
  within d := by rw [h.committed, h.limits]; exact l.within d
  stored p := by rw [h.stored]; exact l.stored p
  uplink := h.uplink l.uplink
  fifo := h.fifo l.fifo

/-- A fold of calm changes is calm. -/
theorem Calm.foldl {α : Type} {f : State → α → State} (h : ∀ s x, Calm s (f s x)) (l : List α) (s : State) :
    Calm s (l.foldl f s) := by
  induction l generalizing s with
  | nil => exact Calm.refl s
  | cons x l ih => exact (h s x).trans (ih _)

/-- A calm change after a change. -/
theorem Calm.of_eq {s t : State} (h : t = s) : Calm s t := h ▸ Calm.refl s

/-- Either branch is calm. -/
theorem Calm.ite {s t u : State} {c : Prop} [Decidable c] (h : c → Calm s t) (k : ¬c → Calm s u) :
    Calm s (if c then t else u) := by
  split <;> rename_i hc
  · exact h hc
  · exact k hc

/-! ### The updates of one part -/

/-- What an update of a port record leaves alone. -/
structure CalmPort (r r' : PortRec) : Prop where
  state : r'.state = r.state
  charge : r'.charge = r.charge
  draws : r'.draws = r.draws
  feed : r'.feed = r.feed ∨ r'.feed = false ∧ r'.linkUp = false
  linkUp : r'.linkUp = r.linkUp ∨ r'.linkUp = false ∨ r'.feed = true
  tx : r.egress.queue.length ≤ Config.txDepth → r'.egress.queue.length ≤ Config.txDepth

theorem CalmPort.lawful {r r' : PortRec} (h : CalmPort r r') (l : r.Lawful) : r'.Lawful where
  charged := by rw [h.charge, h.draws, h.state]; exact l.charged
  ordered := by rw [h.draws]; exact l.ordered
  restOff := by
    intro hr
    rw [h.state] at hr
    rcases h.feed with e | e
    · rw [e]; exact l.restOff hr
    · exact e.1
  linkFeed := by
    intro hl
    rcases h.feed with e | e
    · rcases h.linkUp with k | k | k
      · rw [e]; exact l.linkFeed (k ▸ hl)
      · simp [k] at hl
      · exact k
    · simp [e.2] at hl
  txBound := h.tx l.txBound

theorem CalmPort.unfed {r r' : PortRec} (h : CalmPort r r') (l : r.feed = false) : r'.feed = false := by
  rcases h.feed with e | e
  · rw [e]; exact l
  · exact e.1

theorem Calm.modPort (s : State) (p : Port) {f : PortRec → PortRec} (h : CalmPort (s.port p) (f (s.port p))) :
    Calm s (s.modPort p f) := by
  refine ⟨rfl, rfl, ?_, ?_, ?_, ?_, ?_, rfl, rfl, fun _ => rfl, fun h => h, fun h => h⟩ <;> intro q <;>
    rw [State.modPort_port] <;> split <;> rename_i e
  · rw [e]; exact h.state
  · rfl
  · rw [e]; exact h.charge
  · rfl
  · rw [e]; exact h.draws
  · rfl
  · rw [e]; exact h.lawful
  · exact fun l => l
  · rw [e]; exact h.unfed
  · exact fun l => l

/-- A calm change followed by a calm update of a port record. -/
theorem Calm.thenPort {s t : State} {p : Port} {f : PortRec → PortRec} (h : Calm s t)
    (k : CalmPort (t.port p) (f (t.port p))) : Calm s (t.modPort p f) := h.trans (Calm.modPort _ _ k)

/-- An update of a port record that leaves its state, charge, draws, feed, link and transmit queue alone. -/
theorem CalmPort.plain {r r' : PortRec} (h1 : r'.state = r.state := by rfl) (h2 : r'.charge = r.charge := by rfl)
    (h3 : r'.draws = r.draws := by rfl) (h4 : r'.feed = r.feed := by rfl) (h5 : r'.linkUp = r.linkUp := by rfl)
    (h6 : r'.egress.queue = r.egress.queue := by rfl) : CalmPort r r' :=
  ⟨h1, h2, h3, .inl h4, .inl h5, by rw [h6]; exact fun h => h⟩

theorem Calm.modGroup (s : State) (g : Group) (f : GroupRec → GroupRec) : Calm s (s.modGroup g f) :=
  ⟨rfl, rfl, fun _ => rfl, fun _ => rfl, fun _ => rfl, fun _ h => h, fun _ h => h, rfl, rfl, fun _ => rfl, fun h => h, fun h => h⟩

theorem Calm.modArm (s : State) (g : Group) (f : ArmRecord → ArmRecord) : Calm s (s.modArm g f) := Calm.modGroup _ _ _

theorem Calm.modSlot (s : State) (g : Group) (f : Slot → Slot) : Calm s (s.modSlot g f) := Calm.modGroup _ _ _

theorem Calm.modEvu (s : State) (f : Evu → Evu) : Calm s (s.modEvu f) :=
  ⟨rfl, rfl, fun _ => rfl, fun _ => rfl, fun _ => rfl, fun _ h => h, fun _ h => h, rfl, rfl, fun _ => rfl, fun h => h, fun h => h⟩

theorem Calm.modDevice (s : State) (f : DeviceCounts → DeviceCounts) : Calm s (s.modDevice f) := Calm.modEvu _ _

theorem Calm.modCell (s : State) (c : CellNo) (f : Cell → Cell) : Calm s (s.modCell c f) :=
  ⟨rfl, rfl, fun _ => rfl, fun _ => rfl, fun _ => rfl, fun _ h => h, fun _ h => h, rfl, rfl, fun _ => rfl, fun h => h, fun h => h⟩

theorem Calm.setFree (s : State) (l : List CellNo) : Calm s { s with free := l } :=
  ⟨rfl, rfl, fun _ => rfl, fun _ => rfl, fun _ => rfl, fun _ h => h, fun _ h => h, rfl, rfl, fun _ => rfl, fun h => h, fun h => h⟩

theorem Calm.setOwed (s : State) (l : List Work) : Calm s { s with owed := l } :=
  ⟨rfl, rfl, fun _ => rfl, fun _ => rfl, fun _ => rfl, fun _ h => h, fun _ h => h, rfl, rfl, fun _ => rfl, fun h => h, fun h => h⟩

theorem Calm.owe (s : State) (w : Work) : Calm s (s.owe w) := Calm.setOwed _ _

theorem Calm.modAdm (s : State) (f : Adm → Adm) (h : (f s.adm).committed = s.adm.committed := by rfl)
    (k : (f s.adm).limits = s.adm.limits := by rfl) : Calm s (s.modAdm f) :=
  ⟨rfl, rfl, fun _ => rfl, fun _ => rfl, fun _ => rfl, fun _ h => h, fun _ h => h, h, k, fun _ => rfl, fun h => h, fun h => h⟩

theorem Calm.modMga (s : State) (f : Mga → Mga)
    (h : s.mga.fifo.length ≤ Config.fifoDepth → (f s.mga).fifo.length ≤ Config.fifoDepth) : Calm s (s.modMga f) :=
  ⟨rfl, rfl, fun _ => rfl, fun _ => rfl, fun _ => rfl, fun _ h => h, fun _ h => h, rfl, rfl, fun _ => rfl, fun h => h, h⟩

theorem Calm.modUplink (s : State) (f : Uplink → Uplink)
    (h : s.uplink.egress.queue.length ≤ Config.txDepth → (f s.uplink).egress.queue.length ≤ Config.txDepth) :
    Calm s (s.modUplink f) :=
  ⟨rfl, rfl, fun _ => rfl, fun _ => rfl, fun _ => rfl, fun _ h => h, fun _ h => h, rfl, rfl, fun _ => rfl, h, fun h => h⟩

theorem Calm.modTbm (s : State) (f : Tbm → Tbm)
    (h : ∀ p : Port, (f s.tbm).portConfig[p].val = s.tbm.portConfig[p].val) : Calm s (s.modTbm f) :=
  ⟨rfl, rfl, fun _ => rfl, fun _ => rfl, fun _ => rfl, fun _ h => h, fun _ h => h, rfl, rfl, h, fun h => h, fun h => h⟩

theorem Calm.modEgress (s : State) (e : EtherPort) (f : Egress → Egress)
    (h : (s.egress e).queue.length ≤ Config.txDepth → (f (s.egress e)).queue.length ≤ Config.txDepth) :
    Calm s (s.modEgress e f) := by
  cases e with
  | camera p =>
    unfold State.modEgress
    exact Calm.modPort _ _ ⟨rfl, rfl, rfl, .inl rfl, .inl rfl, h⟩
  | uplink =>
    unfold State.modEgress
    exact Calm.modUplink _ _ h

theorem Calm.setReceiving (s : State) (e : EtherPort) (r : Reception) : Calm s (s.setReceiving e r) := by
  cases e with
  | camera p =>
    unfold State.setReceiving
    exact Calm.modPort _ _ .plain
  | uplink =>
    unfold State.setReceiving
    exact Calm.modUplink _ _ fun h => h

/-! ### Counts, cells and queues -/

theorem Calm.modCounts (s : State) (p : Port) (f : Counts → Counts) : Calm s (s.modCounts p f) :=
  Calm.modPort _ _ .plain

theorem Calm.countDrop (p : Port) (c : DropCause) (s : State) : Calm s (countDrop p c s) := Calm.modCounts _ _ _

theorem Calm.countForwardedDown (p : Port) (s : State) : Calm s (countForwardedDown p s) := Calm.modCounts _ _ _

theorem Calm.countUnknown (s : State) : Calm s (countUnknown s) := Calm.modDevice _ _

theorem Calm.addRef (c : CellNo) (s : State) : Calm s (addRef c s) := Calm.modCell _ _ _

theorem Calm.storeCell (c : CellNo) (bs : List Byte) (s : State) : Calm s (storeCell c bs s) := Calm.modCell _ _ _

theorem Calm.dropRef (c : CellNo) (s : State) : Calm s (dropRef c s) := by
  unfold Machine.dropRef
  split
  · exact Calm.refl s
  · dsimp only
    split
    · exact (Calm.modCell s c _).trans (Calm.setFree _ _)
    · exact Calm.modCell s c _

theorem Calm.appendTx (e : EtherPort) (x : TxEntry) (s : State) (h : txFull s e = false) : Calm s (appendTx e x s) := by
  refine (Calm.modEgress s e _ ?_).trans (Calm.addRef _ _)
  intro _
  simp only [txFull, decide_eq_false_iff_not] at h
  simp only [List.length_append, List.length_singleton]
  omega

@[simp] theorem storeCell_txFull (c : CellNo) (bs : List Byte) (s : State) (e : EtherPort) :
    txFull (storeCell c bs s) e = txFull s e := by cases e <;> rfl

@[simp] theorem setFree_txFull (s : State) (l : List CellNo) (e : EtherPort) :
    txFull { s with free := l } e = txFull s e := by cases e <;> rfl

theorem Calm.originate (e : EtherPort) (bs : List Byte) (s : State) : Calm s (originate e bs s).2 := by
  unfold Machine.originate
  split
  · exact Calm.refl s
  · split
    · exact Calm.setFree _ _
    · rename_i h
      refine (Calm.setFree s _).trans ((Calm.storeCell _ _ _).trans (Calm.appendTx _ _ _ ?_))
      simpa using h

theorem Calm.restartIdle (p : Port) (s : State) : Calm s (restartIdle p s) := by
  refine Calm.modPort _ _ ?_
  split
  · exact .plain
  · exact .plain

theorem Calm.discardTx (p : Port) (s : State) : Calm s (discardTx p s) := by
  unfold Machine.discardTx
  apply Calm.thenPort
  · apply Calm.foldl
    intro s x
    exact (Calm.dropRef _ _).trans (Calm.countDrop _ _ _)
  · exact ⟨rfl, rfl, rfl, .inl rfl, .inl rfl, fun _ => by simp [Egress.empty]⟩

theorem Calm.discardHold (p : Port) (s : State) : Calm s (discardHold p s) := by
  unfold Machine.discardHold
  apply Calm.thenPort
  · apply Calm.foldl
    intro s x
    exact (Calm.dropRef _ _).trans (Calm.countDrop _ _ _)
  · exact .plain

theorem Calm.forwardDown (p : Port) (x : TxEntry) (a : Bool) (s : State) : Calm s (forwardDown p x a s) := by
  unfold Machine.forwardDown
  split
  · exact Calm.countDrop _ _ _
  · rename_i h
    have h' := (Calm.appendTx (.camera p) x s (by simpa using h)).trans (Calm.countForwardedDown p _)
    dsimp only
    split
    · exact h'.trans (Calm.restartIdle _ _)
    · exact h'

/-! ### Events -/

theorem Calm.judgeNotice (s : State) : Calm s (judgeNotice s) := by
  unfold Machine.judgeNotice
  split
  · exact Calm.refl s
  · have h := Calm.originate .uplink (noticeFrame s) s
    split <;> rename_i heq
    · rw [heq] at h; exact h.trans (Calm.modEvu _ _)
    · rw [heq] at h; exact h

theorem Calm.raise (e : Event) (d : Detail) (s : State) : Calm s (raise e d s) := by
  unfold Machine.raise
  dsimp only
  split
  · exact (Calm.modEvu _ _).trans (Calm.judgeNotice _)
  · exact Calm.modEvu _ _

theorem Calm.setMasks (m : PortSet) (s : State) : Calm s (setMasks m s) := by
  unfold Machine.setMasks
  dsimp only
  split
  · exact (Calm.modEvu _ _).trans (Calm.judgeNotice _)
  · exact Calm.modEvu _ _

theorem Calm.clearReported (s : State) : Calm s (clearReported s) := Calm.modEvu _ _

/-! ### Reads of table memory -/

theorem Protected.afterRead_val {α : Type} {n : Nat} (e : Protected α n) : e.afterRead.val = e.val := by
  unfold Protected.afterRead
  split <;> rfl

theorem Calm.noteFinding (t : TbmTable) (i : Nat) (f : Finding) (s : State) : Calm s (noteFinding t i f s) := by
  unfold Machine.noteFinding
  split
  · exact (Calm.modDevice _ _).trans (Calm.raise _ _ _)
  · exact (Calm.modDevice _ _).trans (Calm.raise _ _ _)
  · exact Calm.refl s

theorem Calm.readPortConfig (p : Port) (s : State) : Calm s (readPortConfig p s).2 := by
  refine (Calm.modTbm s _ fun q => ?_).trans (Calm.noteFinding _ _ _ _)
  simp only [Fin.getElem_fin, Vector.getElem_set]
  split
  · rename_i h
    simp only [h]
    exact Protected.afterRead_val _
  · rfl

theorem Calm.readTemplate (i : Fin 48) (s : State) : Calm s (readTemplate i s).2 :=
  (Calm.modTbm s _ fun _ => rfl).trans (Calm.noteFinding _ _ _ _)

theorem Calm.readRule (i : Fin 32) (s : State) : Calm s (readRule i s).2 :=
  (Calm.modTbm s _ fun _ => rfl).trans (Calm.noteFinding _ _ _ _)

theorem Calm.readClassAction (i : Fin 9) (s : State) : Calm s (readClassAction i s).2 :=
  (Calm.modTbm s _ fun _ => rfl).trans (Calm.noteFinding _ _ _ _)

theorem Calm.readGroupEntry (g : Group) (s : State) : Calm s (readGroupEntry g s).2 :=
  (Calm.modTbm s _ fun _ => rfl).trans (Calm.noteFinding _ _ _ _)

theorem Calm.discardProxy (i : Fin 64) (s : State) : Calm s (discardProxy i s) := by
  unfold Machine.discardProxy
  refine Calm.trans ?_ (Calm.modTbm _ _ fun _ => rfl)
  exact Calm.modPort _ _ .plain

theorem Calm.readProxy (i : Fin 64) (s : State) : Calm s (readProxy i s).2 := by
  unfold Machine.readProxy
  split
  · dsimp only
    have h : Calm s (Machine.noteFinding .proxy i.val s.tbm.proxy[i].find
        (s.modTbm fun t => { t with proxy := t.proxy.set i s.tbm.proxy[i].afterRead })) :=
      (Calm.modTbm s _ fun _ => rfl).trans (Calm.noteFinding _ _ _ _)
    split
    · exact h.trans (Calm.discardProxy _ _)
    · exact h
  · exact Calm.refl s

/-- The configuration that a read hands over is the stored one, so its draws are in order where the stored ones are. -/
theorem readPortConfig_ordered_of_stored {p : Port} {s : State} {c : PortConfig}
    (h : (readPortConfig p s).1 = some c) (hp : s.tbm.portConfig[p].val.Ordered) : c.Ordered := by
  simp only [Machine.readPortConfig, Protected.handed] at h
  split at h
  · cases h
  · cases h; exact hp

/-- The configuration that a read hands over has its draws in order. -/
theorem readPortConfig_ordered {p : Port} {s : State} {c : PortConfig} (l : s.Lawful)
    (h : (readPortConfig p s).1 = some c) : c.Ordered := readPortConfig_ordered_of_stored h (l.stored p)

end Sys2Proof.Machine
end

