-- ==== Sys2Proof/Laws/Good.lean ====
section
/-! SUPPORT. Which operations keep the laws of the part. `Good s t` says that t has the queue of commands and the phase of s
and is lawful if s is. -/

namespace Sys2Proof.Machine

set_option Elab.async false

/-- t keeps the queue of commands, the phase of the part and the laws of s. -/
structure Good (s t : State) : Prop where
  pending : t.pending = s.pending
  phase : t.phase = s.phase
  lawful : s.Lawful → t.Lawful

theorem Good.refl (s : State) : Good s s := ⟨rfl, rfl, fun h => h⟩

theorem Good.trans {s t u : State} (h : Good s t) (k : Good t u) : Good s u :=
  ⟨k.pending.trans h.pending, k.phase.trans h.phase, fun l => k.lawful (h.lawful l)⟩

theorem Calm.good {s t : State} (h : Calm s t) : Good s t := ⟨h.pending, h.phase, h.lawful⟩

theorem Good.foldl {α : Type} {f : State → α → State} (h : ∀ s x, Good s (f s x)) (l : List α) (s : State) :
    Good s (l.foldl f s) := by
  induction l generalizing s with
  | nil => exact Good.refl s
  | cons x l ih => exact (h s x).trans (ih _)

/-- A calm change after a good one. -/
theorem Good.calm {s t u : State} (h : Good s t) (k : Calm t u) : Good s u := h.trans k.good

/-! ### Groups (Chapter 7) -/

theorem Calm.endTrigger (g : Group) (o : TriggerOutcome) (d m : PortSet) (s : State) : Calm s (endTrigger g o d m s) :=
  (Calm.modSlot _ _ _).trans (Calm.dropRef _ _)

theorem Calm.dropTrigger (g : Group) (o : TriggerOutcome) (s : State) : Calm s (dropTrigger g o s) :=
  Calm.endTrigger _ _ _ _ _

theorem Calm.refuseStrict (g : Group) (s : State) : Calm s (refuseStrict g s) := by
  unfold Machine.refuseStrict
  split
  · exact (Calm.dropTrigger _ _ _).trans (Calm.raise _ _ _)
  · exact Calm.refl s

theorem Calm.breakArm (g : Group) (w : PortSet) (s : State) : Calm s (breakArm g w s) := by
  unfold Machine.breakArm
  split
  · refine Calm.trans ?_ (Calm.refuseStrict _ _)
    split
    · exact Calm.modArm _ _ _
    · exact ((Calm.modArm _ _ _).trans (Calm.modArm _ _ _)).trans (Calm.raise _ _ _)
  · exact Calm.refl s

theorem Calm.removeSchedulesOf (g : Group) (s : State) : Calm s (removeSchedulesOf g s) := by
  unfold Machine.removeSchedulesOf
  exact Calm.modAdm _ _

theorem Calm.clearArm (g : Group) (s : State) : Calm s (clearArm g s) := by
  unfold Machine.clearArm
  split
  · refine Calm.trans ?_ (Calm.refuseStrict _ _)
    refine Calm.trans ?_ (Calm.foldl (fun s p => Calm.restartIdle p s) _ _)
    exact (Calm.modArm _ _ _).trans (Calm.removeSchedulesOf _ _)
  · exact Calm.refl s

theorem Calm.joinWatched (g : Group) (p : Port) (st : PortState) (s : State) : Calm s (joinWatched g p st s) := by
  unfold Machine.joinWatched
  extract_lets
  split
  · exact Calm.modArm _ _ _
  · exact Calm.refl s

theorem Calm.markUnreachable (g : Group) (p : Port) (s : State) : Calm s (markUnreachable g p s) :=
  (Calm.modSlot _ _ _).trans (Calm.owe _ _)

theorem Calm.slotReact (g : Group) (p : Port) (st : PortState) (s : State) : Calm s (slotReact g p st s) := by
  unfold Machine.slotReact
  split
  · dsimp only
    split <;> (try split) <;> first
      | exact Calm.markUnreachable _ _ _
      | exact Calm.owe _ _
      | exact Calm.refl s
  · exact Calm.refl s

theorem Calm.groupReact (g : Group) (p : Port) (o n : PortState) (s : State) : Calm s (groupReact g p o n s) := by
  unfold Machine.groupReact
  refine Calm.trans ?_ (Calm.slotReact _ _ _ _)
  split
  · exact (Calm.joinWatched _ _ _ _).trans (Calm.breakArm _ _ _)
  · exact Calm.joinWatched _ _ _ _

theorem Calm.memberChanged (p : Port) (o n : PortState) (s : State) : Calm s (memberChanged p o n s) :=
  Calm.foldl (fun s g => Calm.groupReact g p o n s) _ _

theorem Calm.noteDeliverable (p : Port) (s : State) : Calm s (noteDeliverable p s) := by
  refine Calm.foldl (fun s g => ?_) _ _
  split
  · exact Calm.owe _ _
  · exact Calm.refl s

/-! ### The committed charge of a domain (R51) -/

theorem mem_portsOf (p : Port) : p ∈ portsOf (domainOf p) := by simp [portsOf, allPorts]

theorem nodup_portsOf (d : Domain) : (portsOf d).Nodup := (List.nodup_finRange 16).filter _

theorem not_mem_portsOf {p : Port} {d : Domain} (h : d ≠ domainOf p) : p ∉ portsOf d := by
  simp [portsOf, Ne.symm h]

/-- Changing a function at one element of a list without repeats changes the sum by the difference. -/
theorem sum_map_update {α : Type} [DecidableEq α] {l : List α} (hn : l.Nodup) {a : α} (ha : a ∈ l) {f g : α → Nat}
    (h : ∀ x, x ≠ a → g x = f x) : (l.map g).sum + f a = (l.map f).sum + g a := by
  induction l with
  | nil => cases ha
  | cons x l ih =>
    obtain ⟨hx, hl⟩ := List.nodup_cons.mp hn
    by_cases e : x = a
    · subst e
      have : l.map g = l.map f := List.map_congr_left fun y hy => h y fun c => hx (c ▸ hy)
      simp only [List.map_cons, List.sum_cons, this]
      omega
    · have ha' : a ∈ l := by
        rcases List.mem_cons.mp ha with c | c
        · exact absurd c.symm e
        · exact c
      have := ih hl ha'
      simp only [List.map_cons, List.sum_cons, h x e]
      omega

/-- The charge of a domain after one of its ports has changed its charge. -/
theorem domainCharge_modPort (s : State) (p : Port) (f : PortRec → PortRec) :
    domainCharge (s.modPort p f) (domainOf p) + (s.port p).charge = domainCharge s (domainOf p) + (f (s.port p)).charge := by
  have h := sum_map_update (nodup_portsOf (domainOf p)) (mem_portsOf p)
    (f := fun q => (s.port q).charge) (g := fun q => ((s.modPort p f).port q).charge)
    fun x hx => by simp [State.modPort_port_ne s f hx]
  simpa [domainCharge] using h

/-- The charge of another domain stays. -/
theorem domainCharge_modPort_ne (s : State) {p : Port} {d : Domain} (f : PortRec → PortRec) (hd : d ≠ domainOf p) :
    domainCharge (s.modPort p f) d = domainCharge s d := by
  simp only [domainCharge]
  congr 1
  refine List.map_congr_left fun q hq => ?_
  have : q ≠ p := fun e => not_mem_portsOf hd (e ▸ hq)
  rw [State.modPort_port_ne s f this]

@[simp] theorem recommit_port (d : Domain) (s : State) (q : Port) : (recommit d s).port q = s.port q := rfl

theorem recommit_committed (d e : Domain) (s : State) :
    (recommit d s).adm.committed[e] = if e = d then domainCharge s d else s.adm.committed[e] := by
  simp only [recommit, State.modAdm_adm, Fin.getElem_fin, Vector.getElem_set]
  by_cases h : e = d
  · simp [h]
  · have : d.val ≠ e.val := fun c => h (Fin.ext c.symm)
    simp [h, this]

/-! ### Moves of a port's state -/

/-- The charges of the states stand in order where the draws do. -/
theorem stateCharge_le {d : Draws} (h : d.Ordered) (st : PortState) : stateCharge d st ≤ d.inrush := by
  obtain ⟨h1, h2⟩ := h
  cases st <;> simp only [stateCharge] <;> omega

/-- A move of a port's state to one whose charge fits under the limit keeps the laws (R51, R58). -/
theorem setState_lawful {s : State} (l : s.Lawful) (p : Port) (st : PortState)
    (hf : st.resting → (s.port p).feed = false)
    (hc : s.adm.committed[domainOf p] + stateCharge (s.port p).draws st ≤
      s.adm.limits[domainOf p] + (s.port p).charge) : (setState p st s).Lawful := by
  set f : PortRec → PortRec := fun r => { r with state := st, charge := stateCharge (s.port p).draws st } with hfdef
  have hsum := domainCharge_modPort s p f
  have hcom := l.committed (domainOf p)
  have key : (recommit (domainOf p) (s.modPort p f)).Lawful := by
    refine ⟨fun q => ?_, fun d => ?_, fun d => ?_, l.stored, l.uplink, l.fifo⟩
    · rw [recommit_port, State.modPort_port]
      split
      · have lp := l.ports p
        exact ⟨rfl, lp.ordered, hf, lp.linkFeed, lp.txBound⟩
      · exact l.ports q
    · have hk : domainCharge (recommit (domainOf p) (s.modPort p f)) d = domainCharge (s.modPort p f) d :=
        domainCharge_congr (fun q => by simp) d
      rw [recommit_committed, hk]
      split
      · rename_i h; rw [h]
      · rename_i h
        rw [domainCharge_modPort_ne s f h]
        exact l.committed d
    · rw [recommit_committed]
      show _ ≤ s.adm.limits[d]
      split
      · rename_i h
        subst h
        have : (f (s.port p)).charge = stateCharge (s.port p).draws st := rfl
        rw [this] at hsum
        omega
      · exact l.within d
  unfold setState
  dsimp only
  split
  · exact (Calm.owe _ _).lawful key
  · exact key

theorem setState_pending (p : Port) (st : PortState) (s : State) : (setState p st s).pending = s.pending := by
  unfold setState; dsimp only; split <;> rfl

theorem setState_phase (p : Port) (st : PortState) (s : State) : (setState p st s).phase = s.phase := by
  unfold setState; dsimp only; split <;> rfl

/-- A move to a state whose charge is not higher keeps the laws. -/
theorem changeState_good (p : Port) (st : PortState) (s : State) (hf : st.resting → (s.port p).feed = false)
    (hc : s.Lawful → stateCharge (s.port p).draws st ≤ (s.port p).charge) : Good s (changeState p st s) := by
  refine Good.calm ⟨setState_pending p st s, setState_phase p st s, fun l => setState_lawful l p st hf ?_⟩
    (Calm.memberChanged _ _ _ _)
  have := hc l
  have := l.within (domainOf p)
  omega

/-- The port record after a move of its state: the state and its charge, and nothing else. -/
theorem setState_port (p q : Port) (st : PortState) (s : State) :
    (setState p st s).port q =
      if q = p then { s.port p with state := st, charge := stateCharge (s.port p).draws st } else s.port q := by
  unfold setState
  dsimp only
  split
  · simp only [State.owe_port, recommit_port, State.modPort_port]
  · simp only [recommit_port, State.modPort_port]

end Sys2Proof.Machine
end

