-- ==== Sys2Proof/Laws/WalkPorts.lean ====
section
/-! SUPPORT. The operations of the port states and of the wake engine keep the laws of the part. -/

namespace Sys2Proof.Machine

set_option Elab.async false

/-! ### What a rest does to the port's blocks -/

theorem Calm.feedOff (p : Port) (s : State) : Calm s (feedOff p s) :=
  Calm.modPort _ _ ⟨rfl, rfl, rfl, .inr ⟨rfl, rfl⟩, .inr (.inl rfl), fun h => h⟩

theorem feedOff_feed (p : Port) (s : State) : ((feedOff p s).port p).feed = false := by simp [feedOff]

theorem Calm.endOperation (p : Port) (s : State) : Calm s (endOperation p s) := Calm.modPort _ _ .plain

theorem Calm.stopProbing (p : Port) (s : State) : Calm s (stopProbing p s) := Calm.modPort _ _ .plain

theorem Calm.beginProbing (p : Port) (s : State) : Calm s (beginProbing p s) := by
  unfold Machine.beginProbing
  exact Calm.modPort s p .plain

theorem Calm.clearProxies (p : Port) (s : State) : Calm s (clearProxies p s) := Calm.modPort _ _ .plain

theorem Calm.stopTimers (p : Port) (s : State) : Calm s (stopTimers p s) := Calm.modPort _ _ .plain

theorem Calm.stopRelease (p : Port) (s : State) : Calm s (stopRelease p s) := Calm.modPort _ _ .plain

theorem Calm.removeWake (p : Port) (s : State) : Calm s (removeWake p s) := Calm.modAdm _ _

theorem Calm.removeSchedule (p : Port) (s : State) : Calm s (removeSchedule p s) := Calm.modAdm _ _

/-! ### Moves of a port's state -/

/-- A change of one port record that keeps its charge and its laws keeps the laws of the part. -/
theorem Lawful.modPort {s : State} (l : s.Lawful) (p : Port) {f : PortRec → PortRec}
    (hc : (f (s.port p)).charge = (s.port p).charge) (hl : (f (s.port p)).Lawful) : (s.modPort p f).Lawful where
  ports q := by
    rw [State.modPort_port]
    split
    · exact hl
    · exact l.ports q
  committed d := by
    refine (l.committed d).trans (domainCharge_congr (fun q => ?_) d).symm
    rw [State.modPort_port]
    split
    · rename_i h; rw [h, hc]
    · rfl
  within := l.within
  stored := l.stored
  uplink := l.uplink
  fifo := l.fifo

/-- The port is in the state that it has been moved to. -/
theorem changeState_state (p : Port) (st : PortState) (s : State) : ((changeState p st s).port p).state = st := by
  unfold changeState
  rw [(Calm.memberChanged _ _ _ _).state, setState_port]
  simp

/-- A move of a port's state under the admission test or to a charge that is not higher keeps the laws. -/
theorem changeState_good' (p : Port) (st : PortState) (s : State) (hf : st.resting → (s.port p).feed = false)
    (hc : s.Lawful → s.adm.committed[domainOf p] + stateCharge (s.port p).draws st ≤
      s.adm.limits[domainOf p] + (s.port p).charge) : Good s (changeState p st s) :=
  Good.calm ⟨setState_pending p st s, setState_phase p st s, fun l => setState_lawful l p st hf (hc l)⟩
    (Calm.memberChanged _ _ _ _)

/-- A move to DISABLED, ASLEEP or FAULTED with the feed off keeps the laws. -/
theorem rest_good (p : Port) (st : PortState) (s : State) (h : st.resting = true) (hf : (s.port p).feed = false) :
    Good s (changeState p st s) := by
  refine changeState_good p st s (fun _ => hf) fun _ => ?_
  cases st <;> first | exact absurd h (by decide) | exact Nat.zero_le _

/-- A move to READY or PAUSING from a state whose feed is on keeps the laws. -/
theorem activate_good (p : Port) (st : PortState) (s : State) (h : st = .ready ∨ st = .pausing)
    (hs : (s.port p).state = .ready ∨ (s.port p).state = .pausing ∨ (s.port p).state = .waking ∨
      (s.port p).state = .resuming) : Good s (changeState p st s) := by
  have hr : ¬ st.resting = true := by rcases h with rfl | rfl <;> decide
  refine changeState_good p st s (fun k => absurd k hr) fun l => ?_
  have lp := l.ports p
  have ho := lp.ordered
  rw [lp.charged]
  have hst : stateCharge (s.port p).draws st = (s.port p).draws.active := by rcases h with rfl | rfl <;> rfl
  rw [hst]
  rcases hs with e | e | e | e <;> rw [e] <;> simp only [stateCharge] <;> first | exact Nat.le_refl _ | exact ho.2

/-! ### Entries into states -/

theorem shutDown_good (p : Port) (st : PortState) (s : State) (h : st.resting = true) : Good s (shutDown p st s) := by
  have c : Calm (feedOff p s) (s |> feedOff p |> endOperation p |> stopProbing p |> discardHold p |> discardTx p
      |> stopRelease p |> removeWake p |> removeSchedule p |> clearProxies p |> stopTimers p) :=
    (Calm.endOperation _ _).trans <| (Calm.stopProbing _ _).trans <| (Calm.discardHold _ _).trans <|
      (Calm.discardTx _ _).trans <| (Calm.stopRelease _ _).trans <| (Calm.removeWake _ _).trans <|
      (Calm.removeSchedule _ _).trans <| (Calm.clearProxies _ _).trans (Calm.stopTimers _ _)
  exact ((Calm.feedOff p s).trans c).good.trans (rest_good _ _ _ h (c.unfed p (feedOff_feed p s)))

theorem enterFaulted_good (p : Port) (code : FaultCode) (s : State) : Good s (enterFaulted p code s) := by
  unfold enterFaulted
  dsimp only
  split
  · exact Good.refl s
  · exact ((shutDown_good p .faulted s rfl).calm (Calm.modPort _ _ .plain)).calm (Calm.raise _ _ _)

theorem enterDisabled_good (p : Port) (s : State) : Good s (enterDisabled p s) :=
  (shutDown_good p .disabled s rfl).calm (Calm.modPort _ _ .plain)

theorem enterAsleep_good (p : Port) (s : State) : Good s (enterAsleep p s) := by
  have c : Calm (feedOff p s) (s |> feedOff p |> endOperation p |> stopProbing p |> clearProxies p |> discardTx p
      |> stopRelease p |> stopTimers p) :=
    (Calm.endOperation _ _).trans <| (Calm.stopProbing _ _).trans <| (Calm.clearProxies _ _).trans <|
      (Calm.discardTx _ _).trans <| (Calm.stopRelease _ _).trans (Calm.stopTimers _ _)
  have g := ((Calm.feedOff p s).trans c).good.trans
    (rest_good p .asleep _ rfl (c.unfed p (feedOff_feed p s)))
  unfold enterAsleep
  dsimp only
  split
  · exact g.calm (Calm.owe _ _)
  · exact g

theorem enterPaused_good (p : Port) (s : State) (h : (s.port p).state = .pausing) : Good s (enterPaused p s) := by
  have c := Calm.endOperation p s
  have g : Good s (changeState p .paused (endOperation p s)) := by
    refine c.good.trans (changeState_good p .paused _ (fun k => absurd k (by decide)) fun l => ?_)
    have lp := l.ports p
    rw [lp.charged, c.state, h]
    exact lp.ordered.1
  have g' := (g.calm (Calm.modPort _ p (f := fun r => { r with deepIdle := 0 }) .plain)).calm (Calm.beginProbing p _)
  unfold enterPaused
  dsimp only
  split
  · exact g'
  · split
    · exact g'.trans (enterFaulted_good _ _ _)
    · split
      · exact g'
      · exact g'.calm (Calm.owe _ _)

/-! ### Release -/

theorem Calm.moveHeld (p : Port) (h : HoldEntry) (rest : List HoldEntry) (s : State)
    (k : txFull s (.camera p) = false) : Calm s (moveHeld p h rest s) := by
  have c := ((((Calm.appendTx (.camera p) ⟨h.cell, h.length, none⟩ s k).thenPort
    (p := p) (f := fun r => { r with hold := rest }) .plain).trans (Calm.dropRef h.cell _)).trans
      (Calm.modCounts _ p fun c => { c with released := bump c.released, forwardedDown := bump c.forwardedDown }))
  unfold Machine.moveHeld
  dsimp only
  split
  · exact c.trans (Calm.restartIdle _ _)
  · exact c

theorem Calm.moveHeldUpTo (n : Nat) (p : Port) (s : State) : Calm s (moveHeldUpTo n p s) := by
  induction n generalizing s with
  | zero => exact Calm.refl s
  | succ n ih =>
    unfold Machine.moveHeldUpTo
    split
    · exact Calm.refl s
    · split
      · exact Calm.refl s
      · rename_i h
        exact (Calm.moveHeld _ _ _ _ (by simpa using h)).trans (ih _)

theorem Calm.stepRelease (p : Port) (s : State) : Calm s (stepRelease p s) := by
  unfold Machine.stepRelease
  split
  · dsimp only
    split
    · exact (Calm.moveHeldUpTo _ _ _).trans ((Calm.stopRelease _ _).trans (Calm.noteDeliverable _ _))
    · exact Calm.moveHeldUpTo _ _ _
  · exact Calm.refl s

theorem Calm.startRelease (p : Port) (s : State) : Calm s (startRelease p s) := by
  unfold Machine.startRelease
  split
  · exact Calm.noteDeliverable _ _
  · exact (Calm.modPort _ _ .plain).trans (Calm.stepRelease _ _)

/-! ### The wake engine -/

theorem Calm.modOp (s : State) (p : Port) (f : Operation → Operation) : Calm s (s.modOp p f) := Calm.modPort _ _ .plain

theorem Calm.modProbe (s : State) (p : Port) (f : ProbeRecord → ProbeRecord) : Calm s (s.modProbe p f) :=
  Calm.modPort _ _ .plain

theorem Calm.sendTemplate (p : Port) (t : Template) (q : Option (BitVec 16)) (s : State) :
    Calm s (sendTemplate p t q s).2 := by
  have h := Calm.originate (.camera p) (templateFrame t (s.port p).cfg.station s.mga.factory q) s
  unfold Machine.sendTemplate
  split <;> rename_i e <;> rw [e] at h
  · exact h
  · exact h.trans (Calm.countDrop _ _ _)
  · exact h.trans (Calm.countDrop _ _ _)

theorem Calm.readPresent (p : Port) (k : TemplateKind) (s : State) : Calm s (readPresent p k s).2 := by
  have h := Calm.readTemplate (templateIndex p k) s
  unfold Machine.readPresent
  split <;> rename_i e <;> rw [e] at h <;> exact h

/-- The feed of a port that is not at rest may be turned on; a high feed-fault input then faults it. -/
theorem feedOn_good (p : Port) (s : State) (h : (s.port p).state.resting = false) : Good s (feedOn p s) := by
  have g : Good s (s.modPort p fun r => { r with feed := true }) := by
    refine ⟨rfl, rfl, fun l => Lawful.modPort l p rfl ?_⟩
    have lp := l.ports p
    exact ⟨lp.charged, lp.ordered, fun k => absurd k (by simp [h]), fun _ => rfl, lp.txBound⟩
  unfold feedOn
  dsimp only
  split
  · exact g.trans (enterFaulted_good _ _ _)
  · exact g

theorem Calm.startLine (p : Port) (s : State) : Calm s (startLine p s) := Calm.modPort _ _ .plain

theorem Calm.startPower (p : Port) (s : State) : Calm s (startPower p s) :=
  (Calm.feedOff p s).thenPort .plain

theorem Calm.leaveFrame (p : Port) (s : State) : Calm s (leaveFrame p s) := by
  unfold Machine.leaveFrame
  split
  · exact Calm.startLine _ _
  · exact ((Calm.modOp _ _ _).trans (Calm.raise _ _ _)).trans (Calm.startLine _ _)

theorem Calm.startFrame (p : Port) (s : State) : Calm s (startFrame p s) := by
  have h := Calm.readPresent p .resume s
  unfold Machine.startFrame
  split <;> rename_i e <;> rw [e] at h
  · exact (h.trans (Calm.sendTemplate _ _ _ _)).thenPort .plain
  · exact h.trans (Calm.leaveFrame _ _)

theorem Calm.startAttempt (p : Port) (s : State) : Calm s (startAttempt p s) := by
  unfold Machine.startAttempt
  split
  · exact Calm.startFrame _ _
  · exact Calm.startLine _ _
  · exact Calm.startPower _ _
  · exact Calm.refl s

theorem Calm.startResume (p : Port) (c : WakeClass) (s : State) : Calm s (startResume p c s) :=
  (Calm.modPort _ _ .plain).trans (Calm.startAttempt _ _)

theorem startCold_good (p : Port) (c : WakeClass) (s : State) (h : (s.port p).state.resting = false) :
    Good s (startCold p c s) :=
  (Calm.modPort s p .plain).good.trans (feedOn_good _ _ (by simpa using h))

theorem Calm.enterSpacing (p : Port) (s : State) : Calm s (enterSpacing p s) := by
  unfold Machine.enterSpacing
  dsimp only
  split
  · exact (Calm.modPort _ _ .plain).trans (Calm.startAttempt _ _)
  · exact Calm.modPort _ _ .plain

theorem Calm.closeWindow (p : Port) (s : State) : Calm s (closeWindow p s) := Calm.modPort _ _ .plain

theorem Calm.escalate (p : Port) (m : Method) (s : State) : Calm s (escalate p m s) :=
  ((Calm.modOp _ _ _).trans (Calm.raise _ _ _)).trans (Calm.enterSpacing _ _)

theorem resumeAttemptFailed_good (p : Port) (s : State) : Good s (resumeAttemptFailed p s) := by
  have h := Calm.closeWindow p s
  unfold resumeAttemptFailed
  dsimp only
  split
  · exact (h.trans (Calm.enterSpacing _ _)).good
  · split
    · exact (h.trans (Calm.escalate _ _ _)).good
    · exact (h.trans (Calm.escalate _ _ _)).good
    · exact h.good.trans (enterFaulted_good _ _ _)
    · exact h.good.trans (enterFaulted_good _ _ _)

theorem coldAttemptFailed_good (p : Port) (s : State) : Good s (coldAttemptFailed p s) := by
  unfold coldAttemptFailed
  dsimp only
  split
  · exact ((Calm.feedOff p s).thenPort .plain).good
  · exact enterFaulted_good _ _ _

theorem offHoldOver_good (p : Port) (s : State) (h : (s.port p).state.resting = false) : Good s (offHoldOver p s) :=
  (Calm.modPort s p .plain).good.trans (feedOn_good _ _ (by simpa using h))

theorem enterReady_good (p : Port) (w : LastWake) (s : State)
    (h : (s.port p).state = .waking ∨ (s.port p).state = .resuming) : Good s (enterReady p w s) := by
  unfold enterReady
  exact (activate_good p .ready s (.inl rfl) (.inr (.inr h))).calm
    (((Calm.modPort _ _ .plain).trans (Calm.removeWake _ _)).trans (Calm.startRelease _ _))

theorem acceptEvidence_good (p : Port) (s : State)
    (h : (s.port p).state = .waking ∨ (s.port p).state = .resuming) : Good s (acceptEvidence p s) := by
  unfold acceptEvidence
  dsimp only
  split
  · exact Good.refl s
  · have c : Calm s ((endOperation p s).modPort p fun r => { r with
        est := (applySample s.mga.learnShift ‹_› (sampleOf (s.port p).op) (s.port p).est).1 }) :=
      (Calm.endOperation p s).thenPort .plain
    exact c.good.trans (enterReady_good _ _ _ (by rw [c.state]; exact h))

theorem pauseFailed_good (p : Port) (s : State) (h : (s.port p).state = .pausing) : Good s (pauseFailed p s) := by
  have c := Calm.endOperation p s
  unfold pauseFailed
  exact (c.good.trans (activate_good p .ready _ (.inl rfl) (.inr (.inl (by rw [c.state]; exact h))))).calm
    (((Calm.raise _ _ _).trans (Calm.restartIdle _ _)).trans
      ((Calm.removeWake _ _).trans (Calm.startRelease _ _)))

theorem Calm.startPause (p : Port) (t : Template) (s : State) : Calm s (startPause p t s).2 :=
  (Calm.modPort s p .plain).trans (Calm.sendTemplate p t none _)

/-- The entry into PAUSING keeps the laws, and leaves the port PAUSING whether or not its frame was placed. -/
theorem enterPausing_good (p : Port) (t : Template) (s : State) (h : (s.port p).state = .ready) :
    Good s (enterPausing p t s).2 ∧ ((enterPausing p t s).2.port p).state = .pausing := by
  have c : Calm s (stopRelease p (s.modPort p fun r => { r with idle := 0 })) :=
    (Calm.modPort s p .plain).trans (Calm.stopRelease _ _)
  have g := c.good.trans (activate_good p .pausing _ (.inr rfl) (.inl (by rw [c.state]; exact h)))
  unfold enterPausing
  dsimp only
  split
  · refine ⟨(g.calm (Calm.owe _ _)).calm (Calm.startPause _ _ _), ?_⟩
    rw [(Calm.startPause _ _ _).state, State.owe_port, changeState_state]
  · refine ⟨g.calm (Calm.startPause _ _ _), ?_⟩
    rw [(Calm.startPause _ _ _).state, changeState_state]

theorem tryPause_good (p : Port) (s : State) (h : (s.port p).state = .ready) : Good s (tryPause p s).2 ∧
    ((tryPause p s).1 = .frameLost → ((tryPause p s).2.port p).state = .pausing) := by
  have c := Calm.readPresent p .pause s
  unfold tryPause
  split <;> rename_i e <;> rw [e] at c
  · exact ⟨c.good, nofun⟩
  · have k := c.trans (Calm.readPortConfig p _)
    split <;> rename_i e' <;> rw [e'] at k
    · exact ⟨k.good.trans (enterFaulted_good _ _ _), nofun⟩
    · have k' := k.thenPort (p := p) (f := fun r => { r with cfg := ‹_› }) .plain
      have g := enterPausing_good p ‹_› _ (by rw [k'.state]; exact h)
      split <;> rename_i e2 <;> rw [e2] at g
      · exact ⟨k'.good.trans g.1, nofun⟩
      · exact ⟨k'.good.trans g.1, fun _ => g.2⟩

theorem probeLost_good (p : Port) (s : State) : Good s (probeLost p s) :=
  (enterAsleep_good p s).calm (Calm.raise _ _ _)

theorem Calm.sendProbe (p : Port) (s : State) : Calm s (sendProbe p s) := by
  have h := Calm.readPresent p .probe s
  unfold Machine.sendProbe
  split <;> rename_i e <;> rw [e] at h
  · exact h.trans (Calm.stopProbing _ _)
  · exact (h.trans (Calm.sendTemplate _ _ _ _)).thenPort .plain

theorem probeIntervalOver_good (p : Port) (s : State) : Good s (probeIntervalOver p s) := by
  unfold probeIntervalOver
  extract_lets pr missed t
  have h : Calm s t := by
    show Calm s (if missed = true then _ else _)
    exact Calm.ite (fun _ => Calm.modProbe _ _ _) fun _ => Calm.refl s
  split
  · exact h.good.trans (probeLost_good _ _)
  · exact (h.trans (Calm.sendProbe _ _)).good

theorem Calm.judgeProbeAnswer (p : Port) (n : Option (BitVec 16)) (s : State) : Calm s (judgeProbeAnswer p n s) :=
  Calm.modProbe _ _ _

end Sys2Proof.Machine
end

