-- ==== Sys2Proof/Laws/WalkAdmission.lean ====
section
/-! SUPPORT. Admission, triggers, rendezvous and the settling of handed-on work keep the laws of the part. -/

namespace Sys2Proof.Machine

set_option Elab.async false

/-! ### Admission (Chapter 3) -/

theorem eligible_state {s : State} {p : Port} (h : eligible s p = true) :
    ((s.port p).state = .paused ∨ (s.port p).state = .asleep) ∧ (s.port p).park = false := by
  simpa [eligible] using h

theorem admits_le {s : State} {p : Port} (h : admits s p = true) :
    s.adm.committed[domainOf p] + (s.port p).draws.inrush ≤ s.adm.limits[domainOf p] + (s.port p).charge := by
  simpa [admits] using h

/-- A calm change keeps the room that the admission test found. -/
theorem Calm.room {s t : State} (c : Calm s t) {p : Port} (h : admits s p = true) :
    t.adm.committed[domainOf p] + (t.port p).draws.inrush ≤ t.adm.limits[domainOf p] + (t.port p).charge := by
  rw [c.committed, c.limits, c.draws, c.charge]; exact admits_le h

theorem admit_good (p : Port) (cls : WakeClass) (s : State) (ha : admits s p = true) : Good s (admitPort p cls s) := by
  have c := Calm.removeWake p s
  have k := c.trans (Calm.readPortConfig p (removeWake p s))
  unfold admitPort
  dsimp only
  split <;> rename_i e <;> rw [e] at k
  · exact k.good.trans (enterFaulted_good _ _ _)
  · rename_i cfg t
    have k' : Calm s (stopProbing p (t.modPort p fun r => { r with cfg := cfg, deepIdle := 0 })) :=
      (k.thenPort .plain).trans (Calm.stopProbing _ _)
    split
    · refine (k'.good.trans (changeState_good' p .waking _ (fun h => absurd h (by decide)) fun _ => ?_)).trans
        (startCold_good _ _ _ (by rw [changeState_state]; rfl))
      exact k'.room ha
    · refine (k'.good.trans (changeState_good' p .resuming _ (fun h => absurd h (by decide)) fun _ => ?_)).calm
        (Calm.startResume _ _ _)
      exact k'.room ha

theorem visit_good (sc : Scan) (e : WakeEntry) : Good sc.state (visit sc e).state := by
  unfold visit
  extract_lets d
  split
  · exact Good.refl _
  · split
    · rename_i h; exact admit_good _ _ _ h
    · split
      · exact Good.refl _
      · exact Good.refl _

theorem scan_good (s : State) : Good s (scan s) := by
  unfold scan
  extract_lets order sc
  refine Good.calm ?_ (Calm.modAdm _ _)
  have h : ∀ (l : List WakeEntry) (sc : Scan), Good sc.state (l.foldl visit sc).state := by
    intro l
    induction l with
    | nil => exact fun sc => Good.refl _
    | cons e l ih => exact fun sc => (visit_good sc e).trans (ih _)
  exact h order { state := s, closed := [], admitted := [] }

theorem Calm.addEntry (p : Port) (c : WakeClass) (s : State) : Calm s (addEntry p c s) := Calm.modAdm _ _

theorem createEntry_good (p : Port) (c : WakeClass) (s : State) : Good s (createEntry p c s) := by
  unfold createEntry
  extract_lets t resting
  have h := Calm.addEntry p c s
  refine Good.trans ?_ (scan_good _)
  split
  · exact h.good.trans (enterFaulted_good _ _ _)
  · exact h.good

theorem mergeNeed_good (p : Port) (c : WakeClass) (s : State) : Good s (mergeNeed p c s) :=
  (Calm.modAdm s _).good.trans (scan_good _)

theorem takeNeed_good (c : WakeClass) (p : Port) (s : State) : Good s (takeNeed c p s) := by
  unfold takeNeed
  split
  · split
    · exact mergeNeed_good _ _ _
    · exact (Calm.removeSchedule _ _).good.trans (createEntry_good _ _ _)
    · exact createEntry_good _ _ _
  · exact Good.refl s

theorem Calm.requestSchedule (p : Port) (g : Group) (n : Nat) (s : State) : Calm s (requestSchedule p g n s) := by
  unfold Machine.requestSchedule
  split
  · exact Calm.refl s
  · split
    · exact (Calm.removeSchedule _ _).trans (Calm.modAdm _ _)
    · exact Calm.refl s
  · exact Calm.modAdm _ _

theorem scheduleDue_good (p : Port) (s : State) : Good s (scheduleDue p s) := by
  have h := Calm.removeSchedule p s
  unfold scheduleDue
  dsimp only
  split
  · exact h.good.trans (takeNeed_good _ _ _)
  · exact h.good

/-- A limit not below the domain's committed charge may be written. -/
theorem applyLimit_good (d : Domain) (limit : Nat) (s : State) (h : s.adm.committed[d] ≤ limit) :
    Good s (applyLimit d limit s) := by
  unfold applyLimit
  extract_lets t checked
  have g : Good s t := by
    refine ⟨rfl, rfl, fun l => ⟨l.ports, l.committed, fun e => ?_, l.stored, l.uplink, l.fifo⟩⟩
    show s.adm.committed[e] ≤ (s.adm.limits.set d limit)[e]
    by_cases he : d = e
    · subst he; simpa using h
    · have : d.val ≠ e.val := fun c => he (Fin.ext c)
      simpa [Vector.getElem_set, this] using l.within e
  refine (g.trans (Good.foldl (fun s e => ?_) _ _)).trans (scan_good _)
  split
  · exact enterFaulted_good _ _ _
  · exact Good.refl _

theorem Calm.applyPassLimit (n : Nat) (s : State) : Calm s (applyPassLimit n s) := Calm.modAdm _ _

/-! ### Triggers (Chapter 7) -/

theorem Calm.groupPoisoned (g : Group) (s : State) : Calm s (groupPoisoned g s) := by
  unfold Machine.groupPoisoned
  refine Calm.trans ?_ (Calm.clearArm _ _)
  split
  · exact (Calm.dropTrigger _ _ _).trans (Calm.raise _ _ _)
  · exact Calm.refl s

theorem Calm.readGroup (g : Group) (s : State) : Calm s (readGroup g s).2 := by
  have h := Calm.readGroupEntry g s
  unfold Machine.readGroup
  split <;> rename_i e <;> rw [e] at h
  · exact h.trans (Calm.groupPoisoned _ _)
  · exact h

theorem Calm.raiseIncomplete (g : Group) (s : State) : Calm s (raiseIncomplete g s) := Calm.raise _ _ _

theorem Calm.deliverTo (c : CellNo) (a : Bool) (m : PortSet) (s : State) : Calm s (deliverTo c a m s).2 :=
  Calm.foldl (fun s p => Calm.forwardDown p _ a s) _ _

theorem Calm.deliverPending (g : Group) (m : PortSet) (s : State) : Calm s (deliverPending g m s) := by
  unfold Machine.deliverPending
  extract_lets x
  have h := Calm.deliverTo x.cell x.activity m s
  generalize Machine.deliverTo x.cell x.activity m s = r at h
  obtain ⟨placed, t⟩ := r
  dsimp only at h ⊢
  split
  · exact h.trans (Calm.endTrigger _ _ _ _ _)
  · exact (h.trans (Calm.endTrigger _ _ _ _ _)).trans (Calm.raiseIncomplete _ _)

theorem Calm.abandonTrigger (g : Group) (s : State) : Calm s (abandonTrigger g s) :=
  (Calm.dropTrigger _ _ _).trans (Calm.raiseIncomplete _ _)

theorem Calm.reevaluate (g : Group) (s : State) : Calm s (reevaluate g s) := by
  unfold Machine.reevaluate
  extract_lets x a
  split
  · exact Calm.refl s
  · split
    · exact Calm.refuseStrict _ _
    · split
      · split
        · exact Calm.abandonTrigger _ _
        · split
          · exact Calm.deliverPending _ _ _
          · exact Calm.refl s
      · split
        · exact Calm.deliverPending _ _ _
        · exact Calm.refl s

theorem Calm.windowOver (g : Group) (s : State) : Calm s (windowOver g s) := by
  unfold Machine.windowOver
  extract_lets x
  split
  · exact ((Calm.deliverTo _ _ _ _).trans (Calm.endTrigger _ _ _ _ _)).trans (Calm.raiseIncomplete _ _)
  · exact (Calm.dropTrigger _ _ _).trans (Calm.raiseIncomplete _ _)

theorem doWork_good (w : Work) (s : State) : Good s (doWork w s) := by
  cases w with
  | need c p => exact takeNeed_good _ _ _
  | scan => exact scan_good _
  | reevaluate g => exact (Calm.reevaluate _ _).good

theorem settleUpTo_good (n : Nat) (s : State) : Good s (settleUpTo n s) := by
  induction n generalizing s with
  | zero => exact Good.refl s
  | succ n ih =>
    unfold settleUpTo
    split
    · exact Good.refl s
    · exact ((Calm.setOwed s _).good.trans (doWork_good _ _)).trans (ih _)

theorem settle_good (s : State) : Good s (settle s) := settleUpTo_good _ _

theorem rendezvousNeeds_good (ps : List Port) (s : State) : Good s (rendezvousNeeds ps s) :=
  Good.foldl (fun s p => takeNeed_good _ p s) _ _

theorem makePending_good (g : Group) (c : GroupConfig) (cell : CellNo) (a : Bool) (s : State) :
    Good s (makePending g c cell a s) := by
  unfold makePending
  extract_lets u t
  have h : Calm s t := (Calm.addRef _ _).trans (Calm.modSlot _ _ _)
  split
  · exact (h.trans (Calm.abandonTrigger _ _)).good
  · exact h.good.trans (rendezvousNeeds_good _ _)

theorem Calm.deliverAtArrival (g : Group) (c : GroupConfig) (cell : CellNo) (a : Bool) (s : State) :
    Calm s (deliverAtArrival g c cell a s) :=
  ((Calm.addRef _ _).trans (Calm.modSlot _ _ _)).trans (Calm.deliverPending _ _ _)

theorem takeTrigger_good (g : Group) (cell : CellNo) (a : Bool) (s : State) : Good s (takeTrigger g cell a s) := by
  have h := Calm.readGroup g s
  unfold takeTrigger
  split <;> rename_i e <;> rw [e] at h
  · exact (h.trans (Calm.countUnknown _)).good
  · extract_lets arm
    split
    · exact (h.trans (Calm.countUnknown _)).good
    · split
      · exact (h.trans (Calm.raise _ _ _)).good
      · split
        · exact (h.trans (Calm.raise _ _ _)).good
        · split
          · exact (h.trans (Calm.deliverAtArrival _ _ _ _ _)).good
          · exact h.good.trans (makePending_good _ _ _ _ _)

theorem Calm.armGroup (g : Group) (c : GroupConfig) (s : State) : Calm s (armGroup g c s) :=
  (Calm.modArm _ _ _).trans (Calm.foldl (fun s p => Calm.restartIdle p s) _ _)

theorem prepareMember_good (g : Group) (lead : Nat) (s : State) (m : Port × Nat) :
    Good s (prepareMember g lead s m) := by
  unfold prepareMember
  split
  · exact takeNeed_good _ _ _
  · exact (Calm.requestSchedule _ _ _ _).good

theorem Calm.targetOver (g : Group) (s : State) : Calm s (targetOver g s) := by
  have h := Calm.readGroup g s
  unfold Machine.targetOver
  split <;> rename_i e <;> rw [e] at h
  · exact h.trans (Calm.modArm _ _ _)
  · extract_lets late t
    have k := h.trans (Calm.modArm _ g fun a => { a with target := none })
    split
    · exact k
    · exact k.trans (Calm.raise _ _ _)

theorem prepareGroup_good (g : Group) (c : GroupConfig) (lead : Nat) (s : State) :
    Good s (prepareGroup g c lead s) := by
  unfold prepareGroup
  extract_lets t waits u v
  have h : Calm s t := (Calm.removeSchedulesOf _ _).trans (Calm.armGroup _ _ _)
  have k : Good s v := (h.good.trans (Good.foldl (fun s m => prepareMember_good g lead s m) _ _)).calm
    (Calm.modArm _ _ _)
  split
  · exact k.calm (Calm.targetOver _ _)
  · exact k

end Sys2Proof.Machine
end

