-- ==== Sys2Proof/Laws/Pausing.lean ====
section
/-! SUPPORT. No work that blocks hand on moves a port out of PAUSING: a scan admits only PAUSED and ASLEEP ports, and the check
at an entry's creation faults no other. -/

namespace Sys2Proof.Machine

set_option Elab.async false

/-- A port that is PAUSING in s is PAUSING in t. -/
def StaysPausing (p : Port) (s t : State) : Prop := (s.port p).state = .pausing → (t.port p).state = .pausing

theorem StaysPausing.refl (p : Port) (s : State) : StaysPausing p s s := id

theorem StaysPausing.trans {p : Port} {s t u : State} (h : StaysPausing p s t) (k : StaysPausing p t u) :
    StaysPausing p s u := k ∘ h

theorem Calm.staysPausing {p : Port} {s t : State} (h : Calm s t) : StaysPausing p s t := fun k => by rw [h.state, k]

theorem StaysPausing.foldl {p : Port} {α : Type} {f : State → α → State} (h : ∀ s x, StaysPausing p s (f s x)) (l : List α)
    (s : State) : StaysPausing p s (l.foldl f s) := by
  induction l generalizing s with
  | nil => exact .refl _ _
  | cons x l ih => exact (h s x).trans (ih _)

/-- A move of another port. -/
theorem changeState_other {p q : Port} (h : q ≠ p) (st : PortState) (s : State) : StaysPausing q s (changeState p st s) :=
  StaysPausing.trans (fun k => by rw [setState_port, if_neg h, k]) (Calm.memberChanged _ _ _ _).staysPausing

theorem enterFaulted_other {p q : Port} (h : q ≠ p) (code : FaultCode) (s : State) :
    StaysPausing q s (enterFaulted p code s) := by
  have c : Calm s (s |> feedOff p |> endOperation p |> stopProbing p |> discardHold p |> discardTx p
      |> stopRelease p |> removeWake p |> removeSchedule p |> clearProxies p |> stopTimers p) :=
    (Calm.feedOff _ _).trans <| (Calm.endOperation _ _).trans <| (Calm.stopProbing _ _).trans <|
      (Calm.discardHold _ _).trans <| (Calm.discardTx _ _).trans <| (Calm.stopRelease _ _).trans <|
      (Calm.removeWake _ _).trans <| (Calm.removeSchedule _ _).trans <|
      (Calm.clearProxies _ _).trans (Calm.stopTimers _ _)
  unfold enterFaulted
  dsimp only
  split
  · exact .refl _ _
  · exact (c.staysPausing.trans (changeState_other h .faulted _)).trans
      ((Calm.modPort _ _ .plain).trans (Calm.raise _ _ _)).staysPausing

theorem feedOn_other {p q : Port} (h : q ≠ p) (s : State) : StaysPausing q s (feedOn p s) := by
  have k : StaysPausing q s (s.modPort p fun r => { r with feed := true }) := fun e => by
    rw [State.modPort_port_ne _ _ h, e]
  unfold feedOn
  dsimp only
  split
  · exact k.trans (enterFaulted_other h _ _)
  · exact k

/-- A port that is eligible is not PAUSING, so its admission moves no PAUSING port. -/
theorem admitPort_staysPausing (p q : Port) (cls : WakeClass) (s : State) (he : eligible s q = true) :
    StaysPausing p s (admitPort q cls s) := by
  by_cases h : p = q
  · subst h
    intro k
    rcases (eligible_state he).1 with e | e <;> rw [e] at k <;> cases k
  · have c := Calm.removeWake q s
    have k := c.trans (Calm.readPortConfig q (removeWake q s))
    unfold admitPort
    dsimp only
    split <;> rename_i e <;> rw [e] at k
    · exact k.staysPausing.trans (enterFaulted_other h _ _)
    · rename_i cfg t
      have k' : Calm s (stopProbing q (t.modPort q fun r => { r with cfg := cfg, deepIdle := 0 })) :=
        (k.thenPort .plain).trans (Calm.stopProbing _ _)
      split
      · refine (k'.staysPausing.trans (changeState_other h .waking _)).trans ?_
        exact (Calm.modPort _ _ .plain).staysPausing.trans (feedOn_other h _)
      · exact (k'.staysPausing.trans (changeState_other h .resuming _)).trans
          (Calm.startResume _ _ _).staysPausing

theorem visit_staysPausing (p : Port) (sc : Scan) (e : WakeEntry) : StaysPausing p sc.state (visit sc e).state := by
  unfold visit
  extract_lets d
  split
  · exact .refl _ _
  · rename_i h
    have he : eligible sc.state e.port = true := by simp at h; exact h.2
    split
    · exact admitPort_staysPausing _ _ _ _ he
    · split <;> exact .refl _ _

theorem scan_staysPausing (p : Port) (s : State) : StaysPausing p s (scan s) := by
  unfold scan
  extract_lets order sc
  refine StaysPausing.trans ?_ (Calm.modAdm _ _).staysPausing
  have h : ∀ (l : List WakeEntry) (sc : Scan), StaysPausing p sc.state (l.foldl visit sc).state := by
    intro l
    induction l with
    | nil => exact fun sc => .refl _ _
    | cons e l ih => exact fun sc => (visit_staysPausing p sc e).trans (ih _)
  exact h order { state := s, closed := [], admitted := [] }

theorem createEntry_staysPausing (p q : Port) (c : WakeClass) (s : State) : StaysPausing p s (createEntry q c s) := by
  unfold createEntry
  extract_lets t resting
  refine StaysPausing.trans ?_ (scan_staysPausing _ _)
  have h := (Calm.addEntry q c s).staysPausing (p := p)
  split
  · rename_i hr
    refine h.trans ?_
    by_cases k : p = q
    · subst k
      intro e
      have : resting = true := by simp at hr; exact hr.1
      simp only [resting] at this
      rw [show (t.port p).state = .pausing from e] at this
      cases this
    · exact enterFaulted_other k _ _
  · exact h

theorem takeNeed_staysPausing (p q : Port) (c : WakeClass) (s : State) : StaysPausing p s (takeNeed c q s) := by
  unfold takeNeed
  split
  · split
    · exact (Calm.modAdm s _).staysPausing.trans (scan_staysPausing _ _)
    · exact (Calm.removeSchedule _ _).staysPausing.trans (createEntry_staysPausing _ _ _ _)
    · exact createEntry_staysPausing _ _ _ _
  · exact .refl _ _

/-- The handed-on work leaves a PAUSING port PAUSING. -/
theorem settle_staysPausing (p : Port) (s : State) : StaysPausing p s (settle s) := by
  have h : ∀ (n : Nat) (s : State), StaysPausing p s (settleUpTo n s) := by
    intro n
    induction n with
    | zero => exact fun s => .refl _ _
    | succ n ih =>
      intro s
      unfold settleUpTo
      split
      · exact .refl _ _
      · rename_i w rest _
        refine StaysPausing.trans ((Calm.setOwed s rest).staysPausing.trans ?_) (ih _)
        cases w with
        | need c q => exact takeNeed_staysPausing _ _ _ _
        | scan => exact scan_staysPausing _ _
        | reevaluate g => exact (Calm.reevaluate _ _).staysPausing
  exact h _ _

end Sys2Proof.Machine
end

