-- ==== Sys2Proof/Laws/WalkFrames.lean ====
section
/-! SUPPORT. The standby answers, the classifier and the frame events keep the laws of the part. -/

namespace Sys2Proof.Machine

set_option Elab.async false

/-! ### Standby answers (Chapter 6) -/

theorem Calm.readRecords (p : Port) (l : List (Fin 4)) (s : State) : Calm s (readRecords p l s).2 := by
  induction l generalizing s with
  | nil => exact Calm.refl s
  | cons i l ih =>
    unfold Machine.readRecords
    dsimp only
    exact (Calm.readProxy _ _).trans (ih _)

theorem Calm.writeProxy (i : Fin 64) (v : ProxyEntry) (s : State) : Calm s (writeProxy i v s) :=
  Calm.modTbm _ _ fun _ => rfl

theorem Calm.learnAnswer (p : Port) (key : BitVec 16) (bytes : List Byte) (o : Option Nat) (s : State) :
    Calm s (learnAnswer p key bytes o s) := by
  have h := Calm.readRecords p recordIndices s
  unfold Machine.learnAnswer
  generalize Machine.readRecords p recordIndices s = r at h
  obtain ⟨found, t⟩ := r
  exact (h.trans (Calm.writeProxy _ _ _)).thenPort .plain

theorem Calm.considerLearning (p : Port) (st : PortState) (bytes : List Byte) (k o : Option Nat) (s : State) :
    Calm s (considerLearning p st bytes k o s) := by
  unfold Machine.considerLearning
  split
  · split
    · exact Calm.refl s
    · split
      · exact Calm.modCounts _ _ _
      · exact Calm.learnAnswer _ _ _ _ _
  · exact Calm.refl s

theorem Calm.lookUpPoll (p : Port) (bytes : List Byte) (k : Option Nat) (s : State) :
    Calm s (lookUpPoll p bytes k s).2 := by
  unfold Machine.lookUpPoll
  split
  · exact Calm.refl s
  · have h := Calm.readRecords p recordIndices s
    generalize Machine.readRecords p recordIndices s = r at h
    obtain ⟨found, t⟩ := r
    dsimp only at h ⊢
    split
    · exact h
    · exact h

theorem Calm.answerPoll (p : Port) (e : ProxyEntry) (bytes : List Byte) (o : Option Nat) (s : State) :
    Calm s (answerPoll p e bytes o s) := by
  have h := Calm.originate .uplink (answerFrame e (s.port p).cfg.station bytes o) s
  unfold Machine.answerPoll
  split <;> rename_i q <;> rw [q] at h
  · exact h.trans (Calm.modCounts _ _ _)
  · exact h.trans (Calm.modCounts _ _ _)

/-! ### The classifier (Chapter 4) -/

theorem Calm.searchRules (up : Bool) (sc : Option Port) (bytes : List Byte) (l : List (Fin 32)) (s : State) :
    Calm s (searchRules up sc bytes l s).2 := by
  induction l generalizing s with
  | nil => exact Calm.refl s
  | cons i l ih =>
    have h := Calm.readRule i s
    unfold Machine.searchRules
    split <;> rename_i e <;> rw [e] at h
    · split
      · exact h
      · exact h.trans (ih _)
    · exact h.trans (ih _)

theorem Calm.classify (up : Bool) (sc : Option Port) (bytes : List Byte) (s : State) :
    Calm s (classify up sc bytes s).2 := by
  have h := Calm.searchRules up sc bytes (List.finRange 32) s
  unfold Machine.classify
  generalize Machine.searchRules up sc bytes (List.finRange 32) s = r at h
  obtain ⟨r, t⟩ := r
  exact h.trans (Calm.readClassAction _ _)

theorem Calm.holdFrame (p : Port) (c : CellNo) (n : Nat) (k : Classified) (s : State) :
    Calm s (holdFrame p c n k s).2 := by
  unfold Machine.holdFrame
  split
  · have h := (Calm.countDrop p .holdFull s).trans (Calm.raise .holdDrop (Detail.port p) _)
    dsimp only
    split
    · exact h.trans (Calm.raise _ _ _)
    · exact h
  · exact ((Calm.modPort s p (f := fun r => { r with hold := r.hold ++ [⟨c, n, k.cls, k.activity, k.action.waking⟩] })
      .plain).trans (Calm.addRef c _)).trans (Calm.modCounts _ p fun c => { c with held := bump c.held })

theorem holdAndNeed_good (p : Port) (c : CellNo) (n : Nat) (k : Classified) (s : State) :
    Good s (holdAndNeed p c n k s) := by
  have h := Calm.holdFrame p c n k s
  unfold holdAndNeed
  split <;> rename_i e <;> rw [e] at h
  · exact h.good.trans (takeNeed_good _ _ _)
  · exact h.good

theorem holdOrPark_good (p : Port) (c : CellNo) (n : Nat) (k : Classified) (s : State) :
    Good s (holdOrPark p c n k s) := by
  unfold holdOrPark
  split
  · exact (Calm.countDrop _ _ _).good
  · exact holdAndNeed_good _ _ _ _ _

theorem deliverToPort_good (p : Port) (c : CellNo) (bytes : List Byte) (k : Classified) (s : State) :
    Good s (deliverToPort p c bytes k s) := by
  unfold deliverToPort
  extract_lets n
  split <;> try split
  all_goals first
    | exact (Calm.countUnknown _).good
    | exact (Calm.countDrop _ _ _).good
    | exact (Calm.forwardDown _ _ _ _).good
    | exact (Calm.holdFrame _ _ _ _ _).good
    | exact holdAndNeed_good _ _ _ _ _
    | exact holdOrPark_good _ _ _ _ _
    | skip
  · rename_i e
    have h := Calm.lookUpPoll p bytes k.keyOffset s
    rw [e] at h
    exact (h.trans (Calm.answerPoll _ _ _ _ _)).good
  · rename_i e
    have h := Calm.lookUpPoll p bytes k.keyOffset s
    rw [e] at h
    exact h.good.trans (holdOrPark_good _ _ _ _ _)

theorem Calm.noCellToPort (p : Port) (k : Classified) (s : State) : Calm s (noCellToPort p k s) := by
  unfold Machine.noCellToPort
  extract_lets r resting t
  split
  · exact Calm.countUnknown _
  · split
    · exact Calm.countDrop _ _ _
    · split
      · exact Calm.countDrop _ _ _
      · split
        · exact Calm.countDrop _ _ _
        · split
          · exact (Calm.countDrop _ _ _).trans (Calm.raise _ _ _)
          · exact Calm.countDrop _ _ _

theorem Calm.copyTo (ps : List Port) (c : CellNo) (n : Nat) (a : Bool) (s : State) : Calm s (copyTo ps c n a s) :=
  Calm.foldl (fun s p => Calm.forwardDown p _ a s) _ _

theorem Calm.countDrops (ps : List Port) (c : DropCause) (s : State) : Calm s (countDrops ps c s) :=
  Calm.foldl (fun s p => Calm.countDrop p c s) _ _

theorem Calm.flood (c : Option CellNo) (bytes : List Byte) (s : State) : Calm s (flood c bytes s) := by
  have h := Calm.classify false none bytes s
  unfold Machine.flood
  generalize Machine.classify false none bytes s = r at h
  obtain ⟨k, t⟩ := r
  dsimp only at h ⊢
  split
  · exact h.trans (Calm.copyTo _ _ _ _ _)
  · split
    · exact (h.trans (Calm.countDrops _ _ _)).trans (Calm.raise _ _ _)
    · exact h.trans (Calm.countDrops _ _ _)

theorem deliverToGroup_good (g : Group) (c : Option CellNo) (bytes : List Byte) (s : State) :
    Good s (deliverToGroup g c bytes s) := by
  have h := Calm.classify false none bytes s
  unfold deliverToGroup
  generalize classify false none bytes s = r at h
  obtain ⟨k, t⟩ := r
  dsimp only at h ⊢
  split
  · split
    · exact h.good.trans (takeTrigger_good _ _ _ _)
    · have h' := h.trans (Calm.readGroup g t)
      split <;> rename_i e <;> rw [e] at h'
      · exact (h'.trans (Calm.countUnknown _)).good
      · split
        · exact (h'.trans (Calm.copyTo _ _ _ _ _)).good
        · exact (h'.trans (Calm.countUnknown _)).good
  · split
    · exact (h.trans (Calm.countUnknown _)).good
    · split
      · exact ((h.trans (Calm.countDrops _ _ _)).trans (Calm.raise _ _ _)).good
      · exact (h.trans (Calm.countDrops _ _ _)).good

theorem Calm.unknownUnicast (a : Addr) (s : State) : Calm s (unknownUnicast a s) := by
  unfold Machine.unknownUnicast
  split
  · exact (Calm.countUnknown _).trans (Calm.countDrop _ _ _)
  · exact Calm.countUnknown _

theorem resolveDown_good (c : Option CellNo) (bytes : List Byte) (s : State) : Good s (resolveDown c bytes s) := by
  unfold resolveDown
  extract_lets a
  split
  · exact (Calm.flood _ _ _).good
  · split
    · split
      · exact (Calm.unknownUnicast _ _).good
      · rename_i p _
        have h := Calm.classify false (some p) bytes s
        generalize classify false (some p) bytes s = r at h
        obtain ⟨k, t⟩ := r
        dsimp only at h ⊢
        split
        · exact h.good.trans (deliverToPort_good _ _ _ _ _)
        · exact (h.trans (Calm.noCellToPort _ _ _)).good
    · split
      · exact deliverToGroup_good _ _ _ _
      · exact (Calm.flood _ _ _).good

theorem Calm.takeRequest (bytes : List Byte) (s : State) : Calm s (takeRequest bytes s) := by
  unfold Machine.takeRequest
  extract_lets m src admitted
  split
  · exact (Calm.modDevice _ _).trans (Calm.raise _ _ _)
  · split
    · exact Calm.countUnknown _
    · split
      · exact Calm.countUnknown _
      · split
        · exact Calm.modDevice _ _
        · rename_i h
          refine Calm.modMga _ _ fun _ => ?_
          have : s.mga.fifo.length < Config.fifoDepth := by
            have : m.fifo = s.mga.fifo := rfl
            rw [← this]; omega
          simp only [List.length_append, List.length_singleton]
          omega

theorem dispatchDown_good (c : Option CellNo) (bytes : List Byte) (s : State) : Good s (dispatchDown c bytes s) := by
  unfold dispatchDown
  extract_lets a
  split
  · split
    · exact (Calm.takeRequest _ _).good
    · exact (Calm.modDevice _ _).good
  · split
    · exact (Calm.countUnknown _).good
    · exact resolveDown_good _ _ _

/-! ### Upstream -/

theorem cameraShows_good (p : Port) (bytes : List Byte) (k : Classified) (s : State) :
    Good s (cameraShows p bytes k s) := by
  unfold cameraShows
  extract_lets r
  have hr : r.state = (s.port p).state := rfl
  split
  · rename_i e
    split
    · exact acceptEvidence_good _ _ (.inl (hr ▸ e))
    · exact Good.refl s
  · rename_i e
    split
    · exact acceptEvidence_good _ _ (.inr (hr ▸ e))
    · exact Good.refl s
  · rename_i e
    split
    · split
      · split
        · exact enterPaused_good _ _ (hr ▸ e)
        · exact Good.refl s
      · split
        · exact (Calm.modOp s p _).good.trans (pauseFailed_good _ _ (by
            rw [(Calm.modOp s p _).state]; exact hr ▸ e))
        · exact Good.refl s
    · exact Good.refl s
  · split
    · exact (Calm.judgeProbeAnswer _ _ _).good
    · split
      · exact takeNeed_good _ _ _
      · exact Good.refl s
  · exact Good.refl s

theorem Calm.forwardUp (p : Port) (c : CellNo) (n : Nat) (s : State) : Calm s (forwardUp p c n s) := by
  unfold Machine.forwardUp
  split
  · exact Calm.countDrop _ _ _
  · split
    · exact Calm.countDrop _ _ _
    · rename_i h
      exact (Calm.appendTx _ _ _ (by simpa using h)).trans (Calm.modCounts _ _ _)

theorem upstream_good (p : Port) (c : Option CellNo) (bytes : List Byte) (s : State) :
    Good s (upstream p c bytes s) := by
  unfold upstream
  split
  · exact (Calm.modDevice _ _).good
  · split
    · exact (Calm.countDrop _ _ _).good
    · exact (Calm.countDrop _ _ _).good
    · have h := Calm.classify true (some p) bytes s
      generalize classify true (some p) bytes s = r at h
      obtain ⟨k, t⟩ := r
      dsimp only at h ⊢
      split
      · exact (h.trans (Calm.countDrop _ _ _)).good
      · have g1 : Good s (cameraShows p bytes k t) := h.good.trans (cameraShows_good _ _ _ _)
        have g2 : ∀ c : Prop, [Decidable c] → Good s (if c then restartIdle p (cameraShows p bytes k t) else
            cameraShows p bytes k t) := fun c _ =>
          g1.calm (Calm.ite (fun _ => Calm.restartIdle _ _) fun _ => Calm.refl _)
        have g3 : ∀ (c : Prop) [Decidable c] (u : State), Good s u → Good s (if c then
            considerLearning p (s.port p).state bytes k.keyOffset k.seqOffset u else u) := fun c _ u g =>
          g.calm (Calm.ite (fun _ => Calm.considerLearning _ _ _ _ _ _) fun _ => Calm.refl _)
        split
        · exact g3 _ _ (g2 _)
        · exact (g3 _ _ (g2 _)).calm (Calm.forwardUp _ _ _ _)

/-! ### Receptions and transmissions -/

theorem endReception_good (e : EtherPort) (bytes : List Byte) (ok : Bool) (drop : State → State)
    (take : Option CellNo → State → State) (s : State) (hd : ∀ s, Good s (drop s)) (ht : ∀ c s, Good s (take c s)) :
    Good s (endReception e bytes ok drop take s) := by
  unfold endReception
  split
  · exact Good.refl s
  · have h := (Calm.setReceiving s e .idle).good
    dsimp only
    split
    · exact h.trans (ht _ _)
    · exact h.trans (hd _)
  · rename_i c _
    have h := ((Calm.setReceiving s e .idle).trans (Calm.storeCell c bytes _)).good
    refine Good.calm ?_ (Calm.dropRef _ _)
    split
    · exact h.trans (ht _ _)
    · exact h.trans (hd _)

theorem receiveUplink_good (bytes : List Byte) (ok : Bool) (s : State) : Good s (receiveUplink bytes ok s) :=
  endReception_good _ _ _ _ _ _ (fun _ => (Calm.modDevice _ _).good) fun c s => dispatchDown_good c bytes s

theorem receiveCamera_good (p : Port) (bytes : List Byte) (ok : Bool) (s : State) :
    Good s (receiveCamera p bytes ok s) :=
  endReception_good _ _ _ _ _ _ (fun _ => (Calm.countDrop _ _ _).good) fun c s => upstream_good p c bytes s

theorem Calm.startReception (e : EtherPort) (s : State) : Calm s (startReception e s) := by
  unfold Machine.startReception
  split
  · exact Calm.setReceiving _ _ _
  · exact ((Calm.setFree s _).trans (Calm.setReceiving _ _ _)).trans (Calm.addRef _ _)
  · exact Calm.refl s

theorem Calm.startTransmission (e : EtherPort) (s : State) : Calm s (startTransmission e s) := by
  unfold Machine.startTransmission
  split
  · exact Calm.refl s
  · split
    · exact Calm.modEgress _ _ _ fun h => h
    · exact Calm.refl s

theorem Calm.noteResponseSent (c : CellNo) (s : State) : Calm s (noteResponseSent c s) := Calm.modMga _ _ fun h => h

theorem Calm.endTransmission (e : EtherPort) (s : State) : Calm s (endTransmission e s) := by
  unfold Machine.endTransmission
  split
  · rename_i x rest _ hq
    have h : Calm s (Machine.dropRef x.cell (s.modEgress e fun _ => { queue := rest, sending := none })) := by
      refine (Calm.modEgress s e _ fun h => ?_).trans (Calm.dropRef _ _)
      rw [hq] at h
      simp only [List.length_cons] at h
      show rest.length ≤ _
      omega
    dsimp only
    split
    · exact h.trans (Calm.noteResponseSent _ _)
    · exact h
  · exact Calm.refl s

end Sys2Proof.Machine
end

