-- ==== Sys2Proof/Laws/WalkCommands.lean ====
section
/-! SUPPORT. The management requests, the lines, the expiries, the scrubber and the tick keep the laws of the part. -/

namespace Sys2Proof.Machine

set_option Elab.async false

/-! ### Requests (Chapter 9) -/

theorem Calm.respond (r : Request) (st : Status) (pl : List Byte) (s : State) : Calm s (respond r st pl s).2 := by
  have h := Calm.originate .uplink (responseFrame r st pl s.mga.factory) s
  unfold Machine.respond
  split <;> rename_i e <;> rw [e] at h
  · exact h
  · dsimp only
    exact h.trans (Calm.modMga _ _ fun h => h)

/-- A request that has been performed ends in a good way where the FIFO keeps its depth. -/
theorem Calm.finishRequest {r : Request} {rest : List Request} (st : Status) (pl : List Byte) {s : State}
    (h : rest.length ≤ Config.fifoDepth) : Calm s (finishRequest r rest st pl s) :=
  (Calm.respond r st pl s).trans (Calm.modMga _ _ fun _ => h)

/-- The head request may be performed with an effect that keeps the laws. -/
theorem performHead_good (row : Row) (effect : Request → State → Performed) (s : State)
    (h : ∀ r, Good s (effect r s).2.2) : Good s (performHead row effect s) := by
  unfold performHead
  split
  · split
    · exact Good.refl s
    · rename_i r rest hf
      split
      · have g : Good s (performed effect r s).2.2 := by
          unfold performed
          split
          · exact Good.refl s
          · exact h r
        generalize performed effect r s = x at g
        obtain ⟨st, pl, t⟩ := x
        dsimp only at g ⊢
        have k := g.trans (settle_good t)
        refine ⟨(Calm.respond r st pl (settle t)).pending.trans k.pending,
          (Calm.respond r st pl (settle t)).phase.trans k.phase, fun l => ?_⟩
        have hl : rest.length ≤ Config.fifoDepth := by
          have := l.fifo
          rw [hf] at this
          simp only [List.length_cons] at this
          omega
        exact (Calm.finishRequest st pl hl).lawful (k.lawful l)
      · exact Good.refl s
  · exact Good.refl s

/-- The head request that passes every check is performed: its effect, what follows from it, then its response. -/
theorem performHead_passed {row : Row} {r : Request} {s : State} (h : headPassed row s = some r) :
    ∃ rest, s.mga.fifo = r :: rest ∧ ∀ eff, performHead row eff s =
      finishRequest r rest (eff r s).1 (eff r s).2.1 (settle (eff r s).2.2) := by
  unfold headPassed at h
  cases e : s.mga.fifo with
  | nil => rw [e] at h; cases h
  | cons x rest =>
    rw [e] at h
    simp only [List.head?_cons, Option.filter_eq_some_iff, Option.some.injEq, Bool.and_eq_true,
      Option.isNone_iff_eq_none] at h
    obtain ⟨rfl, ⟨h1, h2⟩, h3⟩ := h
    exact ⟨rest, rfl, fun eff => by simp [performHead, h1, e, h2, performed, h3]⟩

/-- The same where a part of the outcome comes after the response. -/
theorem performHeadThen_good (row : Row) (effect : Request → State → Performed) (later : Request → State → State → State)
    (s : State) (h : ∀ r, Good s (effect r s).2.2)
    (k : ∀ r, headPassed row s = some r → Good (performHead row effect s) (later r s (performHead row effect s))) :
    Good s (performHeadThen row effect later s) := by
  unfold performHeadThen
  dsimp only
  split
  · rename_i r e
    exact (performHead_good row effect s h).trans (k r e)
  · exact performHead_good row effect s h

theorem readPortConfigWithEffect_good (p : Port) (s : State) : Good s (readPortConfigWithEffect p s).2 := by
  have h := Calm.readPortConfig p s
  unfold readPortConfigWithEffect
  split <;> rename_i e <;> rw [e] at h
  · refine h.good.trans ?_
    unfold portConfigPoisoned
    split
    · exact enterFaulted_good _ _ _
    · exact Good.refl _
  · exact h.good

theorem answerRead_state {α : Type} (form : α → List Byte) (x : Option α × State) : (answerRead form x).2.2 = x.2 := by
  obtain ⟨o, s⟩ := x
  cases o <;> rfl

theorem performReadEntry_good (r : Request) (s : State) : Good s (performReadEntry r s).2.2 := by
  unfold performReadEntry
  split
  · exact Good.refl s
  · rw [answerRead_state]; exact readPortConfigWithEffect_good _ _
  · rw [answerRead_state]; exact (Calm.readTemplate _ _).good
  · rw [answerRead_state]; exact (Calm.readRule _ _).good
  · rw [answerRead_state]; exact (Calm.readClassAction _ _).good
  · rw [answerRead_state]; exact (Calm.readGroup _ _).good
  · exact Good.refl s
  · exact Good.refl s
  · exact Good.refl s
  · exact Good.refl s
  · unfold readProxyEntry
    extract_lets c
    split
    · rw [answerRead_state]; exact (Calm.readProxy _ _).good
    · exact Good.refl s

/-! ### Writes -/

theorem Calm.reloadProbing (p : Port) (s : State) : Calm s (reloadProbing p s) := by
  unfold Machine.reloadProbing
  split
  · exact Calm.modPort _ _ .plain
  · exact Calm.refl s

theorem Calm.portConfigFieldEffect (p : Port) (s : State) (n : Nat) : Calm s (portConfigFieldEffect p s n) := by
  unfold Machine.portConfigFieldEffect
  extract_lets r
  split
  · exact Calm.restartIdle _ _
  · split
    · exact Calm.modPort _ _ .plain
    · exact Calm.refl s
  · split
    · exact (Calm.stopProbing _ _).trans (Calm.modProbe _ _ _)
    · exact Calm.reloadProbing _ _
  · split
    · exact Calm.clearProxies _ _
    · exact Calm.refl s
  · exact Calm.refl s

/-- A stored configuration entry keeps the laws where its draws are in order. -/
theorem writePortConfig_good (p : Port) (c : PortConfig) (s : State) (h : s.Lawful → c.Ordered) :
    Good s (writePortConfig p c s) := by
  refine ⟨rfl, rfl, fun l => ⟨l.ports, l.committed, l.within, fun q => ?_, l.uplink, l.fifo⟩⟩
  show (s.tbm.portConfig.set p (.fresh c))[q].val.Ordered
  by_cases e : p = q
  · subst e; simpa [Protected.fresh] using h l
  · have : p.val ≠ q.val := fun c => e (Fin.ext c)
    simpa [Vector.getElem_set, this] using l.stored q

/-- A refusal of a draw field stands for draws out of order, so a list of written fields that is not refused and names a
draw field has them in order. -/
theorem ordered_of_not_refused {c : PortConfig} {w : List Nat} (h : w.findSome? c.fieldRefusal = none) {n : Nat}
    (hn : n ∈ w) (k : n = 1 ∨ n = 2 ∨ n = 3) : c.Ordered := by
  have := List.findSome?_eq_none_iff.mp h n hn
  rcases k with rfl | rfl | rfl <;>
    · simp only [PortConfig.fieldRefusal] at this
      simp [decide_eq_true_eq] at this
      exact ⟨by omega, by omega⟩

theorem writePortFields_good (p : Port) (w : List Nat) (c : PortConfig) (s : State)
    (h : s.Lawful → w.findSome? c.fieldRefusal = none → c.Ordered) : Good s (writePortFields p w c s).2 := by
  unfold writePortFields
  split
  · exact Good.refl s
  · split
    · exact Good.refl s
    · rename_i hr
      have g : Good s (writePortConfig p c.clamped s) := writePortConfig_good _ _ _ fun l => h l hr
      exact (g.calm (Calm.modPort _ _ .plain)).calm
        (Calm.foldl (fun s n => Calm.portConfigFieldEffect p s n) _ _)

theorem Calm.writeTemplate (i : Fin 48) (v : Template) (s : State) : Calm s (writeTemplate i v s) :=
  Calm.modTbm _ _ fun _ => rfl

theorem Calm.writeTemplateEntry (i : Fin 48) (t : Template) (s : State) : Calm s (writeTemplateEntry i t s).2 := by
  unfold Machine.writeTemplateEntry
  split
  · exact Calm.refl s
  · dsimp only
    split
    · exact (Calm.writeTemplate _ _ _).trans (Calm.reloadProbing _ _)
    · exact Calm.writeTemplate _ _ _

theorem Calm.writeRuleEntry (i : Fin 32) (r : Rule) (s : State) : Calm s (writeRuleEntry i r s).2 := by
  unfold Machine.writeRuleEntry
  split
  · exact Calm.refl s
  · exact Calm.modTbm s (fun t => { t with rule := t.rule.set i (.fresh r) }) fun _ => rfl

theorem Calm.writeClassActionEntry (i : Fin 9) (a : ClassAction) (s : State) :
    Calm s (writeClassActionEntry i a s).2 := by
  unfold Machine.writeClassActionEntry
  split
  · exact Calm.refl s
  · exact Calm.modTbm s (fun t => { t with classAction := t.classAction.set i (.fresh a) }) fun _ => rfl

theorem Calm.rewriteMembers (g : Group) (m : PortSet) (s : State) : Calm s (rewriteMembers g m s) := by
  unfold Machine.rewriteMembers
  split
  · exact ((Calm.breakArm _ _ _).trans (Calm.modArm _ _ _)).trans (Calm.foldl (fun s p => Calm.restartIdle p s) _ _)
  · exact Calm.refl s

theorem Calm.writeGroupFields (g : Group) (w : List Nat) (c : GroupConfig) (s : State) :
    Calm s (writeGroupFields g w c s).2 := by
  unfold Machine.writeGroupFields
  split
  · exact Calm.refl s
  · split
    · exact Calm.refl s
    · split
      · exact Calm.refl s
      · extract_lets t u
        have h : Calm s t := (Calm.modTbm s _ fun _ => rfl).trans (Calm.modGroup _ _ _)
        have k : Calm s u := h.trans (Calm.ite (fun _ => Calm.rewriteMembers _ _ _) fun _ => Calm.refl _)
        dsimp only
        split
        · exact k.trans (Calm.clearArm _ _)
        · exact k

theorem writeLimit_good (d : Domain) (n : Nat) (s : State) : Good s (writeLimit d n s).2 := by
  unfold writeLimit
  split
  · exact Good.refl s
  · split
    · exact Good.refl s
    · exact applyLimit_good _ _ _ (by omega)

theorem Calm.setDeviceField (s : State) (n v : Nat) : Calm s (setDeviceField s n v) := by
  unfold Machine.setDeviceField
  split <;> first
    | exact Calm.modMga _ _ fun h => h
    | exact Calm.applyPassLimit _ _
    | exact Calm.refl s

theorem Calm.writeDevice (f : List (Nat × Nat)) (s : State) : Calm s (writeDevice f s).2 := by
  unfold Machine.writeDevice
  split
  · exact Calm.refl s
  · exact Calm.foldl (fun s (x : Nat × Nat) => Calm.setDeviceField s x.1 x.2) _ _

theorem performWriteEntry_good (r : Request) (s : State) : Good s (performWriteEntry r s).2.2 := by
  unfold performWriteEntry
  extract_lets bs
  split
  · exact writePortFields_good _ _ _ _ fun _ h => ordered_of_not_refused h (n := 1) (by decide) (.inl rfl)
  · exact (Calm.writeTemplateEntry _ _ _).good
  · exact (Calm.writeRuleEntry _ _ _).good
  · exact (Calm.writeClassActionEntry _ _ _).good
  · exact (Calm.writeGroupFields _ _ _ _).good
  · exact writeLimit_good _ _ _
  · exact (Calm.writeDevice _ _).good
  · exact Good.refl s

/-- A patch keeps the laws where its read and its write do. -/
theorem patchRead_good {α : Type} (write : α → State → Status × State) (x : Option α × State) {s : State}
    (h : Good s x.2) (hw : ∀ e, x.1 = some e → Good x.2 (write e x.2).2) : Good s (patchRead write x).2.2 := by
  obtain ⟨o, t⟩ := x
  cases o with
  | none => exact h
  | some e => exact h.trans (hw e rfl)

theorem setField_ordered {c : PortConfig} (h : c.Ordered) {n : Nat} (v : Nat)
    (hn : ¬(n = 1 ∨ n = 2 ∨ n = 3)) : (c.setField n v).Ordered := by
  unfold PortConfig.setField
  split <;> first | exact h | exact absurd (by omega) hn

theorem performPatchField_good (r : Request) (s : State) : Good s (performPatchField r s).2.2 := by
  unfold performPatchField
  extract_lets n v i
  split
  · refine patchRead_good _ _ (readPortConfigWithEffect_good _ _) fun c hc => writePortFields_good _ _ _ _ fun _ hr => ?_
    by_cases hn : n = 1 ∨ n = 2 ∨ n = 3
    · exact ordered_of_not_refused hr (List.mem_singleton.mpr rfl) hn
    · refine setField_ordered ?_ v hn
      have : (readPortConfig r.port s).1 = some c := by
        unfold readPortConfigWithEffect at hc
        generalize readPortConfig r.port s = x at hc
        obtain ⟨o, t⟩ := x
        cases o with
        | none => cases hc
        | some d => exact hc
      rename_i l
      refine readPortConfig_ordered_of_stored this ?_
      have k := (Calm.readPortConfig r.port s).stored r.port
      have hl := l.stored r.port
      have e2 : (readPortConfigWithEffect r.port s).2 = (readPortConfig r.port s).2 := by
        unfold readPortConfigWithEffect
        generalize readPortConfig r.port s = x at this
        obtain ⟨o, t⟩ := x
        cases o with
        | none => cases this
        | some d => rfl
      rw [e2, k] at hl
      exact hl
  · exact patchRead_good _ _ (Calm.readTemplate _ _).good fun _ _ => (Calm.writeTemplateEntry _ _ _).good
  · exact patchRead_good _ _ (Calm.readRule _ _).good fun _ _ => (Calm.writeRuleEntry _ _ _).good
  · exact patchRead_good _ _ (Calm.readClassAction _ _).good fun _ _ => (Calm.writeClassActionEntry _ _ _).good
  · exact patchRead_good _ _ (Calm.readGroup _ _).good fun _ _ => (Calm.writeGroupFields _ _ _ _).good
  · exact writeLimit_good _ _ _
  · exact (Calm.writeDevice _ _).good
  · exact Good.refl s

/-! ### Port and group commands -/

/-- Taking a configuration as read at a port at rest keeps the laws: its charge is 0 whatever its draws are. -/
theorem takeConfig_good (p : Port) (c : PortConfig) (s : State) (h : (s.port p).state.resting = true)
    (ho : s.Lawful → c.Ordered) : Good s (takeConfig p c s) := by
  refine ⟨rfl, rfl, fun l => Lawful.modPort l p rfl ?_⟩
  have lp := l.ports p
  refine ⟨?_, ho l, lp.restOff, lp.linkFeed, lp.txBound⟩
  have := lp.charged
  show (s.port p).charge = stateCharge _ (s.port p).state
  rw [this]
  cases e : (s.port p).state <;> first | rfl | exact absurd h (by rw [e]; decide)

theorem enablePort_good (p : Port) (s : State) : Good s (enablePort p s).2 := by
  unfold enablePort
  split
  · exact Good.refl s
  · rename_i hd
    have hd : (s.port p).state = .disabled := by simpa using hd
    have c := Calm.readPortConfig p s
    have ho := fun (l : s.Lawful) (c : PortConfig) (h : (readPortConfig p s).1 = some c) => readPortConfig_ordered l h
    generalize readPortConfig p s = x at c ho
    obtain ⟨o, t⟩ := x
    cases o with
    | none => exact c.good
    | some cfg =>
      dsimp only
      split
      · exact c.good
      · have g : Good s (takeConfig p cfg t) :=
          ⟨c.pending, c.phase, fun l => (takeConfig_good p cfg t (by rw [c.state, hd]; rfl)
            fun _ => ho l _ rfl).lawful (c.lawful l)⟩
        exact (g.calm (Calm.modPort _ p .plain)).trans (enterAsleep_good _ _)

theorem disablePort_good (p : Port) (s : State) : Good s (disablePort p s).2 := by
  unfold disablePort
  split
  · exact Good.refl s
  · exact enterDisabled_good _ _

theorem Calm.parkPort (p : Port) (s : State) : Calm s (parkPort p s).2 := by
  unfold Machine.parkPort
  extract_lets r t
  split
  · exact Calm.refl s
  · have h : Calm s t := Calm.modPort s p .plain
    dsimp only
    split
    · refine h.trans (Calm.foldl (fun s g => ?_) _ _)
      split
      · exact Calm.markUnreachable _ _ _
      · exact Calm.refl s
    · exact h

theorem unparkPort_good (p : Port) (s : State) : Good s (unparkPort p s).2 := by
  unfold unparkPort
  split
  · have h : Good s (s.modPort p fun r => { r with park := false }) := (Calm.modPort s p .plain).good
    dsimp only
    split
    · exact h.trans (scan_good _)
    · exact h
  · exact Good.refl s

theorem Calm.pinPort (p : Port) (s : State) : Calm s (pinPort p s).2 := by
  unfold Machine.pinPort
  extract_lets r
  split
  · exact Calm.refl s
  · split
    · exact Calm.refl s
    · exact (Calm.modPort s p .plain).trans (Calm.restartIdle _ _)

theorem Calm.unpinPort (p : Port) (s : State) : Calm s (unpinPort p s).2 := by
  unfold Machine.unpinPort
  split
  · exact (Calm.modPort s p .plain).trans (Calm.restartIdle _ _)
  · exact Calm.refl s

theorem wakePort_good (p : Port) (s : State) : Good s (wakePort p s).2 := by
  unfold wakePort
  extract_lets r
  split <;> (try split) <;> dsimp only <;> (try split)
  all_goals first | exact Good.refl s | exact takeNeed_good _ _ _

theorem afterWake_good (p : Port) (s t : State) : Good t (afterWake p s t) := by
  unfold afterWake
  split
  · exact (takeNeed_good _ _ _).trans (settle_good _)
  · exact Good.refl t

theorem pausePort_good (p : Port) (s : State) : Good s (pausePort p s).2 := by
  unfold pausePort
  split
  · exact Good.refl s
  · rename_i h
    have g := (tryPause_good p s (by simpa using h)).1
    split <;> rename_i e <;> rw [e] at g <;> exact g

/-- A PAUSE whose frame is lost leaves its port PAUSING, and answers OK (R24, R39). -/
theorem pausePort_lost {p : Port} {s : State} (h : pauseLost p s = true) :
    pausePort p s = (.ok, (tryPause p s).2) ∧ ((tryPause p s).2.port p).state = .pausing := by
  simp only [pauseLost, Bool.and_eq_true, decide_eq_true_eq] at h
  refine ⟨?_, (tryPause_good p s h.1).2 h.2⟩
  unfold pausePort
  rw [if_neg (by simp [h.1])]
  split <;> rename_i e <;> rw [e] at h ⊢ <;> first | rfl | exact absurd h.2 (by simp)

theorem afterPause_good (p : Port) (s t : State) (h : pauseLost p s = true → (t.port p).state = .pausing) :
    Good t (afterPause p s t) := by
  unfold afterPause
  split
  · rename_i k
    exact (pauseFailed_good _ _ (h k)).trans (settle_good _)
  · exact Good.refl t

/-- WAKE keeps the laws, with what follows its response. -/
theorem performWake_good (s : State) : Good s (performPortThen .wake wakePort afterWake s) :=
  performHeadThen_good _ _ _ _ (fun _ => wakePort_good _ _) fun _ _ => afterWake_good _ _ _

/-- PAUSE keeps the laws, with what follows its response. -/
theorem performPause_good (s : State) : Good s (performPortThen .pause pausePort afterPause s) := by
  refine performHeadThen_good _ _ _ _ (fun _ => pausePort_good _ _) fun r hr => afterPause_good _ _ _ fun hl => ?_
  obtain ⟨rest, -, h⟩ := performHead_passed hr
  obtain ⟨h1, h2⟩ := pausePort_lost hl
  simp only [h, answered, finishRequest, h1, State.modMga_port]
  have c := Calm.respond r .ok [] (settle (tryPause r.port s).2)
  rw [c.state]
  exact settle_staysPausing _ _ h2

theorem sleepPort_good (p : Port) (s : State) : Good s (sleepPort p s).2 := by
  unfold sleepPort
  extract_lets st
  split
  · exact enterAsleep_good _ _
  · exact Good.refl s

theorem clearPort_good (p : Port) (s : State) : Good s (clearPort p s).2 := by
  unfold clearPort
  split
  · exact Good.refl s
  · rename_i hd
    have hd : (s.port p).state = .faulted := by simpa using hd
    have c := Calm.readPortConfig p s
    have ho := fun (l : s.Lawful) (c : PortConfig) (h : (readPortConfig p s).1 = some c) => readPortConfig_ordered l h
    generalize readPortConfig p s = x at c ho
    obtain ⟨o, t⟩ := x
    cases o with
    | none => exact c.good
    | some cfg =>
      have g : Good s (takeConfig p cfg t) :=
        ⟨c.pending, c.phase, fun l => (takeConfig_good p cfg t (by rw [c.state, hd]; rfl)
          fun _ => ho l _ rfl).lawful (c.lawful l)⟩
      exact g.trans (enterAsleep_good _ _)

theorem checkedArm_good (g : Group) (take : GroupConfig → State → State) (s : State)
    (h : ∀ c s, Good s (take c s)) : Good s (checkedArm g take s).2.2 := by
  have c := Calm.readGroup g s
  unfold checkedArm
  split <;> rename_i e <;> rw [e] at c
  · exact c.good
  · split
    · exact c.good
    · exact c.good.trans (h _ _)

theorem performArm_good (g : Group) (s : State) : Good s (performArm g s).2.2 :=
  checkedArm_good _ _ _ fun c s => (Calm.armGroup g c s).good.trans (rendezvousNeeds_good _ _)

theorem performPrepare_good (g : Group) (lead : Nat) (s : State) : Good s (performPrepare g lead s).2.2 := by
  unfold performPrepare
  split
  · exact Good.refl s
  · exact checkedArm_good _ _ _ fun c s => prepareGroup_good g c lead s

theorem performCancel_good (g : Group) (s : State) : Good s (performCancel g s).2.2 := by
  unfold performCancel
  split
  · exact (Calm.dropTrigger _ _ _).good
  · exact Good.refl s

theorem performReadCounters_good (r : Request) (s : State) : Good s (performReadCounters r s).2.2 := by
  unfold performReadCounters
  split
  · exact (Calm.modDevice s fun _ => DeviceCounts.zero).good
  · exact (Calm.modCounts s r.port fun _ => Counts.zero).good

theorem performRestart_good (s : State) : Good s (performRestart s) := by
  unfold performRestart
  split
  · split
    · exact Good.refl s
    · rename_i r rest hf
      have hl : s.Lawful → rest.length ≤ Config.fifoDepth := fun l => by
        have := l.fifo
        rw [hf] at this
        simp only [List.length_cons] at this
        omega
      split
      · split
        · rename_i st _
          exact ⟨(Calm.respond r st [] s).pending, (Calm.respond r st [] s).phase,
            fun l => (Calm.finishRequest st [] (hl l)).lawful l⟩
        · have c := Calm.respond r .ok [] s
          generalize respond r .ok [] s = x at c
          obtain ⟨placed, t⟩ := x
          exact ⟨c.pending, c.phase, fun l => (Calm.modMga _ _ fun _ => hl l).lawful (c.lawful l)⟩
      · exact Good.refl s
  · exact Good.refl s

/-! ### Lines, expiries, scrubbing -/

theorem whileRunning_good (effect : State → State) (s : State) (h : Good s (effect s)) :
    Good s (whileRunning effect s) := by
  unfold whileRunning
  split
  · exact h.trans (settle_good _)
  · exact Good.refl s

theorem whenDue_good (due : State → Bool) (effect : State → State) (s : State) (h : due s = true → Good s (effect s)) :
    Good s (whenDue due effect s) := by
  unfold whenDue
  split
  · rename_i k; exact h k
  · exact Good.refl s

theorem Calm.linkDown (p : Port) (s : State) : Calm s (linkDown p s) :=
  Calm.modPort _ _ ⟨rfl, rfl, rfl, .inl rfl, .inr (.inl rfl), fun h => h⟩

theorem Calm.linkUp (p : Port) (s : State) : Calm s (linkUp p s) := by
  unfold Machine.linkUp
  split
  · rename_i h
    exact Calm.modPort _ _ ⟨rfl, rfl, rfl, .inl rfl, .inr (.inr h), fun h => h⟩
  · exact Calm.refl s

theorem sampleFeedFault_good (p : Port) (level : Bool) (s : State) : Good s (sampleFeedFault p level s) := by
  have h : Good s (s.modPort p fun r => { r with feedFaultIn := level }) := (Calm.modPort s p .plain).good
  unfold sampleFeedFault
  dsimp only
  split
  · exact h.trans (enterFaulted_good _ _ _)
  · exact h

theorem senseEdge_good (p : Port) (s : State) : Good s (senseEdge p s) := by
  have h : Good s (s.modPort p fun r => { r with senseFilter := none }) := (Calm.modPort s p .plain).good
  unfold senseEdge
  dsimp only
  split
  · exact h.trans (takeNeed_good _ _ _)
  · exact h.calm (Calm.restartIdle _ _)

theorem idleOver_good (p : Port) (s : State) (h : (s.port p).state = .ready) : Good s (idleOver p s) := by
  have g := tryPause_good p s h
  unfold idleOver
  split <;> rename_i e <;> rw [e] at g
  · exact g.1.trans (enterAsleep_good _ _)
  · exact g.1
  · exact g.1
  · exact (g.1.trans (settle_good _)).trans (pauseFailed_good _ _ (settle_staysPausing _ _ (g.2 rfl)))

theorem phaseOver_state {st : PortState} {k : OpKind} {ph : Phase} {r : PortRec} (h : phaseOver st k ph r = true) :
    r.state = st := by
  simp only [phaseOver, Bool.and_eq_true, decide_eq_true_eq] at h
  exact h.1.1.1

theorem confirmOver_good (p : Port) (s : State) (h : (s.port p).state = .pausing) : Good s (confirmOver p s) := by
  unfold confirmOver
  extract_lets r
  split
  · exact enterPaused_good _ _ h
  · exact pauseFailed_good _ _ h

theorem visitEntry_good (e : ScrubEntry) (s : State) : Good s (visitEntry e s) := by
  cases e with
  | portConfig p => exact readPortConfigWithEffect_good _ _
  | template i => exact (Calm.readTemplate _ _).good
  | rule i => exact (Calm.readRule _ _).good
  | classAction i => exact (Calm.readClassAction _ _).good
  | group g => exact (Calm.readGroup _ _).good
  | proxy i => exact (Calm.readProxy _ _).good

theorem visitNext_good (s : State) : Good s (visitNext s) := by
  unfold visitNext
  split
  · exact Good.refl s
  · rename_i n _
    generalize scrubPass[n]? = e
    have h : Calm s (s.modTbm fun t => { t with scrubNext := if n + 1 < scrubPass.length then some (n + 1) else none }) :=
      Calm.modTbm s _ fun _ => rfl
    cases e with
    | none => exact h.good
    | some e => exact h.good.trans (visitEntry_good _ _)

end Sys2Proof.Machine
end

