-- ==== Sys2Proof/Laws/WalkResets.lean ====
section
/-! SUPPORT. The soft restart, the full reset and the tick keep the laws of the part. -/

namespace Sys2Proof.Machine

set_option Elab.async false

/-! ### Full reset (R169) -/

theorem Calm.abandonReception (e : EtherPort) (s : State) : Calm s (abandonReception e s) := by
  unfold Machine.abandonReception
  dsimp only
  split
  · exact (Calm.setReceiving _ _ _).trans (Calm.dropRef _ _)
  · exact Calm.setReceiving _ _ _
  · exact Calm.setReceiving _ _ _

theorem Calm.haltPort (p : Port) (s : State) : Calm s (haltPort p s) :=
  (((Calm.feedOff p s).trans (Calm.endOperation p _)).thenPort .plain).trans (Calm.abandonReception _ _)

theorem Calm.haltGroup (g : Group) (s : State) : Calm s (haltGroup g s) := by
  unfold Machine.haltGroup
  dsimp only
  split
  · exact (Calm.dropRef _ _).trans (Calm.modGroup _ _ _)
  · exact Calm.modGroup _ _ _

/-- The phase of the part and the handed-on work are no matter of the laws. -/
theorem lawful_withPhase {s : State} (l : s.Lawful) (ph : PartPhase) (w : List Work) :
    ({ s with phase := ph, owed := w } : State).Lawful :=
  ⟨l.ports, l.committed, l.within, l.stored, l.uplink, l.fifo⟩

theorem haltAll_lawful {s : State} (l : s.Lawful) : (haltAll s).Lawful := by
  have h1 : ∀ t : State, Calm t (t.modMga fun m => { m with restart := none }) := fun t => Calm.modMga t _ fun h => h
  have h2 : ∀ t : State, Calm t (t.modAdm fun a => { a with schedule := [] }) := fun t => Calm.modAdm t _
  have h3 : ∀ t : State, Calm t (t.modUplink fun u => { u with egress := { u.egress with sending := none } }) :=
    fun t => Calm.modUplink t _ fun h => h
  unfold haltAll
  refine lawful_withPhase (Calm.lawful (s := s) ?_ l) _ _
  refine Calm.trans ?_ (h1 _)
  refine Calm.trans ?_ (h2 _)
  refine Calm.trans ?_ (h3 _)
  refine Calm.trans ?_ (Calm.abandonReception _ _)
  exact (Calm.foldl (fun s p => Calm.haltPort p s) _ _).trans (Calm.foldl (fun s g => Calm.haltGroup g s) _ _)

theorem freshPort_lawful (r : PortRec) : (freshPort r).Lawful :=
  ⟨rfl, ⟨Nat.le_refl _, Nat.le_refl _⟩, fun _ => rfl, fun h => h, Nat.zero_le _⟩

theorem sum_map_zero {α : Type} (l : List α) (f : α → Nat) (h : ∀ x, f x = 0) : (l.map f).sum = 0 := by
  induction l with
  | nil => rfl
  | cons x l ih => simp [h x, ih]

theorem releaseReset_lawful {s : State} (l : s.Lawful) : (releaseReset s).Lawful := by
  have hp : ∀ p, (releaseReset s).port p = freshPort (s.port p) := fun p => by
    simp [releaseReset, State.port]
  have hc : ∀ d : Domain, (releaseReset s).adm.committed[d] = 0 := fun d => by
    simp [releaseReset, State.reset, Adm.reset]
  refine ⟨fun p => by rw [hp]; exact freshPort_lawful _, fun d => ?_, fun d => ?_, l.stored, Nat.zero_le _, Nat.zero_le _⟩
  · rw [hc, domainCharge, sum_map_zero]
    intro p
    rw [hp]; rfl
  · rw [hc]; exact Nat.zero_le _

theorem endInitialisation_lawful {s : State} (l : s.Lawful) : (endInitialisation s).Lawful := by
  refine ⟨l.ports, l.committed, l.within, fun p => ?_, l.uplink, l.fifo⟩
  show ((Vector.replicate 16 (Protected.fresh PortConfig.default) : Vector (Protected PortConfig 6) 16)[p]).val.Ordered
  have : (Vector.replicate 16 (Protected.fresh PortConfig.default) : Vector (Protected PortConfig 6) 16)[p] =
      .fresh PortConfig.default := by simp
  rw [this]
  exact ⟨Nat.le_refl _, Nat.le_refl _⟩

/-! ### Soft restart (R158) -/

theorem restartPort_lawful {s : State} {p : Port} (l : (s.port p).Lawful) : (restartPort s p).Lawful := by
  refine ⟨rfl, l.ordered, ?_, l.linkFeed, Nat.zero_le _⟩
  intro h
  have h' : (restartState (s.port p)).resting = true := h
  show (s.port p).feed = false
  by_cases hf : (s.port p).feed = true
  · exfalso
    unfold restartState at h'
    cases e : (s.port p).state <;> simp only [e, hf, if_true] at h' <;> first
      | exact absurd h' (by decide)
      | exact absurd (l.restOff (by rw [e]; rfl)) (by simp [hf])
  · simpa using hf

/-- The soft restart raises no charge. -/
theorem restartPort_charge {s : State} {p : Port} (l : (s.port p).Lawful) :
    (restartPort s p).charge ≤ (s.port p).charge := by
  obtain ⟨h1, h2⟩ := l.ordered
  rw [l.charged]
  show stateCharge _ (restartState (s.port p)) ≤ _
  unfold restartState
  cases e : (s.port p).state <;> simp only [stateCharge] <;> (try split) <;> omega

theorem sum_map_le {α : Type} (l : List α) (f g : α → Nat) (h : ∀ x, f x ≤ g x) : (l.map f).sum ≤ (l.map g).sum := by
  induction l with
  | nil => exact Nat.le_refl _
  | cons x l ih => simp only [List.map_cons, List.sum_cons]; exact Nat.add_le_add (h x) ih

theorem softRestart_port (s : State) (p : Port) : (softRestart s).port p = restartPort s p := by
  simp [softRestart, restartBlocks, State.port]

theorem softRestart_committed (s : State) (d : Domain) :
    (softRestart s).adm.committed[d] = domainCharge (softRestart s) d := by
  have h : domainCharge (softRestart s) d = domainCharge (restartBlocks s) d :=
    domainCharge_congr (fun p => by simp [softRestart]) d
  rw [h]
  simp [softRestart]

theorem softRestart_lawful {s : State} (l : s.Lawful) : (softRestart s).Lawful := by
  refine ⟨fun p => by rw [softRestart_port]; exact restartPort_lawful (l.ports p), softRestart_committed s,
    fun d => ?_, l.stored, Nat.zero_le _, Nat.zero_le _⟩
  rw [softRestart_committed]
  refine Nat.le_trans ?_ (Nat.le_trans (Nat.le_of_eq (l.committed d).symm) (l.within d))
  refine sum_map_le _ _ _ fun p => ?_
  rw [softRestart_port]
  exact restartPort_charge (l.ports p)

/-! ### The tick (R170) -/

theorem tickPort_lawful {r : PortRec} (h : Bool) (l : r.Lawful) : (tickPort h r).Lawful :=
  ⟨l.charged, l.ordered, l.restOff, l.linkFeed, l.txBound⟩

theorem tick_port (s : State) (p : Port) : (tick s).port p = tickPort (held s p) (s.port p) := by
  show (Vector.ofFn fun p => tickPort (held s p) (s.port p))[p] = _
  simp

theorem tick_lawful {s : State} (l : s.Lawful) : (tick s).Lawful := by
  refine ⟨fun p => by rw [tick_port]; exact tickPort_lawful _ (l.ports p), fun d => ?_, l.within, l.stored, ?_, l.fifo⟩
  · exact (l.committed d).trans (domainCharge_congr (fun p => by rw [tick_port]; rfl) d).symm
  · show (if _ then _ else _ : Uplink).egress.queue.length ≤ _
    split
    · exact l.uplink
    · exact l.uplink

theorem passTime_lawful {s : State} (l : s.Lawful) : (passTime s).Lawful := by
  have h : ∀ (t : State) (q : List Instr), t.Lawful → ({ t with pending := q } : State).Lawful := fun t q l =>
    ⟨l.ports, l.committed, l.within, l.stored, l.uplink, l.fifo⟩
  unfold passTime
  split
  · split
    · exact h _ _ (tick_lawful l)
    · exact h _ _ l
  · exact l

end Sys2Proof.Machine
end

