-- ==== Sys2Proof/Laws/Exec.lean ====
section
/-! SUPPORT. What exec answers for each command: one equation for each constructor. No command stops. Last,
what the lists of due commands hold. -/

namespace Sys2Proof.Machine

set_option Elab.async false

/-- The next state of an answer. -/
theorem next_eq {a b : State} (h : (Host.Outcome.next a : Host.Outcome State Fault Refusal) = .next b) : b = a :=
  (Host.Outcome.next.inj h).symm

theorem exec_receptionStart (e : EtherPort) (s : State) :
    exec (.receptionStart e) s =
      .next (whileRunning (startReception e) s) := rfl

theorem exec_uplinkFrameReceived (bytes : List Byte) (goodCheck : Bool) (s : State) :
    exec (.uplinkFrameReceived bytes goodCheck) s =
      .next (whileRunning (receiveUplink bytes goodCheck) s) := rfl

theorem exec_cameraFrameReceived (p : Port) (bytes : List Byte) (goodCheck : Bool) (s : State) :
    exec (.cameraFrameReceived p bytes goodCheck) s =
      .next (whileRunning (receiveCamera p bytes goodCheck) s) := rfl

theorem exec_identify (s : State) :
    exec .identify s =
      .next (performHead (.op .identify) (fun _ s => (.ok, identityForm s.mga.factory, s)) s) := rfl

theorem exec_readEntry (s : State) :
    exec .readEntry s =
      .next (performHead (.op .readEntry) performReadEntry s) := rfl

theorem exec_writeEntry (s : State) :
    exec .writeEntry s =
      .next (performHead (.op .writeEntry) performWriteEntry s) := rfl

theorem exec_patchField (s : State) :
    exec .patchField s =
      .next (performHead (.op .patchField) performPatchField s) := rfl

theorem exec_enable (s : State) :
    exec .enable s =
      .next (performPort .enable enablePort s) := rfl

theorem exec_disable (s : State) :
    exec .disable s =
      .next (performPort .disable disablePort s) := rfl

theorem exec_park (s : State) :
    exec .park s =
      .next (performPort .park parkPort s) := rfl

theorem exec_unpark (s : State) :
    exec .unpark s =
      .next (performPort .unpark unparkPort s) := rfl

theorem exec_pin (s : State) :
    exec .pin s =
      .next (performPort .pin pinPort s) := rfl

theorem exec_unpin (s : State) :
    exec .unpin s =
      .next (performPort .unpin unpinPort s) := rfl

theorem exec_wake (s : State) :
    exec .wake s =
      .next (performPortThen .wake wakePort afterWake s) := rfl

theorem exec_pause (s : State) :
    exec .pause s =
      .next (performPortThen .pause pausePort afterPause s) := rfl

theorem exec_sleep (s : State) :
    exec .sleep s =
      .next (performPort .sleep sleepPort s) := rfl

theorem exec_clear (s : State) :
    exec .clear s =
      .next (performPort .clear clearPort s) := rfl

theorem exec_arm (s : State) :
    exec .arm s =
      .next (performGroup .arm (fun g _ s => performArm g s) s) := rfl

theorem exec_disarm (s : State) :
    exec .disarm s =
      .next (performGroup .disarm (fun g _ s => performDisarm g s) s) := rfl

theorem exec_prepare (s : State) :
    exec .prepare s =
      .next (performGroup .prepare (fun g r s => performPrepare g r.lead s) s) := rfl

theorem exec_cancel (s : State) :
    exec .cancel s =
      .next (performGroup .cancel (fun g _ s => performCancel g s) s) := rfl

theorem exec_readEvents (s : State) :
    exec .readEvents s =
      .next (performHead (.op .readEvents) (fun _ s => performReadEvents s) s) := rfl

theorem exec_setEventMask (s : State) :
    exec .setEventMask s =
      .next (performHead (.op .setEventMask) performSetMask s) := rfl

theorem exec_readCounters (s : State) :
    exec .readCounters s =
      .next (performHead (.op .readCounters) performReadCounters s) := rfl

theorem exec_restart (s : State) :
    exec .restart s =
      .next (performRestart s) := rfl

theorem exec_softRestart (s : State) :
    exec .softRestart s =
      .next (if restartDue s then softRestart s else s) := rfl

theorem exec_transmissionStart (e : EtherPort) (s : State) :
    exec (.transmissionStart e) s =
      .next (whileRunning (startTransmission e) s) := rfl

theorem exec_transmissionEnd (e : EtherPort) (s : State) :
    exec (.transmissionEnd e) s =
      .next (whileRunning (endTransmission e) s) := rfl

theorem exec_releaseStep (p : Port) (s : State) :
    exec (.releaseStep p) s =
      .next (whileRunning (stepRelease p) s) := rfl

theorem exec_admissionScan (s : State) :
    exec .admissionScan s =
      .next (whileRunning scan s) := rfl

theorem exec_triggerReevaluation (g : Group) (s : State) :
    exec (.triggerReevaluation g) s =
      .next (whileRunning (reevaluate g) s) := rfl

theorem exec_cameraLinkDown (p : Port) (s : State) :
    exec (.cameraLinkDown p) s =
      .next (linkDown p s) := rfl

theorem exec_cameraLinkUp (p : Port) (s : State) :
    exec (.cameraLinkUp p) s =
      .next (linkUp p s) := rfl

theorem exec_uplinkLinkDown (s : State) :
    exec .uplinkLinkDown s =
      .next (uplinkDown s) := rfl

theorem exec_uplinkLinkUp (s : State) :
    exec .uplinkLinkUp s =
      .next (uplinkUp s) := rfl

theorem exec_uplinkLinkTimerExpiry (s : State) :
    exec .uplinkLinkTimerExpiry s =
      .next (whileRunning (whenDue uplinkExpired uplinkOver) s) := rfl

theorem exec_senseInputRise (p : Port) (s : State) :
    exec (.senseInputRise p) s =
      .next (senseRise p s) := rfl

theorem exec_senseInputFall (p : Port) (s : State) :
    exec (.senseInputFall p) s =
      .next (senseFall p s) := rfl

theorem exec_senseFilterExpiry (p : Port) (s : State) :
    exec (.senseFilterExpiry p) s =
      .next (whileRunning (whenDue (senseQualified p) (senseEdge p)) s) := rfl

theorem exec_feedFaultAsserted (p : Port) (level : Bool) (s : State) :
    exec (.feedFaultAsserted p level) s =
      .next (if s.phase = .running then settle (sampleFeedFault p level s) else s.modPort p fun r => { r with feedFaultIn := level }) := rfl

theorem exec_resetAsserted (s : State) :
    exec .resetAsserted s =
      .next (haltAll s) := rfl

theorem exec_resetReleased (s : State) :
    exec .resetReleased s =
      .next (if s.phase = .inReset then releaseReset s else s) := rfl

theorem exec_tableInitialisationEnd (s : State) :
    exec .tableInitialisationEnd s =
      .next (if s.phase = .initialising then endInitialisation s else s) := rfl

theorem exec_idleTimerExpiry (p : Port) (s : State) :
    exec (.idleTimerExpiry p) s =
      .next (whileRunning (whenDue (idleExpired p) (idleOver p)) s) := rfl

theorem exec_deepIdleExpiry (p : Port) (s : State) :
    exec (.deepIdleExpiry p) s =
      .next (whileRunning (whenDue (deepIdleExpired p) (enterAsleep p)) s) := rfl

theorem exec_linkTimerExpiry (p : Port) (s : State) :
    exec (.linkTimerExpiry p) s =
      .next (whileRunning (whenDue (linkExpired p) (enterFaulted p .linkLost)) s) := rfl

theorem exec_coldBootWindowExpiry (p : Port) (s : State) :
    exec (.coldBootWindowExpiry p) s =
      .next (whileRunning (whenDue (coldWindowOver p) (coldAttemptFailed p)) s) := rfl

theorem exec_attemptWindowExpiry (p : Port) (s : State) :
    exec (.attemptWindowExpiry p) s =
      .next (whileRunning (whenDue (attemptWindowOver p) (resumeAttemptFailed p)) s) := rfl

theorem exec_spacingExpiry (p : Port) (s : State) :
    exec (.spacingExpiry p) s =
      .next (whileRunning (whenDue (spacingOver p) (startAttempt p)) s) := rfl

theorem exec_offHoldExpiry (p : Port) (s : State) :
    exec (.offHoldExpiry p) s =
      .next (whileRunning (whenDue (offHoldDue p) (offHoldOver p)) s) := rfl

theorem exec_pulseCountdownExpiry (p : Port) (s : State) :
    exec (.pulseCountdownExpiry p) s =
      .next (whileRunning (whenDue (pulseDue p) (pulseOver p)) s) := rfl

theorem exec_pauseConfirmWindowExpiry (p : Port) (s : State) :
    exec (.pauseConfirmWindowExpiry p) s =
      .next (whileRunning (whenDue (confirmDue p) (confirmOver p)) s) := rfl

theorem exec_probeIntervalExpiry (p : Port) (s : State) :
    exec (.probeIntervalExpiry p) s =
      .next (whileRunning (whenDue (probeDue p) (probeIntervalOver p)) s) := rfl

theorem exec_scheduleEntryDue (p : Port) (s : State) :
    exec (.scheduleEntryDue p) s =
      .next (whileRunning (whenDue (scheduleExpired p) (scheduleDue p)) s) := rfl

theorem exec_rendezvousWindowExpiry (g : Group) (s : State) :
    exec (.rendezvousWindowExpiry g) s =
      .next (whileRunning (whenDue (windowDue g) (windowOver g)) s) := rfl

theorem exec_armHoldExpiry (g : Group) (s : State) :
    exec (.armHoldExpiry g) s =
      .next (whileRunning (whenDue (holdDue g) (holdOver g)) s) := rfl

theorem exec_preparationTargetExpiry (g : Group) (s : State) :
    exec (.preparationTargetExpiry g) s =
      .next (whileRunning (whenDue (targetDue g) (targetOver g)) s) := rfl

theorem exec_scrubPassStart (s : State) :
    exec .scrubPassStart s =
      .next (whileRunning (whenDue passDue startPass) s) := rfl

theorem exec_scrubVisit (s : State) :
    exec .scrubVisit s =
      .next (whileRunning visitNext s) := rfl

theorem exec_unknownOpRequest (s : State) :
    exec .unknownOpRequest s =
      .next (performHead .unknown (fun _ s => answer .unknownOp s) s) := rfl

/-- What stands in one part of the list of due commands. -/
theorem mem_dueOf {α : Type} (xs : List α) (due : α → State → Bool) (command : α → Instr) (s : State) (i : Instr) :
    i ∈ dueOf xs due command s ↔ ∃ x ∈ xs, due x s = true ∧ command x = i := by
  simp [dueOf, List.mem_map, List.mem_filter, and_assoc]

end Sys2Proof.Machine
end

