-- ==== Sys2Proof/Laws/Owed.lean ====
section
/-! SUPPORT. Which operations hand nothing on (log 2): they leave the owed work as it is, so that there is nothing for
`settle` to do after them. -/

namespace Sys2Proof.Machine

set_option Elab.async false

/-- With nothing handed on there is nothing to do. -/
theorem settle_of_owed {s : State} (h : s.owed = []) : settle s = s := by
  have : settleUpTo (4095 + 1) s = s := by rw [settleUpTo, h]
  exact this

/-- A running part takes the effect of a command, and what follows is settled. -/
theorem whileRunning_of_running {e : State → State} {s : State} (h : s.phase = .running) :
    whileRunning e s = settle (e s) := by simp [whileRunning, h]

/-- A running part takes an effect that hands nothing on. -/
theorem whileRunning_of_owed {e : State → State} {s : State} (h : s.phase = .running) (k : (e s).owed = []) :
    whileRunning e s = e s := by rw [whileRunning_of_running h, settle_of_owed k]

@[simp] theorem setReceiving_owed (s : State) (e : EtherPort) (r : Reception) : (s.setReceiving e r).owed = s.owed := by
  cases e <;> rfl

@[simp] theorem modEgress_owed (s : State) (e : EtherPort) (f : Egress → Egress) : (s.modEgress e f).owed = s.owed := by
  cases e <;> rfl

@[simp] theorem modCounts_owed (s : State) (p : Port) (f : Counts → Counts) : (s.modCounts p f).owed = s.owed := rfl

@[simp] theorem modDevice_owed (s : State) (f : DeviceCounts → DeviceCounts) : (s.modDevice f).owed = s.owed := rfl

@[simp] theorem modArm_owed (s : State) (g : Group) (f : ArmRecord → ArmRecord) : (s.modArm g f).owed = s.owed := rfl

@[simp] theorem modSlot_owed (s : State) (g : Group) (f : Slot → Slot) : (s.modSlot g f).owed = s.owed := rfl

@[simp] theorem countDrop_owed (p : Port) (c : DropCause) (s : State) : (countDrop p c s).owed = s.owed := rfl

@[simp] theorem countUnknown_owed (s : State) : (countUnknown s).owed = s.owed := rfl

@[simp] theorem countForwardedDown_owed (p : Port) (s : State) : (countForwardedDown p s).owed = s.owed := rfl

@[simp] theorem addRef_owed (c : CellNo) (s : State) : (addRef c s).owed = s.owed := rfl

@[simp] theorem storeCell_owed (c : CellNo) (bs : List Byte) (s : State) : (storeCell c bs s).owed = s.owed := rfl

@[simp] theorem dropRef_owed (c : CellNo) (s : State) : (dropRef c s).owed = s.owed := by
  unfold dropRef; dsimp only; split
  · rfl
  · split <;> rfl

@[simp] theorem appendTx_owed (e : EtherPort) (x : TxEntry) (s : State) : (appendTx e x s).owed = s.owed := by
  simp [appendTx]

@[simp] theorem originate_owed (e : EtherPort) (bs : List Byte) (s : State) : (originate e bs s).2.owed = s.owed := by
  unfold originate
  split
  · rfl
  · split
    · rfl
    · simp

@[simp] theorem restartIdle_owed (p : Port) (s : State) : (restartIdle p s).owed = s.owed := rfl

@[simp] theorem forwardDown_owed (p : Port) (x : TxEntry) (a : Bool) (s : State) : (forwardDown p x a s).owed = s.owed := by
  unfold forwardDown
  split
  · rfl
  · dsimp only; split <;> simp

/-- A fold of operations that hand nothing on hands nothing on. -/
theorem foldl_owed {α : Type} {f : State → α → State} (h : ∀ s x, (f s x).owed = s.owed) (l : List α) (s : State) :
    (l.foldl f s).owed = s.owed := by
  induction l generalizing s with
  | nil => rfl
  | cons x l ih => rw [List.foldl_cons, ih, h]

@[simp] theorem judgeNotice_owed (s : State) : (judgeNotice s).owed = s.owed := by
  unfold judgeNotice
  split
  · rfl
  · have := originate_owed .uplink (noticeFrame s) s
    split <;> rename_i h <;> rw [h] at this
    · exact this
    · exact this

@[simp] theorem raise_owed (e : Event) (d : Detail) (s : State) : (raise e d s).owed = s.owed := by
  unfold raise
  dsimp only
  split
  · simp
  · rfl

@[simp] theorem noteFinding_owed (t : TbmTable) (i : Nat) (f : Finding) (s : State) : (noteFinding t i f s).owed = s.owed := by
  cases f <;> simp [noteFinding]

@[simp] theorem readPortConfig_owed (p : Port) (s : State) : (readPortConfig p s).2.owed = s.owed := by
  simp [readPortConfig]

@[simp] theorem readTemplate_owed (i : Fin 48) (s : State) : (readTemplate i s).2.owed = s.owed := by
  simp [readTemplate]

@[simp] theorem readRule_owed (i : Fin 32) (s : State) : (readRule i s).2.owed = s.owed := by
  simp [readRule]

@[simp] theorem readClassAction_owed (i : Fin 9) (s : State) : (readClassAction i s).2.owed = s.owed := by
  simp [readClassAction]

@[simp] theorem readGroupEntry_owed (g : Group) (s : State) : (readGroupEntry g s).2.owed = s.owed := by
  simp [readGroupEntry]

@[simp] theorem readProxy_owed (i : Fin 64) (s : State) : (readProxy i s).2.owed = s.owed := by
  unfold readProxy
  split
  · dsimp only
    split <;> simp [discardProxy]
  · rfl

@[simp] theorem readRecords_owed (p : Port) (l : List (Fin 4)) (s : State) : (readRecords p l s).2.owed = s.owed := by
  induction l generalizing s with
  | nil => rfl
  | cons i l ih => simp only [readRecords]; rw [ih]; simp

@[simp] theorem lookUpPoll_owed (p : Port) (bs : List Byte) (k : Option Nat) (s : State) :
    (lookUpPoll p bs k s).2.owed = s.owed := by
  unfold lookUpPoll
  split
  · rfl
  · have h := readRecords_owed p recordIndices s
    generalize readRecords p recordIndices s = r at h
    dsimp only
    split <;> exact h

@[simp] theorem answerPoll_owed (p : Port) (e : ProxyEntry) (bs : List Byte) (o : Option Nat) (s : State) :
    (answerPoll p e bs o s).owed = s.owed := by
  unfold answerPoll
  have := originate_owed .uplink (answerFrame e (s.port p).cfg.station bs o) s
  split <;> rename_i h <;> rw [h] at this
  · exact this
  · exact this

@[simp] theorem learnAnswer_owed (p : Port) (key : BitVec 16) (bs : List Byte) (o : Option Nat) (s : State) :
    (learnAnswer p key bs o s).owed = s.owed := by
  have h := readRecords_owed p recordIndices s
  unfold learnAnswer
  generalize readRecords p recordIndices s = r at h
  exact h

@[simp] theorem considerLearning_owed (p : Port) (st : PortState) (bs : List Byte) (k o : Option Nat) (s : State) :
    (considerLearning p st bs k o s).owed = s.owed := by
  unfold considerLearning
  split
  · split
    · rfl
    · split <;> simp
  · rfl

@[simp] theorem searchRules_owed (up : Bool) (sc : Option Port) (bs : List Byte) (l : List (Fin 32)) (s : State) :
    (searchRules up sc bs l s).2.owed = s.owed := by
  induction l generalizing s with
  | nil => rfl
  | cons i l ih =>
    have h := readRule_owed i s
    simp only [searchRules]
    split <;> rename_i e <;> rw [e] at h <;> dsimp only at h
    · split
      · exact h
      · rw [ih]; exact h
    · rw [ih]; exact h

@[simp] theorem classify_owed (up : Bool) (sc : Option Port) (bs : List Byte) (s : State) :
    (classify up sc bs s).2.owed = s.owed := by
  simp [classify]

@[simp] theorem holdFrame_owed (p : Port) (c : CellNo) (n : Nat) (k : Classified) (s : State) :
    (holdFrame p c n k s).2.owed = s.owed := by
  unfold holdFrame
  split
  · dsimp only; split <;> simp
  · simp

@[simp] theorem copyTo_owed (ps : List Port) (c : CellNo) (n : Nat) (a : Bool) (s : State) :
    (copyTo ps c n a s).owed = s.owed := foldl_owed (fun _ _ => forwardDown_owed _ _ _ _) ps s

@[simp] theorem forwardUp_owed (p : Port) (c : CellNo) (n : Nat) (s : State) : (forwardUp p c n s).owed = s.owed := by
  unfold forwardUp
  split
  · rfl
  · split <;> simp

end Sys2Proof.Machine
end

