-- ==== Sys2Proof/Laws/Quiet.lean ====
section
/-! SUPPORT. What an event or a read of table memory can change: EVU, table memory's check bits and poison marks, and, by
a notice, the uplink transmit queue and the cell that the notice is built in. `Quiet s t` says that all else is as it
was. -/

namespace Sys2Proof.Machine

set_option Elab.async false

/-- t differs from s only in what a notice and a read of table memory touch. -/
structure Quiet (s t : State) : Prop where
  pending : t.pending = s.pending
  phase : t.phase = s.phase
  owed : t.owed = s.owed
  ports : t.ports = s.ports
  adm : t.adm = s.adm
  groups : t.groups = s.groups
  mga : t.mga = s.mga
  uplink : { t.uplink with egress := s.uplink.egress } = s.uplink
  refs : ∀ c, (s.cell c).refs ≤ (t.cell c).refs

theorem Quiet.refl (s : State) : Quiet s s := ⟨rfl, rfl, rfl, rfl, rfl, rfl, rfl, rfl, fun _ => le_rfl⟩

theorem Quiet.trans {s t u : State} (h : Quiet s t) (k : Quiet t u) : Quiet s u where
  pending := k.pending.trans h.pending
  phase := k.phase.trans h.phase
  owed := k.owed.trans h.owed
  ports := k.ports.trans h.ports
  adm := k.adm.trans h.adm
  groups := k.groups.trans h.groups
  mga := k.mga.trans h.mga
  uplink := by rw [← h.uplink, ← k.uplink]
  refs c := (h.refs c).trans (k.refs c)

theorem Quiet.port {s t : State} (h : Quiet s t) (p : Port) : t.port p = s.port p := by simp [State.port, h.ports]

theorem Quiet.group {s t : State} (h : Quiet s t) (g : Group) : t.group g = s.group g := by simp [State.group, h.groups]

theorem Quiet.linkUp {s t : State} (h : Quiet s t) : t.uplink.linkUp = s.uplink.linkUp := by
  have := h.uplink
  generalize s.uplink = a at this
  rw [← this]

theorem Quiet.of_eq {s t : State} (h : t = s) : Quiet s t := h ▸ Quiet.refl s

theorem Quiet.modEvu (s : State) (f : Evu → Evu) : Quiet s (s.modEvu f) :=
  ⟨rfl, rfl, rfl, rfl, rfl, rfl, rfl, rfl, fun _ => le_rfl⟩

theorem Quiet.modDevice (s : State) (f : DeviceCounts → DeviceCounts) : Quiet s (s.modDevice f) := Quiet.modEvu _ _

theorem Quiet.modTbm (s : State) (f : Tbm → Tbm) : Quiet s (s.modTbm f) :=
  ⟨rfl, rfl, rfl, rfl, rfl, rfl, rfl, rfl, fun _ => le_rfl⟩

/-- A frame that the part originates on the uplink. -/
theorem Quiet.originate (bs : List Byte) (s : State) : Quiet s (originate .uplink bs s).2 := by
  unfold Machine.originate
  split
  · exact Quiet.refl s
  · split
    · exact ⟨rfl, rfl, rfl, rfl, rfl, rfl, rfl, rfl, fun _ => le_rfl⟩
    · refine ⟨rfl, rfl, rfl, rfl, rfl, rfl, rfl, rfl, fun d => ?_⟩
      simp only [appendTx, addRef, storeCell, State.modEgress, State.modCell_cell, State.modUplink_cell]
      split
      · rename_i e
        subst e
        exact Nat.le_succ _
      · exact le_rfl

theorem Quiet.judgeNotice (s : State) : Quiet s (judgeNotice s) := by
  unfold Machine.judgeNotice
  split
  · exact Quiet.refl s
  · have h := Quiet.originate (noticeFrame s) s
    split <;> rename_i e <;> rw [e] at h
    · exact h.trans (Quiet.modEvu _ _)
    · exact h

/-- An event. -/
theorem Quiet.raise (e : Event) (d : Detail) (s : State) : Quiet s (raise e d s) := by
  unfold Machine.raise
  dsimp only
  split
  · exact (Quiet.modEvu _ _).trans (Quiet.judgeNotice _)
  · exact Quiet.modEvu _ _

theorem Quiet.noteFinding (t : TbmTable) (i : Nat) (f : Finding) (s : State) : Quiet s (noteFinding t i f s) := by
  cases f <;> simp only [Machine.noteFinding]
  · exact Quiet.refl s
  · exact (Quiet.modDevice _ _).trans (Quiet.raise _ _ _)
  · exact (Quiet.modDevice _ _).trans (Quiet.raise _ _ _)
  · exact Quiet.refl s

theorem Quiet.readPortConfig (p : Port) (s : State) : Quiet s (readPortConfig p s).2 :=
  (Quiet.modTbm _ _).trans (Quiet.noteFinding _ _ _ _)

theorem Quiet.readTemplate (i : Fin 48) (s : State) : Quiet s (readTemplate i s).2 :=
  (Quiet.modTbm _ _).trans (Quiet.noteFinding _ _ _ _)

theorem Quiet.readRule (i : Fin 32) (s : State) : Quiet s (readRule i s).2 :=
  (Quiet.modTbm _ _).trans (Quiet.noteFinding _ _ _ _)

theorem Quiet.readClassAction (i : Fin 9) (s : State) : Quiet s (readClassAction i s).2 :=
  (Quiet.modTbm _ _).trans (Quiet.noteFinding _ _ _ _)

theorem Quiet.readGroupEntry (g : Group) (s : State) : Quiet s (readGroupEntry g s).2 :=
  (Quiet.modTbm _ _).trans (Quiet.noteFinding _ _ _ _)

theorem Quiet.readPresent (p : Port) (k : TemplateKind) (s : State) : Quiet s (readPresent p k s).2 := by
  have h := Quiet.readTemplate (templateIndex p k) s
  unfold Machine.readPresent
  split <;> rename_i e <;> rw [e] at h <;> exact h

theorem Quiet.searchRules (up : Bool) (sc : Option Port) (bs : List Byte) (l : List (Fin 32)) (s : State) :
    Quiet s (searchRules up sc bs l s).2 := by
  induction l generalizing s with
  | nil => exact Quiet.refl s
  | cons i l ih =>
    have h := Quiet.readRule i s
    simp only [Machine.searchRules]
    split <;> rename_i e <;> rw [e] at h <;> dsimp only at h
    · split
      · exact h
      · exact h.trans (ih _)
    · exact h.trans (ih _)

/-- A classification. -/
theorem Quiet.classify (up : Bool) (sc : Option Port) (bs : List Byte) (s : State) : Quiet s (classify up sc bs s).2 := by
  have h := Quiet.searchRules up sc bs (List.finRange 32) s
  unfold Machine.classify
  generalize Machine.searchRules up sc bs (List.finRange 32) s = r at h
  exact h.trans (Quiet.readClassAction _ _)

/-! ### Learning (Chapter 6) -/

/-- The uplink of t has the link of s, and no cell has lost a reference. -/
structure Spares (s t : State) : Prop where
  linkUp : t.uplink.linkUp = s.uplink.linkUp
  refs : ∀ c, (s.cell c).refs ≤ (t.cell c).refs

theorem Spares.refl (s : State) : Spares s s := ⟨rfl, fun _ => le_rfl⟩

theorem Spares.trans {s t u : State} (h : Spares s t) (k : Spares t u) : Spares s u :=
  ⟨k.linkUp.trans h.linkUp, fun c => (h.refs c).trans (k.refs c)⟩

theorem Quiet.spares {s t : State} (h : Quiet s t) : Spares s t := ⟨h.linkUp, h.refs⟩

theorem Spares.modPort (s : State) (p : Port) (f : PortRec → PortRec) : Spares s (s.modPort p f) :=
  ⟨rfl, fun _ => le_rfl⟩

theorem Spares.readProxy (i : Fin 64) (s : State) : Spares s (readProxy i s).2 := by
  unfold Machine.readProxy
  split
  · dsimp only
    split
    · unfold discardProxy
      exact (((Quiet.modTbm _ _).trans (Quiet.noteFinding _ _ _ _)).spares.trans (Spares.modPort _ _ _)).trans
        (Quiet.modTbm _ _).spares
    · exact ((Quiet.modTbm _ _).trans (Quiet.noteFinding _ _ _ _)).spares
  · exact Spares.refl s

theorem Spares.readRecords (p : Port) (l : List (Fin 4)) (s : State) : Spares s (readRecords p l s).2 := by
  induction l generalizing s with
  | nil => exact Spares.refl s
  | cons i l ih => exact (Spares.readProxy _ _).trans (ih _)

/-- The learning of a poll answer takes no cell from a frame and leaves the uplink link alone. -/
theorem Spares.considerLearning (p : Port) (st : PortState) (bs : List Byte) (k o : Option Nat) (s : State) :
    Spares s (considerLearning p st bs k o s) := by
  unfold Machine.considerLearning
  split
  · split
    · exact Spares.refl s
    · split
      · exact Spares.modPort _ _ _
      · unfold learnAnswer
        have h := Spares.readRecords p recordIndices s
        generalize Machine.readRecords p recordIndices s = r at h
        exact h.trans ((Quiet.modTbm _ _).spares.trans (Spares.modPort _ _ _))
  · exact Spares.refl s

end Sys2Proof.Machine
end

