-- ==== Sys2Proof/Laws/Cells.lean ====
section
/-! SUPPORT. What the operations on cells and transmit queues do: the taking and giving up of a reference (R88), and the
copying of one frame into several transmit queues (R81, R82, R124). -/

namespace Sys2Proof.Machine

set_option Elab.async false

/-- An update of the record that gives the same record. -/
theorem modPort_congr {s : State} {p : Port} {f g : PortRec → PortRec} (h : f (s.port p) = g (s.port p)) :
    s.modPort p f = s.modPort p g := by
  simp only [State.modPort]; rw [show f s.ports[p] = g s.ports[p] from h]

theorem modCell_id {s : State} {c : CellNo} {f : Cell → Cell} (h : f (s.cell c) = s.cell c) : s.modCell c f = s := by
  have hs : s.cells.set c s.cells[c] = s.cells := by simp
  simp only [State.modCell]
  rw [show f s.cells[c] = s.cells[c] from h, hs]

theorem modCell_modCell (s : State) (c : CellNo) (f g : Cell → Cell) :
    (s.modCell c f).modCell c g = s.modCell c fun x => g (f x) := by
  simp [State.modCell]

@[simp] theorem withFree_cell (s : State) (l : List CellNo) (d : CellNo) :
    ({ s with free := l } : State).cell d = s.cell d := rfl

@[simp] theorem withFree_port (s : State) (l : List CellNo) (p : Port) :
    ({ s with free := l } : State).port p = s.port p := rfl

@[simp] theorem withFree_group (s : State) (l : List CellNo) (g : Group) :
    ({ s with free := l } : State).group g = s.group g := rfl

theorem addRef_modPort (c : CellNo) (p : Port) (f : PortRec → PortRec) (s : State) :
    (addRef c s).modPort p f = addRef c (s.modPort p f) := rfl

theorem addRef_modCounts (c : CellNo) (p : Port) (f : Counts → Counts) (s : State) :
    (addRef c s).modCounts p f = addRef c (s.modCounts p f) := rfl

/-- The taking of a reference. -/
theorem addRef_cell (c d : CellNo) (s : State) :
    (addRef c s).cell d = if d = c then { s.cell c with refs := (s.cell c).refs + 1 } else s.cell d := by
  simp [addRef, State.modCell_cell]

/-- A reference that is taken and given up again. -/
theorem dropRef_addRef {c : CellNo} {s : State} (h : 0 < (s.cell c).refs) : dropRef c (addRef c s) = s := by
  have h1 : ((addRef c s).cell c).refs = (s.cell c).refs + 1 := by simp [addRef_cell]
  simp only [dropRef, h1]
  rw [if_neg (by omega), if_neg (by omega)]
  simp only [addRef, modCell_modCell]
  exact modCell_id (by simp)

/-- Everything that the giving up of a reference can do: it touches the count of its cell and the free list. -/
theorem dropRef_spec (c : CellNo) (s : State) :
    dropRef c s = { s with cells := (dropRef c s).cells, free := (dropRef c s).free } ∧
    ((dropRef c s).cell c).refs = (s.cell c).refs - 1 ∧ ((dropRef c s).cell c).data = (s.cell c).data ∧
    (∀ d, d ≠ c → (dropRef c s).cell d = s.cell d) ∧
    (dropRef c s).free = if (s.cell c).refs = 1 then s.free ++ [c] else s.free := by
  unfold dropRef
  dsimp only
  split
  · rename_i h; simp [h]
  · have h1 : ((s.modCell c fun x => { x with refs := x.refs - 1 }).cell c) =
        { s.cell c with refs := (s.cell c).refs - 1 } := State.modCell_cell_same _ _ _
    have h2 : ∀ d, d ≠ c → (s.modCell c fun x => { x with refs := x.refs - 1 }).cell d = s.cell d :=
      fun d => State.modCell_cell_ne _ _
    have h3 : ((s.modCell c fun x => { x with refs := x.refs - 1 }).cell c).refs = (s.cell c).refs - 1 := by rw [h1]
    have h4 : ((s.modCell c fun x => { x with refs := x.refs - 1 }).cell c).data = (s.cell c).data := by rw [h1]
    split
    · exact ⟨rfl, h3, h4, h2, rfl⟩
    · exact ⟨rfl, h3, h4, h2, rfl⟩

@[simp] theorem dropRef_port (c : CellNo) (s : State) (p : Port) : (dropRef c s).port p = s.port p := by
  rw [(dropRef_spec c s).1]; rfl

@[simp] theorem dropRef_group (c : CellNo) (s : State) (g : Group) : (dropRef c s).group g = s.group g := by
  rw [(dropRef_spec c s).1]; rfl

@[simp] theorem dropRef_uplink (c : CellNo) (s : State) : (dropRef c s).uplink = s.uplink := by
  rw [(dropRef_spec c s).1]

@[simp] theorem dropRef_adm (c : CellNo) (s : State) : (dropRef c s).adm = s.adm := by rw [(dropRef_spec c s).1]

@[simp] theorem dropRef_groups (c : CellNo) (s : State) : (dropRef c s).groups = s.groups := by
  rw [(dropRef_spec c s).1]

@[simp] theorem dropRef_tbm (c : CellNo) (s : State) : (dropRef c s).tbm = s.tbm := by rw [(dropRef_spec c s).1]

@[simp] theorem dropRef_mga (c : CellNo) (s : State) : (dropRef c s).mga = s.mga := by rw [(dropRef_spec c s).1]

@[simp] theorem dropRef_evu (c : CellNo) (s : State) : (dropRef c s).evu = s.evu := by rw [(dropRef_spec c s).1]

@[simp] theorem dropRef_phase (c : CellNo) (s : State) : (dropRef c s).phase = s.phase := by
  rw [(dropRef_spec c s).1]

@[simp] theorem dropRef_pending (c : CellNo) (s : State) : (dropRef c s).pending = s.pending := by
  rw [(dropRef_spec c s).1]

/-! ### Copies of one frame -/

theorem txFull_congr {s t : State} {p : Port} (h : t.port p = s.port p) :
    txFull t (.camera p) = txFull s (.camera p) := by
  have : t.egress (.camera p) = s.egress (.camera p) := congrArg PortRec.egress h
  simp only [txFull, this]

/-- The record of a port that one copy of a frame is for: with the entry and its count, or with the drop. -/
def PortRec.copied (c : CellNo) (n : Nat) (activity : Bool) (rewrite : Option Port) (full : Bool) (r : PortRec) : PortRec :=
  if full then
    { r with counts := { r.counts with dropped := r.counts.dropped.set 6 (bump r.counts.dropped[6]) } }
  else
    { r with
      egress := { r.egress with queue := r.egress.queue ++ [⟨c, n, rewrite⟩] }
      counts := { r.counts with forwardedDown := bump r.counts.forwardedDown }
      idle := if activity ∧ r.state = .ready then 0 else r.idle }

/-- What one copy does to the ports. -/
theorem forwardDown_port (p : Port) (x : TxEntry) (a : Bool) (s : State) (q : Port) :
    (forwardDown p x a s).port q =
      if q = p then (s.port p).copied x.cell x.length a x.rewrite (txFull s (.camera p)) else s.port q := by
  unfold forwardDown PortRec.copied
  by_cases hf : txFull s (.camera p) = true
  · simp only [hf, if_true, countDrop, State.modCounts, State.modPort_port]; rfl
  · simp only [hf, if_false, Bool.false_eq_true]
    cases a
    · simp only [Bool.false_eq_true, if_false, countForwardedDown, State.modCounts, State.modPort_port, appendTx, addRef,
        State.modEgress, State.modCell_port]
      split <;> simp
    · simp only [if_true, restartIdle, countForwardedDown, State.modCounts, State.modPort_port, appendTx, addRef,
        State.modEgress, State.modCell_port]
      split
      · simp; split <;> simp_all
      · rfl

/-- What one copy does to the cells. -/
theorem forwardDown_cells (p : Port) (x : TxEntry) (a : Bool) (s : State) :
    (forwardDown p x a s).cells = if txFull s (.camera p) then s.cells else (addRef x.cell s).cells := by
  unfold forwardDown
  split
  · rfl
  · dsimp only; split <;> rfl

/-- What one copy leaves alone. -/
theorem forwardDown_rest (p : Port) (x : TxEntry) (a : Bool) (s : State) :
    forwardDown p x a s =
      { s with ports := (forwardDown p x a s).ports, cells := (forwardDown p x a s).cells } := by
  unfold forwardDown
  split
  · rfl
  · dsimp only; split <;> rfl

/-- The copies of one frame into the transmit queues of the ports of a list. -/
theorem fold_forwardDown (e : Port → TxEntry) (c : CellNo) (n : Nat) (hc : ∀ q, (e q).cell = c ∧ (e q).length = n)
    (a : Bool) (l : List Port) (hl : l.Nodup) (s : State) :
    let t := l.foldl (fun s p => forwardDown p (e p) a s) s
    (∀ q, t.port q =
      if q ∈ l then (s.port q).copied c n a (e q).rewrite (txFull s (.camera q)) else s.port q) ∧
    (t.cell c).refs = (s.cell c).refs + l.countP (fun q => !txFull s (.camera q)) ∧
    (t.cell c).data = (s.cell c).data ∧ (∀ d, d ≠ c → t.cell d = s.cell d) ∧
    t = { s with ports := t.ports, cells := t.cells } := by
  induction l generalizing s with
  | nil => simp
  | cons p l ih =>
    intro t
    have hp : p ∉ l := (List.nodup_cons.1 hl).1
    obtain ⟨i1, i2, i3, i4, i5⟩ := ih (List.nodup_cons.1 hl).2 (forwardDown p (e p) a s)
    have hne : ∀ q, q ≠ p → (forwardDown p (e p) a s).port q = s.port q := fun q hq => by
      rw [forwardDown_port, if_neg hq]
    have ht : t = l.foldl (fun s p => forwardDown p (e p) a s) (forwardDown p (e p) a s) := rfl
    have hcell : ∀ d, (forwardDown p (e p) a s).cell d =
        if txFull s (.camera p) then s.cell d else (addRef c s).cell d := by
      intro d; simp only [State.cell, forwardDown_cells, (hc p).1]; split <;> rfl
    refine ⟨fun q => ?_, ?_, ?_, fun d hd => ?_, ?_⟩
    · rw [ht, i1]
      by_cases hq : q = p
      · subst hq; simp [hp, forwardDown_port, (hc q).1, (hc q).2]
      · simp [hq, hne q hq, txFull_congr (hne q hq)]
    · rw [ht, i2, List.countP_cons, hcell]
      have : l.countP (fun q => !txFull (forwardDown p (e p) a s) (.camera q)) =
          l.countP (fun q => !txFull s (.camera q)) := by
        apply List.countP_congr
        intro q hq
        have : q ≠ p := fun e => hp (e ▸ hq)
        rw [txFull_congr (hne q this)]
      rw [this]
      by_cases hf : txFull s (.camera p) = true
      · simp [hf]
      · simp [hf, addRef_cell]; omega
    · rw [ht, i3, hcell]; split <;> simp [addRef_cell]
    · rw [ht, i4 d hd, hcell]; split
      · rfl
      · simp [addRef_cell, hd]
    · rw [ht, i5, forwardDown_rest]

/-! ### Holding a frame -/

/-- A frame that the hold queue has room for is held (R78, R90). -/
theorem holdFrame_room {p : Port} {c : CellNo} {n : Nat} {k : Classified} {s : State}
    (h : (s.port p).hold.length < (s.port p).cfg.holdLimit) :
    holdFrame p c n k s = (true, addRef c (s.modPort p fun r => { r with
      hold := r.hold ++ [⟨c, n, k.cls, k.activity, k.action.waking⟩]
      counts := { r.counts with held := bump r.counts.held } })) := by
  have hn : ¬ (s.port p).cfg.holdLimit ≤ (s.port p).hold.length := by omega
  unfold holdFrame
  rw [if_neg hn]
  dsimp only
  rw [addRef_modCounts]
  unfold State.modCounts
  rw [State.modPort_modPort]

/-- At a full hold queue a frame is dropped (R90). -/
theorem holdFrame_full {p : Port} {c : CellNo} {n : Nat} {k : Classified} {s : State}
    (h : (s.port p).cfg.holdLimit ≤ (s.port p).hold.length) :
    holdFrame p c n k s =
      (false,
        let t := raise .holdDrop (Detail.port p) (countDrop p .holdFull s)
        if k.cls = .capture then raise .captureDrop (Detail.port p) t else t) := by
  unfold holdFrame
  rw [if_pos h]

end Sys2Proof.Machine
end

