-- ==== Sys2Proof/Laws/Rest.lean ====
section
/-! SUPPORT. What the entries into ASLEEP, FAULTED and DISABLED do (R6, R7, R15): one lemma for each says all of it. -/

namespace Sys2Proof.Machine

set_option Elab.async false

/-! ### Discards -/

/-- The discard of the frames of a list of entries: their counts, and the references that they give up. -/
theorem fold_discard {α : Type} (p : Port) (cellOf : α → CellNo) (l : List α) (s : State) :
    let t := l.foldl (fun s e => countDrop p .discarded (dropRef (cellOf e) s)) s
    t.port p = { s.port p with counts := (s.port p).counts.discarding l.length } ∧
    (∀ q, q ≠ p → t.port q = s.port q) ∧
    (∀ c, (t.cell c).refs = (s.cell c).refs - l.countP (cellOf · = c) ∧ (t.cell c).data = (s.cell c).data) ∧
    t = { s with ports := t.ports, cells := t.cells, free := t.free } := by
  induction l generalizing s with
  | nil => simp [Counts.discarding]
  | cons x l ih =>
    intro t
    obtain ⟨i1, i2, i3, i4⟩ := ih (countDrop p .discarded (dropRef (cellOf x) s))
    have ht : t = l.foldl (fun s e => countDrop p .discarded (dropRef (cellOf e) s))
        (countDrop p .discarded (dropRef (cellOf x) s)) := rfl
    have d := dropRef_spec (cellOf x) s
    refine ⟨?_, fun q hq => ?_, fun c => ?_, ?_⟩
    · rw [ht, i1]
      simp only [countDrop, State.modCounts, State.modPort_port_same, dropRef_port, Counts.discarding, DropCause.index,
        List.length_cons, Function.iterate_succ, Function.comp]
      simp
    · rw [ht, i2 q hq]
      simp only [countDrop, State.modCounts]
      rw [State.modPort_port_ne _ _ hq, dropRef_port]
    · have hc : ∀ c, (countDrop p .discarded (dropRef (cellOf x) s)).cell c = (dropRef (cellOf x) s).cell c :=
        fun _ => rfl
      rw [ht, (i3 c).1, (i3 c).2, hc, List.countP_cons]
      by_cases e : c = cellOf x
      · subst e
        rw [d.2.1, d.2.2.1]
        refine ⟨?_, rfl⟩
        simp; omega
      · rw [d.2.2.2.1 c e]
        have : ¬ cellOf x = c := fun h => e h.symm
        simp [this]
    · rw [ht, i4]
      have : countDrop p .discarded (dropRef (cellOf x) s) =
        { dropRef (cellOf x) s with ports := (countDrop p .discarded (dropRef (cellOf x) s)).ports } := rfl
      rw [this, d.1]

/-- The discard of a transmit queue (R94). -/
theorem discardTx_spec (p : Port) (s : State) :
    (discardTx p s).port p = { s.port p with
      counts := (s.port p).counts.discarding (s.port p).egress.queue.length, egress := Egress.empty } ∧
    (∀ q, q ≠ p → (discardTx p s).port q = s.port q) ∧
    (∀ c, ((discardTx p s).cell c).refs = (s.cell c).refs - (s.port p).egress.queue.countP (·.cell = c) ∧
      ((discardTx p s).cell c).data = (s.cell c).data) ∧
    discardTx p s =
      { s with ports := (discardTx p s).ports, cells := (discardTx p s).cells, free := (discardTx p s).free } := by
  obtain ⟨h1, h2, h3, h4⟩ := fold_discard p TxEntry.cell (s.port p).egress.queue s
  unfold discardTx
  generalize List.foldl _ s (s.port p).egress.queue = t at *
  refine ⟨?_, fun q hq => ?_, h3, ?_⟩
  · rw [State.modPort_port_same, h1]
  · rw [State.modPort_port_ne _ _ hq, h2 q hq]
  · rw [show t.modPort p (fun r => { r with egress := Egress.empty }) =
      { t with ports := (t.modPort p fun r => { r with egress := Egress.empty }).ports } from rfl, h4]

/-- The discard of a hold queue (R91). -/
theorem discardHold_spec (p : Port) (s : State) :
    (discardHold p s).port p = { s.port p with
      counts := (s.port p).counts.discarding (s.port p).hold.length, hold := [] } ∧
    (∀ q, q ≠ p → (discardHold p s).port q = s.port q) ∧
    (∀ c, ((discardHold p s).cell c).refs = (s.cell c).refs - (s.port p).hold.countP (·.cell = c) ∧
      ((discardHold p s).cell c).data = (s.cell c).data) ∧
    discardHold p s =
      { s with ports := (discardHold p s).ports, cells := (discardHold p s).cells, free := (discardHold p s).free } := by
  obtain ⟨h1, h2, h3, h4⟩ := fold_discard p HoldEntry.cell (s.port p).hold s
  unfold discardHold
  generalize List.foldl _ s (s.port p).hold = t at *
  refine ⟨?_, fun q hq => ?_, h3, ?_⟩
  · rw [State.modPort_port_same, h1]
  · rw [State.modPort_port_ne _ _ hq, h2 q hq]
  · rw [show t.modPort p (fun r => { r with hold := [] }) =
      { t with ports := (t.modPort p fun r => { r with hold := [] }).ports } from rfl, h4]

/-! ### What groups do when a member changes -/

/-- What a group's hearing of a change leaves alone: everything but groups, events, cells and the uplink's queue. -/
structure Heard (s t : State) : Prop where
  ports : t.ports = s.ports
  adm : t.adm = s.adm
  tbm : t.tbm = s.tbm
  mga : t.mga = s.mga
  phase : t.phase = s.phase
  pending : t.pending = s.pending

theorem Heard.refl (s : State) : Heard s s := ⟨rfl, rfl, rfl, rfl, rfl, rfl⟩

theorem Heard.trans {s t u : State} (h : Heard s t) (k : Heard t u) : Heard s u :=
  ⟨k.ports.trans h.ports, k.adm.trans h.adm, k.tbm.trans h.tbm, k.mga.trans h.mga, k.phase.trans h.phase,
    k.pending.trans h.pending⟩

theorem Heard.port {s t : State} (h : Heard s t) (p : Port) : t.port p = s.port p := by simp [State.port, h.ports]

theorem Heard.modGroup (s : State) (g : Group) (f : GroupRec → GroupRec) : Heard s (s.modGroup g f) :=
  ⟨rfl, rfl, rfl, rfl, rfl, rfl⟩

theorem Heard.owe (s : State) (w : Work) : Heard s (s.owe w) := ⟨rfl, rfl, rfl, rfl, rfl, rfl⟩

theorem Heard.dropRef (c : CellNo) (s : State) : Heard s (dropRef c s) := by
  rw [(dropRef_spec c s).1]; exact ⟨rfl, rfl, rfl, rfl, rfl, rfl⟩

theorem originate_tbm (e : EtherPort) (bs : List Byte) (s : State) : (originate e bs s).2.tbm = s.tbm := by
  unfold originate
  split
  · rfl
  · split
    · rfl
    · cases e <;> rfl

theorem judgeNotice_tbm (s : State) : (judgeNotice s).tbm = s.tbm := by
  unfold judgeNotice
  split
  · rfl
  · have h := originate_tbm .uplink (noticeFrame s) s
    split <;> rename_i e <;> rw [e] at h <;> exact h

@[simp] theorem raise_tbm (e : Event) (d : Detail) (s : State) : (raise e d s).tbm = s.tbm := by
  unfold raise
  dsimp only
  split
  · rw [judgeNotice_tbm]; rfl
  · rfl

@[simp] theorem raise_port (e : Event) (d : Detail) (s : State) (p : Port) : (raise e d s).port p = s.port p :=
  (Quiet.raise e d s).port p

@[simp] theorem raise_group (e : Event) (d : Detail) (s : State) (g : Group) : (raise e d s).group g = s.group g :=
  (Quiet.raise e d s).group g

@[simp] theorem raise_adm (e : Event) (d : Detail) (s : State) : (raise e d s).adm = s.adm := (Quiet.raise e d s).adm

@[simp] theorem raise_mga (e : Event) (d : Detail) (s : State) : (raise e d s).mga = s.mga := (Quiet.raise e d s).mga

theorem Heard.raise (e : Event) (d : Detail) (s : State) : Heard s (raise e d s) :=
  have h := Quiet.raise e d s
  ⟨h.ports, h.adm, raise_tbm e d s, h.mga, h.phase, h.pending⟩

theorem Heard.refuseStrict (g : Group) (s : State) : Heard s (refuseStrict g s) := by
  unfold Machine.refuseStrict
  split
  · exact ((Heard.modGroup _ _ _).trans (Heard.dropRef _ _)).trans (Heard.raise _ _ _)
  · exact Heard.refl s

theorem Heard.breakArm (g : Group) (w : PortSet) (s : State) : Heard s (breakArm g w s) := by
  unfold Machine.breakArm
  split
  · dsimp only
    refine Heard.trans ?_ (Heard.refuseStrict _ _)
    split
    · exact Heard.modGroup _ _ _
    · exact ((Heard.modGroup _ _ _).trans (Heard.modGroup _ _ _)).trans (Heard.raise _ _ _)
  · exact Heard.refl s

theorem Heard.joinWatched (g : Group) (p : Port) (st : PortState) (s : State) : Heard s (joinWatched g p st s) := by
  unfold Machine.joinWatched
  dsimp only
  split
  · exact Heard.modGroup _ _ _
  · exact Heard.refl s

theorem Heard.slotReact (g : Group) (p : Port) (st : PortState) (s : State) : Heard s (slotReact g p st s) := by
  have hm : Heard s (markUnreachable g p s) := (Heard.modGroup s g _).trans (Heard.owe _ _)
  have ho : Heard s (s.owe (.need .rendezvous p)) := Heard.owe _ _
  unfold Machine.slotReact
  split
  · cases st <;> dsimp only <;> first
      | exact hm
      | exact Heard.refl s
      | (split <;> first | exact hm | exact ho | exact Heard.refl s)
  · exact Heard.refl s

theorem Heard.groupReact (g : Group) (p : Port) (old new : PortState) (s : State) :
    Heard s (groupReact g p old new s) := by
  unfold Machine.groupReact
  dsimp only
  refine Heard.trans ?_ (Heard.slotReact _ _ _ _)
  refine (Heard.joinWatched g p new s).trans ?_
  split
  · exact Heard.breakArm _ _ _
  · exact Heard.refl _

theorem Heard.foldl {α : Type} {f : State → α → State} (h : ∀ s x, Heard s (f s x)) (l : List α) (s : State) :
    Heard s (l.foldl f s) := by
  induction l generalizing s with
  | nil => exact Heard.refl s
  | cons x l ih => exact (h s x).trans (ih _)

theorem Heard.memberChanged (p : Port) (old new : PortState) (s : State) : Heard s (memberChanged p old new s) :=
  Heard.foldl (fun s g => Heard.groupReact g p old new s) allGroups s

/-! A group hears of a change without touching another group. -/

theorem refuseStrict_group_ne {g h : Group} (hn : h ≠ g) (s : State) : (refuseStrict g s).group h = s.group h := by
  unfold refuseStrict
  split
  · simp only [dropTrigger, endTrigger, State.modSlot, raise_group, dropRef_group]
    exact State.modGroup_group_ne _ _ hn
  · rfl

theorem breakArm_group_ne {g h : Group} (hn : h ≠ g) (w : PortSet) (s : State) :
    (breakArm g w s).group h = s.group h := by
  unfold breakArm
  split
  · dsimp only
    rw [refuseStrict_group_ne hn]
    split
    · exact State.modGroup_group_ne _ _ hn
    · simp only [State.modArm, raise_group, State.modGroup_group_ne _ _ hn]
  · rfl

theorem slotReact_group_ne {g h : Group} (hn : h ≠ g) (p : Port) (st : PortState) (s : State) :
    (slotReact g p st s).group h = s.group h := by
  have hm : (markUnreachable g p s).group h = s.group h := by
    simp only [markUnreachable, State.owe_group, State.modSlot]
    exact State.modGroup_group_ne _ _ hn
  unfold slotReact
  split
  · cases st <;> dsimp only <;> first
      | exact hm
      | rfl
      | (split <;> first | exact hm | rfl)
  · rfl

theorem groupReact_group_ne {g h : Group} (hn : h ≠ g) (p : Port) (old new : PortState) (s : State) :
    (groupReact g p old new s).group h = s.group h := by
  unfold groupReact
  dsimp only
  rw [slotReact_group_ne hn]
  have : (joinWatched g p new s).group h = s.group h := by
    unfold joinWatched
    dsimp only
    split
    · exact State.modGroup_group_ne _ _ hn
    · rfl
  split
  · rw [breakArm_group_ne hn, this]
  · exact this

/-- What a group is after a change of a member is what its own hearing makes of it, in a state with the ports and the
group as they were. -/
theorem memberChanged_group (p : Port) (old new : PortState) (s : State) (g : Group) :
    ∃ t : State, Heard s t ∧ t.group g = s.group g ∧
      (memberChanged p old new s).group g = (groupReact g p old new t).group g := by
  suffices h : ∀ (l : List Group) (s : State), l.Nodup →
      (g ∉ l → (l.foldl (fun s g => groupReact g p old new s) s).group g = s.group g) ∧
      (g ∈ l → ∃ t : State, Heard s t ∧ t.group g = s.group g ∧
        (l.foldl (fun s g => groupReact g p old new s) s).group g = (groupReact g p old new t).group g) by
    exact (h allGroups s (List.nodup_finRange 8)).2 (List.mem_finRange g)
  intro l
  induction l with
  | nil => intro s _; simp
  | cons x l ih =>
    intro s hl
    have hx := (List.nodup_cons.1 hl).1
    obtain ⟨i1, i2⟩ := ih (groupReact x p old new s) (List.nodup_cons.1 hl).2
    refine ⟨fun hg => ?_, fun hg => ?_⟩
    · rw [List.foldl_cons, i1 fun h => hg (List.mem_cons_of_mem _ h)]
      exact groupReact_group_ne (fun e => hg (by rw [e]; exact List.mem_cons_self)) _ _ _ _
    · by_cases e : g = x
      · subst e
        exact ⟨s, Heard.refl s, rfl, by rw [List.foldl_cons, i1 hx]⟩
      · obtain ⟨t, h1, h2, h3⟩ := i2 ((List.mem_cons.1 hg).resolve_left e)
        exact ⟨t, (Heard.groupReact _ _ _ _ _).trans h1, h2.trans (groupReact_group_ne e _ _ _ _), h3⟩

/-- A break of an armed and intact group (R130). -/
theorem breakArm_arm {g : Group} {s : State} (w : PortSet) (h1 : (s.group g).arm.armed = true)
    (h2 : (s.group g).arm.intact = true) :
    ((breakArm g w s).group g).arm = { (s.group g).arm with intact := false, watched := 0, breakReported := true } := by
  have hr : ∀ t : State, ((refuseStrict g t).group g).arm = (t.group g).arm := by
    intro t
    unfold refuseStrict
    split
    · simp [dropTrigger, endTrigger, State.modSlot]
    · rfl
  unfold breakArm
  rw [if_pos (by simp [h1, h2])]
  dsimp only
  rw [hr]
  split
  · rename_i h
    simp only [State.modArm, State.modGroup_group_same] at h ⊢
    simp [h]
  · simp [State.modArm]

theorem slotReact_arm (g : Group) (p : Port) (st : PortState) (s : State) :
    ((slotReact g p st s).group g).arm = (s.group g).arm := by
  have hm : ((markUnreachable g p s).group g).arm = (s.group g).arm := by
    simp [markUnreachable, State.modSlot]
  unfold slotReact
  split
  · cases st <;> dsimp only <;> first
      | exact hm
      | rfl
      | (split <;> first | exact hm | rfl)
  · rfl

/-- The intactness of an armed group breaks by a move of one of its members (R130). -/
theorem memberChanged_broken {p : Port} {old new : PortState} {s : State} {g : Group} (hn : new ≠ .ready)
    (h1 : (s.group g).arm.armed = true) (h2 : (s.group g).arm.intact = true)
    (h3 : breaksArm (s.group g).arm p old new = true) :
    ((memberChanged p old new s).group g).arm.intact = false ∧
      ((memberChanged p old new s).group g).arm.watched = 0 ∧
      ((memberChanged p old new s).group g).arm.breakReported = true := by
  obtain ⟨t, _, ht, e⟩ := memberChanged_group p old new s g
  have hj : joinWatched g p new t = t := by simp [joinWatched, hn]
  have : ((groupReact g p old new t).group g).arm =
      { (t.group g).arm with intact := false, watched := 0, breakReported := true } := by
    unfold groupReact
    dsimp only
    rw [slotReact_arm, hj, ht, h3, if_pos rfl, breakArm_arm _ (ht ▸ h1) (ht ▸ h2), ht]
  rw [e, this]
  exact ⟨rfl, rfl, rfl⟩

/-- Where no group is concerned, a move into another state than READY changes nothing in GRP. -/
theorem memberChanged_alone {p : Port} {old new : PortState} {s : State} (hn : new ≠ .ready)
    (h : ∀ g : Group, breaksArm (s.group g).arm p old new = false ∧ reachableMember s g p = false) :
    memberChanged p old new s = s := by
  have one : ∀ g : Group, groupReact g p old new s = s := by
    intro g
    have hj : joinWatched g p new s = s := by simp [joinWatched, hn]
    simp [groupReact, hj, (h g).1, slotReact, (h g).2]
  unfold memberChanged
  generalize allGroups = l
  induction l with
  | nil => rfl
  | cons x l ih => rw [List.foldl_cons, one, ih]

/-! ### The entries -/

/-- The part of a rest that touches only the port's own record. -/
theorem changeState_spec (p : Port) (new : PortState) (s : State) :
    (changeState p new s).port p =
      { s.port p with state := new, charge := stateCharge (s.port p).draws new } ∧
    (∀ q, q ≠ p → (changeState p new s).port q = s.port q) ∧
    (changeState p new s).adm =
      { s.adm with
        committed := s.adm.committed.set (domainOf p) (domainCharge (changeState p new s) (domainOf p)) } ∧
    (changeState p new s).tbm = s.tbm ∧ (changeState p new s).mga = s.mga ∧
    (changeState p new s).phase = s.phase ∧ (changeState p new s).pending = s.pending := by
  have h := Heard.memberChanged p (s.port p).state new (setState p new s)
  have hs : ∀ q, (setState p new s).port q =
      if q = p then { s.port p with state := new, charge := stateCharge (s.port p).draws new } else s.port q := by
    intro q
    unfold setState
    dsimp only
    split <;> simp only [State.owe_port, recommit_port, State.modPort_port]
  have ha : (setState p new s).adm =
      { s.adm with
        committed := s.adm.committed.set (domainOf p) (domainCharge (setState p new s) (domainOf p)) } := by
    unfold setState
    dsimp only
    split <;> rfl
  have hd : domainCharge (changeState p new s) (domainOf p) = domainCharge (setState p new s) (domainOf p) :=
    domainCharge_congr (fun q => by rw [show (changeState p new s).port q = _ from h.port q]) _
  refine ⟨?_, fun q hq => ?_, ?_, ?_, ?_, ?_, ?_⟩
  · rw [show (changeState p new s).port p = _ from h.port p, hs, if_pos rfl]
  · rw [show (changeState p new s).port q = _ from h.port q, hs, if_neg hq]
  · rw [hd, show (changeState p new s).adm = _ from h.adm, ha]
  · rw [show (changeState p new s).tbm = _ from h.tbm]; unfold setState; dsimp only; split <;> rfl
  · rw [show (changeState p new s).mga = _ from h.mga]; unfold setState; dsimp only; split <;> rfl
  · rw [show (changeState p new s).phase = _ from h.phase]; unfold setState; dsimp only; split <;> rfl
  · rw [show (changeState p new s).pending = _ from h.pending]; unfold setState; dsimp only; split <;> rfl

/-- Where no group is concerned, a change of state touches the port, its domain's committed charge, and owes a scan where
the charge falls. -/
theorem changeState_alone {p : Port} {new : PortState} {s : State} (hn : new ≠ .ready) (h : s.unwatched p new) :
    (changeState p new s).groups = s.groups ∧ (changeState p new s).evu = s.evu ∧
    (changeState p new s).uplink = s.uplink ∧ (changeState p new s).cells = s.cells ∧
    (changeState p new s).free = s.free ∧
    (changeState p new s).owed =
      s.owed ++ if stateCharge (s.port p).draws new < (s.port p).charge then [.scan] else [] := by
  have hp : ∀ q, ((setState p new s).port q).park = (s.port q).park := by
    intro q
    unfold setState
    dsimp only
    split <;> simp only [State.owe_port, recommit_port, State.modPort_port] <;> split <;> simp_all
  have hg : ∀ g, (setState p new s).group g = s.group g := by
    intro g
    unfold setState
    dsimp only
    split <;> rfl
  have : changeState p new s = setState p new s := by
    refine memberChanged_alone hn fun g => ?_
    have := h g
    simp only [reachableMember, hg] at this ⊢
    exact this
  rw [this]
  unfold setState
  dsimp only
  split <;> simp_all [recommit]

/-- What happens to a port record before its state changes to a resting one. -/
def PortRec.stopped (r : PortRec) : PortRec :=
  { r with
    feed := false, linkUp := false, wakeLine := false
    op := { r.op with kind := .none, phase := .none, countdown := 0, pulse := none }
    probe := { r.probe with running := false, countdown := 0, outstanding := none, misses := 0 }
    egress := Egress.empty, releasing := false, idle := 0, deepIdle := 0, link := 0
    proxies := Vector.replicate 4 ProxyControl.free }

/-- What an update of port records, cells, the free list and ADM leaves alone. -/
structure Local (s t : State) : Prop where
  pending : t.pending = s.pending
  phase : t.phase = s.phase
  owed : t.owed = s.owed
  tbm : t.tbm = s.tbm
  mga : t.mga = s.mga
  groups : t.groups = s.groups
  evu : t.evu = s.evu
  uplink : t.uplink = s.uplink

theorem Local.trans {s t u : State} (h : Local s t) (k : Local t u) : Local s u :=
  ⟨k.pending.trans h.pending, k.phase.trans h.phase, k.owed.trans h.owed, k.tbm.trans h.tbm,
    k.mga.trans h.mga, k.groups.trans h.groups, k.evu.trans h.evu, k.uplink.trans h.uplink⟩

theorem Local.modPort (s : State) (p : Port) (f : PortRec → PortRec) : Local s (s.modPort p f) :=
  ⟨rfl, rfl, rfl, rfl, rfl, rfl, rfl, rfl⟩

theorem Local.modAdm (s : State) (f : Adm → Adm) : Local s (s.modAdm f) := ⟨rfl, rfl, rfl, rfl, rfl, rfl, rfl, rfl⟩

theorem Local.group {s t : State} (h : Local s t) (g : Group) : t.group g = s.group g := by simp [State.group, h.groups]

theorem Local.discardTx (p : Port) (s : State) : Local s (discardTx p s) := by
  rw [(discardTx_spec p s).2.2.2]; exact ⟨rfl, rfl, rfl, rfl, rfl, rfl, rfl, rfl⟩

theorem discardTx_adm (p : Port) (s : State) : (discardTx p s).adm = s.adm := by rw [(discardTx_spec p s).2.2.2]

theorem Local.discardHold (p : Port) (s : State) : Local s (discardHold p s) := by
  rw [(discardHold_spec p s).2.2.2]; exact ⟨rfl, rfl, rfl, rfl, rfl, rfl, rfl, rfl⟩

theorem discardHold_adm (p : Port) (s : State) : (discardHold p s).adm = s.adm := by
  rw [(discardHold_spec p s).2.2.2]

/-- What is done to the port before its state becomes ASLEEP. -/
theorem beforeAsleep_spec (p : Port) (s : State) :
    ∃ c : State,
      c = (s |> feedOff p |> endOperation p |> stopProbing p |> clearProxies p |> discardTx p |> stopRelease p
        |> stopTimers p) ∧
      c.port p = { (s.port p).stopped with
        counts := (s.port p).counts.discarding (s.port p).egress.queue.length } ∧
      (∀ q, q ≠ p → c.port q = s.port q) ∧
      (∀ x, (c.cell x).refs = (s.cell x).refs - (s.port p).egress.queue.countP (·.cell = x) ∧
        (c.cell x).data = (s.cell x).data) ∧ c.adm = s.adm ∧ Local s c := by
  refine ⟨_, rfl, ?_, fun q hq => ?_, fun x => ?_, ?_, ?_⟩
  · simp only [stopTimers, stopRelease, State.modPort_port_same]
    rw [(discardTx_spec p _).1]
    simp only [feedOff, endOperation, stopProbing, clearProxies, State.modPort_port_same]
    rfl
  · simp only [stopTimers, stopRelease, State.modPort_modPort]
    rw [State.modPort_port_ne _ _ hq, (discardTx_spec p _).2.1 q hq]
    simp only [feedOff, endOperation, stopProbing, clearProxies, State.modPort_modPort]
    exact State.modPort_port_ne _ _ hq
  · have h := (discardTx_spec p (s |> feedOff p |> endOperation p |> stopProbing p |> clearProxies p)).2.2.1 x
    have e : ((s |> feedOff p |> endOperation p |> stopProbing p |> clearProxies p).port p).egress.queue =
        (s.port p).egress.queue := by
      simp only [feedOff, endOperation, stopProbing, clearProxies, State.modPort_port_same]
    rw [e] at h
    simp only [stopTimers, stopRelease, feedOff, endOperation, stopProbing, clearProxies, State.modPort_cell] at h ⊢
    exact h
  · simp only [stopTimers, stopRelease, State.modPort_adm, discardTx_adm, clearProxies, stopProbing, endOperation, feedOff]
  · exact ((((((Local.modPort _ _ _).trans (Local.modPort _ _ _)).trans (Local.modPort _ _ _)).trans
      (Local.modPort _ _ _)).trans (Local.discardTx _ _)).trans (Local.modPort _ _ _)).trans (Local.modPort _ _ _)

/-- The entry into ASLEEP does what R15 says. -/
theorem enterAsleep_spec (p : Port) (s : State) : EntersAsleep p s (enterAsleep p s) := by
  obtain ⟨c, hc, pcp, pc, cc, ac, lc⟩ := beforeAsleep_spec p s
  have hd := changeState_spec p .asleep c
  have hr : enterAsleep p s =
      if (s.port p).state = .ready && anyWaking s p && !(s.port p).park then
        (changeState p .asleep c).owe (.need .traffic p) else changeState p .asleep c := by rw [hc]; rfl
  have pd : ∀ q, q ≠ p → (changeState p .asleep c).port q = s.port q := fun q hq => by rw [hd.2.1 q hq, pc q hq]
  have pdp : (changeState p .asleep c).port p = (s.port p).rested .asleep := by rw [hd.1, pcp]; rfl
  have unw : s.unwatched p .asleep → c.unwatched p .asleep := by
    intro h g
    have := h g
    simp only [reachableMember, lc.group, pcp] at this ⊢
    exact this
  have alone := fun h => changeState_alone (p := p) (new := .asleep) (s := c) (by decide) (unw h)
  have broken : ∀ g : Group, (s.group g).arm.armed = true → (s.group g).arm.intact = true →
      hasPort (s.group g).arm.watched p = true → (s.port p).state = .ready →
      ((changeState p .asleep c).group g).arm.intact = false ∧
      ((changeState p .asleep c).group g).arm.watched = 0 ∧
      ((changeState p .asleep c).group g).arm.breakReported = true := by
    intro g h1 h2 h3 h4
    have hg : (setState p .asleep c).group g = s.group g := by
      have : (setState p .asleep c).groups = c.groups := by unfold setState; dsimp only; split <;> rfl
      simp only [State.group, this, lc.groups]
    refine memberChanged_broken (s := setState p .asleep c) (by decide) (hg ▸ h1) (hg ▸ h2) ?_
    rw [hg, pcp]
    simp [breaksArm, h3, show (s.port p).stopped.state = .ready from h4]
  clear hc
  generalize changeState p .asleep c = d at *
  have port : ∀ q, (enterAsleep p s).port q = d.port q := by intro q; rw [hr]; split <;> rfl
  refine ⟨by rw [port, pdp], fun q hq => by rw [port, pd q hq], ?_, ⟨?_, ?_, ?_, ?_⟩, fun g h1 h2 h3 h4 => ?_,
    fun h => ?_⟩
  · have e : (enterAsleep p s).adm = d.adm := by rw [hr]; split <;> rfl
    rw [e, hd.2.2.1, ac, domainCharge_congr (s := d) (t := enterAsleep p s) (fun q => by rw [port])]
  · have e : (enterAsleep p s).tbm = d.tbm := by rw [hr]; split <;> rfl
    rw [e, hd.2.2.2.1, lc.tbm]
  · have e : (enterAsleep p s).mga = d.mga := by rw [hr]; split <;> rfl
    rw [e, hd.2.2.2.2.1, lc.mga]
  · have e : (enterAsleep p s).phase = d.phase := by rw [hr]; split <;> rfl
    rw [e, hd.2.2.2.2.2.1, lc.phase]
  · have e : (enterAsleep p s).pending = d.pending := by rw [hr]; split <;> rfl
    rw [e, hd.2.2.2.2.2.2, lc.pending]
  · have e : (enterAsleep p s).group g = d.group g := by rw [hr]; split <;> rfl
    rw [e]
    exact broken g h1 h2 h3 h4
  · have k := alone h
    have e : (enterAsleep p s).groups = d.groups ∧ (enterAsleep p s).evu = d.evu ∧
        (enterAsleep p s).uplink = d.uplink ∧ (enterAsleep p s).cells = d.cells := by
      rw [hr]; split <;> exact ⟨rfl, rfl, rfl, rfl⟩
    refine ⟨e.1.trans (k.1.trans lc.groups), e.2.1.trans (k.2.1.trans lc.evu), e.2.2.1.trans (k.2.2.1.trans lc.uplink),
      fun x => ?_, ?_⟩
    · have : (enterAsleep p s).cell x = c.cell x := by simp only [State.cell, e.2.2.2, k.2.2.2.1]
      rw [this]; exact cc x
    · have hch : (c.port p).charge = (s.port p).charge := by rw [pcp]; rfl
      have hd' : d.owed = s.owed ++ if 0 < (s.port p).charge then [.scan] else [] := by
        rw [k.2.2.2.2.2, lc.owed, hch]
        rfl
      rw [hr]
      by_cases hn : ((s.port p).state = .ready && anyWaking s p && !(s.port p).park) = true
      · have hn' : (s.port p).state = .ready ∧ anyWaking s p ∧ (s.port p).park = false := by
          simpa [and_assoc] using hn
        rw [if_pos hn, State.owe_owed, hd']
        congr 1
        exact (if_pos hn').symm
      · have hn' : ¬ ((s.port p).state = .ready ∧ anyWaking s p ∧ (s.port p).park = false) := by
          simpa [and_assoc] using hn
        rw [if_neg hn, hd']
        refine (List.append_nil _).symm.trans ?_
        congr 1
        exact (if_neg hn').symm

/-- What is done to the port before its state becomes DISABLED or FAULTED. -/
theorem beforeShut_spec (p : Port) (s : State) :
    ∃ c : State,
      c = (s |> feedOff p |> endOperation p |> stopProbing p |> discardHold p |> discardTx p |> stopRelease p
        |> removeWake p |> removeSchedule p |> clearProxies p |> stopTimers p) ∧
      c.port p = { (s.port p).stopped with
        hold := [],
        counts := (s.port p).counts.discarding ((s.port p).hold.length + (s.port p).egress.queue.length) } ∧
      (∀ q, q ≠ p → c.port q = s.port q) ∧
      (∀ x, (c.cell x).refs = (s.cell x).refs - (s.port p).hold.countP (·.cell = x) -
          (s.port p).egress.queue.countP (·.cell = x) ∧ (c.cell x).data = (s.cell x).data) ∧
      c.adm = { s.adm with
        wakeQueue := s.adm.wakeQueue.filter (·.port ≠ p), schedule := s.adm.schedule.filter (·.port ≠ p) } ∧
      Local s c := by
  have hq : ((s |> feedOff p |> endOperation p |> stopProbing p |> discardHold p).port p).egress.queue =
      (s.port p).egress.queue := by
    show ((discardHold p (s |> feedOff p |> endOperation p |> stopProbing p)).port p).egress.queue = _
    rw [(discardHold_spec p _).1]
    simp only [feedOff, endOperation, stopProbing, State.modPort_port_same]
  have hh : ((s |> feedOff p |> endOperation p |> stopProbing p).port p).hold = (s.port p).hold := by
    simp only [feedOff, endOperation, stopProbing, State.modPort_port_same]
  have hl : Local s (s |> feedOff p |> endOperation p |> stopProbing p |> discardHold p |> discardTx p) :=
    ((((Local.modPort _ _ _).trans (Local.modPort _ _ _)).trans (Local.modPort _ _ _)).trans
      (Local.discardHold _ _)).trans (Local.discardTx _ _)
  refine ⟨_, rfl, ?_, fun q hq => ?_, fun x => ?_, ?_, ?_⟩
  · simp only [stopTimers, stopRelease, clearProxies, removeWake, removeSchedule, State.modPort_port_same,
      State.modAdm_port]
    rw [(discardTx_spec p _).1, (discardHold_spec p _).1]
    simp only [feedOff, endOperation, stopProbing, State.modPort_port_same, PortRec.stopped, Counts.discarding]
    simp [← Function.iterate_add_apply, Nat.add_comm]
  · simp only [stopTimers, stopRelease, clearProxies, removeWake, removeSchedule, State.modPort_modPort,
      State.modAdm_port, State.modPort_port_ne _ _ hq]
    rw [(discardTx_spec p _).2.1 q hq, (discardHold_spec p _).2.1 q hq]
    simp only [feedOff, endOperation, stopProbing, State.modPort_modPort]
    exact State.modPort_port_ne _ _ hq
  · have h1 := (discardTx_spec p (s |> feedOff p |> endOperation p |> stopProbing p |> discardHold p)).2.2.1 x
    have h2 := (discardHold_spec p (s |> feedOff p |> endOperation p |> stopProbing p)).2.2.1 x
    rw [hq] at h1
    rw [hh] at h2
    simp only [stopTimers, stopRelease, removeWake, removeSchedule, feedOff, endOperation, stopProbing, clearProxies,
      State.modPort_cell, State.modAdm_cell] at h1 h2 ⊢
    rw [h1.1, h1.2, h2.1, h2.2]
    exact ⟨rfl, rfl⟩
  · simp only [stopTimers, stopRelease, clearProxies, removeWake, removeSchedule, State.modPort_adm, State.modAdm_adm,
      discardTx_adm, discardHold_adm, stopProbing, endOperation, feedOff]
  · exact ((((hl.trans (Local.modPort _ _ _)).trans (Local.modAdm _ _)).trans (Local.modAdm _ _)).trans
      (Local.modPort _ _ _)).trans (Local.modPort _ _ _)

/-- The shutting down of a port (R6, R7). -/
theorem shutDown_spec {p : Port} {st : PortState} (hst : st = .disabled ∨ st = .faulted) (s : State) :
    ShutsDown p st id id s (shutDown p st s) := by
  obtain ⟨c, hc, pcp, pc, cc, ac, lc⟩ := beforeShut_spec p s
  have hd := changeState_spec p st c
  have hr : shutDown p st s = changeState p st c := by rw [hc]; rfl
  have hne : st ≠ .ready := by rcases hst with e | e <;> rw [e] <;> decide
  have h0 : ∀ d : Draws, stateCharge d st = 0 := by rcases hst with e | e <;> rw [e] <;> exact fun _ => rfl
  have hg : ∀ g, c.group g = s.group g := fun g => lc.group g
  have hgs : ∀ g, (setState p st c).group g = s.group g := by
    intro g
    have : (setState p st c).groups = c.groups := by unfold setState; dsimp only; split <;> rfl
    simp only [State.group, this, lc.groups]
  have unw : s.unwatched p st → c.unwatched p st := by
    intro h g
    have := h g
    simp only [reachableMember, hg, pcp] at this ⊢
    exact this
  rw [hr]
  refine ⟨?_, fun q hq => ?_, ?_, ⟨?_, ?_, ?_, ?_⟩, fun g h1 h2 h3 => ?_, fun h => ?_⟩
  · rw [hd.1, pcp, h0]; rfl
  · rw [hd.2.1 q hq, pc q hq]
  · rw [hd.2.2.1, ac]
  · rw [hd.2.2.2.1, lc.tbm]
  · rw [hd.2.2.2.2.1, lc.mga]
  · rw [hd.2.2.2.2.2.1, lc.phase]
  · rw [hd.2.2.2.2.2.2, lc.pending]
  · refine memberChanged_broken (s := setState p st c) hne ((hgs g).symm ▸ h1) ((hgs g).symm ▸ h2) ?_
    rw [hgs]
    rcases hst with e | e <;> simp [breaksArm, h3, e]
  · have k := changeState_alone (p := p) (new := st) (s := c) hne (unw h)
    refine ⟨changeState p st c, rfl, k.1.trans lc.groups, k.2.1.trans lc.evu, k.2.2.1.trans lc.uplink, fun x => ?_, ?_⟩
    · have : (changeState p st c).cell x = c.cell x := by simp only [State.cell, k.2.2.2.1]
      rw [this]; exact cc x
    · have hch : (c.port p).charge = (s.port p).charge := by rw [pcp]; rfl
      rw [k.2.2.2.2.2, lc.owed, hch, h0]

/-- A shutting down with a change of the port's record alone, and an event after it, that its charge does not depend on. -/
theorem ShutsDown.after {p : Port} {st : PortState} {s u : State} (h : ShutsDown p st id id s u)
    {change : PortRec → PortRec} (hc : ∀ r, (change r).charge = r.charge) (event : State → State)
    (he : ∀ t, Quiet t (event t)) (hb : ∀ t, (event t).tbm = t.tbm) :
    ShutsDown p st change event s (event (u.modPort p change)) := by
  have q := he (u.modPort p change)
  refine ⟨?_, fun r hr => ?_, ?_, ⟨?_, ?_, ?_, ?_⟩, fun g h1 h2 h3 => ?_, fun hu => ?_⟩
  · rw [q.port, State.modPort_port_same, h.port]; rfl
  · rw [q.port, State.modPort_port_ne _ _ hr, h.others r hr]
  · rw [q.adm, State.modPort_adm, h.adm]
    have hd : domainCharge (event (u.modPort p change)) (domainOf p) = domainCharge u (domainOf p) := by
      refine domainCharge_congr (fun r => ?_) _
      rw [q.port, State.modPort_port]
      split
      · rename_i e; rw [hc, e]
      · rfl
    rw [hd]
  · rw [hb, State.modPort_tbm, h.rest.1]
  · rw [q.mga, State.modPort_mga, h.rest.2.1]
  · rw [q.phase, State.modPort_phase, h.rest.2.2.1]
  · rw [q.pending, State.modPort_pending, h.rest.2.2.2]
  · rw [q.group, State.modPort_group]; exact h.broken g h1 h2 h3
  · obtain ⟨v, e, h1, h2, h3, h4, h5⟩ := h.alone hu
    have e : u = v := e
    subst e
    exact ⟨_, rfl, h1, h2, h3, h4, h5⟩

/-- The entry into FAULTED does what R7 says. -/
theorem enterFaulted_spec {p : Port} {code : FaultCode} {s : State} (h : (s.port p).state ≠ .faulted) :
    ShutsDown p .faulted
      (fun r => { r with fault := some (FaultRecord.mk code (s.port p).state (s.port p).op.faultMethod
        (s.port p).op.faultAttempts) })
      (raise .portFault (Detail.port p code.code)) s (enterFaulted p code s) := by
  let record : FaultRecord :=
    { code := code, stateAt := (s.port p).state, method := (s.port p).op.faultMethod,
      attempts := (s.port p).op.faultAttempts }
  have e : enterFaulted p code s = raise .portFault (Detail.port p code.code)
      ((shutDown p .faulted s).modPort p fun r => { r with fault := some record }) := if_neg h
  rw [e]
  exact (shutDown_spec (.inr rfl) s).after (change := fun r => { r with fault := some record }) (fun _ => rfl)
    (raise .portFault (Detail.port p code.code)) (fun t => Quiet.raise _ _ t) (fun t => raise_tbm _ _ t)

/-- A port that is FAULTED already is not faulted again (R7). -/
theorem enterFaulted_faulted {p : Port} {code : FaultCode} {s : State} (h : (s.port p).state = .faulted) :
    enterFaulted p code s = s := if_pos h

/-- The entry into DISABLED does what R6 says. -/
theorem enterDisabled_spec (p : Port) (s : State) :
    ShutsDown p .disabled (fun r => { r with senseFilter := none, station := none }) id s (enterDisabled p s) :=
  (shutDown_spec (.inl rfl) s).after (change := fun r => { r with senseFilter := none, station := none }) (fun _ => rfl) id
    Quiet.refl fun _ => rfl

end Sys2Proof.Machine
end

