-- ==== Sys2Proof/Laws/Fields.lean ====
section
/-! SUPPORT. Numbers as big-endian fields, and records as fields one after the other: what is built is read back (Table 9-4) -/

namespace Sys2Proof.Machine

set_option Elab.async false

@[simp] theorem natBE_length (w n) : (natBE w n).length = w := by
  induction w generalizing n with
  | zero => rfl
  | succ w ih => simp [natBE, ih]

theorem beNat_append (a b : List Byte) : beNat (a ++ b) = beNat a * 256 ^ b.length + beNat b := by
  induction b using List.reverseRecOn with
  | nil => simp [beNat]
  | append_singleton b x ih =>
    rw [← List.append_assoc]
    have : ∀ (l : List Byte) (x : Byte), beNat (l ++ [x]) = beNat l * 256 + x.toNat := by intro l x; simp [beNat]
    rw [this, this, ih]; simp [pow_succ]; ring

/-- A number that fits its field is read back. -/
theorem beNat_natBE (w n : Nat) (h : n < 256 ^ w) : beNat (natBE w n) = n := by
  induction w generalizing n with
  | zero => simp at h; subst h; rfl
  | succ w ih =>
    rw [natBE, beNat_append, ih _ (by rw [pow_succ] at h; omega)]
    simp [beNat]; omega

/-- Bytes are built back from their number. -/
theorem natBE_beNat (bs : List Byte) (w) (h : bs.length = w) : natBE w (beNat bs) = bs := by
  induction bs using List.reverseRecOn generalizing w with
  | nil => subst h; rfl
  | append_singleton b x ih =>
    subst h
    simp only [List.length_append, List.length_singleton]
    rw [natBE, beNat_append]
    have : beNat [x] = x.toNat := by simp [beNat]
    rw [this]
    have h1 : (beNat b * 256 ^ [x].length + x.toNat) / 256 = beNat b := by simp; have := x.isLt; omega
    rw [h1, ih _ rfl]
    congr 2
    simp
    apply BitVec.eq_of_toNat_eq
    simp; exact x.isLt

theorem beNat_lt (bs : List Byte) : beNat bs < 256 ^ bs.length := by
  induction bs using List.reverseRecOn with
  | nil => simp [beNat]
  | append_singleton b x ih => rw [beNat_append]; simp [beNat, pow_succ] at ih ⊢; have := x.isLt; omega

/-- Fields that fit their sizes are split as they were joined. -/
theorem splitFields_joinFields : ∀ (ks vs : List Nat), ks.length = vs.length → (∀ x ∈ ks.zip vs, x.2 < 256 ^ x.1) → splitFields ks (joinFields ks vs) = vs
  | [], vs, h, _ => by cases vs; rfl; cases h
  | k :: ks, [], h, _ => by cases h
  | k :: ks, v :: vs, h, hv => by
    have e : joinFields (k :: ks) (v :: vs) = natBE k v ++ joinFields ks vs := rfl
    rw [e, splitFields]
    rw [List.take_left' (natBE_length k v), List.drop_left' (natBE_length k v), beNat_natBE _ _ (hv (k, v) (by simp)), splitFields_joinFields ks vs (by simpa using h) (fun x hx => hv x (by simp [hx]))]

end Sys2Proof.Machine
end

