-- ==== Sys2Proof/Laws/Requests.lean ====
section
/-! SUPPORT. What the performing of the head request does (R147, R148), and what a command does that may not be due. -/

namespace Sys2Proof.Machine

set_option Elab.async false

/-- A head request that passes every check is performed: its effect, what follows from it, then its response (R148). -/
theorem performHead_accepts {row : Row} {r : Request} {rest : List Request} {s : State} (h : s.Accepts row r rest)
    (eff : Request → State → Performed) : performHead row eff s =
      finishRequest r rest (eff r s).1 (eff r s).2.1 (settle (eff r s).2.2) := by
  simp [performHead, mayPerform, h.running, h.free, h.head, h.row, performed, h.passes]

/-- The same for a command on the port of its index. -/
theorem performPort_accepts {c : PortCommand} {r : Request} {rest : List Request} {s : State}
    (h : s.Accepts (.port c) r rest) (eff : Port → State → Status × State) : performPort c eff s =
      finishRequest r rest (eff r.port s).1 [] (settle (eff r.port s).2) := by
  rw [performPort, performHead_accepts h]; rfl

/-- The same for a command on the group of its index. -/
theorem performGroup_accepts {c : GroupCommand} {r : Request} {rest : List Request} {s : State}
    (h : s.Accepts (.group c) r rest) (eff : Group → Request → State → Performed) : performGroup c eff s =
      finishRequest r rest (eff r.group r s).1 (eff r.group r s).2.1 (settle (eff r.group r s).2.2) := by
  rw [performGroup, performHead_accepts h]

/-- The index of a request names port p. -/
theorem Request.port_eq {r : Request} {p : Port} (h : natAt r.body 7 1 = p.val) : r.port = p := by
  unfold Request.port Request.index; rw [h]; simp
/-- The index of a request names group p. -/
theorem Request.group_eq {r : Request} {p : Group} (h : natAt r.body 7 1 = p.val) : r.group = p := by
  unfold Request.group Request.index; rw [h]; simp

/-- A head request that a check refuses is answered with that status and has no effect (R148). -/
theorem performHead_refused {row : Row} {r : Request} {rest : List Request} {s : State} {st : Status} (h : s.Serves row r rest)
    (hr : requestRefusal r = some st)
    (eff : Request → State → Performed) : performHead row eff s =
      finishRequest r rest st [] s := by
  simp [performHead, mayPerform, h.running, h.free, h.head, h.row, performed, hr, settle_of_owed h.settled]

/-- With no request, with a restart awaited, or with another row's request at the head, nothing is performed (log 4). -/
theorem performHead_idle {row : Row} {s : State} 
    (h : s.mga.fifo = [] ∨ s.mga.restart ≠ none ∨ (∃ r ∈ s.mga.fifo.head?, rowServes row r = false))
    (eff : Request → State → Performed) : performHead row eff s = s := by
  unfold performHead mayPerform
  split
  · rename_i h1
    split
    · rfl
    · rename_i r rest e
      rcases h with h | h | ⟨r', h2, h⟩
      · simp [e] at h
      · simp [Option.isNone_iff_eq_none] at h1; exact absurd h1.2 h
      · simp [e] at h2; subst h2; simp [h]
  · rfl

/-- The head request of a row that passes every check is the one that a later part of the outcome belongs to. -/
theorem headPassed_accepts {row : Row} {r : Request} {rest : List Request} {s : State} (h : s.Accepts row r rest) :
    headPassed row s = some r := by
  simp [headPassed, mayPerform, h.running, h.free, h.head, h.row, h.passes]

/-- As `performPort_accepts`, with the part of the outcome that comes after the response (R155). -/
theorem performPortThen_accepts {c : PortCommand} {r : Request} {rest : List Request} {s : State}
    (h : s.Accepts (.port c) r rest) (eff : Port → State → Status × State) (later : Port → State → State → State) :
    performPortThen c eff later s =
      later r.port s (finishRequest r rest (eff r.port s).1 [] (settle (eff r.port s).2)) := by
  simp only [performPortThen, performHeadThen, headPassed_accepts h]
  rw [performHead_accepts h]; rfl

/-- A head request that a check refuses has no later part. -/
theorem performPortThen_refused {c : PortCommand} {r : Request} {rest : List Request} {s : State} {st : Status}
    (h : s.Serves (.port c) r rest) (hr : requestRefusal r = some st) (eff : Port → State → Status × State)
    (later : Port → State → State → State) : performPortThen c eff later s = finishRequest r rest st [] s := by
  simp only [performPortThen, performHeadThen, headPassed, h.head, hr, List.head?_cons, Option.filter_some,
    Option.isNone_some, Bool.and_false, performHead_refused h hr]
  rfl

/-- What is not performed has no later part (log 4). -/
theorem performPortThen_idle {c : PortCommand} {s : State}
    (h : s.mga.fifo = [] ∨ s.mga.restart ≠ none ∨ (∃ r ∈ s.mga.fifo.head?, rowServes (.port c) r = false))
    (eff : Port → State → Status × State) (later : Port → State → State → State) :
    performPortThen c eff later s = s := by
  have e : headPassed (.port c) s = none := by
    unfold headPassed mayPerform
    rcases h with h | h | ⟨r, h2, h⟩
    · simp [h]
    · cases k : s.mga.restart with
      | none => exact absurd k h
      | some x => simp
    · cases k : s.mga.fifo with
      | nil => simp [k] at h2
      | cons x l => simp [k] at h2; subst h2; simp [h]
  simp only [performPortThen, performHeadThen, e, performHead_idle h]

/-- A due command has its effect. -/
theorem whenDue_pos {d : State → Bool} {e : State → State} {s : State} (h : d s = true) : whenDue d e s = e s := by simp [whenDue, h]
/-- A command that is not due has none (log 1). -/
theorem whenDue_neg {d : State → Bool} {e : State → State} {s : State} (h : ¬ d s = true) : whenDue d e s = s := by simp [whenDue, h]

end Sys2Proof.Machine
end

