-- ==== Sys2Proof/Laws/Groups.lean ====
section
/-! SUPPORT. What raising an event and clearing an arm do (R131, R161): one lemma says all of it. -/

namespace Sys2Proof.Machine

set_option Elab.async false

/-- Restarting the idle timers of several ports touches the READY ones among them and nothing else. -/
theorem fold_idle (l : List Port) (s : State) :
   let t := l.foldl (fun s p => restartIdle p s) s
   (∀ q, t.port q = { s.port q with idle := if q ∈ l ∧ (s.port q).state = .ready then 0 else (s.port q).idle }) ∧ t = { s with ports := t.ports } := by
  induction l generalizing s with
  | nil => exact ⟨fun q => by simp, rfl⟩
  | cons x l ih =>
    obtain ⟨h1, h2⟩ := ih (restartIdle x s)
    refine ⟨fun q => ?_, ?_⟩
    · simp only [List.foldl_cons]
      rw [h1 q]
      unfold restartIdle
      rw [State.modPort_port]
      by_cases e : q = x
      · subst e
        by_cases k : (s.port q).state = .ready <;> simp [k]
      · simp [e]
    · simp only [List.foldl_cons]
      rw [h2]; rfl

/-- The ports of a set. -/
theorem portList_mem (m : PortSet) (q : Port) : q ∈ portList m ↔ hasPort m q = true := by
  simp [portList, allPorts, List.mem_finRange]

/-- A raised event stands pending with its detail record (R161). -/
theorem raise_event (e : Event) (d : Detail) (s : State) : (raise e d s).evu.events[e.num].pending = true ∧ (raise e d s).evu.events[e.num].detail = some d := by
  have hj : ∀ u : State, (judgeNotice u).evu.events = u.evu.events := by
    intro u; unfold judgeNotice; split
    · rfl
    · unfold originate; split <;> rename_i h <;> revert h <;> split <;> (try split) <;> intro h <;> cases h <;> rfl
  have : ∀ u : State, (raise e d s).evu.events = u.evu.events → u.evu.events[e.num].pending = true → u.evu.events[e.num].detail = some d → (raise e d s).evu.events[e.num].pending = true ∧ (raise e d s).evu.events[e.num].detail = some d := by
    intro u h h1 h2
    simp only [h]; exact ⟨h1, h2⟩
  refine this (s.modEvu fun v => { v with events := v.events.set e.num { s.evu.events[e.num] with pending := true, detail := some d } }) ?_ ?_ ?_
  · unfold raise; dsimp only; split
    · exact hj _
    · rfl
  · simp [State.modEvu]
  · simp [State.modEvu]

/-- All that clearing an armed group does (R131): its arm, its schedule entries, its members' idle timers, and its strict trigger. -/
theorem clearArm_spec (g : Group) (s : State) (h : (s.group g).arm.armed = true) :
  let u := clearArm g s
  let a := (s.group g).arm
  let x := (s.group g).slot
  (u.group g).arm = { a with armed := false, intact := false, hold := 0, target := none, members := 0, watched := 0 } ∧
      u.adm = { s.adm with schedule := s.adm.schedule.filter (·.group ≠ g) } ∧
      (∀ q : Port, u.port q = { s.port q with
      idle := if hasPort a.members q = true ∧ (s.port q).state = .ready then 0 else (s.port q).idle }) ∧ (∀ h : Group, h ≠ g → u.group h = s.group h) ∧
      u.tbm = s.tbm ∧ u.mga = s.mga ∧ u.phase = s.phase ∧ u.pending = s.pending ∧ u.owed = s.owed ∧
      (x.pending = false ∨ x.strict = false → (u.group g).slot = x ∧ u.evu = s.evu ∧ u.cells = s.cells ∧
        u.free = s.free ∧ u.uplink = s.uplink) ∧
      (x.pending = true ∧ x.strict = true →
        (u.group g).slot = { x with pending := false, delivered := 0, missed := x.members, outcome := .refused } ∧
        u.evu.events[Event.triggerRefused.num].pending = true ∧
        u.evu.events[Event.triggerRefused.num].detail = some ⟨some g.val, 0, 0⟩) := by
  intro u a x
  let t := (portList a.members).foldl (fun s p => restartIdle p s) (removeSchedulesOf g (s.modArm g fun a =>
      { a with armed := false, intact := false, hold := 0, target := none, members := 0, watched := 0 }))
  obtain ⟨t1, t2⟩ := fold_idle (portList a.members) (removeSchedulesOf g (s.modArm g fun a =>
      { a with armed := false, intact := false, hold := 0, target := none, members := 0, watched := 0 }))
  have hu : u = refuseStrict g t := by
    show clearArm g s = _
    simp [clearArm, h]; rfl
  have tg : ∀ h, t.group h = if h = g then { s.group g with arm := { a with armed := false, intact := false, hold := 0, target := none, members := 0, watched := 0 } } else s.group h := by
    intro h
    show t.groups[h] = _
    rw [show t = _ from t2]
    show (removeSchedulesOf g _).group h = _
    simp [removeSchedulesOf, State.modArm, State.modGroup_group]
    split
    · rename_i e; subst e; rfl
    · rfl
  have tx : (t.group g).slot = x := by rw [tg]; simp; rfl
  by_cases b : x.pending = true ∧ x.strict = true
  · have e : u = raise .triggerRefused (Detail.group g) (dropTrigger g .refused t) := by
      rw [hu]; unfold refuseStrict; rw [tx]; simp [b.1, b.2]
    have hh : Heard t u := by rw [hu]; exact Heard.refuseStrict g t
    have ug : ∀ h, u.group h = (dropTrigger g .refused t).group h := by intro h; rw [e]; exact (Quiet.raise _ _ _).group h
    refine ⟨?_, ?_, ?_, ?_, ?_, ?_, ?_, ?_, ?_, ?_, ?_⟩
    · rw [ug]; simp [dropTrigger, endTrigger, State.modSlot, tg]
    · rw [hh.adm, show t = _ from t2]; rfl
    · intro q; rw [hh.port, show t.port q = _ from t1 q]; simp [portList_mem, removeSchedulesOf, State.modArm]
    · intro h hn; rw [ug]; simp [dropTrigger, endTrigger, State.modSlot, State.modGroup_group, tg, hn]
    · rw [hh.tbm, show t = _ from t2]; rfl
    · rw [hh.mga, show t = _ from t2]; rfl
    · rw [hh.phase, show t = _ from t2]; rfl
    · rw [hh.pending, show t = _ from t2]; rfl
    · rw [e, raise_owed]; simp [dropTrigger, endTrigger]; rw [show t = _ from t2]; rfl
    · intro c; rcases c with c | c <;> simp [b] at c
    · intro _
      refine ⟨?_, ?_⟩
      · rw [ug]; simp [dropTrigger, endTrigger, State.modSlot, tx]
      · rw [e]; exact raise_event _ _ _
  · have e : u = t := by
      rw [hu]; unfold refuseStrict; rw [tx, if_neg]; simpa using b
    rw [e]
    refine ⟨?_, ?_, ?_, ?_, ?_, ?_, ?_, ?_, ?_, ?_, ?_⟩
    · rw [tg]; simp
    · rw [show t = _ from t2]; rfl
    · intro q; rw [show t.port q = _ from t1 q]; simp [portList_mem, removeSchedulesOf, State.modArm]
    · intro h hn; simp [tg, hn]
    · rw [show t = _ from t2]; rfl
    · rw [show t = _ from t2]; rfl
    · rw [show t = _ from t2]; rfl
    · rw [show t = _ from t2]; rfl
    · rw [show t = _ from t2]; rfl
    · intro _; exact ⟨tx, by rw [show t = _ from t2]; rfl, by rw [show t = _ from t2]; rfl, by rw [show t = _ from t2]; rfl, by rw [show t = _ from t2]; rfl⟩
    · intro c; exact absurd c b

/-- Clearing an arm hands nothing on. -/
theorem clearArm_owed (g : Group) (s : State) : (clearArm g s).owed = s.owed := by
  by_cases h : (s.group g).arm.armed = true
  · exact (clearArm_spec g s h).2.2.2.2.2.2.2.2.1
  · simp [clearArm, h]

/-- The consequences of a poisoned group hand nothing on. -/
theorem groupPoisoned_owed (g : Group) (s : State) : (groupPoisoned g s).owed = s.owed := by
  unfold groupPoisoned; dsimp only; rw [clearArm_owed]; split
  · simp [dropTrigger, endTrigger]
  · rfl

/-- GRP's read of a group entry hands nothing on. -/
theorem readGroup_owed (g : Group) (s : State) : (readGroup g s).2.owed = s.owed := by
  have h := readGroupEntry_owed g s
  unfold readGroup; split <;> rename_i e <;> rw [e] at h
  · rw [groupPoisoned_owed]; exact h
  · exact h

end Sys2Proof.Machine
end

