-- ==== Sys2Proof/Laws/Hear.lean ====
section
/-! SUPPORT. What every group makes of a member's move (R120, R121, R130, R131): one lemma for the hearing of one group, one
for all groups, and what the moves and entries of Machine/Ports.lean hand on by them. -/

namespace Sys2Proof.Machine

set_option Elab.async false

/-! ### Events -/

theorem judgeNotice_events (s : State) : (judgeNotice s).evu.events = s.evu.events := by
  unfold judgeNotice
  split
  · rfl
  · unfold originate
    split <;> rename_i h <;> revert h <;> split <;> (try split) <;> intro h <;> cases h <;> rfl

/-- A raise replaces the flag and the record of its own event (R160). -/
theorem raise_events (e : Event) (d : Detail) (s : State) :
    (raise e d s).evu.events =
      s.evu.events.set e.num { s.evu.events[e.num] with pending := true, detail := some d } := by
  unfold raise
  dsimp only
  split
  · rw [judgeNotice_events]; rfl
  · rfl

/-- The record of event e after another event, or none, has been raised. -/
theorem raise_other {e f : Event} (h : f.num ≠ e.num) (d : Detail) (s : State) :
    (raise e d s).evu.events[f.num] = s.evu.events[f.num] := by
  simp only [raise_events]
  have : (e.num : Nat) ≠ (f.num : Nat) := fun k => h (Fin.ext k.symm)
  simp [this]

theorem raise_same (e : Event) (d : Detail) (s : State) :
    (raise e d s).evu.events[e.num] = { s.evu.events[e.num] with pending := true, detail := some d } := by
  simp only [raise_events]
  simp

/-! ### One group -/

/-- The hearing of group g: its record, what is handed on, and the two events that it may raise. -/
structure Reacts (g : Group) (p : Port) (old new : PortState) (s t : State) : Prop where
  heard : Heard s t
  own : t.group g = { s.group g with
    arm := (s.group g).armAfter p old new, slot := (s.group g).slotAfter p (s.port p).park old new }
  others : ∀ h : Group, h ≠ g → t.group h = s.group h
  owed : t.owed = s.owed ++ (s.group g).handsOn g p (s.port p).park old new
  broken : t.evu.events[Event.armBroken.num] =
    if (s.group g).arm.broken p old new && !(s.group g).arm.breakReported then
      { s.evu.events[Event.armBroken.num] with pending := true, detail := some ⟨some g.val, 0, onlyPort p⟩ }
    else s.evu.events[Event.armBroken.num]
  refused : t.evu.events[Event.triggerRefused.num] =
    if (s.group g).refuses p old new then
      { s.evu.events[Event.triggerRefused.num] with pending := true, detail := some ⟨some g.val, 0, 0⟩ }
    else s.evu.events[Event.triggerRefused.num]

theorem refuseStrict_own (g : Group) (s : State) :
    (refuseStrict g s).group g = { s.group g with
      slot := if (s.group g).slot.pending && (s.group g).slot.strict then
        { (s.group g).slot with pending := false, delivered := 0, missed := (s.group g).slot.members, outcome := .refused }
        else (s.group g).slot } ∧
    (refuseStrict g s).owed = s.owed ∧
    (refuseStrict g s).evu.events[Event.armBroken.num] = s.evu.events[Event.armBroken.num] ∧
    (refuseStrict g s).evu.events[Event.triggerRefused.num] =
      if (s.group g).slot.pending && (s.group g).slot.strict then
        { s.evu.events[Event.triggerRefused.num] with pending := true, detail := some ⟨some g.val, 0, 0⟩ }
      else s.evu.events[Event.triggerRefused.num] := by
  unfold refuseStrict
  split
  · rename_i h
    refine ⟨?_, ?_, ?_, ?_⟩
    · simp [dropTrigger, endTrigger, State.modSlot]
    · simp [dropTrigger, endTrigger]
    · rw [raise_other (by decide)]; simp [dropTrigger, endTrigger, State.modSlot]
    · rw [raise_same]; simp [dropTrigger, endTrigger, State.modSlot, Detail.group]
  · exact ⟨rfl, rfl, rfl, rfl⟩

/-- The break of an arm (R130, R131). -/
theorem breakArm_own (g : Group) (w : PortSet) (s : State) :
    let x := (s.group g).slot
    let a := (s.group g).arm
    (breakArm g w s).group g = (if a.armed && a.intact then { s.group g with
      arm := { a with intact := false, watched := 0, breakReported := true }
      slot := if x.pending && x.strict then
        { x with pending := false, delivered := 0, missed := x.members, outcome := .refused } else x }
      else s.group g) ∧
    (breakArm g w s).owed = s.owed ∧
    (breakArm g w s).evu.events[Event.armBroken.num] =
      (if a.armed && a.intact && !a.breakReported then
        { s.evu.events[Event.armBroken.num] with pending := true, detail := some ⟨some g.val, 0, w⟩ }
      else s.evu.events[Event.armBroken.num]) ∧
    (breakArm g w s).evu.events[Event.triggerRefused.num] =
      if a.armed && a.intact && x.pending && x.strict then
        { s.evu.events[Event.triggerRefused.num] with pending := true, detail := some ⟨some g.val, 0, 0⟩ }
      else s.evu.events[Event.triggerRefused.num] := by
  intro x a
  unfold breakArm
  by_cases h : (a.armed && a.intact) = true
  · rw [if_pos h]
    dsimp only
    have hb : ((s.modArm g fun a => { a with intact := false, watched := 0 }).group g).arm.breakReported =
        a.breakReported := by simp [State.modArm, a]
    rw [hb]
    by_cases hr : a.breakReported = true
    · rw [if_pos hr]
      obtain ⟨h1, h2, h3, h4⟩ := refuseStrict_own g (s.modArm g fun a => { a with intact := false, watched := 0 })
      have hs : ((s.modArm g fun a => { a with intact := false, watched := 0 }).group g).slot = x := by
        simp [State.modArm, x]
      rw [hs] at h1 h4
      refine ⟨?_, ?_, ?_, ?_⟩
      · rw [h1, if_pos h]; simp [State.modArm, a, ← hr]
      · rw [h2]; rfl
      · rw [h3]; simp [h, hr]; rfl
      · rw [h4]; simp [h]; rfl
    · rw [if_neg hr]
      obtain ⟨h1, h2, h3, h4⟩ := refuseStrict_own g (raise .armBroken (Detail.group g 0 w)
        ((s.modArm g fun a => { a with intact := false, watched := 0 }).modArm g fun a => { a with breakReported := true }))
      have hs : ((raise .armBroken (Detail.group g 0 w)
        ((s.modArm g fun a => { a with intact := false, watched := 0 }).modArm g fun a =>
          { a with breakReported := true })).group g).slot = x := by
        simp [State.modArm, x]
      rw [hs] at h1 h4
      refine ⟨?_, ?_, ?_, ?_⟩
      · rw [h1, if_pos h]; simp [State.modArm, a]
      · rw [h2]; simp
      · rw [h3, raise_same]; simp [h, hr, Detail.group]; rfl
      · rw [h4, raise_other (by decide)]; simp [h]; rfl
  · rw [if_neg h]
    exact ⟨(if_neg h).symm, rfl, by simp [h], by simp [h]⟩

/-- What the slot makes of a member's entry into `new` (R120, R121). -/
theorem slotReact_own (g : Group) (p : Port) (new : PortState) (s : State) :
    (slotReact g p new s).group g = { s.group g with
      slot := if (s.group g).reaches p && losesReach (s.port p).park new then
        { (s.group g).slot with unreachable := (s.group g).slot.unreachable ||| onlyPort p } else (s.group g).slot } ∧
    (slotReact g p new s).owed = s.owed ++
      (if (s.group g).reaches p then
        if losesReach (s.port p).park new then [.reevaluate g]
        else if needsAgain (s.port p).park new then [.need .rendezvous p] else []
      else []) ∧
    (slotReact g p new s).evu = s.evu := by
  have hr : reachableMember s g p = (s.group g).reaches p := rfl
  unfold slotReact
  rw [hr]
  by_cases h : (s.group g).reaches p = true
  · cases new <;> cases hk : (s.port p).park <;>
      simp [h, losesReach, needsAgain, markUnreachable, State.modSlot]
  · simp [h]

theorem groupReact_reacts (g : Group) (p : Port) (old new : PortState) (s : State) :
    Reacts g p old new s (groupReact g p old new s) := by
  have heard := Heard.groupReact g p old new s
  have others := fun h hn => groupReact_group_ne (g := g) (h := h) hn p old new s
  suffices k : _ ∧ _ ∧ _ ∧ _ from ⟨heard, k.1, others, k.2.1, k.2.2.1, k.2.2.2⟩
  unfold groupReact
  dsimp only
  by_cases hn : new = .ready
  · subst hn
    have hb : breaksArm (s.group g).arm p old .ready = false := by simp [breaksArm]
    have hbr : (s.group g).arm.broken p old .ready = false := by simp [ArmRecord.broken]
    have hrf : (s.group g).refuses p old .ready = false := by simp [GroupRec.refuses, hbr]
    rw [hb, if_neg (by simp)]
    obtain ⟨h1, h2, h3⟩ := slotReact_own g p .ready (joinWatched g p .ready s)
    have hj : (joinWatched g p .ready s).group g = { s.group g with arm := (s.group g).armAfter p old .ready } := by
      unfold joinWatched GroupRec.armAfter
      dsimp only
      by_cases hc : ((s.group g).arm.armed && (s.group g).arm.intact && hasPort (s.group g).arm.members p) = true
      · simp [hc, State.modArm]
      · simp [hc]
    have hjo : (joinWatched g p .ready s).owed = s.owed := by unfold joinWatched; dsimp only; split <;> rfl
    have hje : (joinWatched g p .ready s).evu = s.evu := by unfold joinWatched; dsimp only; split <;> rfl
    refine ⟨?_, ?_, ?_, ?_⟩
    · rw [h1, hj]
      have : ∀ b, losesReach b .ready = false := by decide
      simp [this, GroupRec.slotAfter, hrf]
    · rw [h2, hjo]
      have h4 : ∀ b, losesReach b .ready = false := by decide
      have h5 : ∀ b, needsAgain b .ready = false := by decide
      simp [h4, h5, GroupRec.handsOn]
    · simp only [h3, hje]; simp [hbr]
    · simp only [h3, hje]; simp [hrf]
  · have hj : joinWatched g p new s = s := by simp [joinWatched, hn]
    rw [hj]
    have hbr : (s.group g).arm.broken p old new =
        ((s.group g).arm.armed && (s.group g).arm.intact && breaksArm (s.group g).arm p old new) := rfl
    by_cases hb : breaksArm (s.group g).arm p old new = true
    · rw [if_pos hb]
      obtain ⟨b1, b2, b3, b4⟩ := breakArm_own g (onlyPort p) s
      obtain ⟨h1, h2, h3⟩ := slotReact_own g p new (breakArm g (onlyPort p) s)
      have hp : (breakArm g (onlyPort p) s).port p = s.port p := (Heard.breakArm _ _ _).port p
      rw [hp, b1] at h1 h2
      rw [hb, Bool.and_true] at hbr
      by_cases ha : ((s.group g).arm.armed && (s.group g).arm.intact) = true
      · rw [ha] at hbr
        rw [if_pos ha] at h1 h2
        by_cases hx : ((s.group g).slot.pending && (s.group g).slot.strict) = true
        · have hrf : (s.group g).refuses p old new = true := by
            rw [GroupRec.refuses, hbr, Bool.true_and]; exact hx
          rw [if_pos hx] at h1 h2
          refine ⟨?_, ?_, ?_, ?_⟩
          · rw [h1]; simp [GroupRec.reaches, GroupRec.armAfter, GroupRec.slotAfter, hn, hbr, hrf]
          · rw [h2, b2]; simp [GroupRec.reaches, GroupRec.handsOn, hrf]
          · simp only [h3, b3, ha, hbr]
          · simp only [h3, b4, hrf]; rw [Bool.and_assoc, hx, ha]; rfl
        · have hrf : (s.group g).refuses p old new = false := by
            rw [GroupRec.refuses, hbr, Bool.true_and]; simpa using hx
          rw [if_neg hx] at h1 h2
          refine ⟨?_, ?_, ?_, ?_⟩
          · rw [h1]; simp [GroupRec.reaches, GroupRec.armAfter, GroupRec.slotAfter, hn, hbr, hrf]
          · rw [h2, b2]; simp [GroupRec.reaches, GroupRec.handsOn, hrf]
          · simp only [h3, b3, ha, hbr]
          · simp only [h3, b4, hrf]; rw [Bool.and_assoc, ha, Bool.true_and, if_neg hx]; simp
      · have ha' : ((s.group g).arm.armed && (s.group g).arm.intact) = false := by simpa using ha
        rw [ha'] at hbr
        rw [if_neg ha] at h1 h2
        have hrf : (s.group g).refuses p old new = false := by simp [GroupRec.refuses, hbr]
        refine ⟨?_, ?_, ?_, ?_⟩
        · rw [h1]; simp [GroupRec.armAfter, GroupRec.slotAfter, hn, hbr, hrf]
        · rw [h2, b2]; simp [GroupRec.handsOn, hrf]
        · simp only [h3, b3, ha', hbr]
        · simp only [h3, b4, hrf, ha']; simp
    · rw [if_neg hb]
      have hb' : breaksArm (s.group g).arm p old new = false := by simpa using hb
      rw [hb', Bool.and_false] at hbr
      have hrf : (s.group g).refuses p old new = false := by simp [GroupRec.refuses, hbr]
      obtain ⟨h1, h2, h3⟩ := slotReact_own g p new s
      refine ⟨?_, ?_, ?_, ?_⟩
      · rw [h1]; simp [GroupRec.armAfter, GroupRec.slotAfter, hn, hbr, hrf]
      · rw [h2]; simp [GroupRec.handsOn, hrf]
      · simp only [h3, hbr]; simp
      · simp only [h3, hrf]; simp

/-! ### All groups -/

/-- All that the groups make of the move of one port. -/
theorem memberChanged_hears (p : Port) (old new : PortState) (s : State) :
    GroupsHear p old new [] [] s (memberChanged p old new s) := by
  suffices H : ∀ (l : List Group), l.Pairwise (· < ·) → ∀ s : State,
      let t := l.foldl (fun s g => groupReact g p old new s) s
      (∀ g : Group, t.group g = if g ∈ l then { s.group g with
        arm := (s.group g).armAfter p old new, slot := (s.group g).slotAfter p (s.port p).park old new }
        else s.group g) ∧
      t.owed = s.owed ++ (l.flatMap fun g => (s.group g).handsOn g p (s.port p).park old new) ∧
      ((∀ g ∈ l, ¬ ((s.group g).arm.broken p old new = true ∧ (s.group g).arm.breakReported = false)) →
        t.evu.events[Event.armBroken.num] = s.evu.events[Event.armBroken.num]) ∧
      (∀ g ∈ l, (s.group g).arm.broken p old new = true → (s.group g).arm.breakReported = false →
        t.evu.events[Event.armBroken.num].pending = true ∧
        ((∀ h ∈ l, g < h → (s.group h).arm.broken p old new = true → (s.group h).arm.breakReported = true) →
          t.evu.events[Event.armBroken.num].detail = some ⟨some g.val, 0, onlyPort p⟩)) ∧
      ((∀ g ∈ l, (s.group g).refuses p old new = false) →
        t.evu.events[Event.triggerRefused.num] = s.evu.events[Event.triggerRefused.num]) ∧
      (∀ g ∈ l, (s.group g).refuses p old new = true →
        t.evu.events[Event.triggerRefused.num].pending = true ∧
        ((∀ h ∈ l, g < h → (s.group h).refuses p old new = false) →
          t.evu.events[Event.triggerRefused.num].detail = some ⟨some g.val, 0, 0⟩)) by
    obtain ⟨h1, h2, -, h4, -, h6⟩ := H allGroups (by decide) s
    have mem : ∀ g : Group, g ∈ allGroups := fun g => List.mem_finRange g
    refine ⟨fun g => ?_, ?_, fun g a b => ?_, fun g a => ?_⟩
    · have := h1 g; rw [if_pos (mem g)] at this; exact this
    · rw [List.append_nil, List.append_nil]; exact h2
    · exact ⟨(h4 g (mem g) a b).1, fun k => (h4 g (mem g) a b).2 fun h _ => k h⟩
    · exact ⟨(h6 g (mem g) a).1, fun k => (h6 g (mem g) a).2 fun h _ => k h⟩
  intro l
  induction l with
  | nil => intro _ s; simp
  | cons x l ih =>
    intro hl s t
    obtain ⟨hx, hl⟩ := List.pairwise_cons.1 hl
    have r := groupReact_reacts x p old new s
    obtain ⟨i1, i2, i3, i4, i5, i6⟩ := ih hl (groupReact x p old new s)
    have ne : ∀ g ∈ l, g ≠ x := fun g hg e => absurd (hx g hg) (by rw [e]; exact lt_irrefl x)
    have same : ∀ g ∈ l, (groupReact x p old new s).group g = s.group g := fun g hg => r.others g (ne g hg)
    have hp : (groupReact x p old new s).port p = s.port p := r.heard.port p
    have ht : t = l.foldl (fun s g => groupReact g p old new s) (groupReact x p old new s) := rfl
    rw [← ht] at i1 i2 i3 i4 i5 i6
    refine ⟨fun g => ?_, ?_, fun k => ?_, fun g hg a b => ?_, fun k => ?_, fun g hg a => ?_⟩
    · rw [i1, hp]
      by_cases hg : g ∈ l
      · rw [if_pos hg, if_pos (List.mem_cons_of_mem _ hg), same g hg]
      · rw [if_neg hg]
        by_cases e : g = x
        · rw [if_pos (by rw [e]; exact List.mem_cons_self), e]; exact r.own
        · rw [if_neg (by simp [e, hg]), r.others g e]
    · rw [i2, r.owed, List.flatMap_cons, List.append_assoc, hp]
      congr 2
      exact List.flatMap_congr fun g hg => by rw [same g hg]
    · rw [i3 fun g hg => by rw [same g hg]; exact k g (List.mem_cons_of_mem _ hg), r.broken]
      have := k x List.mem_cons_self
      rw [if_neg]
      simpa using this
    · rcases List.mem_cons.1 hg with e | hg
      · subst e
        have hr := r.broken
        rw [if_pos (by simp [a, b])] at hr
        by_cases later : ∃ h ∈ l, (s.group h).arm.broken p old new = true ∧ (s.group h).arm.breakReported = false
        · obtain ⟨h, m, c, d⟩ := later
          refine ⟨(i4 h m (by rw [same h m]; exact c) (by rw [same h m]; exact d)).1, fun k => ?_⟩
          have := k h (List.mem_cons_of_mem _ m) (hx h m) c
          rw [d] at this; cases this
        · have e := i3 fun h m => by rw [same h m]; exact fun c => later ⟨h, m, c⟩
          rw [e, hr]
          exact ⟨rfl, fun _ => rfl⟩
      · have := i4 g hg (by rw [same g hg]; exact a) (by rw [same g hg]; exact b)
        exact ⟨this.1, fun k => this.2 fun h m lt c => by
          rw [same h m] at c ⊢; exact k h (List.mem_cons_of_mem _ m) lt c⟩
    · rw [i5 fun g hg => by rw [same g hg]; exact k g (List.mem_cons_of_mem _ hg), r.refused]
      rw [if_neg (by rw [k x List.mem_cons_self]; simp)]
    · rcases List.mem_cons.1 hg with e | hg
      · subst e
        have hr := r.refused
        rw [if_pos a] at hr
        by_cases later : ∃ h ∈ l, (s.group h).refuses p old new = true
        · obtain ⟨h, m, c⟩ := later
          refine ⟨(i6 h m (by rw [same h m]; exact c)).1, fun k => ?_⟩
          have := k h (List.mem_cons_of_mem _ m) (hx h m)
          rw [c] at this; cases this
        · have e := i5 fun h m => by
            rw [same h m]; by_contra c; exact later ⟨h, m, by simpa using c⟩
          rw [e, hr]
          exact ⟨rfl, fun _ => rfl⟩
      · have := i6 g hg (by rw [same g hg]; exact a)
        exact ⟨this.1, fun k => this.2 fun h m lt => by
          rw [same h m]; exact k h (List.mem_cons_of_mem _ m) lt⟩

/-! ### The moves and entries -/

/-- A hearing told from a state that agrees with s on what the groups look at. -/
theorem GroupsHear.of {p : Port} {old new : PortState} {c s t u : State} {before after : List Work}
    (h : GroupsHear p old new [] [] c t) (hg : ∀ g, c.group g = s.group g) (hp : (c.port p).park = (s.port p).park)
    (ho : c.owed = s.owed ++ before) (ug : ∀ g, u.group g = t.group g) (uo : u.owed = t.owed ++ after)
    (ub : u.evu.events[Event.armBroken.num] = t.evu.events[Event.armBroken.num])
    (ur : u.evu.events[Event.triggerRefused.num] = t.evu.events[Event.triggerRefused.num]) :
    GroupsHear p old new before after s u where
  group g := by rw [ug, h.group, hg, hp]
  owed := by rw [uo, h.owed]; simp only [hg, hp, ho, List.append_nil, List.append_assoc]
  armBroken g a b := by
    have := h.armBroken g (by rw [hg]; exact a) (by rw [hg]; exact b)
    simp only [hg] at this
    rw [ub]; exact this
  refused g a := by
    have := h.refused g (by rw [hg]; exact a)
    simp only [hg] at this
    rw [ur]; exact this

theorem setState_hears (p : Port) (new : PortState) (s : State) :
    (∀ g, (setState p new s).group g = s.group g) ∧ ((setState p new s).port p).park = (s.port p).park ∧
    (setState p new s).evu = s.evu ∧
    (setState p new s).owed =
      s.owed ++ if stateCharge (s.port p).draws new < (s.port p).charge then [.scan] else [] := by
  unfold setState
  dsimp only
  split
  · exact ⟨fun _ => rfl, by simp, rfl, by simp [State.owe, recommit]⟩
  · exact ⟨fun _ => rfl, by simp, rfl, by simp [recommit]⟩

/-- The move of a port (R1): what its groups make of it, after the scan that a fall of its charge hands on. -/
theorem changeState_hears (p : Port) (new : PortState) (s : State) :
    GroupsHear p (s.port p).state new
      (if stateCharge (s.port p).draws new < (s.port p).charge then [.scan] else []) [] s (changeState p new s) :=
  have h := setState_hears p new s
  (memberChanged_hears p (s.port p).state new (setState p new s)).of h.1 h.2.1 h.2.2.2 (fun _ => rfl)
    (List.append_nil _).symm rfl rfl

/-- The entry into ASLEEP (R15). -/
theorem enterAsleep_hears (p : Port) (s : State) :
    GroupsHear p (s.port p).state .asleep (if 0 < (s.port p).charge then [.scan] else [])
      (if (s.port p).state = .ready ∧ anyWaking s p = true ∧ (s.port p).park = false then [.need .traffic p] else [])
      s (enterAsleep p s) := by
  obtain ⟨c, hc, pcp, -, -, -, lc⟩ := beforeAsleep_spec p s
  have hr : enterAsleep p s =
      if (s.port p).state = .ready && anyWaking s p && !(s.port p).park then
        (changeState p .asleep c).owe (.need .traffic p) else changeState p .asleep c := by rw [hc]; rfl
  have st : (c.port p).state = (s.port p).state := by rw [pcp]; rfl
  have h := memberChanged_hears p (c.port p).state .asleep (setState p .asleep c)
  have k := setState_hears p .asleep c
  rw [show memberChanged p (c.port p).state .asleep (setState p .asleep c) = changeState p .asleep c from rfl, st] at h
  refine h.of (fun g => (k.1 g).trans (lc.group g)) (by rw [k.2.1, pcp]; rfl) ?_ (fun g => ?_) ?_ ?_ ?_
  · rw [k.2.2.2, lc.owed, pcp]; rfl
  · rw [hr]; split <;> rfl
  · rw [hr]
    by_cases hn : ((s.port p).state = .ready && anyWaking s p && !(s.port p).park) = true
    · rw [if_pos hn, if_pos (by simpa [and_assoc] using hn)]; rfl
    · rw [if_neg hn, if_neg (by simpa [and_assoc] using hn), List.append_nil]
  · rw [hr]; split <;> rfl
  · rw [hr]; split <;> rfl

/-- What the entries into FAULTED and DISABLED have in common (R6, R7). -/
theorem shutDown_hears {p : Port} {st : PortState} (hst : st = .disabled ∨ st = .faulted) (s : State) :
    GroupsHear p (s.port p).state st (if 0 < (s.port p).charge then [.scan] else []) [] s (shutDown p st s) := by
  obtain ⟨c, hc, pcp, -, -, -, lc⟩ := beforeShut_spec p s
  have hr : shutDown p st s = changeState p st c := by rw [hc]; rfl
  have h0 : ∀ d : Draws, stateCharge d st = 0 := by rcases hst with e | e <;> rw [e] <;> exact fun _ => rfl
  have old : (c.port p).state = (s.port p).state := by rw [pcp]; rfl
  have h := memberChanged_hears p (c.port p).state st (setState p st c)
  have k := setState_hears p st c
  rw [show memberChanged p (c.port p).state st (setState p st c) = changeState p st c from rfl, old] at h
  refine h.of (fun g => (k.1 g).trans (lc.group g)) (by rw [k.2.1, pcp]; rfl) ?_ (fun g => by rw [hr])
    (by rw [hr, List.append_nil]) (by rw [hr]) (by rw [hr])
  rw [k.2.2.2, lc.owed, pcp, h0]; rfl

/-- The entry into FAULTED (R7), with its event. -/
theorem enterFaulted_hears {p : Port} {code : FaultCode} {s : State} (h : (s.port p).state ≠ .faulted) :
    GroupsHear p (s.port p).state .faulted (if 0 < (s.port p).charge then [.scan] else []) [] s (enterFaulted p code s) ∧
    (enterFaulted p code s).evu.events[Event.portFault.num].pending = true ∧
    (enterFaulted p code s).evu.events[Event.portFault.num].detail = some ⟨some p.val, code.code, 0⟩ := by
  let record : FaultRecord :=
    { code := code, stateAt := (s.port p).state, method := (s.port p).op.faultMethod,
      attempts := (s.port p).op.faultAttempts }
  have e : enterFaulted p code s = raise .portFault (Detail.port p code.code)
      ((shutDown p .faulted s).modPort p fun r => { r with fault := some record }) := if_neg h
  have k := shutDown_hears (p := p) (st := .faulted) (.inr rfl) s
  rw [e]
  refine ⟨⟨fun g => ?_, ?_, fun g a b => ?_, fun g a => ?_⟩, ?_⟩
  · rw [raise_group]; exact k.group g
  · rw [raise_owed]; exact k.owed
  · rw [raise_other (by decide)]; exact k.armBroken g a b
  · rw [raise_other (by decide)]; exact k.refused g a
  · rw [raise_same]; exact ⟨rfl, rfl⟩

/-- The entry into DISABLED (R6). -/
theorem enterDisabled_hears (p : Port) (s : State) :
    GroupsHear p (s.port p).state .disabled (if 0 < (s.port p).charge then [.scan] else []) [] s (enterDisabled p s) :=
  have k := shutDown_hears (p := p) (st := .disabled) (.inl rfl) s
  ⟨k.group, k.owed, k.armBroken, k.refused⟩

/-! ### A move into READY -/

theorem joinWatched_eq (g : Group) (p : Port) (st : PortState) (s : State) :
    ∃ gs, joinWatched g p st s = { s with groups := gs } := by
  unfold joinWatched
  dsimp only
  split
  · exact ⟨_, rfl⟩
  · exact ⟨s.groups, rfl⟩

theorem slotReact_ready (g : Group) (p : Port) (s : State) : slotReact g p .ready s = s := by
  unfold slotReact
  split <;> rfl

theorem groupReact_ready (g : Group) (p : Port) (old : PortState) (s : State) :
    groupReact g p old .ready s = joinWatched g p .ready s := by
  have hb : breaksArm (s.group g).arm p old .ready = false := by simp [breaksArm]
  unfold groupReact
  dsimp only
  rw [hb, slotReact_ready, if_neg (by simp)]

theorem foldl_groupReact_ready (p : Port) (old : PortState) (l : List Group) (s : State) :
    ∃ gs, l.foldl (fun s g => groupReact g p old .ready s) s = { s with groups := gs } := by
  induction l generalizing s with
  | nil => exact ⟨s.groups, rfl⟩
  | cons a l ih =>
    obtain ⟨gs, h3⟩ := joinWatched_eq a p .ready s
    obtain ⟨gs', h4⟩ := ih (groupReact a p old .ready s)
    refine ⟨gs', ?_⟩
    rw [List.foldl_cons, h4, groupReact_ready, h3]

/-- A move into READY hands nothing on to the groups and raises no event: it touches the arm records alone. -/
theorem changeState_ready (p : Port) (s : State) : ∃ gs, changeState p .ready s = { setState p .ready s with groups := gs } := by
  unfold changeState memberChanged
  exact foldl_groupReact_ready p _ allGroups _

end Sys2Proof.Machine
end

