-- ==== Sys2Proof/Laws/Placing.lean ====
section
/-! SUPPORT. What placing an originated frame, looking a wake need up, one move of a release, the passes of a scan and the
counting of a frame with no cell do. -/

namespace Sys2Proof.Machine

set_option Elab.async false

/-- With no free cell a response is lost and counted (R149). -/
theorem respond_empty (r st pl) (s : State) (h : s.free = []) : respond r st pl s = (.noCell, s.modMga fun m => { m with responsesLost := bump m.responsesLost }) := by
  unfold respond originate; simp [h]

/-- With a full uplink queue a response is lost, its cell back on the free list (R149, log 10). -/
theorem respond_full (r st pl) (s : State) (c free) (h : s.free = c :: free) (k : 32 ≤ s.uplink.egress.queue.length) : respond r st pl s = (.queueFull, ({ s with free := free ++ [c] } : State).modMga fun m => { m with responsesLost := bump m.responsesLost }) := by
  unfold respond originate; simp [h, txFull, State.egress, k, Config.txDepth]

/-- A read of a template hands nothing on. -/
theorem readPresent_owed (p k) (s : State) : (readPresent p k s).2.owed = s.owed := by
  have h := readTemplate_owed (templateIndex p k) s
  unfold readPresent; split <;> rename_i e <;> rw [e] at h <;> exact h

/-- An originated frame takes the head cell and joins the tail of the transmit queue (R89). -/
theorem originate_room (e bs) (s : State) (c free) (h : s.free = c :: free) (k : (s.egress e).queue.length < 32) :
   originate e bs s = (.placed c, appendTx e ⟨c, bs.length, none⟩ (storeCell c bs { s with free := free })) := by
  have : ¬ 32 ≤ (s.egress e).queue.length := by omega
  simp [originate, h, txFull, Config.txDepth, this]

/-- With a free cell and room, the response is stored and queued (R149). -/
theorem respond_room (r st pl) (s : State) (c free) (h : s.free = c :: free) (k : s.uplink.egress.queue.length < 32) : respond r st pl s = (.placed c, appendTx .uplink ⟨c, (responseFrame r st pl s.mga.factory).length, none⟩ (storeCell c (responseFrame r st pl s.mga.factory) { s with free := free })) := by
  have k' : (s.egress .uplink).queue.length < 32 := k
  unfold respond; rw [originate_room _ _ _ _ _ h k']

/-- An update that keeps a record keeps the state. -/
theorem modPort_self (s : State) (p : Port) (f : PortRec → PortRec) (h : f (s.port p) = s.port p) : s.modPort p f = s := by
  have : s.modPort p f = s.modPort p id := modPort_congr h
  rw [this]; simp [State.modPort]

/-- When ADM takes a wake need of a port (R56). -/
theorem takesNeed_iff (s : State) (p : Port) : takesNeed s p = true ↔ (s.port p).state = .pausing ∨ ((s.port p).state = .paused ∨ (s.port p).state = .asleep) ∧ (s.port p).park = false := by
  unfold takesNeed; cases h : (s.port p).state <;> simp [h]

/-- No wake-queue entry of port p. -/
theorem wakeEntry_none {s : State} {p : Port} : wakeEntry? s p = none ↔ ∀ e ∈ s.adm.wakeQueue, e.port ≠ p := by
  simp [wakeEntry?]

/-- No schedule entry of port p. -/
theorem schedEntry_none {s : State} {p : Port} : scheduleEntry? s p = none ↔ ∀ e ∈ s.adm.schedule, e.port ≠ p := by
  simp [scheduleEntry?]

/-- One move of a release step, as the port sees it (R96). -/
theorem moveHeld_port (p : Port) (h : HoldEntry) (rest : List HoldEntry) (s : State) :
  (moveHeld p h rest s).port p = { s.port p with
     hold := rest, egress := { (s.port p).egress with queue := (s.port p).egress.queue ++ [⟨h.cell, h.length, none⟩] }
     counts := { (s.port p).counts with released := bump (s.port p).counts.released, forwardedDown := bump (s.port p).counts.forwardedDown }
     idle := if h.activity = true ∧ (s.port p).state = .ready then 0 else (s.port p).idle } := by
  unfold moveHeld appendTx
  dsimp only
  split
  · rename_i a
    simp [restartIdle, State.modEgress, addRef, State.modCounts, a]
    split <;> rename_i b <;> simp [b]
  · rename_i a
    simp [State.modEgress, addRef, State.modCounts, a]

/-- One move of a release step changes the port alone: the cell keeps its count (R88, R96). -/
theorem moveHeld_rest (p : Port) (h : HoldEntry) (rest : List HoldEntry) (s : State) (hc : 0 < (s.cell h.cell).refs) :
  moveHeld p h rest s = s.modPort p fun _ => (moveHeld p h rest s).port p := by
  rw [moveHeld_port]
  unfold moveHeld appendTx
  dsimp only
  have e : dropRef h.cell (State.modPort (addRef h.cell (s.modEgress (.camera p) fun x => { x with queue := x.queue ++ [⟨h.cell, h.length, none⟩] })) p fun r => { r with hold := rest })
     = s.modPort p fun r => { r with hold := rest, egress := { r.egress with queue := r.egress.queue ++ [⟨h.cell, h.length, none⟩] } } := by
    rw [addRef_modPort]
    rw [dropRef_addRef]
    · simp [State.modEgress, State.modPort_modPort]
    · simpa [State.modEgress] using hc
  rw [e]
  split
  · rename_i a
    simp only [restartIdle, State.modCounts, State.modPort_modPort]
    apply modPort_congr
    split <;> rename_i b <;> simp [a, b]
  · rename_i a
    simp only [State.modCounts, State.modPort_modPort]
    apply modPort_congr
    simp [a]

/-- An originated frame that finds no cell or no room (R88, R89; log 10). -/
theorem originate_lost (e bs) (s : State) (k : s.free = [] ∨ 32 ≤ (s.egress e).queue.length) :
   originate e bs s = (if s.free = [] then .noCell else .queueFull, { s with free := s.free.tail ++ s.free.head?.toList }) := by
  unfold originate
  cases hf : s.free with
  | nil => simp only [if_true, List.tail_nil, List.head?_nil, Option.toList_none, List.append_nil]; rw [← hf]
  | cons c rest =>
    rw [hf] at k
    have : txFull s e = true := by have k := k.resolve_left (by simp); simp only [txFull, Config.txDepth]; exact decide_eq_true k
    simp [this]

/-- The ports passed over in a scan (R61). -/
theorem mem_passedOver (ad : List Port) (l : List WakeEntry) (p : Port) : p ∈ passedOver ad l ↔ p ∉ ad ∧ ∃ (before after : List WakeEntry) (e : WakeEntry), l = before ++ e :: after ∧ e.port = p ∧ ∃ x ∈ after, domainOf x.port = domainOf p ∧ x.port ∈ ad := by
  induction l with
  | nil => simp [passedOver]
  | cons a l ih =>
    have : (∃ (before after : List WakeEntry) (e : WakeEntry), a :: l = before ++ e :: after ∧ e.port = p ∧ ∃ x ∈ after, domainOf x.port = domainOf p ∧ x.port ∈ ad) ↔
      (a.port = p ∧ ∃ x ∈ l, domainOf x.port = domainOf p ∧ x.port ∈ ad) ∨ ∃ (before after : List WakeEntry) (e : WakeEntry), l = before ++ e :: after ∧ e.port = p ∧ ∃ x ∈ after, domainOf x.port = domainOf p ∧ x.port ∈ ad := by
      constructor
      · rintro ⟨b, af, e, h, h2⟩
        cases b with
        | nil => simp at h; obtain ⟨rfl, rfl⟩ := h; exact .inl h2
        | cons y b => simp at h; exact .inr ⟨b, af, e, h.2, h2⟩
      · rintro (h | ⟨b, af, e, h, h2⟩)
        · exact ⟨[], l, a, rfl, h⟩
        · exact ⟨a :: b, af, e, by rw [h]; rfl, h2⟩
    rw [this, and_or_left, ← ih]
    generalize hg : passedOver ad l = gl
    unfold passedOver
    dsimp only
    rw [hg]
    split
    · rename_i h
      simp at h
      simp only [List.mem_cons]
      constructor
      · rintro (rfl | h2)
        · exact .inl ⟨h.1, rfl, by simpa using h.2⟩
        · exact .inr h2
      · rintro (h2 | h2)
        · exact .inl h2.2.1.symm
        · exact .inr h2
    · rename_i h
      constructor
      · exact .inr
      · rintro (⟨h1, rfl, h2⟩ | h2)
        · exfalso; apply h; simp; exact ⟨h1, by simpa using h2⟩
        · exact h2

/-- A frame with no cell counted at each port of a list (R89). -/
theorem countDrops_noCell (ps : List Port) (u : State) (nd : ps.Nodup) : countDrops ps .noCell u = { u with
        ports := Vector.ofFn fun q =>
          if q ∈ ps then { u.port q with counts := { (u.port q).counts with
            dropped := (u.port q).counts.dropped.set 7 (bump (u.port q).counts.dropped[7]) } }
          else u.port q } := by
  unfold countDrops
  induction ps generalizing u with
  | nil => 
    simp only [List.foldl_nil, List.not_mem_nil, if_false]
    have : (Vector.ofFn fun q => u.port q) = u.ports := by ext i hi; simp [State.port]
    rw [this]
  | cons a l ih =>
    rw [List.nodup_cons] at nd
    rw [List.foldl_cons, ih _ nd.2]
    have : ∀ q, (countDrop a .noCell u).port q = if q = a then { u.port q with counts := { (u.port q).counts with
            dropped := (u.port q).counts.dropped.set 7 (bump (u.port q).counts.dropped[7]) } } else u.port q := by
      intro q; simp only [countDrop, State.modCounts, State.modPort_port]; split
      · rename_i e; subst e; rfl
      · rfl
    simp only [this]
    show ({ (countDrop a .noCell u) with ports := _ } : State) = _
    have e2 : ∀ ps', ({ (countDrop a .noCell u) with ports := ps' } : State) = { u with ports := ps' } := fun _ => rfl
    rw [e2]
    congr 2
    funext q
    by_cases h1 : q = a
    · subst h1; simp [nd.1]
    · by_cases h2 : q ∈ l <;> simp [h1, h2]

/-- One move of a release step changes the ports, the cells and the free list, and of the ports that one alone. -/
theorem moveHeld_shape (p : Port) (h : HoldEntry) (rest : List HoldEntry) (s : State) :
   moveHeld p h rest s =
     { s with
       ports := (moveHeld p h rest s).ports, cells := (moveHeld p h rest s).cells, free := (moveHeld p h rest s).free } ∧
   ∀ q, q ≠ p → (moveHeld p h rest s).port q = s.port q := by
  constructor
  · unfold moveHeld appendTx dropRef; dsimp only; split <;> split <;> (try split) <;> rfl
  · intro q hq
    unfold moveHeld appendTx; dsimp only
    split <;> simp only [restartIdle, State.modEgress, addRef, State.modCounts, State.modPort_port_ne _ _ hq, dropRef_port, State.modCell_port]

/-- The moves of a release step (R96): as many held frames as the transmit queue has places for, and nothing else; the
cells keep their counts where those of the held frames are referenced. -/
theorem moveHeldUpTo_spec (p : Port) (n : Nat) (s : State)
    (hn : min (s.port p).hold.length (32 - (s.port p).egress.queue.length) ≤ n) :
   let r := s.port p
   let moved := r.hold.take (32 - r.egress.queue.length)
   let left := r.hold.drop (32 - r.egress.queue.length)
   let t := moveHeldUpTo n p s
   t.port p = { r with
          hold := left
          egress := { r.egress with queue := r.egress.queue ++ moved.map fun h => ⟨h.cell, h.length, none⟩ }
          counts := { r.counts with
            released := bump^[moved.length] r.counts.released
            forwardedDown := bump^[moved.length] r.counts.forwardedDown }
          idle := if r.state = .ready ∧ moved.any (·.activity) = true then 0 else r.idle } ∧
   t = { s with ports := t.ports, cells := t.cells, free := t.free } ∧ (∀ q, q ≠ p → t.port q = s.port q) ∧
   ((∀ h ∈ (s.port p).hold, 0 < (s.cell h.cell).refs) → t.cells = s.cells ∧ t.free = s.free) := by
  induction n generalizing s with
  | zero =>
    intro r moved left t
    have hm : moved = [] := by
      simp only [moved]; rw [List.take_eq_nil_iff]
      have : r = s.port p := rfl
      rw [this]
      by_cases h : (s.port p).hold = []
      · exact .inr h
      · have := List.length_pos_iff.2 h; left; omega
    have hl : left = r.hold := by
      have := List.take_append_drop (32 - r.egress.queue.length) r.hold
      rw [show List.take (32 - r.egress.queue.length) r.hold = [] from hm] at this
      simpa using this
    rw [hl, hm]
    refine ⟨?_, rfl, fun _ _ => rfl, fun _ => ⟨rfl, rfl⟩⟩
    simp [t, moveHeldUpTo]; rfl
  | succ n ih =>
    intro r moved left t
    have ht : t = moveHeldUpTo (n+1) p s := rfl
    unfold moveHeldUpTo at ht
    cases hh : (s.port p).hold with
    | nil =>
      rw [hh] at ht; dsimp only at ht
      have h1 : moved = [] := by simp [moved, r, hh]
      have h2 : left = [] := by simp [left, r, hh]
      rw [h1, h2, ht]
      refine ⟨?_, rfl, fun _ _ => rfl, fun _ => ⟨rfl, rfl⟩⟩
      simp; simp only [r]; rw [← hh]
    | cons h rest =>
      rw [hh] at ht; dsimp only at ht
      by_cases f : txFull s (.camera p) = true
      · rw [if_pos f] at ht
        have k : 32 - r.egress.queue.length = 0 := by
          have f' : 32 ≤ (s.port p).egress.queue.length := of_decide_eq_true f
          simp only [r]; omega
        have h1 : moved = [] := by simp [moved, k]
        have h2 : left = r.hold := by simp [left, k]
        rw [h1, h2, ht]
        refine ⟨?_, rfl, fun _ _ => rfl, fun _ => ⟨rfl, rfl⟩⟩
        simp; rfl
      · rw [if_neg f] at ht
        have k : (s.port p).egress.queue.length < 32 := Nat.lt_of_not_le (fun g => f (decide_eq_true g))
        have mp := moveHeld_port p h rest s
        obtain ⟨ms, mo⟩ := moveHeld_shape p h rest s
        have ih' := ih (moveHeld p h rest s) (by
            rw [mp]; simp only [List.length_append, List.length_singleton]; rw [hh] at hn; simp only [List.length_cons] at hn; omega)
        rw [← ht] at ih'
        dsimp only at ih'
        obtain ⟨i1, i2, i3, i4⟩ := ih'
        have k2 : 32 - r.egress.queue.length = (32 - (r.egress.queue.length + 1)) + 1 := by simp [r]; omega
        refine ⟨?_, ?_, ?_, ?_⟩
        · rw [i1, mp]
          simp only [List.length_append, List.length_singleton]
          have m1 : moved = h :: rest.take (32 - (r.egress.queue.length + 1)) := by
            simp only [moved]; rw [k2]; simp [r, hh]
          have l1 : left = rest.drop (32 - (r.egress.queue.length + 1)) := by
            simp only [left]; rw [k2]; simp [r, hh]
          rw [m1, l1]
          simp only [List.map_cons, List.append_assoc, List.singleton_append, List.length_cons, Function.iterate_succ_apply, List.any_cons, Bool.or_eq_true]
          have : ∀ (a b : Prop) [Decidable a] [Decidable b] (c : Bool) (x : Nat), (if a ∧ b then 0 else if c = true ∧ a then 0 else x) = if a ∧ (c = true ∨ b) then 0 else x := by
            intro a b _ _ c x; by_cases a <;> by_cases b <;> cases c <;> simp [*]
          rw [this]
        · rw [i2, ms]
        · intro q hq; rw [i3 q hq, mo q hq]
        · intro hc
          have c0 : 0 < (s.cell h.cell).refs := hc h (by simp)
          have mr := moveHeld_rest p h rest s c0
          have mc : (moveHeld p h rest s).cells = s.cells ∧ (moveHeld p h rest s).free = s.free := by rw [mr]; exact ⟨rfl, rfl⟩
          have := i4 (by rw [mp]; intro x hx; rw [show (moveHeld p h rest s).cell x.cell = s.cell x.cell from by unfold State.cell; rw [mc.1]]; exact hc x (List.mem_cons_of_mem _ hx))
          exact ⟨this.1.trans mc.1, this.2.trans mc.2⟩

/-- A port that has become deliverable (R78, R122): what is handed on, in the order of the groups (log 52). -/
theorem noteDeliverable_eq (p : Port) (s : State) : noteDeliverable p s =
    { s with
      owed := s.owed ++ (allGroups.filter fun g =>
        (s.group g).slot.pending && hasPort (s.group g).slot.members p).map .reevaluate } := by
  unfold noteDeliverable
  generalize allGroups = l
  induction l generalizing s with
  | nil => simp
  | cons a l ih =>
    rw [List.foldl_cons, ih, List.filter_cons]
    by_cases h : ((s.group a).slot.pending && hasPort (s.group a).slot.members p) = true
    · rw [if_pos h, if_pos h, List.map_cons]
      simp [State.owe, List.append_assoc]
      rfl
    · rw [if_neg h, if_neg h]

/-- The release at the entry into READY (R95, R96, R98), from a state where the idle timer is
at 0 ms. -/
theorem startRelease_spec (p : Port) (s : State) (hi : (s.port p).idle = 0) :
   let r := s.port p
   let moved := r.hold.take (32 - r.egress.queue.length)
   let left := r.hold.drop (32 - r.egress.queue.length)
   let t := startRelease p s
   t.port p = { r with
          hold := left
          egress := { r.egress with queue := r.egress.queue ++ moved.map fun h => ⟨h.cell, h.length, none⟩ }
          counts := { r.counts with
            released := bump^[moved.length] r.counts.released
            forwardedDown := bump^[moved.length] r.counts.forwardedDown }
          releasing := if r.hold = [] then r.releasing else !left.isEmpty } ∧
   t = { s with
      ports := t.ports, cells := t.cells, free := t.free
      owed := s.owed ++ if left = [] then (allGroups.filter fun g =>
        (s.group g).slot.pending && hasPort (s.group g).slot.members p).map .reevaluate else [] } ∧
   (∀ q, q ≠ p → t.port q = s.port q) ∧
   ((∀ h ∈ (s.port p).hold, 0 < (s.cell h.cell).refs) → t.cells = s.cells ∧ t.free = s.free) := by
  intro r moved left t
  by_cases hh : r.hold = []
  · have ht : t = noteDeliverable p s := by show startRelease p s = _; unfold startRelease; rw [if_pos (by rw [hh]; rfl)]
    have hm : moved = [] := by simp [moved, hh]
    have hl : left = [] := by simp [left, hh]
    rw [hm, hl, if_pos hh, ht, noteDeliverable_eq, if_pos rfl]
    refine ⟨?_, rfl, fun _ _ => rfl, fun _ => ⟨rfl, rfl⟩⟩
    show s.port p = _
    conv_rhs => simp
    simp only [r]; rw [← hh]
  · have ht : t = stepRelease p (s.modPort p fun r => { r with releasing := true }) := by
      show startRelease p s = _; unfold startRelease; rw [if_neg (by simpa using hh)]
    have hs : (s.modPort p fun r => { r with releasing := true }).port p = { r with releasing := true } := by rw [State.modPort_port_same]
    obtain ⟨m1, m2, m3, m4⟩ := moveHeldUpTo_spec p 32 (s.modPort p fun r => { r with releasing := true }) (by omega)
    rw [hs] at m1 m4
    unfold stepRelease at ht
    rw [hs, if_pos rfl] at ht
    dsimp only at ht
    rw [show Config.txDepth = 32 from rfl] at ht
    generalize moveHeldUpTo 32 p (s.modPort p fun r => { r with releasing := true }) = w at ht m1 m2 m3 m4
    have hidle : ∀ b, (if r.state = .ready ∧ b = true then 0 else r.idle) = r.idle := by
      intro b; rw [show r.idle = 0 from hi]; split <;> rfl
    have m1' : w.port p = { r with
          releasing := true
          hold := left
          egress := { r.egress with queue := r.egress.queue ++ moved.map fun h => ⟨h.cell, h.length, none⟩ }
          counts := { r.counts with
            released := bump^[moved.length] r.counts.released
            forwardedDown := bump^[moved.length] r.counts.forwardedDown } } := by
      rw [m1]; dsimp only; rw [hidle]
    rw [m1'] at ht
    have cellsOk : (∀ h ∈ (s.port p).hold, 0 < (s.cell h.cell).refs) → w.cells = s.cells ∧ w.free = s.free := fun k => m4 k
    by_cases hl : left = []
    · rw [hl] at ht
      simp only [List.isEmpty_nil, if_true] at ht
      rw [noteDeliverable_eq] at ht
      rw [hl, if_pos rfl, if_neg hh, ht]
      refine ⟨?_, ?_, fun q hq => ?_, fun k => ?_⟩
      · show (stopRelease p w).port p = _
        simp [stopRelease, m1', hl]
      · have : (stopRelease p w) = { s with ports := (stopRelease p w).ports, cells := w.cells, free := w.free } := by
          conv_lhs => unfold stopRelease; rw [m2]
          rfl
        rw [this]; rfl
      · show (stopRelease p w).port q = _
        unfold stopRelease; rw [State.modPort_port_ne _ _ hq, m3 q hq, State.modPort_port_ne _ _ hq]
      · exact cellsOk k
    · rw [if_neg (by simpa using hl)] at ht
      rw [if_neg hl, if_neg hh, ht, List.append_nil]
      refine ⟨?_, ?_, fun q hq => ?_, fun k => ?_⟩
      · rw [m1']
        have : left.isEmpty = false := by simpa using hl
        rw [this]; rfl
      · exact m2
      · rw [m3 q hq, State.modPort_port_ne _ _ hq]
      · exact cellsOk k

end Sys2Proof.Machine
end

