-- ==== Sys2Proof/Laws/Reads.lean ====
section
/-! SUPPORT. What one read of a protected entry finds and does (R139 to R141), and what the rule search comes to (R75). -/

namespace Sys2Proof.Machine

set_option Elab.async false

/-- Any of the reads of Machine/Tables.lean reads so, for a table whose store of an entry as it stands changes nothing. -/
theorem ReadsAs.of {α : Type} {n : Nat} {e : Protected α n} {t : TbmTable} {index : Nat}
    {put : Protected α n → State → State} {s : State} (self : put e s = s) :
    ReadsAs e t.number index put s (e.handed, noteFinding t index e.find (put e.afterRead s)) := by
  have two : e.words.any (· == .twoBad) = true ↔ WordCheck.twoBad ∈ e.words.toList := by
    rw [← Vector.any_toList, List.any_eq_true]; simp
  refine ⟨fun hp hw => ?_, fun hp h2 h1 => ?_, fun hp h2 => ?_, fun hp => ?_⟩
  · have h2 : WordCheck.twoBad ∉ e.words.toList := by
      intro h
      obtain ⟨i, hi, h⟩ := List.getElem_of_mem h
      have := hw ⟨i, by simpa using hi⟩
      simp at h; simp [h] at this
    have f : e.find = .clean := by
      have h3 : e.words.all (· == .good) = true := by
        rw [← Vector.all_toList, List.all_eq_true]
        intro x hx
        obtain ⟨i, hi, h⟩ := List.getElem_of_mem hx
        have := hw ⟨i, by simpa using hi⟩
        simp at h; rw [← h]; simpa using this
      simp only [Protected.find, hp, mt two.1 h2, h3]; simp
    simp [Protected.handed, f, Finding.isPoisoned, noteFinding, Protected.afterRead, self]
  · have f : e.find = .corrected (e.words.toList.countP (· == .oneBad)) := by
      have h3 : ¬ e.words.all (· == .good) = true := by
        rw [← Vector.all_toList, List.all_eq_true]
        intro h; exact absurd (h _ h1) (by decide)
      simp only [Protected.find, hp, mt two.1 h2, h3]; simp
    simp only [Protected.handed, f, Finding.isPoisoned, noteFinding, Protected.afterRead]; rfl
  · have f : e.find = .poisonedNow := by simp [Protected.find, hp, two.2 h2]
    simp only [Protected.handed, f, Finding.isPoisoned, noteFinding, Protected.afterRead]; rfl
  · have f : e.find = .poisonedBefore := by simp [Protected.find, hp]
    simp [Protected.handed, f, Finding.isPoisoned, noteFinding, Protected.afterRead, self]

theorem noteFinding_tbm (t i f) (s : State) : (noteFinding t i f s).tbm = s.tbm := by
  unfold noteFinding; split <;> simp [State.modDevice]

theorem readRule_other (i j : Fin 32) (h : j ≠ i) (s : State) : (readRule i s).2.tbm.rule[j] = s.tbm.rule[j] := by
  show (noteFinding _ _ _ _).tbm.rule[j] = _
  rw [noteFinding_tbm]
  have : i.val ≠ j.val := fun e => h (Fin.ext e.symm)
  simp [State.modTbm, this]

/-- A read hands an entry over unless it is marked or holds a word with two bad bits (R139). -/
theorem Protected.handed_eq {α : Type} {n : Nat} (e : Protected α n) :
    e.handed = if e.poison = false ∧ .twoBad ∉ e.words.toList then some e.val else none := by
  have two : e.words.any (· == .twoBad) = true ↔ WordCheck.twoBad ∈ e.words.toList := by
    rw [← Vector.any_toList, List.any_eq_true]; simp
  have hf : e.find.isPoisoned = true ↔ ¬ (e.poison = false ∧ .twoBad ∉ e.words.toList) := by
    rw [← two]
    unfold Protected.find
    cases hp : e.poison
    · by_cases k : e.words.any (· == .twoBad) = true
      · rw [if_neg (by simp), if_pos k]; simp only [Finding.isPoisoned]; tauto
      · rw [if_neg (by simp), if_neg k]; split <;> simp only [Finding.isPoisoned] <;> tauto
    · simp [Finding.isPoisoned]
  unfold Protected.handed
  by_cases k : e.poison = false ∧ .twoBad ∉ e.words.toList
  · rw [if_pos k, if_neg (by rw [hf]; simpa using k)]
  · rw [if_neg k, if_pos (by rw [hf]; exact k)]

/-- The rule search reads rules in order until one that is handed over fits and matches (R75); `takes` says which do, by
the entries as they stand before it. -/
theorem searchRules_eq (up : Bool) (scope : Option Port) (bytes : List Byte) (s : State) (l : List (Fin 32)) (u : State)
    (nd : l.Nodup) (h : ∀ i ∈ l, u.tbm.rule[i] = s.tbm.rule[i]) :
    let takes := fun i : Fin 32 =>
      ∃ r, s.tbm.rule[i].handed = some r ∧ (r.fits up scope && r.matchesFrame bytes) = true
    let read := fun (l : List (Fin 32)) => l.foldl (fun u i => (readRule i u).2) u
    ((∀ i ∈ l, ¬ takes i) → searchRules up scope bytes l u = (none, read l)) ∧
    ∀ before i after, l = before ++ i :: after → takes i → (∀ j ∈ before, ¬ takes j) →
      searchRules up scope bytes l u = (some s.tbm.rule[i].val, read (before ++ [i])) := by
  induction l generalizing u with
  | nil => exact ⟨fun _ => rfl, fun before i after e => by simp at e⟩
  | cons a l ih =>
    have nd' := List.nodup_cons.1 nd
    have ih := ih (readRule a u).2 nd'.2
      (by intro i hi; rw [readRule_other]; exact h i (by simp [hi]); rintro rfl; exact nd'.1 hi)
    have ev : (readRule a u).1 = s.tbm.rule[a].handed := by show u.tbm.rule[a].handed = _; rw [h a (by simp)]
    have step : (¬ ∃ r, s.tbm.rule[a].handed = some r ∧ (r.fits up scope && r.matchesFrame bytes) = true) →
        searchRules up scope bytes (a :: l) u = searchRules up scope bytes l (readRule a u).2 := by
      intro n
      rw [← ev] at n
      generalize hz : readRule a u = z at n
      obtain ⟨x, y⟩ := z
      conv => lhs; unfold searchRules
      rw [hz]
      cases x with
      | none => rfl
      | some r =>
        dsimp only at n ⊢
        rw [if_neg fun k => n ⟨r, rfl, k⟩]
    refine ⟨fun n => ?_, fun before i after e t n => ?_⟩
    · rw [step (n a (by simp)), ih.1 (fun i hi => n i (by simp [hi]))]; rfl
    · cases before with
      | nil =>
        simp at e; obtain ⟨rfl, rfl⟩ := e
        obtain ⟨r, h1, h2⟩ := t
        have hv : r = s.tbm.rule[a].val := by
          unfold Protected.handed at h1; split at h1
          · cases h1
          · exact (Option.some.inj h1).symm
        rw [← ev] at h1
        generalize hz : readRule a u = z at h1
        obtain ⟨x, y⟩ := z
        dsimp only at h1; subst h1
        conv => lhs; unfold searchRules
        rw [hz]; dsimp only; rw [if_pos h2, hv]
        simp [hz]
      | cons b before =>
        simp at e; obtain ⟨rfl, rfl⟩ := e
        rw [step (n a (by simp)), ih.2 before i after rfl t (fun j hj => n j (by simp [hj]))]
        rfl

end Sys2Proof.Machine
end

