-- ==== Sys2Proof/WellFormed.lean ====
section
/-! DEFINITION. The check that a command is well formed. Ports and groups are in range by their types; what is
left is that a frame that has been received holds at least one byte (log 1). -/

namespace Sys2Proof

/-- A command is well formed when a frame it carries holds at least one byte. -/
def Instr.wellFormed : Instr → Bool
  | .uplinkFrameReceived bytes _ => !bytes.isEmpty
  | .cameraFrameReceived _ bytes _ => !bytes.isEmpty
  | _ => true

end Sys2Proof
end

