-- ==== Sys2Proof/Tests/Slice0.lean ====
section
/-! SUPPORT. The model's own tests. First the well-formedness smoke test; then, for each statement with hypotheses, a
witness: concrete states and operands that meet them, clause by clause, at the edges of their ranges; last one-step tests,
whose expected values are worked out by hand from the rule that each names. -/

open Sys2Proof Sys2Proof.Machine

namespace Sys2Proof.Tests

set_option Elab.async false

/-! ### Small states -/

/-- The state that a command leads to. -/
def after (c : Instr) (s : State) : State :=
  match exec c s with
  | .next t => t
  | _ => s

/-- A port with draws 10, 20 and 30 dW and station address 06:00:00:00:00:01, in a given state. -/
def portIn (st : PortState) : PortRec :=
  { PortRec.reset with
    state := st, feed := !st.resting, linkUp := !st.resting
    cfg := { PortConfig.default with station := 0x060000000001, standby := 10, active := 20, inrush := 30 }
    draws := ⟨10, 20, 30⟩, charge := stateCharge ⟨10, 20, 30⟩ st
    station := if st = .disabled then none else some 0x060000000001 }

/-- The part with port 0 in a given state, changed by f, the limit of D0 at 100 dW and the uplink up. -/
def demo (st : PortState) (f : PortRec → PortRec := id) : State :=
  let s := State.reset.modPort 0 fun _ => f (portIn st)
  { s with
    adm := { s.adm with limits := s.adm.limits.set 0 100, committed := s.adm.committed.set 0 (domainCharge s 0) }
    tbm := { s.tbm with portConfig := s.tbm.portConfig.set 0 (.fresh (portIn st).cfg) }
    uplink := { s.uplink with linkUp := true } }

/-- An operation of a kind in a phase, with its method and the attempts made. -/
def running (kind : OpKind) (phase : Phase) (m : Method) (n : Nat) (r : PortRec) : PortRec :=
  { r with op := { Operation.reset with kind := kind, phase := phase, method := some m, attempt := n, started := n } }

/-- A PAUSING port whose confirm window is over. -/
def confirming (mode : ConfirmMode) (seen : Bool) (r : PortRec) : PortRec :=
  { r with
    cfg := { r.cfg with confirmMode := mode }
    op := { Operation.reset with kind := .pause, phase := .confirm, activitySeen := seen } }

/-- A request as it stands in the FIFO. -/
def ask (op table index : Nat) (payload : List Byte) : Request :=
  { source := 0x02AABBCCDDEE, frameLength := 64
    body := padTo 50 ([1, 1, 0, 7, BitVec.ofNat 8 op, 0, BitVec.ofNat 8 table, BitVec.ofNat 8 index] ++
      natBE 2 payload.length ++ payload) }

/-- The request of port command n for port 0. -/
def portAsk (n : Nat) : Request := ask 5 0 0 [BitVec.ofNat 8 n]

/-- The request of group command n for group 0 (3 is PREPARE, with a lead of 120 000 ms). -/
def groupAsk (n : Nat) : Request := ask 6 0 0 (if n = 3 then 3 :: natBE 4 120000 else [BitVec.ofNat 8 n])

/-- The part with one request at the head of the FIFO. -/
def asked (r : Request) (s : State) : State := s.modMga fun m => { m with fifo := [r] }

/-- A frame of 64 B: destination, EtherType, the byte at offset 14, and the 16-bit words at 15 and 17. -/
def frame (dest : Addr) (type code key seq : Nat) : List Byte :=
  padTo 64 (addrBytes dest ++ addrBytes 0x02AABBCCDDEE ++ natBE 2 type ++ natBE 1 code ++ natBE 2 key ++ natBE 2 seq)

/-- A frame of class number n (by the rules below) for port 0, or from it. -/
def classFrame (n : Nat) : List Byte := frame 0x060000000001 0xB1C0 (n + 1) 0x1234 5

/-- Rule i gives class i to a frame whose byte 14 is i + 1; its key stands at byte 15 and its sequence at byte 17. -/
def withRules (s : State) : State :=
  let rule := fun (i : Fin 9) (c : FrameClass) (d : Direction) => Protected.fresh (n := 5)
    { Rule.default with
      enabled := true, direction := d, offset := 14, length := 1, mask := 0xFF, value := BitVec.ofNat 32 (i.val + 1)
      cls := c, keyOffset := some 15, seqOffset := some 17 }
  s.modTbm fun t => { t with rule := (((((((((t.rule.set 0 (rule 0 .capture .down)).set 1 (rule 1 .control .down)).set 2
    (rule 2 .liveview .down)).set 3 (rule 3 .poll .down)).set 4 (rule 4 .bulk .both)).set 5 (rule 5 .pollAnswer .up)).set 6
    (rule 6 .standbyAck .up)).set 7 (rule 7 .readySign .up)).set 8 (rule 8 .probeAnswer .up)) }

/-- A reception has begun at an ingress. -/
def taking (e : EtherPort) (s : State) : State := after (.receptionStart e) s

/-- The part with no free cell. -/
def noCells (s : State) : State := { s with free := [] }

/-- A transmit queue of 32 entries. -/
def fullQueue : Egress := { queue := List.replicate 32 ⟨9, 64, none⟩, sending := none }

/-- A held frame in cell 9. -/
def heldFrame : HoldEntry := ⟨9, 64, .bulk, true, true⟩

/-- Group 0 as configured here: address 03:00:00:00:00:01, member port 0. -/
def groupCfg : GroupConfig := { GroupConfig.default with address := 0x030000000001, members := 1, enabled := true }

/-- The part with a group configuration in GROUP 0. -/
def withGroup (c : GroupConfig) (s : State) : State :=
  (s.modTbm fun t => { t with group := t.group.set 0 (.fresh c) }).modGroup 0 fun g => { g with address := c.address }

/-- The part with entry GROUP 0 poisoned. -/
def spoiltGroup (s : State) : State :=
  s.modTbm fun t => { t with group := t.group.set 0 { t.group[0] with poison := true } }

/-- The part with entry PORT_CONFIG 0 poisoned. -/
def spoiltConfig (s : State) : State :=
  s.modTbm fun t => { t with portConfig := t.portConfig.set 0 { t.portConfig[0] with poison := true } }

/-- Group 0 armed, intact or not. -/
def armed (intact : Bool) (s : State) : State :=
  s.modArm 0 fun a => { a with armed := true, intact := intact, members := 1 }

/-- Group 0 with a pending trigger in cell 9. -/
def triggered (policy : Policy) (strict : Bool) (unreachable : PortSet) (s : State) : State :=
  { s with free := s.free.filter (· ≠ 9) }.modCell 9 (fun _ => { refs := 1, data := classFrame 0 }) |>.modSlot 0 fun x =>
    { x with
      pending := true, cell := 9, members := 1, policy := policy, strict := strict, unreachable := unreachable }

/-- Template k of port 0 present, 64 bytes long. -/
def withTemplate (k : TemplateKind) (s : State) : State :=
  s.modTbm fun t => { t with template := t.template.set (templateIndex 0 k) (.fresh { Template.absent with length := 64 }) }

/-- A wake-queue entry of a port. -/
def waits (p : Port) (c : WakeClass) (n passes : Nat) (blocking : Bool) (s : State) : State :=
  s.modAdm fun a => { a with wakeQueue := a.wakeQueue ++ [⟨p, c, n, passes, blocking⟩], arrivals := n + 1 }

/-- The part with another limit for D0. -/
def limited (n : Nat) (s : State) : State := s.modAdm fun a => { a with limits := a.limits.set 0 n }

/-- Record 0 of port 0 occupied with key 0x1234, a given age, and an age limit of 1 s. -/
def answered (age : Nat) (s : State) : State :=
  (s.modPort 0 fun r => { r with
    proxies := r.proxies.set 0 { occupied := true, age := age }, cfg := { r.cfg with ageLimit := 1 } }).modTbm fun t =>
    { t with proxy := t.proxy.set 0 (.fresh { ProxyEntry.default with key := 0x1234 }) }

/-- The action of BULK. -/
def bulkIs (a : Action) (s : State) : State :=
  s.modTbm fun t => { t with classAction := t.classAction.set 4 (.fresh { action := a, activity := true }) }

/-! ### What the assumptions of the statements say, spelt out -/

theorem settled_iff (s : State) : s.Settled ↔ s.phase = .running ∧ s.owed = [] :=
  ⟨fun h => ⟨h.running, h.settled⟩, fun h => ⟨h.1, h.2⟩⟩

theorem serves_iff (s : State) (row : Row) (r : Request) (rest : List Request) : s.Serves row r rest ↔
    s.phase = .running ∧ s.owed = [] ∧ s.mga.restart = none ∧ s.mga.fifo = r :: rest ∧ rowServes row r = true :=
  ⟨fun h => ⟨h.running, h.settled, h.free, h.head, h.row⟩, fun h => ⟨⟨h.1, h.2.1⟩, h.2.2.1, h.2.2.2.1, h.2.2.2.2⟩⟩

theorem accepts_iff (s : State) (row : Row) (r : Request) (rest : List Request) : s.Accepts row r rest ↔
    s.Serves row r rest ∧ requestRefusal r = none :=
  ⟨fun h => ⟨h.toServes, h.passes⟩, fun h => ⟨h.1, h.2⟩⟩

theorem receives_iff (s : State) (e : EtherPort) (c : CellNo) (bytes : List Byte) : s.Receives e c bytes ↔
    s.Settled ∧ s.receiving e = .intoCell c ∧ 0 < (s.cell c).refs ∧ 64 ≤ bytes.length ∧ bytes.length ≤ 2048 :=
  ⟨fun h => ⟨h.toSettled, h.into, h.counted, h.long, h.short⟩, fun h => ⟨h.1, h.2.1, h.2.2.1, h.2.2.2.1, h.2.2.2.2⟩⟩

theorem addresses_iff (s : State) (p : Port) (c : CellNo) (bytes : List Byte) : s.Addresses p c bytes ↔
    s.Receives .uplink c bytes ∧ isGroupAddr (frameDest bytes) = false ∧ frameDest bytes ≠ s.mga.factory ∧
      portWithStation? s (frameDest bytes) = some p :=
  ⟨fun h => ⟨h.toReceives, h.unicast, h.other, h.station⟩, fun h => ⟨h.1, h.2.1, h.2.2.1, h.2.2.2⟩⟩

/-! ### Well-formedness -/

/-- An ill-formed command, a received frame of no byte, is refused on the uplink and at a camera port. -/
theorem test_wellFormed_refuses_empty_frame :
    Instr.wellFormed (.uplinkFrameReceived [] true) = false ∧ Instr.wellFormed (.cameraFrameReceived 0 [] true) = false ∧
      Instr.wellFormed (.cameraFrameReceived 0 [0] true) = true := by decide

/-- No row of the table has bits, so no word spells a command. -/
theorem test_decode_no_bits : decodeTableWord 16 0 = none ∧ (State.reset.withFetchWord 16 0).pending = [] := by
  decide +kernel

/-! ### Witnesses: the queue, time, resets -/

theorem witness_StepPerformsFrontCommand :
    { State.reset with pending := [.admissionScan] }.pending = .admissionScan :: [] := by decide +kernel

theorem witness_EmptyQueueDoesOwnWorkThenTicks :
    let held := after .resetAsserted State.reset
    let due := State.reset.modMga fun m => { m with restart := some ⟨0, none⟩ }
    (held.pending = [] ∧ held.phase ≠ .running) ∧ (due.pending = [] ∧ due.phase = .running ∧ ownWork due ≠ []) ∧
      (State.reset.pending = [] ∧ State.reset.phase = .running ∧ ownWork State.reset = []) := by decide +kernel

/-- Due, and not due one tick or one flag before: a READY port's idle timer, also pinned or in an armed group, a PAUSED
port's deep-idle timer, a pending window, the period of the scrubber and its pass, the uplink's timer. -/
theorem witness_EmptyQueueDoesOwnWorkThenTicks_due :
    let idle := fun n f => demo .ready fun r => f { r with idle := n }
    let deep := fun n => demo .paused fun r => { r with cfg := { r.cfg with deepIdle := 1 }, deepIdle := n }
    let window := fun n => (triggered .partialSet false 0 (demo .ready)).modSlot 0 fun x => { x with window := n }
    let scrub := fun n next => (demo .ready).modTbm fun t => { t with scrubPeriod := n, scrubNext := next }
    let uplink := fun n raised => (demo .ready).modUplink fun u => { u with linkUp := false, timer := n, raised := raised }
    (.idleTimerExpiry 0 ∈ dueWork (idle 120000 id) ∧ .idleTimerExpiry 0 ∉ dueWork (idle 119999 id) ∧
      .idleTimerExpiry 0 ∉ dueWork (idle 120000 fun r => { r with pin := true }) ∧
      .idleTimerExpiry 0 ∉ dueWork (armed true (idle 120000 id))) ∧
    (.deepIdleExpiry 0 ∈ dueWork (deep 1000) ∧ .deepIdleExpiry 0 ∉ dueWork (deep 999)) ∧
    (.rendezvousWindowExpiry 0 ∈ dueWork (window 0) ∧ .rendezvousWindowExpiry 0 ∉ dueWork (window 1)) ∧
    (.scrubPassStart ∈ dueWork (scrub 0 none) ∧ .scrubPassStart ∉ dueWork (scrub 0 (some 95)) ∧
      .scrubVisit ∈ dueWork (scrub 1 (some 95)) ∧ .scrubVisit ∉ dueWork (scrub 1 none)) ∧
    (.uplinkLinkTimerExpiry ∈ dueWork (uplink 2000 false) ∧ .uplinkLinkTimerExpiry ∉ dueWork (uplink 1999 false) ∧
      .uplinkLinkTimerExpiry ∉ dueWork (uplink 2000 true)) := by decide +kernel

/-- The part's own work at its edges: a release with 31 and with 32 entries queued, a transmission that the release comes
before, requests by operation and code, and a head request behind a RESTART that waits and one that is due. -/
theorem witness_EmptyQueueDoesOwnWorkThenTicks_own :
    let release := fun n hold => demo .ready fun r => { r with
      linkUp := n = 31, releasing := true, hold := hold, egress := { fullQueue with queue := fullQueue.queue.take n } }
    let waiting := fun n => (asked (portAsk 8) (demo .ready)).modMga fun m => { m with restart := some ⟨n, some 3⟩ }
    ownWork (release 31 [heldFrame]) = [.releaseStep 0, .transmissionStart (.camera 0)] ∧
    ownWork (release 32 [heldFrame]) = [] ∧ ownWork (release 32 []) = [.releaseStep 0] ∧
    ownWork (asked (portAsk 8) (demo .ready)) = [.pause] ∧ ownWork (asked (portAsk 11) (demo .ready)) = [.enable] ∧
    ownWork (asked (groupAsk 4) (demo .ready)) = [.cancel] ∧
    ownWork (asked (ask 11 0 0 []) (demo .ready)) = [.unknownOpRequest] ∧
    ownWork (waiting 1) = [] ∧ ownWork (waiting 0) = [.softRestart] := by decide +kernel

theorem witness_OnlyResetsLinksAndLinesActOutsideRunning :
    let s := after .resetReleased (after .resetAsserted State.reset)
    s.phase ≠ .running ∧ actsAlways (.idleTimerExpiry 15) = false ∧ s.pending = [] := by decide +kernel

theorem lawful_iff (r : PortRec) : r.Lawful ↔ r.charge = stateCharge r.draws r.state ∧
    (r.draws.standby ≤ r.draws.active ∧ r.draws.active ≤ r.draws.inrush) ∧ (r.state.resting → r.feed = false) ∧
      (r.linkUp → r.feed) ∧ r.egress.queue.length ≤ 32 :=
  ⟨fun h => ⟨h.charged, h.ordered, h.restOff, h.linkFeed, h.txBound⟩,
    fun h => ⟨h.1, h.2.1, h.2.2.1, h.2.2.2.1, h.2.2.2.2⟩⟩

/-- A lawful state that is not the reset state: port 0 is READY, its domain's limit used up to the last dW. -/
theorem witness_StepKeepsPowerLaws :
    let s := { limited 20 (demo .ready) with pending := [.idleTimerExpiry 0] }
    s.Lawful ∧ (∃ t, step s = .next t) := by
  refine ⟨⟨?_, ?_, ?_, ?_, ?_, ?_⟩, ⟨_, rfl⟩⟩
  all_goals first
    | (intro p; rw [lawful_iff]; revert p; decide +kernel)
    | (unfold PortConfig.Ordered; decide +kernel)
    | decide +kernel

theorem witness_StepKeepsWakeQueueLaws :
    let s := { waits 0 .sense 65534 0 false (demo .paused) with pending := [.admissionScan] }
    s.WakeLawful ∧ (∃ t, step s = .next t) ∧ s.adm.arrivals = 65535 := by
  refine ⟨⟨?_, ?_, ?_, ?_, ?_⟩, ⟨_, rfl⟩, ?_⟩ <;> decide +kernel

theorem witness_StepKeepsCellLaw :
    let s := { taking .uplink (demo .ready) with pending := [.receptionStart (.camera 0)] }
    s.CellsLawful ∧ (∃ t, step s = .next t) := by
  refine ⟨⟨?_, ?_, ?_⟩, ⟨_, rfl⟩⟩ <;> decide +kernel

theorem learned_iff (r : PortRec) : r.Learned ↔ (r.est.resume.all fun v => 1 ≤ v && v ≤ 65535) ∧
    (r.est.cold.all fun v => 1 ≤ v && v ≤ 65535) ∧ r.est.resumeSamples ≤ 255 ∧ r.est.coldSamples ≤ 255 ∧
      (r.lastWake.all fun w => 1 ≤ w.time && w.time ≤ 65535) := by
  constructor
  · rintro ⟨a, b, c, d, e⟩
    refine ⟨?_, ?_, c, d, ?_⟩
    · cases h : r.est.resume <;> simp_all [Config.timeMaxMs]
    · cases h : r.est.cold <;> simp_all [Config.timeMaxMs]
    · cases h : r.lastWake <;> simp_all [Config.timeMaxMs]
  · rintro ⟨a, b, c, d, e⟩
    refine ⟨?_, ?_, c, d, ?_⟩
    · cases h : r.est.resume <;> simp_all [Config.timeMaxMs]
    · cases h : r.est.cold <;> simp_all [Config.timeMaxMs]
    · cases h : r.lastWake <;> simp_all [Config.timeMaxMs]

theorem witness_StepKeepsEstimatesInRange :
    let s := { demo .paused (fun r => { r with est := ⟨some 65535, 255, some 1, 255⟩ }) with pending := [.admissionScan] }
    (∀ p : Port, (s.port p).Learned) ∧ (∃ t, step s = .next t) := by
  refine ⟨fun p => ?_, ⟨_, rfl⟩⟩
  rw [learned_iff]; revert p; decide +kernel

theorem witness_TickAdvancesEachOwnersTimers :
    ((demo .ready).port 0).op.kind = .none ∧
      ((demo .waking (running .cold .window .power 1)).port 0).op.kind ≠ .none := by decide +kernel

theorem witness_FullResetReachesResetValuesFromAnyState :
    let held := after .resetAsserted (demo .ready)
    held.phase ≠ .initialising ∧ (after .resetReleased held).phase ≠ .inReset := by decide +kernel

theorem witness_SoftRestartOfEveryBlock :
    let s := demo .resuming
    restartDue s = false ∧ restartDue (s.modMga fun m => { m with restart := some ⟨0, some 3⟩ }) = true ∧
      restartDue (s.modMga fun m => { m with restart := some ⟨1, some 3⟩ }) = false := by decide +kernel

/-! ### Witnesses: frames -/

theorem witness_ReceptionTakesTheHeadCell :
    let s := demo .ready
    s.Settled ∧ (noCells s).Settled ∧ (s.receiving .uplink = .idle ∧ (noCells s).free = []) ∧
      (∃ rest, s.free = 0 :: rest) ∧ (taking (.camera 15) s).receiving (.camera 15) ≠ .idle := by
  simp only [settled_iff]
  refine ⟨?_, ?_, ?_, ⟨_, rfl⟩, ?_⟩ <;> decide +kernel

theorem witness_BadFrameIsDroppedAndCounted :
    let s := demo .ready
    s.Settled ∧ (List.replicate 63 (0 : Byte)).length < 64 ∧ 2048 < (List.replicate 2049 (0 : Byte)).length ∧
      (taking .uplink s).receiving .uplink = .intoCell 0 ∧ (taking .uplink (noCells s)).receiving .uplink = .bufferOnly ∧
      (taking (.camera 0) s).receiving (.camera 0) = .intoCell 0 ∧
      (taking (.camera 0) (noCells s)).receiving (.camera 0) = .bufferOnly := by
  simp only [settled_iff]; decide +kernel

/-- Frames received into the buffer alone: upstream, for the device, for an unknown address, for a port and flooded. -/
theorem witness_BadFrameIsDroppedAndCounted_noCell :
    let s := fun st f => taking .uplink (noCells (withRules (demo st f)))
    let camera := fun st => taking (.camera 0) (noCells (withRules (demo st)))
    let k := fun n (t : State) => (classify false (some 0) (classFrame n) (t.setReceiving .uplink .idle)).1
    let device := fun t : State => frame t.mga.factory 0xB1C0 0 0 0
    let other := frame 0x060000000009 0xB1C0 0 0 0
    let parked := fun st => s st fun r => { r with park := true }
    (∀ st ∈ [PortState.disabled, .faulted, .asleep],
      (camera st).phase = .running ∧ (camera st).owed = [] ∧ (camera st).receiving (.camera 0) = .bufferOnly ∧
        ((camera st).port 0).state = st ∧ (s st id).receiving .uplink = .bufferOnly) ∧
    (s .ready id).Settled ∧ ((classFrame 0).length = 64 ∧ frameType (classFrame 0) ≠ 0x88B6) ∧
    frameDest (device (s .ready id)) = (s .ready id).mga.factory ∧
    (frameDest other ≠ (s .ready id).mga.factory ∧ isGroupAddr (frameDest other) = false ∧
      portWithStation? (s .ready id) (frameDest other) = none ∧
      (allPorts.filter fun p => ((s .ready id).port p).state = .disabled &&
        ((s .ready id).port p).cfg.station = frameDest other).length ≠ 1 ∧
      (allPorts.filter fun p => ((s .disabled id).port p).state = .disabled &&
        ((s .disabled id).port p).cfg.station = frameDest (classFrame 0)) = [0]) ∧
    (isGroupAddr (frameDest (classFrame 0)) = false ∧ portWithStation? (s .paused id) (frameDest (classFrame 0)) = some 0) ∧
    (k 2 (s .paused id)).action = .drop ∧ (k 3 (parked .paused)).action = .answerOrWake ∧
    ((parked .asleep).port 0).park = true ∧ (k 0 (parked .asleep)).action = .holdAndWake ∧
    ((k 0 (s .paused id)).cls = .capture ∧ (k 0 (s .paused id)).action ≠ .drop ∧ ((s .paused id).port 0).park = false) ∧
    ((k 2 (s .ready id)).action = .drop ∧ ((s .ready id).port 0).state = .ready) ∧
    frameDest (frame broadcast 0xB1C0 0 0 0) = broadcast := by
  simp only [settled_iff]; and_intros <;> decide +kernel

/-- Frames for a group that were received into the buffer alone. -/
theorem witness_BadFrameIsDroppedAndCounted_group :
    let s := taking .uplink (noCells (withGroup groupCfg (withRules (demo .ready))))
    let bytes := fun n => frame 0x030000000001 0xB1C0 n 0 0
    let cls := fun n => (classify false none (bytes n) (s.setReceiving .uplink .idle)).1.cls
    s.Settled ∧ s.receiving .uplink = .bufferOnly ∧ (bytes 1).length = 64 ∧
    (frameDest (bytes 1) ≠ s.mga.factory ∧ frameDest (bytes 1) ≠ broadcast ∧ isGroupAddr (frameDest (bytes 1)) = true) ∧
    (groupWithAddress? s (frameDest (bytes 1)) = some 0 ∧ s.tbm.group[(0 : Group)].val.enabled = true ∧
      s.tbm.group[(0 : Group)].poison = false ∧ cls 1 = .capture ∧ cls 3 ≠ .capture) ∧
    (groupWithAddress? (spoiltGroup s) (frameDest (bytes 1)) = some 0 ∧
      (spoiltGroup s).tbm.group[(0 : Group)].poison = true) ∧
    (let off := withGroup { groupCfg with enabled := false } s;
      groupWithAddress? off (frameDest (bytes 1)) = some 0 ∧ off.tbm.group[(0 : Group)].val.enabled = false) ∧
    groupWithAddress? s (frameDest (frame 0x030000000002 0xB1C0 0 0 0)) = none := by
  simp only [settled_iff]; and_intros <;> decide +kernel

theorem witness_UpstreamManagementFrameIsDenied :
    let s := demo .disabled
    let bytes := frame 0x02AABBCCDDEE 0x88B6 0 0 0
    s.Settled ∧ bytes.length = 64 ∧ (padTo 2048 bytes).length = 2048 ∧ frameType bytes = 0x88B6 ∧
      (taking (.camera 0) s).receiving (.camera 0) = .intoCell 0 ∧
      (taking (.camera 0) (noCells s)).receiving (.camera 0) = .bufferOnly := by
  simp only [settled_iff]; decide +kernel

theorem witness_UpstreamFrameIsForwardedOrDropped :
    let s := fun st => taking (.camera 0) (withRules (demo st))
    let down := (s .ready).modUplink fun u => { u with linkUp := false }
    let full := (s .ready).modUplink fun u => { u with egress := fullQueue }
    let bytes := classFrame 4
    ((s .disabled).Receives (.camera 0) 0 bytes ∧ (s .faulted).Receives (.camera 0) 0 bytes ∧
      (s .ready).Receives (.camera 0) 0 bytes ∧ down.Receives (.camera 0) 0 bytes ∧
      full.Receives (.camera 0) 0 bytes) ∧ frameType bytes ≠ 0x88B6 ∧
    ((s .disabled).port 0).state = .disabled ∧ ((s .faulted).port 0).state = .faulted ∧
    ((s .ready).port 0).state = .ready ∧ ((s .ready).classifiedUp 0 0 bytes).1.cls = .bulk ∧
    (down.classifiedUp 0 0 bytes).1.cls = .bulk ∧ down.uplink.linkUp = false ∧
    full.uplink.linkUp = true ∧ txFull (full.classifiedUp 0 0 bytes).2 .uplink = true ∧
    txFull ((s .ready).classifiedUp 0 0 bytes).2 .uplink = false := by
  simp only [receives_iff, settled_iff]; decide +kernel

/-- Upstream frames of ports that are not READY, outside the evidence that they wait for, and a probe answer. -/
theorem witness_UpstreamFrameIsForwardedOrDropped_quiet :
    let s := fun st f => taking (.camera 0) (withRules (demo st f))
    let cls := fun (t : State) n => (t.classifiedUp 0 0 (classFrame n)).1.cls
    let evidence := fun (t : State) n => ((t.port 0).op.kind = .cold ∨ (t.port 0).op.kind = .resume) ∧
      (t.port 0).op.phase = .window ∧
      (cls t n = .readySign ∨ (t.port 0).cfg.readiness = .anyFrame ∧ cls t n ≠ .probeAnswer)
    let any := fun r : PortRec => running .resume .window .frame 1 { r with cfg := { r.cfg with readiness := .anyFrame } }
    (∀ t ∈ [s .asleep id, s .waking (running .cold .window .power 1), s .resuming any, s .ready id],
      t.phase = .running ∧ t.owed = [] ∧ t.receiving (.camera 0) = .intoCell 0 ∧ 0 < (t.cell 0).refs) ∧
    ((s .asleep id).port 0).state = .asleep ∧ cls (s .asleep id) 8 = .probeAnswer ∧ cls (s .asleep id) 7 ≠ .probeAnswer ∧
    (((s .waking (running .cold .window .power 1)).port 0).state = .waking ∧
      ¬ evidence (s .waking (running .cold .window .power 1)) 4) ∧
    (((s .resuming any).port 0).state = .resuming ∧ ¬ evidence (s .resuming any) 8 ∧ evidence (s .resuming any) 4) ∧
    ¬ evidence (s .resuming (running .resume .spacing .frame 1)) 7 ∧ cls (s .ready id) 8 = .probeAnswer := by
  and_intros <;> decide +kernel

/-- A poll answer of a READY port, and one that is readiness evidence in ANY_FRAME mode. -/
theorem witness_pollAnswer_upstream :
    let s := fun st f => taking (.camera 0) (withRules (demo st f))
    let any := fun k m (r : PortRec) => running k .window m 1 { r with cfg := { r.cfg with readiness := .anyFrame } }
    let cls := fun t : State => (t.classifiedUp 0 0 (classFrame 5)).1.cls
    (∀ t ∈ [s .ready id, s .resuming (any .resume .frame), s .waking (any .cold .power)],
      cls t = .pollAnswer ∧ t.phase = .running ∧ t.owed = [] ∧ t.receiving (.camera 0) = .intoCell 0 ∧ 0 < (t.cell 0).refs) ∧
    ((s .ready id).port 0).state = .ready ∧ (s .ready id).uplink.linkUp = true ∧
    ((s .resuming (any .resume .frame)).port 0).cfg.readiness = .anyFrame ∧
    (classFrame 5).length = 64 ∧ frameType (classFrame 5) ≠ 0x88B6 := by
  and_intros <;> decide +kernel

theorem witness_DownstreamFrameAtReadyPort :
    let s := fun f => taking .uplink (withRules (demo .ready f))
    let bytes := classFrame 0
    let plain := s id
    let full := s fun r => { r with egress := fullQueue }
    let releases := s fun r => { r with releasing := true, hold := List.replicate 11 heldFrame }
    let heldFull := s fun r => { r with releasing := true, hold := List.replicate 12 heldFrame }
    (plain.Addresses 0 0 bytes ∧ full.Addresses 0 0 bytes ∧ releases.Addresses 0 0 bytes ∧ heldFull.Addresses 0 0 bytes) ∧
    (plain.port 0).state = .ready ∧ (heldFull.port 0).state = .ready ∧
    (let u := (plain.classifiedDown 0 0 bytes).2; deliverable u 0 = true ∧ txFull u (.camera 0) = false) ∧
    (let u := (full.classifiedDown 0 0 bytes).2; deliverable u 0 = true ∧ txFull u (.camera 0) = true) ∧
    (let u := (releases.classifiedDown 0 0 bytes).2;
      deliverable u 0 = false ∧ (u.port 0).hold.length < (u.port 0).cfg.holdLimit) ∧
    (let u := (heldFull.classifiedDown 0 0 bytes).2;
      deliverable u 0 = false ∧ (u.port 0).cfg.holdLimit ≤ (u.port 0).hold.length) := by
  simp only [addresses_iff, receives_iff, settled_iff]; decide +kernel

theorem witness_DownstreamFrameAtPortThatIsNotReady :
    let s := fun st f => taking .uplink (withRules (demo st f))
    let hold := fun st => bulkIs .hold (s st id)
    let parked := fun st => s st fun r => { r with park := true }
    let k := fun (n : Nat) (t : State) => (t.classifiedDown 0 0 (classFrame n)).1.action
    ((s .faulted id).Addresses 0 0 (classFrame 4) ∧ (hold .paused).Addresses 0 0 (classFrame 4) ∧
      (parked .asleep).Addresses 0 0 (classFrame 3) ∧ (s .pausing id).Addresses 0 0 (classFrame 3)) ∧
    ((s .faulted id).port 0).state = .faulted ∧ k 2 (s .paused id) = .drop ∧
    (((s .waking id).port 0).state = .waking ∧ k 4 (s .waking id) ≠ .drop ∧
      ((s .waking id).classifiedDown 0 0 (classFrame 4)).2.port 0 = (s .waking id).port 0) ∧
    k 4 (hold .asleep) = .hold ∧ (k 3 (s .pausing id)).waking = true ∧
    ((k 3 (s .asleep id)).waking = true ∧ ((s .asleep id).port 0).park = false) ∧
    (k 0 (s .paused id) = .holdAndWake ∧ ((s .paused id).port 0).park = false) ∧
    ((parked .asleep).port 0).park = true ∧ (k 3 (parked .asleep)).waking = true ∧ k 0 (parked .paused) = .holdAndWake ∧
    ((s .waking id).port 0).hold.length < ((s .waking id).port 0).cfg.holdLimit := by
  simp only [addresses_iff, receives_iff, settled_iff]; decide +kernel

/-- A hold queue at its limit of 12. -/
theorem witness_DownstreamFrameAtPortThatIsNotReady_full :
    let s := fun st => taking .uplink (withRules (demo st fun r => { r with hold := List.replicate 12 heldFrame }))
    let k := fun (n : Nat) (t : State) => (t.classifiedDown 0 0 (classFrame n)).1
    (∀ st ∈ [PortState.waking, .resuming, .pausing, .paused, .asleep],
      (s st).Addresses 0 0 (classFrame 0) ∧ (let u := ((s st).classifiedDown 0 0 (classFrame 0)).2;
        (u.port 0).cfg.holdLimit ≤ (u.port 0).hold.length) ∧ ((s st).port 0).park = false) ∧
    (k 0 (s .paused)).action = .holdAndWake ∧ (k 0 (s .paused)).cls = .capture ∧ (k 4 (s .waking)).cls ≠ .capture ∧
    (k 4 (bulkIs .hold (s .paused))).action = .hold := by
  simp only [addresses_iff, receives_iff, settled_iff]; decide +kernel

theorem witness_PollAtPausedPort :
    let s := fun f => taking .uplink (answered 999 (withRules (demo .paused f)))
    let bytes := classFrame 3
    let plain := s id
    let stale := answered 1000 plain
    let parked := answered 1000 (s fun r => { r with park := true })
    let look := fun (t : State) =>
      lookUpPoll 0 bytes (t.classifiedDown 0 0 bytes).1.keyOffset (t.classifiedDown 0 0 bytes).2
    (plain.Addresses 0 0 bytes ∧ stale.Addresses 0 0 bytes ∧ parked.Addresses 0 0 bytes ∧
      (noCells plain).Addresses 0 0 bytes) ∧ (plain.port 0).state = .paused ∧
    (plain.classifiedDown 0 0 bytes).1.action = .answerOrWake ∧
    ((look plain).1.isSome ∧ (look plain).2.free.head? = some 1 ∧ txFull (look plain).2 .uplink = false) ∧
    ((look (noCells plain)).1.isSome ∧ (look (noCells plain)).2.free = []) ∧
    ((look parked).1 = none ∧ (parked.port 0).park = true) ∧
    ((look stale).1 = none ∧ (stale.port 0).park = false ∧
      ((look stale).2.port 0).hold.length < ((look stale).2.port 0).cfg.holdLimit) := by
  simp only [addresses_iff, receives_iff, settled_iff]; decide +kernel

/-- A hit with 32 entries in the uplink transmit queue, and a miss at a full hold queue. -/
theorem witness_PollAtPausedPort_full :
    let s := fun age f => taking .uplink (answered age (withRules (demo .paused f)))
    let bytes := classFrame 3
    let up := (s 999 id).modUplink fun u => { u with egress := fullQueue }
    let hold := s 1000 fun r => { r with hold := List.replicate 12 heldFrame }
    let look := fun (t : State) =>
      lookUpPoll 0 bytes (t.classifiedDown 0 0 bytes).1.keyOffset (t.classifiedDown 0 0 bytes).2
    (up.Addresses 0 0 bytes ∧ hold.Addresses 0 0 bytes) ∧
    ((look up).1.isSome ∧ (look up).2.free.head? = some 1 ∧ (look up).2.uplink.egress.queue.length = 32) ∧
    ((look hold).1 = none ∧ (hold.port 0).park = false ∧
      ((look hold).2.port 0).cfg.holdLimit ≤ ((look hold).2.port 0).hold.length) := by
  simp only [addresses_iff, receives_iff, settled_iff]; decide +kernel

theorem witness_PollIsAHitOnAFreshRecordOfItsKey :
    let s := answered 999 (demo .paused)
    let bytes := classFrame 3
    (∀ i : Fin 4, (s.port 0).proxies[i].occupied = true →
      s.tbm.proxy[proxyIndex 0 i].poison = false ∧ ∀ w : Fin 65, s.tbm.proxy[proxyIndex 0 i].words[w] = .good) ∧
    (∀ i j : Fin 4, (s.port 0).proxies[i].occupied = true → (s.port 0).proxies[j].occupied = true →
      s.tbm.proxy[proxyIndex 0 i].val.key = s.tbm.proxy[proxyIndex 0 j].val.key → i = j) ∧
    (some 63).bind (word16At? bytes) = none ∧ (some 62).bind (word16At? bytes) = some 0 ∧
    (some 15).bind (word16At? bytes) = some 0x1234 ∧ (s.port 0).proxies[0].occupied = true ∧
    s.tbm.proxy[proxyIndex 0 0].val.key = 0x1234 ∧ (s.port 0).proxies[0].age < (s.port 0).cfg.ageLimit * 1000 := by
  decide +kernel

theorem witness_LearnedAnswerGoesIntoOneRecord :
    let s := answered 600000 (demo .pausing)
    (∀ i : Fin 4, (s.port 0).proxies[i].occupied = true →
      s.tbm.proxy[proxyIndex 0 i].poison = false ∧ ∀ w : Fin 65, s.tbm.proxy[proxyIndex 0 i].words[w] = .good) ∧
    (s.port 0).cfg.ageLimit ≠ 0 ∧ ((demo .ready).port 0).cfg.ageLimit = 0 ∧
    (none : Option Nat).bind (word16At? (classFrame 5)) = none ∧
    (some 15).bind (word16At? (padTo 256 (classFrame 5))) = some 0x1234 ∧ (padTo 256 (classFrame 5)).length ≤ 256 ∧
    256 < (padTo 257 (classFrame 5)).length := by decide +kernel

theorem witness_UnknownDestinationIsCounted :
    let s := taking .uplink (demo .disabled)
    let own := frame 0x020000001604 0x88B7 0 0 0
    let none := frame 0x060000000002 0xB1C0 0 0 0
    let holders := fun a => allPorts.filter fun p => (s.port p).state = .disabled && (s.port p).cfg.station = a
    (s.Receives .uplink 0 own ∧ s.Receives .uplink 0 (classFrame 4) ∧ s.Receives .uplink 0 none) ∧
    (frameDest own = s.mga.factory ∧ frameType own ≠ 0x88B6) ∧
    (frameDest none ≠ s.mga.factory ∧ isGroupAddr (frameDest none) = false ∧ portWithStation? s (frameDest none) = .none ∧
      (holders (frameDest none)).length ≠ 1) ∧
    (portWithStation? s (frameDest (classFrame 4)) = .none ∧ holders (frameDest (classFrame 4)) = [0]) := by
  simp only [receives_iff, settled_iff]; decide +kernel

theorem witness_FloodedFrameReachesEveryReadyPort :
    let s := taking .uplink (withRules (demo .ready))
    let all := frame 0xFFFFFFFFFFFF 0x0806 0 0 0
    let some := frame 0x0300000000FF 0x0806 0 0 0
    s.Receives .uplink 0 all ∧ s.Receives .uplink 0 some ∧ frameDest all ≠ s.mga.factory ∧
    (frameDest all = broadcast ∧ frameType all ≠ 0x88B6) ∧
    (frameDest some ≠ broadcast ∧ isGroupAddr (frameDest some) = true ∧ groupWithAddress? s (frameDest some) = none) := by
  simp only [receives_iff, settled_iff]; decide +kernel

/-- A frame of class n for group 0. -/
def groupFrame (n : Nat) : List Byte := frame 0x030000000001 0xB1C0 (n + 1) 0 0

theorem witness_GroupFrameIsCopiedToReadyMembers :
    let s := taking .uplink (withGroup groupCfg (withRules (demo .ready)))
    let off := withGroup { groupCfg with enabled := false } s
    let bytes := groupFrame 2
    let read := fun t => (readGroup 0 (State.classifiedWide t 0 bytes).2).1
    (s.Receives .uplink 0 bytes ∧ off.Receives .uplink 0 bytes ∧ (spoiltGroup s).Receives .uplink 0 bytes) ∧
    frameDest bytes ≠ s.mga.factory ∧ frameDest bytes ≠ broadcast ∧ isGroupAddr (frameDest bytes) = true ∧
    (groupWithAddress? s (frameDest bytes) = some 0 ∧ groupWithAddress? off (frameDest bytes) = some 0 ∧
      groupWithAddress? (spoiltGroup s) (frameDest bytes) = some 0) ∧ (s.classifiedWide 0 bytes).1.cls ≠ .capture ∧
    read s = some groupCfg ∧ read off = some { groupCfg with enabled := false } ∧ read (spoiltGroup s) = none := by
  simp only [receives_iff, settled_iff]; decide +kernel

/-- One copy placed beside a full member, and none placed: the cell then goes back to the free list. -/
theorem witness_GroupFrameIsCopiedToReadyMembers_copies :
    let full := fun r : PortRec => { r with egress := fullQueue }
    let s := fun f => taking .uplink (withGroup { groupCfg with members := 3 } (withRules
      (State.modPort (demo .ready f) 1 fun _ => full (portIn .ready))))
    let bytes := groupFrame 2
    let v := fun t => (readGroup 0 (State.classifiedWide t 0 bytes).2).2
    ((s id).Receives .uplink 0 bytes ∧ (s full).Receives .uplink 0 bytes) ∧
    (txFull (v (s id)) (.camera 0) = false ∧ txFull (v (s id)) (.camera 1) = true ∧
      txFull (v (s full)) (.camera 0) = true) ∧ ((v (s full)).cell 0).refs = 1 := by
  simp only [receives_iff, settled_iff]; decide +kernel

theorem witness_TriggerIsJudgedInOrder :
    let s := fun st c => taking .uplink (withGroup c (withRules (demo st)))
    let strict := { groupCfg with strict := true }
    let bytes := groupFrame 0
    let read := fun t => (readGroup 0 (State.classifiedWide t 0 bytes).2)
    let meets := fun t : State => t.Receives .uplink 0 bytes ∧ frameDest bytes ≠ t.mga.factory ∧
      groupWithAddress? t (frameDest bytes) = some 0 ∧ (State.classifiedWide t 0 bytes).1.cls = .capture
    let all := fun (t : State) => deliverableOf (read t).2 1 = 1
    (meets (s .ready groupCfg) ∧ meets (spoiltGroup (s .ready groupCfg)) ∧ meets (armed true (s .ready strict))) ∧
    frameDest bytes ≠ broadcast ∧ isGroupAddr (frameDest bytes) = true ∧
    (read (spoiltGroup (s .ready groupCfg))).1 = none ∧ (read (s .ready { groupCfg with members := 0 })).1.isSome ∧
    (((read (triggered .partialSet false 0 (s .paused groupCfg))).2.group 0).slot.pending = true ∧
      ((read (s .paused groupCfg)).2.group 0).slot.pending = false) ∧
    (((read (armed false (s .ready strict))).2.group 0).arm.intact = false ∧
      ((read (armed true (s .ready strict))).2.group 0).arm.intact = true) ∧
    all (s .ready groupCfg) ∧ ¬ all (s .paused groupCfg) := by
  simp only [receives_iff, settled_iff]; decide +kernel

theorem witness_PendingTriggerSortsItsMembers :
    let s := demo .faulted
    let unreachable := portsWhere fun p => hasPort 1 p && ((s.port p).state = .disabled || (s.port p).state = .faulted)
    Policy.abandon ≠ .partialSet ∧ unreachable ≠ 0 := by decide +kernel

theorem witness_DeliveryPlacesOneEntryForEachTarget :
    let s := triggered .partialSet false 0 (demo .ready)
    let full := triggered .partialSet false 0 (demo .ready fun r => { r with egress := fullQueue })
    hasPort 1 1 = false ∧ hasPort 1 0 = true ∧ txFull s (.camera 0) = false ∧ txFull full (.camera 0) = true := by
  decide +kernel

theorem witness_ManagementRequestIsTakenOrDropped :
    let from_ := fun a => State.modMga (taking .uplink (demo .ready)) fun m => { m with managerA := a }
    let known := from_ 0x02AABBCCDDEE
    let eight := known.modMga fun m => { m with fifo := List.replicate 8 (ask 1 0 0 []) }
    let bytes := padTo 64 (addrBytes 0x020000001604 ++ addrBytes 0x02AABBCCDDEE ++ natBE 2 0x88B6 ++ [1, 1])
    let answer := padTo 64 (addrBytes 0x020000001604 ++ addrBytes 0x02AABBCCDDEE ++ natBE 2 0x88B6 ++ [1, 2])
    known.Settled ∧ bytes.length = 64 ∧ frameType bytes = 0x88B6 ∧ frameDest bytes = known.mga.factory ∧
    known.receiving .uplink = .intoCell 0 ∧ (taking .uplink (noCells (demo .ready))).receiving .uplink = .bufferOnly ∧
    (known.mga.managerA ≠ 0 ∧ frameSource bytes = known.mga.managerA) ∧ frameSource bytes ≠ (from_ 5).mga.managerA ∧
    natAt bytes 15 1 = 1 ∧ natAt answer 15 1 ≠ 1 ∧ 8 ≤ eight.mga.fifo.length ∧ known.mga.fifo.length < 8 := by
  simp only [settled_iff]; decide +kernel

theorem witness_FirstFittingRuleClassifiesAFrame :
    let s := withRules (demo .ready)
    (∀ i : Fin 32, s.tbm.rule[i].poison = false ∧ ∀ w : Fin 5, s.tbm.rule[i].words[w] = .good) ∧
    (∀ i : Fin 9, s.tbm.classAction[i].poison = false ∧ ∀ w : Fin 1, s.tbm.classAction[i].words[w] = .good) ∧
    (s.tbm.rule[8].val.fits true (some 0) = true ∧ s.tbm.rule[8].val.matchesFrame (classFrame 8) = true ∧
      s.tbm.rule[31].val.fits true (some 0) = false) := by decide +kernel

theorem witness_ReadinessEvidenceEndsTheWake :
    let s := fun st k m => taking (.camera 0) (withRules (demo st (running k .window m 1)))
    let r := s .resuming .resume .frame
    let w := s .waking .cold .power
    let bytes := classFrame 7
    (r.Receives (.camera 0) 0 bytes ∧ w.Receives (.camera 0) 0 bytes) ∧ frameType bytes ≠ 0x88B6 ∧
    (let u := (r.classifiedUp 0 0 bytes).2;
      (u.port 0).state = .resuming ∧ (u.port 0).op.kind = .resume ∧ (u.port 0).op.phase = .window ∧
        (u.port 0).op.method = some .frame) ∧
    (let u := (w.classifiedUp 0 0 bytes).2;
      (u.port 0).state = .waking ∧ (u.port 0).op.kind = .cold ∧ (u.port 0).op.phase = .window ∧
        (u.port 0).op.method = some .power) ∧ (r.classifiedUp 0 0 bytes).1.cls = .readySign := by
  simp only [receives_iff, settled_iff]; decide +kernel

/-- The same with two held frames and one place, and two places; an armed group and a pending trigger have the port. -/
theorem witness_ReadinessEvidenceEndsTheWake_release :
    let s := fun n => taking (.camera 0) (withRules (State.modCell (armed true (triggered .partialSet false 0
      (waits 0 .traffic 0 0 false (demo .resuming fun r => { running .resume .window .frame 1 r with
        hold := [heldFrame, heldFrame], egress := { fullQueue with queue := fullQueue.queue.take n } })))) 9
          fun x => { x with refs := n + 3 }))
    let u := fun n => ((s n).classifiedUp 0 0 (classFrame 7)).2
    ((s 31).Receives (.camera 0) 0 (classFrame 7) ∧ (s 30).Receives (.camera 0) 0 (classFrame 7)) ∧
    (((u 31).port 0).hold.drop (32 - ((u 31).port 0).egress.queue.length) = [heldFrame] ∧
      ((u 30).port 0).hold.drop (32 - ((u 30).port 0).egress.queue.length) = []) ∧
    (∀ h ∈ ((u 31).port 0).hold, 0 < ((u 31).cell h.cell).refs) ∧
    (let g := (u 30).group 0;
      g.arm.armed = true ∧ g.arm.intact = true ∧ hasPort g.arm.members 0 = true ∧ g.slot.pending = true ∧
        hasPort g.slot.members 0 = true) ∧ ((u 30).port 0).draws.active < ((u 30).port 0).charge := by
  simp only [receives_iff, settled_iff]; decide +kernel

theorem witness_EstimateLearnsTowardTheSample :
    (applySample 4 .power 65535 ⟨none, 0, none, 0⟩).1.cold = some 65535 ∧
      (applySample 1 .frame 1 ⟨some 2, 0, none, 0⟩).1.resume = some 1 := by decide

theorem witness_PausedPortHearsItsCamera :
    let s := fun f => taking (.camera 0) (withRules (demo .paused f))
    let parked := s fun r => { r with park := true }
    ((s id).Receives (.camera 0) 0 (classFrame 8) ∧ (s id).Receives (.camera 0) 0 (classFrame 7) ∧
      parked.Receives (.camera 0) 0 (classFrame 7)) ∧ frameType (classFrame 8) ≠ 0x88B6 ∧
    ((s id).port 0).state = .paused ∧ ((s id).classifiedUp 0 0 (classFrame 8)).1.cls = .probeAnswer ∧
    (((s id).classifiedUp 0 0 (classFrame 7)).1.cls = .readySign ∧ ((s id).port 0).park = false) ∧
    (parked.port 0).park = true ∧
    (((s id).classifiedUp 0 0 (classFrame 4)).1.cls = .bulk ∧ ((s id).port 0).cfg.readiness = .sign) := by
  simp only [receives_iff, settled_iff]; decide +kernel

theorem witness_PauseIsConfirmedOrFailsByTheCamera :
    let s := fun m => taking (.camera 0) (withRules (demo .pausing (confirming m false)))
    let bytes := classFrame 6
    ((s .ack).Receives (.camera 0) 0 bytes ∧ (s .silence).Receives (.camera 0) 0 (classFrame 4)) ∧
    frameType bytes ≠ 0x88B6 ∧
    (((s .ack).port 0).state = .pausing ∧ ((s .ack).port 0).op.kind = .pause ∧ ((s .ack).port 0).op.phase = .confirm) ∧
    (((s .ack).port 0).cfg.confirmMode = .ack ∧ ((s .ack).classifiedUp 0 0 bytes).1.cls = .standbyAck) ∧
    (((s .silence).port 0).cfg.confirmMode = .silence ∧
      ((s .silence).classifiedUp 0 0 (classFrame 4)).1.activity = true) ∧
    ((s .silence).classifiedUp 0 0 bytes).1.activity = false := by
  simp only [receives_iff, settled_iff]; decide +kernel

/-! ### Witnesses: requests -/

theorem witness_RefusedRequestIsAnsweredAndHasNoEffect :
    let s := demo .ready
    let bad := ask 5 0 16 [1]
    let unknown := ask 11 0 0 []
    let long := { unknown with body := padTo 50 [1, 1, 0, 7, 11, 0, 0, 0, 0x04, 0x01] }
    rowOf .enable = some (.port .enable) ∧ (asked bad s).Serves (.port .enable) bad [] ∧
    requestRefusal bad = some .badIndex ∧ s.mga.fifo = [] ∧
    ((asked (portAsk 2) s).mga.fifo.head?.map fun r => rowServes (.port .enable) r) = some false ∧
    (asked unknown s).Serves .unknown unknown [] ∧ (asked long s).Serves .unknown long [] ∧
    1024 < natAt long.body 8 2 := by
  simp only [serves_iff]; decide +kernel

theorem witness_RequestIsCheckedInOrder :
    let fits := fun r : Request => natAt r.body 0 1 = 1 ∧ natAt r.body 8 2 ≤ 1024 ∧ natAt r.body 8 2 + 10 ≤ r.body.length
    natAt ({ ask 1 0 0 [] with body := [2] } : Request).body 0 1 ≠ 1 ∧
    ((ask 1 0 0 []).body.length < 41 + 10) ∧
    (∀ r ∈ [ask 0 0 0 [], ask 11 0 0 [], ask 2 0 0 [], ask 2 11 0 [], ask 3 8 0 [], ask 2 1 16 [], ask 2 10 64 [], ask 5 0 16 [],
      ask 6 0 8 [], ask 9 0 17 [], ask 9 0 16 [], ask 2 10 63 [], ask 8 0 0 [0, 0], ask 5 0 15 [10], ask 6 0 7 [4]], fits r) := by
  decide +kernel

/-- Payloads of WRITE_ENTRY and PATCH_FIELD at the edges of sizes, field numbers and encodings. -/
theorem witness_RequestIsCheckedInOrder_payloads :
    let write := fun (table index : Nat) (bs : List Byte) => ask 3 table index bs
    let patch := fun (table field : Nat) (value : List Byte) => ask 4 table 0 (BitVec.ofNat 8 field :: value)
    let fits := fun r : Request => natAt r.body 0 1 = 1 ∧ natAt r.body 8 2 ≤ 1024 ∧ natAt r.body 8 2 + 10 ≤ r.body.length
    let zeros := fun n => List.replicate n (0 : Byte)
    (∀ r ∈ [write 1 15 (zeros 38), write 1 15 (zeros 37), write 2 47 (zeros 130), write 3 31 (zeros 17),
      write 3 31 (zeros 14 ++ [9, 0, 0]), write 4 8 [3, 1], write 4 8 [4, 1], write 5 7 (zeros 17), write 6 3 (zeros 2),
      write 7 0 (zeros 21), ask 4 1 0 [], patch 1 19 [0, 0], patch 1 20 [0], patch 1 5 [1], patch 1 5 [2], patch 1 6 [3],
      patch 2 1 (zeros 128), patch 2 0 [1, 1], patch 3 7 [8], patch 3 7 [9], patch 4 0 [4], patch 5 7 [2], patch 6 0 [0, 0],
      patch 6 1 [0, 0], patch 7 5 [0], patch 7 6 [0]], fits r) ∧
    ([6, 2, 2, 2, 1, 1, 1, 1, 2, 2, 2, 2, 2, 1, 2, 2, 2, 2, 1, 2].sum = 38 ∧ [1, 128, 1].sum = 130) ∧
    (requestRefusal (write 1 15 (zeros 37)) = some .length ∧ requestRefusal (write 4 8 [3, 1]) = none ∧
      requestRefusal (write 4 8 [4, 1]) = some .range) ∧
    (requestRefusal (ask 4 1 0 []) = some .length ∧ requestRefusal (patch 1 20 [0]) = some .range ∧
      requestRefusal (patch 2 1 (zeros 128)) = some .range ∧ requestRefusal (patch 2 0 [1, 1]) = some .length ∧
      requestRefusal (patch 3 7 [8]) = none ∧ requestRefusal (patch 3 7 [9]) = some .range) := by
  and_intros <;> decide +kernel

theorem witness_ResponseIsBuiltAndPlacedOrLost :
    let s := asked (ask 10 0 0 []) (demo .ready)
    let full := s.modUplink fun u => { u with egress := fullQueue }
    (List.replicate 1024 (0 : Byte)).length ≤ 1024 ∧ s.Accepts (.op .restart) (ask 10 0 0 []) [] ∧
    (noCells s).Accepts (.op .restart) (ask 10 0 0 []) [] ∧ full.Accepts (.op .restart) (ask 10 0 0 []) [] ∧
    (noCells s).free = [] ∧ s.free.head? = some 0 ∧ 32 ≤ full.uplink.egress.queue.length ∧
    s.uplink.egress.queue.length < 32 := by
  simp only [accepts_iff, serves_iff]; decide +kernel

theorem witness_IdentityCountersAndEventsAreRead :
    let s := demo .ready
    (asked (ask 1 0 0 []) s).Accepts (.op .identify) (ask 1 0 0 []) [] ∧
    (asked (ask 9 0 15 []) s).Accepts (.op .readCounters) (ask 9 0 15 []) [] ∧ natAt (ask 9 0 15 []).body 7 1 = 15 ∧
    (asked (ask 9 0 16 []) s).Accepts (.op .readCounters) (ask 9 0 16 []) [] ∧ natAt (ask 9 0 16 []).body 7 1 = 16 ∧
    (asked (ask 7 0 0 []) s).Accepts (.op .readEvents) (ask 7 0 0 []) [] := by
  simp only [accepts_iff, serves_iff]; decide +kernel

theorem witness_EventBecomesReportedAndIsNoticed :
    let r := ask 8 0 0 [0xFF, 0xFF]
    let s := asked r (demo .ready)
    let t := raise .portFault ⟨some 0, 0, 0⟩ s
    s.Accepts (.op .setEventMask) r [] ∧ t.Accepts (.op .setEventMask) r [] ∧
    t.evu.events[(0 : Fin 16)].pending = true ∧ t.evu.events[(0 : Fin 16)].mask = false ∧
    (BitVec.ofNat 16 (natAt r.body 10 2)).getLsbD 0 = true ∧ ∀ e : Fin 16, s.evu.events[e].pending = false := by
  simp only [accepts_iff, serves_iff]; decide +kernel

theorem witness_PinAndParkFlagsExcludeEachOther :
    let s := fun st (pin park : Bool) => demo st fun r => { r with pin := pin, park := park }
    natAt (portAsk 5).body 7 1 = 0 ∧
    (asked (portAsk 5) (s .ready false false)).Accepts (.port .pin) (portAsk 5) [] ∧
    (asked (portAsk 5) (s .ready false true)).Accepts (.port .pin) (portAsk 5) [] ∧
    (asked (portAsk 6) (s .ready true false)).Accepts (.port .unpin) (portAsk 6) [] ∧
    (asked (portAsk 3) (s .paused false false)).Accepts (.port .park) (portAsk 3) [] ∧
    (asked (portAsk 3) (s .paused true false)).Accepts (.port .park) (portAsk 3) [] ∧
    (asked (portAsk 4) (waits 0 .traffic 0 0 false (s .asleep false true))).Accepts (.port .unpark) (portAsk 4) [] ∧
    (asked (portAsk 4) (s .ready false true)).Accepts (.port .unpark) (portAsk 4) [] ∧
    ((s .ready true false).port 0).pin = true ∧ ((s .ready false true).port 0).park = true ∧
    (let t := triggered .partialSet false 0 (s .paused false false);
      (t.group 0).slot.pending = true ∧ hasPort (t.group 0).slot.members 0 = true ∧
        hasPort (t.group 0).slot.unreachable 0 = false) := by
  simp only [accepts_iff, serves_iff]; decide +kernel

theorem witness_WakeNeedMergesOrMakesAnEntry :
    let s := demo .paused
    let last := s.modAdm fun a => { a with arrivals := 65535 }
    let planned := s.modAdm fun a => { a with schedule := [⟨0, 0, 7⟩] }
    let parked := demo .paused fun r => { r with park := true }
    let wake := fun st => (asked (portAsk 7) (demo st)).Accepts (.port .wake) (portAsk 7) []
    (s.port 0).state = .paused ∧ (s.port 0).park = false ∧ ((demo .ready).port 0).state = .ready ∧
    ((waits 0 .sense 0 0 false s).adm.wakeQueue.map (·.port)) = [0] ∧ s.adm.wakeQueue = [] ∧
    last.adm.arrivals = 65535 ∧ planned.adm.schedule.map (·.port) = [0] ∧
    ((limited 29 s).adm.limits[domainOf 0] < (s.port 0).draws.inrush ∧
      (s.port 0).draws.inrush ≤ (limited 30 s).adm.limits[domainOf 0]) ∧
    wake .disabled ∧ wake .faulted ∧ wake .waking ∧ wake .ready ∧ wake .pausing ∧ wake .asleep ∧
    (asked (portAsk 7) parked).Accepts (.port .wake) (portAsk 7) [] ∧ (parked.port 0).park = true ∧
    natAt (portAsk 7).body 7 1 = 0 := by
  simp only [accepts_iff, serves_iff]; decide +kernel

/-- A WAKE whose new entry faults the port, at a limit 1 dW below the inrush draw of 30 dW; none at 30 dW, with an entry
there already, or in PAUSING. -/
theorem witness_WakeNeedMergesOrMakesAnEntry_overBudget :
    let s := fun st n => limited n (asked (portAsk 7) (demo st))
    let faults := fun t : State => ((t.port 0).state = .paused ∨ (t.port 0).state = .asleep) ∧ (t.port 0).park = false ∧
      (∀ e ∈ t.adm.wakeQueue, e.port ≠ 0) ∧ t.adm.limits[domainOf 0] < (t.port 0).draws.inrush
    (s .paused 29).Accepts (.port .wake) (portAsk 7) [] ∧ (s .asleep 29).Accepts (.port .wake) (portAsk 7) [] ∧
    (s .paused 30).Accepts (.port .wake) (portAsk 7) [] ∧ faults (s .paused 29) ∧ faults (s .asleep 29) ∧
    ¬ faults (s .paused 30) ∧ ¬ faults (waits 0 .sense 0 0 false (s .paused 29)) ∧ ¬ faults (s .pausing 29) := by
  simp only [accepts_iff, serves_iff]; and_intros <;> decide +kernel

theorem witness_DueScheduleEntryAndSenseEdgeMakeNeeds :
    let planned := fun st n => (demo st).modAdm fun a => { a with schedule := [⟨0, 0, n⟩] }
    let edge := fun st n => demo st fun r => { r with senseFilter := some n }
    (demo .paused).Settled ∧ scheduleEntry? (planned .paused 0) 0 = some ⟨0, 0, 0⟩ ∧
    scheduleEntry? (planned .ready 0) 0 = some ⟨0, 0, 0⟩ ∧ scheduleEntry? (planned .paused 1) 0 = some ⟨0, 0, 1⟩ ∧
    ((edge .paused 0).port 0).senseFilter = some 0 ∧ ((edge .ready 0).port 0).senseFilter = some 0 ∧
    ((edge .asleep 0).port 0).senseFilter = some 0 ∧ ((edge .paused 1).port 0).senseFilter ≠ some 0 := by
  simp only [settled_iff]; decide +kernel

theorem witness_PauseStartsFromReady :
    let s := fun n => demo .ready fun r => { r with idle := n }
    let t := asked (portAsk 8) (withTemplate .pause (s 120000))
    let due := fun u : State => (u.port 0).state = .ready ∧ held u 0 = false ∧ (u.port 0).cfg.idle ≠ 0 ∧
      (u.port 0).cfg.idle * 1000 ≤ (u.port 0).idle
    let read := fun u : State => (readPortConfig 0 (readPresent 0 .pause u).2)
    t.Settled ∧ due t ∧ ¬ due (s 119999) ∧ (asked (portAsk 8) (demo .paused)).Accepts (.port .pause) (portAsk 8) [] ∧
    t.Accepts (.port .pause) (portAsk 8) [] ∧ natAt (portAsk 8).body 7 1 = 0 ∧
    (readPresent 0 .pause (s 120000)).1 = none ∧ (readPresent 0 .pause t).1.isSome ∧
    (read (spoiltConfig t)).1 = none ∧ (read t).1.isSome ∧ (read t).2.unwatched 0 .pausing ∧
    (read t).2.free.head? = some 0 ∧ ((read t).2.port 0).egress.queue.length < 32 := by
  simp only [accepts_iff, serves_iff, settled_iff, State.unwatched]; decide +kernel

/-- A pause that fails at once: without a cell, and with 32 entries in the port's transmit queue; with and without a held
frame. -/
theorem witness_PauseStartsFromReady_fails :
    let t := fun f => asked (portAsk 8) (withTemplate .pause (demo .ready fun r => f { r with idle := 120000 }))
    let full := t fun r => { r with egress := fullQueue }
    let holds := noCells (t fun r => { r with hold := [heldFrame] })
    let read := fun u : State => (readPortConfig 0 (readPresent 0 .pause u).2)
    (noCells (t id)).Accepts (.port .pause) (portAsk 8) [] ∧ full.Accepts (.port .pause) (portAsk 8) [] ∧
    (∀ u ∈ [noCells (t id), full, holds], (u.port 0).state = .ready ∧ (readPresent 0 .pause u).1.isSome ∧
      (read u).1.isSome ∧ (∀ g : Group, breaksArm ((read u).2.group g).arm 0 ((read u).2.port 0).state .pausing = false ∧
        reachableMember (read u).2 g 0 = false)) ∧
    (read (noCells (t id))).2.free = [] ∧ ((read full).2.port 0).egress.queue.length = 32 ∧
    ((read holds).2.port 0).hold ≠ [] ∧ ((read full).2.port 0).hold = [] ∧
    (let y := fun h => demo .pausing fun r => { r with hold := h };
      ((y [heldFrame]).port 0).state = .pausing ∧ ((y [heldFrame]).port 0).hold ≠ [] ∧ ((y []).port 0).hold = []) := by
  simp only [accepts_iff, serves_iff]; and_intros <;> decide +kernel

theorem witness_PortGoesToAsleep :
    let s := fun st n => demo st fun r => { r with cfg := { r.cfg with deepIdle := 3 }, deepIdle := n }
    let due := fun u : State => (u.port 0).state = .paused ∧ (u.port 0).cfg.deepIdle ≠ 0 ∧
      (u.port 0).cfg.deepIdle * 1000 ≤ (u.port 0).deepIdle
    let asks := fun n st => asked (portAsk n) (demo st)
    let zero := (asks 1 .disabled).modTbm fun t => { t with portConfig := t.portConfig.set 0 (.fresh PortConfig.default) }
    (s .paused 3000).Settled ∧ due (s .paused 3000) ∧ ¬ due (s .paused 2999) ∧
    ((asks 9 .ready).Accepts (.port .sleep) (portAsk 9) [] ∧ (asks 9 .waking).Accepts (.port .sleep) (portAsk 9) []) ∧
    ((asks 1 .disabled).Accepts (.port .enable) (portAsk 1) [] ∧ (asks 1 .ready).Accepts (.port .enable) (portAsk 1) [] ∧
      zero.Accepts (.port .enable) (portAsk 1) [] ∧
      (spoiltConfig (asks 1 .disabled)).Accepts (.port .enable) (portAsk 1) []) ∧
    ((asks 10 .faulted).Accepts (.port .clear) (portAsk 10) [] ∧ (asks 10 .ready).Accepts (.port .clear) (portAsk 10) [] ∧
      (spoiltConfig (asks 10 .faulted)).Accepts (.port .clear) (portAsk 10) []) ∧
    (readPortConfig 0 (spoiltConfig (asks 1 .disabled))).1 = none ∧
    ((readPortConfig 0 zero).1.map (·.station)) = some 0 := by
  simp only [accepts_iff, serves_iff, settled_iff]; and_intros <;> decide +kernel

theorem witness_PortGoesToAsleep_enabled :
    let s := asked (portAsk 1) (demo .disabled)
    let v := (readPortConfig 0 s).2
    ((readPortConfig 0 s).1.map (·.station)) = some 0x060000000001 ∧ isGroupAddr 0x060000000001 = false ∧
      (∀ q : Port, q ≠ 0 → (v.port q).station ≠ some 0x060000000001) ∧
      (∀ g : Group, v.tbm.group[g].val.enabled = false) ∧ (0x060000000001 : Addr) ≠ v.mga.factory := by decide +kernel

theorem witness_PortIsShutDown :
    let s := fun st n => demo st fun r => { r with link := n }
    let asks := fun st => asked (portAsk 2) (demo st)
    (s .ready 2000).Settled ∧ ((asks .disabled).Accepts (.port .disable) (portAsk 2) [] ∧
      (asks .faulted).Accepts (.port .disable) (portAsk 2) []) ∧
    ((s .resuming 2000).mga.linkTimeout * 1000 ≤ ((s .resuming 2000).port 0).link ∧
      ¬ (s .ready 1999).mga.linkTimeout * 1000 ≤ ((s .ready 1999).port 0).link) ∧
    ((s .ready 0).port 0).feed = true ∧ ((s .asleep 0).port 0).feed = false ∧ ((s .faulted 0).port 0).state = .faulted := by
  simp only [accepts_iff, serves_iff, settled_iff]; decide +kernel

/-- SLEEP, and groups that a move concerns: a strict armed one with a trigger that watches the port, one not armed. -/
theorem witness_PortIsShutDown_groups :
    let asks := fun st f => asked (portAsk 9) (demo st f)
    let holds := asks .ready fun r => { r with hold := [heldFrame] }
    let w := (armed true (triggered .partialSet true 0 (demo .ready))).modArm 0 fun a => { a with watched := 1 }
    let x := triggered .partialSet false 0 (demo .ready)
    ((asks .ready id).Accepts (.port .sleep) (portAsk 9) [] ∧ (asks .paused id).Accepts (.port .sleep) (portAsk 9) [] ∧
      holds.Accepts (.port .sleep) (portAsk 9) []) ∧ (holds.port 0).hold.any (·.waking) = true ∧
    ((w.group 0).arm.broken 0 .ready .faulted = true ∧ (w.group 0).arm.breakReported = false ∧
      (w.group 0).refuses 0 .ready .faulted = true ∧ (w.group 1).refuses 0 .ready .faulted = false) ∧
    ((x.group 0).handsOn 0 0 false .ready .asleep = [.need .rendezvous 0] ∧
      (x.group 0).handsOn 0 0 false .ready .disabled = [.reevaluate 0]) ∧
    (((armed true (demo .resuming)).group 0).armAfter 0 .resuming .ready).watched = 1 := by
  simp only [accepts_iff, serves_iff]; and_intros <;> decide +kernel

theorem witness_GroupIsArmedAndDisarmed :
    let s := fun st f => withGroup groupCfg (demo st f)
    let asks := fun n => (asked (groupAsk n))
    let off := withGroup { groupCfg with enabled := false } (demo .ready)
    let parked := s .paused fun r => { r with park := true }
    let read := fun t => (readGroup 0 t).1
    let strict := triggered .partialSet true 0 (armed true (s .paused id))
    (s .ready id).Settled ∧
    ((asks 1 (s .ready id)).Accepts (.group .arm) (groupAsk 1) [] ∧ (asks 2 (s .ready id)).Accepts (.group .disarm) (groupAsk 2) [] ∧
      (asks 2 (armed true (s .ready id))).Accepts (.group .disarm) (groupAsk 2) [] ∧
      (asks 1 (spoiltGroup (s .ready id))).Accepts (.group .arm) (groupAsk 1) []) ∧ natAt (groupAsk 1).body 7 1 = 0 ∧
    read (spoiltGroup (s .ready id)) = none ∧ read off = some { groupCfg with enabled := false } ∧
    read (s .faulted id) = some groupCfg ∧ ((s .faulted id).port 0).state = .faulted ∧ hasPort groupCfg.members 0 = true ∧
    (parked.port 0).park = true ∧ ((s .ready id).group 0).arm.armed = false ∧
    ((armed true (s .ready id)).group 0).arm.armed = true ∧ ((armed true (s .ready id)).group 0).arm.hold = 0 ∧
    ((strict.group 0).slot.pending = true ∧ (strict.group 0).slot.strict = true) ∧
    (∀ q : Port, hasPort groupCfg.members q = true → ((s .ready id).port q).state = .ready ∧ ((s .ready id).port q).park = false) := by
  simp only [accepts_iff, serves_iff, settled_iff]; decide +kernel

theorem witness_GroupIsPreparedForItsTarget :
    let s := withGroup groupCfg (demo .asleep)
    let lead := fun n => ask 6 0 0 (3 :: natBE 4 n)
    let target := fun t (u : State) => (armed true u).modArm 0 fun a => { a with target := some t }
    s.Settled ∧ (∀ n ∈ [0, 120000, 120001], requestRefusal (lead n) = none ∧ natAt (lead n).body 11 4 = n) ∧
    (asked (lead 0) s).Accepts (.group .prepare) (lead 0) [] ∧ (asked (lead 120000) s).Accepts (.group .prepare) (lead 120000) [] ∧
    (asked (lead 120001) s).Accepts (.group .prepare) (lead 120001) [] ∧ natAt (lead 0).body 7 1 = 0 ∧
    (readGroup 0 (asked (lead 0) s)).1 = some groupCfg ∧ (readGroup 0 (spoiltGroup s)).1 = none ∧
    armRefusal groupCfg s = none ∧ armRefusal groupCfg (demo .faulted) = some .memberUnavailable ∧
    (waits 0 .sense 0 0 false s).adm.wakeQueue.map (·.port) = [0] ∧ s.adm.wakeQueue = [] ∧
    (((target 0 s).group 0).arm.armed = true ∧ ((target 0 s).group 0).arm.target = some 0) ∧
    ((target 1 s).group 0).arm.target ≠ some 0 ∧ (readGroup 0 (spoiltGroup (target 0 s))).1 = none ∧
    (let late := fun u : State => portsWhere fun q => hasPort groupCfg.members q && (u.port q).state ≠ .ready;
      late (target 0 s) ≠ 0 ∧ late (target 0 (withGroup groupCfg (demo .ready))) = 0) := by
  simp only [accepts_iff, serves_iff, settled_iff]; decide +kernel

theorem witness_PendingTriggerEnds :
    let s := triggered .partialSet false 0 (withGroup groupCfg (demo .paused))
    let t := triggered .abandon false 1 (withGroup groupCfg (demo .paused))
    let strict := triggered .partialSet true 0 (armed false (demo .paused))
    s.Settled ∧ (asked (groupAsk 4) s).Accepts (.group .cancel) (groupAsk 4) [] ∧
    (asked (groupAsk 4) (demo .ready)).Accepts (.group .cancel) (groupAsk 4) [] ∧ natAt (groupAsk 4).body 7 1 = 0 ∧
    ((s.group 0).slot.pending = true ∧ (s.group 0).slot.window = 0 ∧ (s.group 0).slot.policy = .partialSet) ∧
    ((demo .ready).group 0).slot.pending = false ∧
    ((s.modSlot 0 fun x => { x with window := 1 }).group 0).slot.window ≠ 0 ∧
    ((t.group 0).slot.policy = .abandon ∧ (t.group 0).slot.unreachable ≠ 0) ∧
    ((strict.group 0).slot.strict = true ∧ (strict.group 0).arm.intact = false) ∧
    (hasPort ((s.group 0).slot.members &&& ~~~ (s.group 0).slot.unreachable) 0 = true ∧ deliverable s 0 = false) ∧
    (let r := triggered .partialSet false 0 (demo .ready);
      ∀ p : Port, hasPort (r.group 0).slot.members p = true → deliverable r p = true) := by
  simp only [accepts_iff, serves_iff, settled_iff]; decide +kernel

/-! ### Witnesses: tables -/

/-- Every table with an entry index that is its last, and the first bytes of its answers' form, is a request that passes. -/
theorem witness_EntryIsReadInItsForm :
    let s := demo .ready
    (∀ x ∈ [(1, 0), (1, 15), (2, 47), (3, 31), (4, 8), (5, 7), (6, 3), (7, 0), (8, 15), (9, 7), (10, 63)],
      requestRefusal (ask 2 x.1 x.2 []) = none ∧ natAt (ask 2 x.1 x.2 []).body 6 1 = x.1 ∧
        natAt (ask 2 x.1 x.2 []).body 7 1 = x.2 ∧ rowServes (.op .readEntry) (ask 2 x.1 x.2 []) = true) ∧
    (asked (ask 2 1 0 []) s).Accepts (.op .readEntry) (ask 2 1 0 []) [] ∧
    (readPortConfig 0 s).1 = some (portIn .ready).cfg ∧
    ((readPortConfig 0 (spoiltConfig s)).1 = none ∧ (s.port 0).state ≠ .disabled) ∧
    ((readPortConfig 0 (spoiltConfig (demo .disabled))).1 = none ∧ ((demo .disabled).port 0).state = .disabled) ∧
    (readTemplate 47 s).1 = some Template.absent ∧ (readRule 31 s).1 = some Rule.default ∧
    (readClassAction 8 s).1 = some ⟨.drop, false⟩ ∧ (readGroup 7 s).1 = some GroupConfig.default ∧
    (readGroup 0 (spoiltGroup s)).1 = none ∧ (s.port 15).proxies[(3 : Fin 4)].occupied = false ∧
    ((answered 5 s).port 0).proxies[(0 : Fin 4)].occupied = true ∧ (readProxy (proxyIndex 0 0) (answered 5 s)).1.isSome := by
  simp only [accepts_iff, serves_iff]; and_intros <;> decide +kernel

/-- What an entry of a table is not handed over looks like. -/
theorem witness_EntryIsReadInItsForm_poisoned :
    let s := answered 5 (demo .ready)
    let t := s.modTbm fun t => { t with
      template := t.template.set 47 { t.template[47] with poison := true }
      rule := t.rule.set 31 { t.rule[31] with poison := true }
      classAction := t.classAction.set 8 { t.classAction[8] with poison := true }
      proxy := t.proxy.set 0 { t.proxy[0] with poison := true } }
    (readTemplate 47 t).1 = none ∧ (readRule 31 t).1 = none ∧ (readClassAction 8 t).1 = none ∧
      (readProxy (proxyIndex 0 0) t).1 = none := by decide +kernel

/-- Entries whose fields stand at the edges of their sizes. -/
theorem witness_EntryIsReadInItsForm_fits :
    let c := { PortConfig.default with
      holdLimit := 255, attempts := 255, missLimit := 255, standby := 65535, active := 65535, inrush := 65535
      attemptWindow := 65535, spacing := 65535, coldWindow := 65535, offHold := 65535, pulseWidth := 65535
      confirmWindow := 65535, idle := 65535, deepIdle := 65535, probeInterval := 65535, ageLimit := 65535 }
    let t := fun n => { length := n, bytes := List.replicate n 0xAB ++ List.replicate (128 - n) 0, seqOffset := 255 : Template }
    let e := { Rule.default with offset := 255, length := 255, keyOffset := some 254, seqOffset := none }
    let g := { GroupConfig.default with window := 65535, margin := 65535, armHold := 65535 }
    (∀ n ∈ [c.holdLimit, c.attempts, c.missLimit], n < 256) ∧
    (∀ n ∈ [c.standby, c.active, c.inrush, c.attemptWindow, c.spacing, c.coldWindow, c.offHold, c.pulseWidth,
      c.confirmWindow, c.idle, c.deepIdle, c.probeInterval, c.ageLimit], n < 65536) ∧
    (∀ n ∈ [0, 1, 128], (t n).length ≤ 128 ∧ (t n).bytes.length = 128 ∧
      (∀ b ∈ (t n).bytes.drop (t n).length, b = 0) ∧ (t n).seqOffset < 256) ∧
    (e.offset < 256 ∧ e.length < 256 ∧ (∀ o ∈ e.keyOffset, o < 255) ∧ (∀ o ∈ e.seqOffset, o < 255)) ∧
    (∀ n ∈ [g.window, g.margin, g.armHold], n < 65536) ∧
    (ask 2 8 15 []).body.length = 50 := by
  and_intros <;> decide +kernel

/-- A WRITE_ENTRY request. -/
def writeAsk (table index : Nat) (payload : List Byte) : Request := ask 3 table index payload

/-- The payload of PORT_CONFIG for the station address 06:00:00:00:00:01 with draws a, b, c and an idle threshold. -/
def configBytes (a b c idle : Nat) : List Byte :=
  natBE 6 0x060000000001 ++ natBE 2 a ++ natBE 2 b ++ natBE 2 c ++ [12, 0, 0, 2] ++ natBE 2 1500 ++ natBE 2 200 ++
    natBE 2 8000 ++ natBE 2 500 ++ natBE 2 105 ++ [1] ++ natBE 2 1000 ++ natBE 2 idle ++ natBE 2 0 ++ natBE 2 249 ++ [3] ++
    natBE 2 601

/-- The payload of TEMPLATE with a length and a sequence offset. -/
def templateBytes (length offset : Nat) : List Byte := natBE 1 length ++ List.replicate 128 0xAB ++ natBE 1 offset

/-- The payload of GROUP with an address, a window and the enabled field. -/
def groupBytes (a : Addr) (window on : Nat) : List Byte :=
  addrBytes a ++ natBE 2 1 ++ [0, 0] ++ natBE 2 window ++ natBE 2 250 ++ natBE 2 60 ++ natBE 1 on

/-- The payload of RULE for class n and direction d, with a field of one byte under a mask. -/
def ruleBytes (n d mask : Nat) : List Byte :=
  [1] ++ natBE 1 d ++ [0xFF, 0xFF, 14, 1] ++ natBE 4 mask ++ natBE 4 1 ++ natBE 1 n ++ [255, 255]

/-- The payload of DEVICE with a link timeout. -/
def deviceBytes (timeout : Nat) : List Byte := List.replicate 18 0 ++ natBE 1 timeout ++ [15, 4]

theorem witness_WholeEntryIsWrittenOrRefused :
    let passes := fun r : Request => requestRefusal r = none ∧ rowServes (.op .writeEntry) r = true
    let r := writeAsk 1 0 (configBytes 10 20 1000 3601)
    let s := demo .disabled
    (asked r s).Accepts (.op .writeEntry) r [] ∧
    (passes r ∧ passes (writeAsk 1 0 (configBytes 10 20 1001 0)) ∧ passes (writeAsk 2 2 (templateBytes 0 62)) ∧
      passes (writeAsk 2 2 (templateBytes 0 63)) ∧ passes (writeAsk 3 31 (ruleBytes 0 0 0xFF)) ∧
      passes (writeAsk 3 31 (ruleBytes 0 0 0x100)) ∧ passes (writeAsk 4 3 [2, 0]) ∧ passes (writeAsk 4 4 [2, 0]) ∧
      passes (writeAsk 5 0 (groupBytes 0x030000000001 60000 1)) ∧ passes (writeAsk 5 0 (groupBytes 0x020000000001 60000 1)) ∧
      passes (writeAsk 5 0 (groupBytes 0x030000000001 60001 1)) ∧ passes (writeAsk 6 0 (natBE 2 2001)) ∧
      passes (writeAsk 7 0 (deviceBytes 4)) ∧ passes (writeAsk 7 0 (deviceBytes 5))) ∧
    (s.port 0).state = .disabled ∧ ((demo .ready).port 0).state ≠ .disabled ∧
    ((PortConfig.ofPayload r.payload).inrush = 1000 ∧ (PortConfig.ofPayload r.payload).pulseWidth = 105 ∧
      1000 < (PortConfig.ofPayload (writeAsk 1 0 (configBytes 10 20 1001 0)).payload).inrush) ∧
    (max 0 64 < 63 + 2 ∧ ¬ max 0 64 < 62 + 2 ∧
      (Template.ofPayload (writeAsk 2 2 (templateBytes 0 63)).payload).seqOffset = 63) ∧
    (2 ^ (8 * 1) ≤ 0x100 ∧ (Rule.ofPayload (writeAsk 3 31 (ruleBytes 0 0 0x100)).payload).mask = 0x100 ∧
      (Rule.ofPayload (writeAsk 3 31 (ruleBytes 0 0 0xFF)).payload).direction = .down) ∧
    (ClassAction.ofPayload (writeAsk 4 4 [2, 0]).payload).action = .answerOrWake ∧
    ((triggered .partialSet false 0 s).group 0).slot.pending = true ∧
    ((armed true s).group 0).arm.armed = true ∧ ((armed true s).group 0).arm.breakReported = false ∧
    isGroupAddr 0x020000000001 = false ∧ beNat (writeAsk 6 0 (natBE 2 2001)).payload = 2001 ∧
    natAt (writeAsk 7 0 (deviceBytes 5)).payload 18 1 = 5 := by
  simp only [accepts_iff, serves_iff]; and_intros <;> decide +kernel

/-- The remaining cases of a write: the limits about the committed charge of 20 dW, and a PROBE template that starts a
PAUSED port's probing. -/
theorem witness_WholeEntryIsWrittenOrRefused_limits :
    let s := demo .ready
    let p := demo .paused fun r => { r with cfg := { r.cfg with probeInterval := 250 } }
    s.adm.committed[(0 : Domain)] = 20 ∧ (beNat (natBE 2 19) < 20 ∧ beNat (natBE 2 20) = 20) ∧
      ((p.port (templatePort 2)).state = .paused ∧ (p.port (templatePort 2)).cfg.probeInterval ≠ 0 ∧
        (p.port (templatePort 2)).probe.running = false) := by decide +kernel

/-- A PATCH_FIELD request: field n of an entry to the value of the bytes. -/
def patchAsk (table index n : Nat) (value : List Byte) : Request := ask 4 table index (BitVec.ofNat 8 n :: value)

theorem witness_OneFieldIsPatched :
    let passes := fun r : Request => requestRefusal r = none ∧ rowServes (.op .patchField) r = true
    let r := patchAsk 1 0 15 (natBE 2 3601)
    (asked r (demo .ready)).Accepts (.op .patchField) r [] ∧
    (passes r ∧ passes (patchAsk 1 0 14 (natBE 2 50)) ∧ passes (patchAsk 1 0 18 [0]) ∧ passes (patchAsk 1 0 17 (natBE 2 0)) ∧
      passes (patchAsk 1 0 19 (natBE 2 0)) ∧ passes (patchAsk 2 47 0 [128]) ∧ passes (patchAsk 3 31 9 [255]) ∧
      passes (patchAsk 4 8 1 [1]) ∧ passes (patchAsk 5 7 7 [0]) ∧ passes (patchAsk 6 0 0 (natBE 2 2001)) ∧
      passes (patchAsk 6 0 0 (natBE 2 19)) ∧ passes (patchAsk 7 0 5 [4]) ∧ passes (patchAsk 7 0 3 [5]) ∧
      passes (patchAsk 7 0 4 [15]) ∧ passes (patchAsk 7 0 4 [16]) ∧ passes (patchAsk 7 0 0 (natBE 6 1))) ∧
    (natAt r.body 6 1 = 1 ∧ natAt r.body 7 1 = 0 ∧ natAt r.payload 0 1 = 15 ∧ beNat (r.payload.drop 1) = 3601) ∧
    ((readPortConfig 0 (demo .ready)).1.isSome ∧ (readPortConfig 0 (spoiltConfig (demo .ready))).1 = none ∧
      (readPortConfig 0 (spoiltConfig (demo .disabled))).1 = none) ∧
    (Table.portConfig.fieldSizes[15]? = some 2 ∧ 65535 < 256 ^ 2 ∧ Table.portConfig.encodes 15 65535 = true) ∧
    (Table.rule.fieldSizes[9]? = some 1 ∧ Table.rule.encodes 9 255 = true) ∧
    (Table.classAction.fieldSizes[1]? = some 1 ∧ Table.classAction.encodes 1 1 = true) ∧
    (Table.group.fieldSizes[7]? = some 1 ∧ Table.group.encodes 7 0 = true) := by
  simp only [accepts_iff, serves_iff]; and_intros <;> decide +kernel

/-- Refused and stored values of TEMPLATE, RULE and CLASS_ACTION fields, and fields of a group, armed or not. -/
theorem witness_OneFieldIsPatched_entries :
    let passes := fun r : Request => requestRefusal r = none ∧ rowServes (.op .patchField) r = true
    let probing := withTemplate .probe (demo .paused fun r => { r with cfg := { r.cfg with probeInterval := 250 } })
    let groups := withGroup groupCfg (demo .ready)
    let arms := armed true groups
    let set := fun n v => groupCfg.setField n v
    (∀ r ∈ [patchAsk 2 2 0 [64], patchAsk 2 2 2 [63], patchAsk 2 2 2 [62], patchAsk 2 0 0 [129],
      patchAsk 3 0 4 [4], patchAsk 3 0 4 [5], patchAsk 3 0 7 [0], patchAsk 4 3 0 [2], patchAsk 4 4 0 [2]],
      passes r) ∧
    (∀ r ∈ [patchAsk 5 0 0 (natBE 6 0x020000000001), patchAsk 5 0 1 (natBE 2 3), patchAsk 5 0 4 (natBE 2 99),
      patchAsk 5 0 4 (natBE 2 100), patchAsk 5 0 5 (natBE 2 5001), patchAsk 5 0 6 (natBE 2 0), patchAsk 5 0 7 [0]], passes r) ∧
    ((readTemplate 2 probing).1.isSome ∧ (max 64 64 < 63 + 2 ∧ ¬ max 64 64 < 62 + 2) ∧
      (probing.port (templatePort 2)).state = .paused ∧ (probing.port (templatePort 2)).probe.running = false) ∧
    ((readRule 0 groups).1 = some Rule.default ∧ (Rule.default.setField 4 5).length = 5) ∧
    ((readClassAction 4 groups).1.map fun a => (a.setField 0 2).action) = some .answerOrWake ∧
    ((readGroup 0 groups).1 = some groupCfg ∧ (groups.group 0).slot.pending = false ∧ (groups.group 0).arm.armed = false ∧
      ((triggered .partialSet false 0 groups).group 0).slot.pending = true) ∧
    ((set 0 0x020000000001).enabled = true ∧ isGroupAddr (set 0 0x020000000001).address = false) ∧
    ((set 1 3).enabled = true ∧ isGroupAddr (set 1 3).address = true ∧ (set 1 3).address ≠ broadcast ∧
      ∀ h : Group, h ≠ 0 → groups.tbm.group[h].val.enabled = false) ∧
    ((readGroup 0 arms).1 = some groupCfg ∧ (arms.group 0).arm.armed = true ∧ (arms.group 0).arm.intact = true ∧
      (arms.group 0).arm.breakReported = false ∧ (arms.group 0).slot.pending = false ∧
      ((armed false groups).group 0).arm.intact = false) := by
  and_intros <;> decide +kernel

/-! ### Witnesses: egress, release, admission, lines -/

theorem witness_EgressSendsItsHeadEntry :
    let q := fun e : TxEntry => demo .ready fun r => { r with egress := { queue := [e], sending := none } }
    let plain := q ⟨9, 64, none⟩
    let copied := q ⟨9, 64, some 0⟩
    let busy := plain.modEgress (.camera 0) fun g => { g with sending := some (classFrame 4) }
    plain.Settled ∧ ((plain.port 0).linkUp = true ∧ (plain.egress (.camera 0)).sending = none ∧
      (plain.egress (.camera 0)).queue = [⟨9, 64, none⟩]) ∧ (copied.egress (.camera 0)).queue = [⟨9, 64, some 0⟩] ∧
    (busy.egress (.camera 0)).sending = some (classFrame 4) ∧ plain.uplink.linkUp = true ∧
    (plain.egress .uplink).queue = [] := by
  simp only [settled_iff]; decide +kernel

theorem witness_ReleaseStepMovesHeldFrames :
    let s := fun n => (demo .ready fun r => { r with
      releasing := true, hold := [heldFrame, heldFrame], egress := { fullQueue with queue := fullQueue.queue.take n } }).modCell 9
        fun x => { x with refs := n + 2 }
    (s 31).Settled ∧ ((s 31).port 0).releasing = true ∧ (∀ h ∈ ((s 31).port 0).hold, 0 < ((s 31).cell h.cell).refs) ∧
    (∀ h ∈ ((s 30).port 0).hold, 0 < ((s 30).cell h.cell).refs) ∧
    (32 - ((s 31).port 0).egress.queue.length = 1 ∧ 32 - ((s 30).port 0).egress.queue.length = 2) ∧
    ((demo .ready).port 0).releasing = false := by
  simp only [settled_iff]; decide +kernel

/-- Ports 0 and 1, both of D0, PAUSED with 10 dW each and inrush draws of 40 and 30 dW, in the wake queue under a limit. -/
def contest (limit : Nat) (blocking : Bool) : State :=
  let one := demo .paused fun r => { r with draws := { r.draws with inrush := 40 } }
  let two := one.modPort 1 fun _ => portIn .paused
  waits 1 .sense 1 0 false (waits 0 .traffic 0 3 blocking (limited limit
    (two.modAdm fun a => { a with committed := a.committed.set 0 (domainCharge two 0) })))

theorem witness_ScanAdmitsInOrderUnderTheLimit :
    let fails := fun (s : State) (e : WakeEntry) => s.adm.limits[domainOf e.port] + (s.port e.port).charge <
      s.adm.committed[domainOf e.port] + (s.port e.port).draws.inrush
    let sole := fun n => waits 0 .sense 0 0 false (limited n (demo .paused))
    let a := fun b => (⟨0, .traffic, 0, 3, b⟩ : WakeEntry)
    let b : WakeEntry := ⟨1, .sense, 1, 0, false⟩
    (demo .ready).Settled ∧ scanOrder (demo .ready) = [] ∧
    (scanOrder (sole 30) = [⟨0, .sense, 0, 0, false⟩] ∧ ¬ fails (sole 30) ⟨0, .sense, 0, 0, false⟩ ∧
      fails (sole 29) ⟨0, .sense, 0, 0, false⟩) ∧
    (scanOrder (contest 40 false) = [a false, b] ∧ domainOf 0 = domainOf 1 ∧ fails (contest 40 false) (a false) ∧
      ¬ fails (contest 40 false) b) ∧
    (scanOrder (contest 40 true) = [a true, b] ∧ fails (contest 40 true) (a true)) ∧
    (fails (contest 39 false) (a false) ∧ fails (contest 39 false) b) ∧
    ((readPortConfig 0 (spoiltConfig (sole 30))).1 = none ∧ (readPortConfig 0 (sole 30)).1.isSome) ∧
    (((demo .asleep).port 0).state = .asleep ∧ ((demo .asleep).port 0).feedFaultIn = false) ∧
    (let hot := demo .asleep fun r => { r with feedFaultIn := true };
      (hot.port 0).state = .asleep ∧ (hot.port 0).feedFaultIn = true) := by
  simp only [settled_iff]; decide +kernel

/-- Ports 0 and 1 of D0 and 4 of D1 wait: 0 is too dear and passed over, 1 and 4 are admitted. -/
def contestOfThree : State :=
  let s := contest 40 false
  let s := s.modPort 4 fun _ => portIn .paused
  let s := s.modAdm fun a => { a with
    limits := a.limits.set 1 30, committed := a.committed.set 1 10, arrivals := 3
    wakeQueue := [⟨0, .rendezvous, 0, 3, false⟩, ⟨4, .traffic, 1, 0, false⟩, ⟨1, .sense, 2, 0, false⟩] }
  s.modTbm fun t => { t with portConfig := t.portConfig.set 1 (.fresh (portIn .ready).cfg) |>.set 4 (.fresh (portIn .ready).cfg) }

theorem witness_ScanAdmitsInOrderUnderTheLimit_three :
    let s := contestOfThree
    s.Settled ∧ (scanOrder s).map (·.port) = [0, 4, 1] ∧ domainOf 4 ≠ domainOf 0 ∧
    (let t := after .admissionScan s;
      (t.port 0).state = .paused ∧ (t.port 4).state = .resuming ∧ (t.port 1).state = .resuming ∧
        t.adm.wakeQueue = [⟨0, .rendezvous, 0, 4, true⟩]) := by
  simp only [settled_iff]; decide +kernel

theorem witness_LinksAndLinesKeepTheirLevels :
    let s := demo .ready
    let down := fun n => s.modUplink fun u => { u with linkUp := false, timer := n }
    (s.port 0).feed = true ∧ (s.port 1).feed = false ∧ (s.port 0).senseIn = false ∧ s.phase = .running ∧
    ((s.modPort 0 fun r => { r with senseIn := true }).port 0).senseIn = true ∧ s.Settled ∧
    (s.mga.linkTimeout * 1000 ≤ (down 2000).uplink.timer ∧ (down 2000).uplink.raised = false ∧
      ¬ s.mga.linkTimeout * 1000 ≤ (down 1999).uplink.timer) := by
  simp only [settled_iff]; decide +kernel

/-! ### Witnesses: the wake engine and the scrubber -/

/-- A RESUMING port in a phase of its method, with n attempts made and the countdown over. -/
def attempting (ph : Phase) (m : Method) (n spacing : Nat) : State :=
  demo .resuming fun r => running .resume ph m n { r with cfg := { r.cfg with spacing := spacing } }

theorem witness_ColdAndPowerAttemptsRun :
    let s := fun ph n => demo .waking (running .cold ph .power n)
    let fault := fun (t : State) => t.modPort 0 fun r => { r with feedFaultIn := true }
    let pulse := fun n => demo .resuming fun r => { r with op := { r.op with pulse := some n } }
    let windowDue := fun t : State => (t.port 0).state = .waking ∧ (t.port 0).op.kind = .cold ∧
      (t.port 0).op.phase = .window ∧ (t.port 0).op.countdown = 0
    let holdDue := fun t : State => ((t.port 0).state = .waking ∧ (t.port 0).op.kind = .cold ∨
      (t.port 0).state = .resuming ∧ (t.port 0).op.kind = .resume) ∧ (t.port 0).op.phase = .offHold ∧
      (t.port 0).op.countdown = 0
    (s .window 1).Settled ∧ (windowDue (s .window 1) ∧ ((s .window 1).port 0).op.attempt < ((s .window 1).port 0).cfg.attempts) ∧
    (windowDue (s .window 2) ∧ ((s .window 2).port 0).cfg.attempts ≤ ((s .window 2).port 0).op.attempt) ∧
    ¬ windowDue (s .offHold 1) ∧ holdDue (s .offHold 1) ∧ holdDue (attempting .offHold .power 1 200) ∧ ¬ holdDue (s .window 1) ∧
    (((s .offHold 1).port 0).feedFaultIn = false ∧ ((fault (s .offHold 1)).port 0).feedFaultIn = true ∧
      holdDue (fault (s .offHold 1))) ∧
    (((pulse 0).port 0).op.pulse = some 0 ∧ ((pulse 1).port 0).op.pulse ≠ some 0) := by
  simp only [settled_iff]; decide +kernel

theorem witness_ResumeAttemptsEscalate :
    let runs := fun t : State => (t.port 0).state = .resuming ∧ (t.port 0).op.kind = .resume ∧ (t.port 0).op.countdown = 0
    let w := fun m n sp => attempting .window m n sp
    let present := withTemplate .resume (attempting .spacing .frame 0 0)
    (w .frame 1 200).Settled ∧ (runs (w .frame 1 200) ∧ ((w .frame 1 200).port 0).op.phase = .window) ∧
    (((w .frame 1 200).port 0).op.attempt < ((w .frame 1 200).port 0).cfg.attempts ∧
      ((w .frame 2 0).port 0).cfg.attempts ≤ ((w .frame 2 0).port 0).op.attempt) ∧
    (((w .frame 2 200).port 0).op.method = some .frame ∧ ((w .line 2 200).port 0).op.method = some .line ∧
      ((w .power 2 200).port 0).op.method = some .power ∧ 0 < ((w .power 2 200).port 0).op.attempt) ∧
    (((w .frame 1 200).port 0).cfg.spacing ≠ 0 ∧ ((w .frame 2 0).port 0).cfg.spacing = 0) ∧
    (runs (attempting .spacing .line 1 200) ∧ ((attempting .spacing .line 1 200).port 0).op.phase = .spacing) ∧
    ¬ runs (demo .ready) ∧
    ((readPresent 0 .resume present).1.isSome ∧ (readPresent 0 .resume present).2.free.head? = some 0 ∧
      ((readPresent 0 .resume present).2.port 0).egress.queue.length < 32) ∧
    (readPresent 0 .resume (noCells present)).2.free = [] ∧
    (let t := present.modPort 0 fun r => { r with egress := fullQueue };
      32 ≤ ((readPresent 0 .resume t).2.port 0).egress.queue.length) ∧
    ((readPresent 0 .resume (w .frame 0 0)).1 = none ∧ ((w .frame 0 0).port 0).op.attempt = 0 ∧
      ((w .frame 1 0).port 0).op.attempt ≠ 0) := by
  simp only [settled_iff]; decide +kernel

theorem witness_ConfirmWindowConfirmsOrFails :
    let s := fun m b f => demo .pausing fun r => confirming m b (f r)
    let due := fun t : State => (t.port 0).state = .pausing ∧ (t.port 0).op.kind = .pause ∧ (t.port 0).op.phase = .confirm ∧
      (t.port 0).op.countdown = 0
    let quiet := s .silence false id
    let held := s .ack false fun r => { r with hold := [heldFrame] }
    quiet.Settled ∧ due quiet ∧ due held ∧ ¬ due (demo .ready) ∧
    ((quiet.port 0).cfg.confirmMode = .silence ∧ (quiet.port 0).op.activitySeen = false) ∧
    ((s .silence true id).port 0).op.activitySeen = true ∧ (held.port 0).hold ≠ [] ∧ (quiet.port 0).hold = [] ∧
    quiet.unwatched 0 .paused ∧ quiet.adm.wakeQueue = [] ∧ (waits 0 .traffic 0 0 false quiet).adm.wakeQueue.map (·.port) = [0] ∧
    ((limited 29 quiet).adm.limits[domainOf 0] < (quiet.port 0).draws.inrush ∧
      (quiet.port 0).draws.inrush ≤ (limited 30 quiet).adm.limits[domainOf 0]) ∧
    ((quiet.port 0).park = false ∧ ((s .silence false fun r => { r with park := true }).port 0).park = true) := by
  simp only [settled_iff, State.unwatched]; and_intros <;> decide +kernel

theorem witness_ProbeIntervalCountsMissesAndSends :
    let s := fun n f => withTemplate .probe (demo .paused fun r => f { r with
      probe := { r.probe with running := true, outstanding := some 65535, misses := n, nextSeq := 65535 } })
    let due := fun t : State => (t.port 0).state = .paused ∧ (t.port 0).probe.running = true ∧ (t.port 0).probe.countdown = 0
    let none_ := demo .paused fun r => { r with probe := { r.probe with running := true } }
    (s 2 id).Settled ∧ due (s 2 id) ∧ due (s 1 id) ∧ due none_ ∧ ¬ due (demo .paused) ∧
    (((s 2 id).port 0).probe.outstanding ≠ none ∧ ((s 2 id).port 0).probe.answered = false) ∧
    (((s 2 id).port 0).cfg.missLimit ≤ ((s 2 id).port 0).probe.misses + 1 ∧
      ((s 1 id).port 0).probe.misses + 1 < ((s 1 id).port 0).cfg.missLimit) ∧
    (readPresent 0 .probe none_).1 = none ∧ (readPresent 0 .probe (s 1 id)).1.isSome ∧
    (readPresent 0 .probe (noCells (s 1 id))).2.free = [] ∧ (readPresent 0 .probe (s 1 id)).2.free.head? = some 0 ∧
    ((readPresent 0 .probe (s 1 id)).2.port 0).egress.queue.length < 32 ∧
    32 ≤ ((readPresent 0 .probe (s 1 fun r => { r with egress := fullQueue })).2.port 0).egress.queue.length := by
  simp only [settled_iff]; and_intros <;> decide +kernel

/-- The part with the words of RULE 31 in a given state and its mark. -/
def worn (w : WordCheck) (poison : Bool) : State :=
  (demo .ready).modTbm fun t => { t with rule := t.rule.set 31 { t.rule[31] with words := t.rule[31].words.set 4 w, poison := poison } }

theorem witness_ScrubberReadsEveryEntryOnceAPass :
    let s := demo .ready
    let next := fun n (t : State) => t.modTbm fun u => { u with scrubNext := n }
    let ended := fun n => (next none s).modTbm fun u => { u with scrubPeriod := n }
    s.Settled ∧ ((ended 0).tbm.scrubPeriod = 0 ∧ (ended 0).tbm.scrubNext = none) ∧ (ended 1).tbm.scrubPeriod ≠ 0 ∧
    (∀ n ∈ [0, 15, 16, 63, 64, 95, 96, 104, 105, 112, 113, 176], (next (some n) s).tbm.scrubNext = some n) ∧
    ((readPortConfig 0 (spoiltConfig s)).1 = none ∧ (s.port 0).state ≠ .disabled ∧ (readPortConfig 0 s).1.isSome ∧
      (s.port 15).state = .disabled) ∧
    (worn .good true).tbm.rule[(31 : Fin 32)].poison = true ∧
    ((worn .twoBad false).tbm.rule[(31 : Fin 32)].poison = false ∧
      .twoBad ∈ (worn .twoBad false).tbm.rule[(31 : Fin 32)].words.toList) ∧
    (.twoBad ∉ (worn .oneBad false).tbm.rule[(31 : Fin 32)].words.toList ∧
      0 < (worn .oneBad false).tbm.rule[(31 : Fin 32)].words.toList.countP (· == .oneBad)) ∧
    (∀ w : Fin 5, s.tbm.rule[(31 : Fin 32)].words[w] = .good) := by
  simp only [settled_iff]; and_intros <;> decide +kernel

/-- What reads find and do beyond RULE: a PROXY record to be poisoned, a poisoned group with an arm and a trigger, rules that
are skipped. -/
theorem witness_ScrubberReadsEveryEntryOnceAPass_owners :
    let s := answered 5 (demo .ready)
    let bad := s.modTbm fun t => { t with proxy := t.proxy.set 0 { t.proxy[0] with words := t.proxy[0].words.set 64 .twoBad } }
    let g := spoiltGroup (armed true (triggered .partialSet true 0 (demo .ready)))
    let bytes := classFrame 4
    let skip := (withRules (demo .ready)).modTbm fun t => { t with rule := t.rule.set 4 { t.rule[4] with poison := true } }
    ((s.port 0).proxies[(0 : Fin 4)].occupied = true ∧ (s.port 15).proxies[(3 : Fin 4)].occupied = false) ∧
    (bad.tbm.proxy[(0 : Fin 64)].poison = false ∧ .twoBad ∈ bad.tbm.proxy[(0 : Fin 64)].words.toList ∧
      (readProxy (proxyIndex 0 0) bad).1 = none ∧ (readProxy (proxyIndex 0 0) s).1.isSome) ∧
    ((readGroup 0 g).1 = none ∧ (g.group 0).arm.armed = true ∧ (g.group 0).slot.pending = true) ∧
    ((readGroup 0 (spoiltGroup (demo .ready))).1 = none ∧ ((demo .ready).group 0).arm.armed = false ∧
      (readGroup 0 (demo .ready)).1.isSome) ∧
    ((classify true (some 0) bytes (withRules (demo .ready))).1.keyOffset = some 15 ∧
      (classify true (some 0) bytes skip).1.keyOffset = none) := by
  and_intros <;> decide +kernel

/-! ### One-step tests -/

/-- The state after the command that performs a request. -/
def performing (c : Instr) (r : Request) (s : State) : State := after c (asked r s)

/-- The frame of the last entry of the uplink transmit queue. -/
def lastUp (s : State) : List Byte :=
  match s.uplink.egress.queue.getLast? with
  | some e => (s.cell e.cell).data
  | none => []

/-- The status of the response that stands last at the uplink (byte 19, Table 9-2). -/
def lastStatus (s : State) : Nat := natAt (lastUp s) 19 1

/-- R70, R87: the head cell, 0, is taken with one reference, and the next reception gets cell 1. -/
theorem test_reception_takes_head_cell :
    let s := taking (.camera 3) (demo .ready)
    s.receiving (.camera 3) = .intoCell 0 ∧ (s.cell 0).refs = 1 ∧ s.free.head? = some 1 := by decide +kernel

/-- R79, R77: a CAPTURE frame for a READY port is forwarded and restarts the idle timer. -/
theorem test_uplinkFrame_forwarded :
    let s := after (.uplinkFrameReceived (classFrame 0) true)
      (taking .uplink (withRules (demo .ready fun r => { r with idle := 7 })))
    (s.port 0).egress.queue = [⟨0, 64, none⟩] ∧ (s.port 0).idle = 0 ∧ (s.cell 0).refs = 1 := by decide +kernel

/-- R80, R53, R58: a CAPTURE frame for an ASLEEP port is held, and its need is admitted with the inrush draw of 30 dW. -/
theorem test_uplinkFrame_wakes :
    let s := after (.uplinkFrameReceived (classFrame 0) true) (taking .uplink (withRules (demo .asleep)))
    (s.port 0).state = .waking ∧ (s.port 0).hold.length = 1 ∧ (s.port 0).feed = true ∧
      s.adm.committed[(0 : Domain)] = 30 := by decide +kernel

/-- R36, R46: a READY_SIGN 700 ms into a resume makes the port READY with an estimate of 700 ms. -/
theorem test_cameraFrame_ready_sign :
    let s := after (.cameraFrameReceived 0 (classFrame 7) true) (taking (.camera 0) (withRules (demo .resuming fun r =>
      { running .resume .window .frame 1 r with op := { (running .resume .window .frame 1 r).op with elapsed := 700 } })))
    (s.port 0).state = .ready ∧ (s.port 0).est.resume = some 700 ∧ (s.port 0).charge = 20 := by decide +kernel

/-- R83: a camera frame with the management EtherType is counted as denied. -/
theorem test_cameraFrame_denied :
    (after (.cameraFrameReceived 0 (frame 0x02AABBCCDDEE 0x88B6 0 0 0) true)
      (taking (.camera 0) (demo .ready))).evu.counts.denied = 1 := by decide +kernel

/-- R150: the identity is 1604 hex, 1, 16 ports, 4 domains, 8 groups. -/
theorem test_identify : bytesAt (lastUp (performing .identify (ask 1 0 0 []) (demo .ready))) 24 6 =
    [0x16, 0x04, 1, 16, 4, 8] := by decide +kernel

/-- R151, Table 9-4: DOMAIN 0 reads as its limit, 100, and its committed charge, 20. -/
theorem test_readEntry_domain : bytesAt (lastUp (performing .readEntry (ask 2 6 0 []) (demo .ready))) 24 4 =
    [0, 100, 0, 20] := by decide +kernel

/-- R52: a limit of 2000 dW is stored; 2001 is RANGE (code 4), 19 below a commitment of 20 BUDGET_IN_USE (7). -/
theorem test_writeEntry_limit :
    let w := fun n => performing .writeEntry (writeAsk 6 0 (natBE 2 n)) (demo .ready)
    (w 2000).adm.limits[(0 : Domain)] = 2000 ∧ lastStatus (w 2001) = 4 ∧ lastStatus (w 19) = 7 := by decide +kernel

/-- R2, R3: an idle threshold above 3600 s is clamped, a pulse width of 105 ms rounded to 100, a probe interval of 249 ms
raised to 250, an age limit of 601 s clamped to 600. -/
theorem test_writeEntry_clamps :
    let c := ((performing .writeEntry (writeAsk 1 0 (configBytes 1 2 3 3601)) (demo .disabled)).port 0).cfg
    c.idle = 3600 ∧ c.pulseWidth = 100 ∧ c.probeInterval = 250 ∧ c.ageLimit = 600 := by decide +kernel

/-- R143, R3: field 15, the idle threshold, is patched at a READY port; field 14, a fixed field, is STATE (5). -/
theorem test_patchField :
    let s := performing .patchField (patchAsk 1 0 15 (natBE 2 60)) (demo .ready)
    (s.port 0).cfg.idle = 60 ∧
      lastStatus (performing .patchField (patchAsk 1 0 14 (natBE 2 60)) (demo .ready)) = 5 := by decide +kernel

/-- R5: ENABLE takes a DISABLED port to ASLEEP with its station address. -/
theorem test_enable :
    let s := performing .enable (portAsk 1) (demo .disabled)
    (s.port 0).state = .asleep ∧ (s.port 0).station = some 0x060000000001 := by decide +kernel

/-- R6: DISABLE turns the feed off. -/
theorem test_disable :
    let s := performing .disable (portAsk 2) (demo .ready)
    (s.port 0).state = .disabled ∧ (s.port 0).feed = false ∧ s.adm.committed[(0 : Domain)] = 0 := by decide +kernel

/-- R21, R22: PARK at a pinned port and PIN at a parked one are CONFLICT (11). -/
theorem test_pin_park_conflict :
    lastStatus (performing .park (portAsk 3) (demo .ready fun r => { r with pin := true })) = 11 ∧
      lastStatus (performing .pin (portAsk 5) (demo .ready fun r => { r with park := true })) = 11 := by decide +kernel

/-- R21, R22: UNPIN and UNPARK clear the flags. -/
theorem test_unpin_unpark :
    ((performing .unpin (portAsk 6) (demo .ready fun r => { r with pin := true })).port 0).pin = false ∧
      ((performing .unpark (portAsk 4) (demo .paused fun r => { r with park := true })).port 0).park = false := by
  decide +kernel

/-- R23: WAKE at a PAUSED port hands a TRAFFIC need, which is admitted at once. -/
theorem test_wake : ((performing .wake (portAsk 7) (demo .paused)).port 0).state = .resuming := by decide +kernel

/-- The part with the mask of an event set and a report address. -/
def reporting (e : Event) (s : State) : State :=
  (s.modMga fun m => { m with report := 0x02AABBCCDD01 }).modEvu fun v =>
    { v with events := v.events.set e.num { v.events[e.num] with mask := true } }

/-- The message types of the frames in the uplink transmit queue (Table 9-2: 2 a response, 3 a notice), in order. -/
def upKinds (s : State) : List Nat := s.uplink.egress.queue.map fun e => natAt (s.cell e.cell).data 15 1

/-- R23: a WAKE that can never be admitted is answered OK, and then the port is faulted with BUDGET and a notice sent. -/
theorem test_wake_overBudget :
    let s := performing .wake (portAsk 7) (limited 29 (reporting .portFault (demo .paused)))
    upKinds s = [2, 3] ∧ (s.port 0).state = .faulted ∧
      (s.uplink.egress.queue.head?.map fun e => natAt (s.cell e.cell).data 19 1) = some 0 := by decide +kernel

/-- R24, R155: a PAUSE whose frame finds the transmit queue full is answered OK, and then PAUSE_FAILED is noticed. -/
theorem test_pause_lost :
    let s := performing .pause (portAsk 8) (reporting .pauseFailed (withTemplate .pause
      (demo .ready fun r => { r with egress := fullQueue })))
    upKinds s = [2, 3] ∧ (s.port 0).state = .ready ∧ (s.port 0).counts.dropped[(6 : Fin 10)] = 1 := by decide +kernel

/-- R24, R39: PAUSE at a READY port with a template sends the PAUSE frame and opens the confirm window of 1000 ms. -/
theorem test_pause :
    let r := (performing .pause (portAsk 8) (withTemplate .pause (demo .ready))).port 0
    r.state = .pausing ∧ r.op.countdown = 1000 ∧ r.egress.queue.length = 1 := by decide +kernel

/-- R25: SLEEP takes a READY port to ASLEEP; at a WAKING one it is STATE. -/
theorem test_sleep :
    ((performing .sleep (portAsk 9) (demo .ready)).port 0).state = .asleep ∧
      lastStatus (performing .sleep (portAsk 9) (demo .waking)) = 5 := by decide +kernel

/-- R10: CLEAR takes a FAULTED port to ASLEEP, its feed off. -/
theorem test_clear :
    let r := (performing .clear (portAsk 10) (demo .faulted)).port 0
    r.state = .asleep ∧ r.feed = false := by decide +kernel

/-- R128: ARM loads the arm hold of 60 s and watches the READY member. -/
theorem test_arm :
    let a := ((performing .arm (groupAsk 1) (withGroup groupCfg (demo .ready))).group 0).arm
    a.armed = true ∧ a.intact = true ∧ a.hold = 60000 ∧ a.watched = 1 := by decide +kernel

/-- R132: DISARM clears the arm. -/
theorem test_disarm : ((performing .disarm (groupAsk 2) (armed true (demo .ready))).group 0).arm.armed = false := by
  decide +kernel

/-- R135: for an ASLEEP member with no estimate the wake is planned at 120 000 - (8000 + 250) ms. -/
theorem test_prepare :
    let s := performing .prepare (groupAsk 3) (withGroup groupCfg (demo .asleep))
    s.adm.schedule = [⟨0, 0, 111750⟩] ∧ (s.group 0).arm.target = some 120000 := by decide +kernel

/-- R127: CANCEL frees the slot, gives up the cell and answers with the members as missed. -/
theorem test_cancel :
    let s := performing .cancel (groupAsk 4) (triggered .partialSet false 0 (demo .paused))
    (s.group 0).slot.pending = false ∧ (s.group 0).slot.outcome = .cancelled ∧ (s.cell 9).refs = 0 ∧
      bytesAt (lastUp s) 24 2 = [0, 1] := by decide +kernel

/-- R162, R163: a mask set on a pending event makes it reported; READ_EVENTS then answers with it and clears it. -/
theorem test_events :
    let s := performing .setEventMask (ask 8 0 0 [0, 1]) (raise .portFault ⟨some 3, 2, 0⟩ (demo .ready))
    let t := performing .readEvents (ask 7 0 0 []) s
    bytesAt (lastUp t) 24 8 = [0, 1, 1, 0, 3, 2, 0, 0] ∧ t.evu.events[(0 : Fin 16)].pending = false := by decide +kernel

/-- R165: READ_COUNTERS answers with the forwarded-down count and sets it to 0. -/
theorem test_readCounters :
    let s := performing .readCounters (ask 9 0 0 []) ((demo .ready).modCounts 0 fun c => { c with forwardedDown := 258 })
    bytesAt (lastUp s) 24 4 = [0, 0, 1, 2] ∧ (s.port 0).counts.forwardedDown = 0 := by decide +kernel

/-- R158: RESTART waits up to 1000 ms for its response. -/
theorem test_restart : (performing .restart (ask 10 0 0 []) (demo .ready)).mga.restart = some ⟨1000, some 0⟩ := by
  decide +kernel

/-- R26, R158: a due soft restart makes a PAUSING port READY and frees every cell. -/
theorem test_softRestart :
    let s := after .softRestart ((demo .pausing).modMga fun m => { m with restart := some ⟨0, some 3⟩ })
    (s.port 0).state = .ready ∧ (s.port 0).charge = 20 ∧ s.free.length = 256 := by decide +kernel

/-- R148: an operation that is not one of Table 9-5 is UNKNOWN_OP (1). -/
theorem test_unknownOp : lastStatus (performing .unknownOpRequest (ask 11 0 0 []) (demo .ready)) = 1 := by decide +kernel

/-- R93: a copy with a rewrite leaves with the member's station address in bytes 0-5; at its end its cell is free again. -/
theorem test_transmission :
    let s := (demo .ready fun r => { r with egress := { queue := [⟨9, 64, some 0⟩], sending := none } }).modCell 9
      fun _ => { refs := 1, data := groupFrame 0 }
    let t := after (.transmissionStart (.camera 0)) s
    ((t.port 0).egress.sending.map fun bs => bs.take 6) = some [6, 0, 0, 0, 0, 1] ∧
      ((after (.transmissionEnd (.camera 0)) t).cell 9).refs = 0 := by decide +kernel

/-- R96: with one place in the transmit queue one of two held frames moves. -/
theorem test_releaseStep :
    let s := after (.releaseStep 0) (demo .ready fun r => { r with
      releasing := true, hold := [heldFrame, heldFrame], egress := { fullQueue with queue := fullQueue.queue.take 31 } })
    (s.port 0).hold.length = 1 ∧ (s.port 0).egress.queue.length = 32 ∧ (s.port 0).releasing = true := by decide +kernel

/-- R61: an entry that fails its test is passed over, and at the pass limit of 4 it becomes blocking. -/
theorem test_admissionScan :
    let s := after .admissionScan (contest 40 false)
    (s.port 1).state = .resuming ∧ s.adm.wakeQueue = [⟨0, .traffic, 0, 4, true⟩] := by decide +kernel

/-- R122: a pending trigger whose only member is deliverable is delivered at the re-evaluation. -/
theorem test_triggerReevaluation :
    let s := after (.triggerReevaluation 0) (triggered .partialSet false 0 (demo .ready))
    (s.group 0).slot.outcome = .delivered ∧ (s.port 0).egress.queue = [⟨9, 64, some 0⟩] := by decide +kernel

/-- R18: a link that returns sets the link timer to 0 ms; one that goes down cuts the transmission. -/
theorem test_cameraLink :
    let s := after (.cameraLinkDown 0) (demo .ready fun r => { r with link := 5 })
    (s.port 0).linkUp = false ∧ ((after (.cameraLinkUp 0) s).port 0).link = 0 := by decide +kernel

/-- R164: after the link timeout UPLINK_DOWN is raised, and the return of the link sets the timer to 0 ms. -/
theorem test_uplinkLink :
    let s := after .uplinkLinkTimerExpiry ((after .uplinkLinkDown (demo .ready)).modUplink fun u => { u with timer := 2000 })
    s.evu.events[Event.uplinkDown.num].pending = true ∧ (after .uplinkLinkUp s).uplink.timer = 0 := by decide +kernel

/-- R19: a rise loads 20 ms, a fall clears it, and the qualified edge wakes a PAUSED port. -/
theorem test_sense :
    let s := after (.senseInputRise 0) (demo .paused)
    (s.port 0).senseFilter = some 20 ∧ ((after (.senseInputFall 0) s).port 0).senseFilter = none ∧
      ((after (.senseFilterExpiry 0) (s.modPort 0 fun r => { r with senseFilter := some 0 })).port 0).state = .resuming := by
  decide +kernel

/-- R7, R8: a feed fault faults the port with code FEED, its state and no method. -/
theorem test_feedFault :
    ((after (.feedFaultAsserted 0 true) (demo .ready)).port 0).fault = some ⟨.feed, .ready, none, 0⟩ := by decide +kernel

/-- R169: reset, its release and the end of the table initialisation. -/
theorem test_reset_phases :
    let s := after .resetAsserted (demo .ready)
    let t := after .resetReleased s
    s.phase = .inReset ∧ (s.port 0).feed = false ∧ t.phase = .initialising ∧
      (after .tableInitialisationEnd t).phase = .running := by decide +kernel

/-- R13, R17: with no PAUSE template an idle expiry takes a READY port to ASLEEP, as a deep-idle expiry does a PAUSED one. -/
theorem test_idle_expiries :
    ((after (.idleTimerExpiry 0) (demo .ready fun r => { r with idle := 120000 })).port 0).state = .asleep ∧
      ((after (.deepIdleExpiry 0) (demo .paused fun r =>
        { r with cfg := { r.cfg with deepIdle := 1 }, deepIdle := 1000 })).port 0).state = .asleep := by decide +kernel

/-- R18: a link that stays down for the link timeout of 2 s faults the port with LINK_LOST. -/
theorem test_linkTimer :
    ((after (.linkTimerExpiry 0) (demo .ready fun r => { r with link := 2000, linkUp := false })).port 0).fault =
      some ⟨.linkLost, .ready, none, 0⟩ := by decide +kernel

/-- R30: the first cold attempt of two is followed by a power-off hold of 500 ms, and its end turns the feed on. -/
theorem test_coldAttempts :
    let s := after (.coldBootWindowExpiry 0) (demo .waking (running .cold .window .power 1))
    let t := after (.offHoldExpiry 0) (demo .waking (running .cold .offHold .power 1))
    (s.port 0).op.phase = .offHold ∧ (s.port 0).op.countdown = 500 ∧ (s.port 0).feed = false ∧ (t.port 0).feed = true ∧
      (t.port 0).op.attempt = 2 ∧ (t.port 0).op.countdown = 8000 := by decide +kernel

/-- R31, R35: FRAME used up is followed by LINE after the spacing, with WAKE_ESCALATED. -/
theorem test_attemptWindow_escalates :
    let s := after (.attemptWindowExpiry 0) (attempting .window .frame 2 200)
    (s.port 0).op.method = some .line ∧ (s.port 0).op.phase = .spacing ∧ (s.port 0).op.countdown = 200 ∧
      s.evu.events[Event.wakeEscalated.num].detail = some ⟨some 0, 1, 0⟩ := by decide +kernel

/-- R33: a LINE attempt drives the wake line high for 100 ms; the pulse's end drives it low. -/
theorem test_spacing_line_pulse :
    let s := after (.spacingExpiry 0) (attempting .spacing .line 0 200)
    (s.port 0).wakeLine = true ∧ (s.port 0).op.pulse = some 100 ∧
      ((after (.pulseCountdownExpiry 0) (s.modOp 0 fun o => { o with pulse := some 0 })).port 0).wakeLine = false := by
  decide +kernel

/-- R40, R41: silence confirms a SILENCE pause; an ACK pause fails at the window's end. -/
theorem test_confirmWindow :
    ((after (.pauseConfirmWindowExpiry 0) (demo .pausing (confirming .silence false))).port 0).state = .paused ∧
      ((after (.pauseConfirmWindowExpiry 0) (demo .pausing (confirming .ack false))).port 0).state = .ready := by
  decide +kernel

/-- R43: the third miss takes the port to ASLEEP with CAMERA_DROPPED. -/
theorem test_probeInterval :
    let s := after (.probeIntervalExpiry 0) (withTemplate .probe (demo .paused fun r =>
      { r with probe := { r.probe with running := true, outstanding := some 4, misses := 2 } }))
    (s.port 0).state = .asleep ∧ s.evu.events[Event.cameraDropped.num].pending = true := by decide +kernel

/-- R66: a due schedule entry wakes an ASLEEP port. -/
theorem test_scheduleEntryDue :
    ((after (.scheduleEntryDue 0) ((demo .asleep).modAdm fun a => { a with schedule := [⟨0, 0, 0⟩] })).port 0).state =
      .waking := by decide +kernel

/-- R125: a PARTIAL window that expires with no deliverable member ends with outcome PARTIAL and the member missed. -/
theorem test_rendezvousWindow :
    let x := ((after (.rendezvousWindowExpiry 0) (triggered .partialSet false 0 (demo .paused))).group 0).slot
    x.pending = false ∧ x.outcome = .partialSet ∧ x.missed = 1 := by decide +kernel

/-- R132: the end of the arm hold clears the arm and raises ARM_EXPIRED. -/
theorem test_armHold :
    let s := after (.armHoldExpiry 0) (armed true (demo .ready))
    (s.group 0).arm.armed = false ∧ s.evu.events[Event.armExpired.num].detail = some ⟨some 0, 0, 0⟩ := by decide +kernel

/-- R136: at the target the member that is not READY is named in PREPARE_LATE. -/
theorem test_preparationTarget :
    let s := after (.preparationTargetExpiry 0) ((armed true (withGroup groupCfg (demo .asleep))).modArm 0
      fun a => { a with target := some 0 })
    s.evu.events[Event.prepareLate.num].detail = some ⟨some 0, 0, 1⟩ := by decide +kernel

/-- R144, R140: a pass starts at its period; a visit corrects a word and counts it. -/
theorem test_scrub :
    let s := after .scrubPassStart ((demo .ready).modTbm fun t => { t with scrubPeriod := 0, scrubNext := none })
    let t := after .scrubVisit ((worn .oneBad false).modTbm fun t => { t with scrubNext := some 95 })
    s.tbm.scrubNext = some 0 ∧ s.tbm.scrubPeriod = 1000 ∧ t.evu.counts.corrections = 1 ∧
      t.evu.events[Event.tableCorrected.num].detail = some ⟨some 31, 3, 0⟩ := by decide +kernel

/-- R170: a countdown loaded with v expires at the v-th tick: an idle threshold of 1 s is due after 1000 ticks. -/
theorem test_tick : ((tick (demo .ready fun r => { r with idle := 999 })).port 0).idle = 1000 := by decide +kernel

end Sys2Proof.Tests
end

section
/-! SUPPORT. The state right after full reset: its values (R26, R49, R69, R86, R102, R114, R138, R145, R159, R167), and that
it keeps the laws of the part. -/

namespace Sys2Proof.Machine

@[simp] theorem State.reset_port (p : Port) : State.reset.port p = PortRec.reset := by simp [State.port, State.reset]

@[simp] theorem State.reset_group (g : Group) : State.reset.group g = GroupRec.reset := by
  simp [State.group, State.reset]

@[simp] theorem State.reset_cell (c : CellNo) : State.reset.cell c = Cell.unused := by simp [State.cell, State.reset]

@[simp] theorem State.reset_free : State.reset.free = List.finRange 256 := by simp only [State.reset]

@[simp] theorem State.reset_adm : State.reset.adm = Adm.reset := rfl

@[simp] theorem State.reset_tbm : State.reset.tbm = Tbm.reset := rfl

theorem reset_charge (d : Domain) : domainCharge State.reset d = 0 :=
  sum_map_zero _ _ fun p => by rw [State.reset_port]; rfl

theorem reset_refsTo (c : CellNo) : State.reset.refsTo c = 0 := by
  have hp : (allPorts.map fun p => (State.reset.port p).hold.countP (·.cell = c) +
      (State.reset.port p).egress.queue.countP (·.cell = c) +
      ((State.reset.port p).receiving.fills c).toNat).sum = 0 :=
    sum_map_zero _ _ fun p => by rw [State.reset_port]; rfl
  have hg : (allGroups.countP fun g => (State.reset.group g).slot.pending && (State.reset.group g).slot.cell = c) = 0 :=
    List.countP_eq_zero.2 fun g _ => by rw [State.reset_group]; simp [GroupRec.reset, Slot.reset]
  unfold State.refsTo
  rw [hp, hg]
  rfl

theorem reset_lawful : State.reset.Lawful where
  ports p := by rw [State.reset_port]; exact freshPort_lawful PortRec.reset
  committed d := by rw [reset_charge]; simp [Adm.reset]
  within d := by simp [Adm.reset]
  stored p := by simp [Tbm.reset, Protected.fresh, PortConfig.Ordered, PortConfig.default]
  uplink := Nat.zero_le _
  fifo := Nat.zero_le _

theorem reset_wakeLawful : State.reset.WakeLawful where
  waits := by simp [Adm.reset]
  single := by simp [Adm.reset]
  ordered := by simp [Adm.reset]
  numbered := by simp [Adm.reset]
  counter := by simp [Adm.reset]

theorem reset_cellsLawful : State.reset.CellsLawful where
  counted c := by rw [reset_refsTo, State.reset_cell]; rfl
  listed c := by rw [State.reset_free, State.reset_cell]; exact iff_of_true (List.mem_finRange c) rfl
  once := by rw [State.reset_free]; exact List.nodup_finRange 256

theorem reset_learned (p : Port) : (State.reset.port p).Learned := by
  rw [State.reset_port]
  constructor <;> simp [PortRec.reset, Estimates.invalid]

/-- Settles O6, by the four laws one by one. -/
theorem resetStateKeepsEveryLaw : Obligations.ResetStateKeepsEveryLaw :=
  ⟨reset_lawful, reset_wakeLawful, reset_cellsLawful, reset_learned⟩

/-- Every class action is at its reset contents, with fresh check bits. -/
theorem reset_classAction (i : Fin 9) :
    Tbm.reset.classAction[i] = .fresh Tbm.reset.classAction[i].val := by
  simp [Tbm.reset, Protected.fresh]

theorem reset_classAction_vals : Tbm.reset.classAction.map (·.val) = ClassAction.defaults := by
  ext i hi : 1; simp [Tbm.reset, Protected.fresh]

/-- Settles O5, block by block. -/
theorem resetHoldsFullResetValues : Obligations.ResetHoldsFullResetValues := by
  unfold Obligations.ResetHoldsFullResetValues
  intro s
  have port : ∀ p, s.port p = PortRec.reset := State.reset_port
  have group : ∀ g, s.group g = GroupRec.reset := State.reset_group
  refine ⟨fun p => ?_, fun d => ?_, rfl, rfl, rfl, rfl, fun c => ?_, State.reset_free, rfl, fun g => ?_,
    fun p => ?_, fun i => ?_,
    fun i => ?_, reset_classAction_vals, reset_classAction, fun g => ?_, fun i => ?_, rfl, rfl, rfl, rfl, rfl, rfl, rfl,
    fun e => ?_, rfl, rfl, rfl⟩
  · rw [port]
    simp [PortRec.reset, Operation.reset, ProbeRecord.reset, Estimates.invalid, ProxyControl.free, Egress.empty]
  · simp [s, Adm.reset]
  · simp [s, Cell.unused]
  · rw [group]; simp [GroupRec.reset, Slot.reset]
  · simp [s, Tbm.reset, PortConfig.default]
  · simp [s, Tbm.reset, Template.absent]
  · simp [s, Tbm.reset, Rule.default]
  · simp [s, Tbm.reset, GroupConfig.default]
  · simp [s, Tbm.reset, ProxyEntry.default]
  · simp [s, State.reset, Evu.reset]

end Sys2Proof.Machine
end

section
/-! SUPPORT. The links and lines (R18, R19, R85, R164, R168). -/

namespace Sys2Proof.Machine

theorem linkUp_fed {p : Port} {s : State} (h : (s.port p).feed = true) :
    linkUp p s = s.modPort p fun r => { r with linkUp := true, link := 0 } := if_pos h

theorem linkUp_unfed {p : Port} {s : State} (h : (s.port p).feed = false) : linkUp p s = s := if_neg (by simp [h])

/-- A rise of a low sense input of a running part starts the filter (R19). -/
theorem senseRise_starts {p : Port} {s : State} (h : (s.port p).senseIn = false) (hr : s.phase = .running) :
    senseRise p s = s.modPort p fun r => { r with senseIn := true, senseFilter := some 20 } := by
  simp [senseRise, h, hr, Config.senseFilterMs]

/-- Any other rise sets the level alone (log 53). -/
theorem senseRise_level {p : Port} {s : State} (h : (s.port p).senseIn = true ∨ s.phase ≠ .running) :
    senseRise p s = s.modPort p fun r => { r with senseIn := true } := by
  have : (decide (s.phase = .running) && !(s.port p).senseIn) = false := by rcases h with h | h <;> simp [h]
  simp [senseRise, this]

theorem uplinkExpired_iff (s : State) : uplinkExpired s = true ↔
    s.uplink.linkUp = false ∧ s.uplink.raised = false ∧ s.mga.linkTimeout * 1000 ≤ s.uplink.timer := by
  simp [uplinkExpired, and_assoc]

/-- Settles O55, command by command. -/
theorem linksAndLinesKeepTheirLevels : Obligations.LinksAndLinesKeepTheirLevels := by
  unfold Obligations.LinksAndLinesKeepTheirLevels
  intro p s
  refine ⟨rfl, fun h => ?_, fun h => ?_, rfl, rfl, fun h hr => ?_, fun h => ?_, rfl, fun hs => ⟨fun due => ?_, fun due => ?_⟩⟩
  · rw [exec_cameraLinkUp, linkUp_fed h]
  · rw [exec_cameraLinkUp, linkUp_unfed h]
  · rw [exec_senseInputRise, senseRise_starts h hr]
  · rw [exec_senseInputRise, senseRise_level h]
  · have e : whenDue uplinkExpired uplinkOver s = uplinkOver s := whenDue_pos ((uplinkExpired_iff s).2 due)
    rw [exec_uplinkLinkTimerExpiry, whileRunning_of_owed hs.running (by rw [e]; simp [uplinkOver, hs.settled]), e]
    rfl
  · have e : whenDue uplinkExpired uplinkOver s = s := whenDue_neg (mt (uplinkExpired_iff s).1 due)
    rw [exec_uplinkLinkTimerExpiry, whileRunning_of_owed hs.running (by rw [e, hs.settled]), e]

end Sys2Proof.Machine
end

section
/-! SUPPORT. The soft restart of every block (R158). -/

namespace Sys2Proof.Machine

@[simp] theorem softRestart_group (s : State) (g : Group) : (softRestart s).group g = restartGroup (s.group g) := by
  simp [softRestart, restartBlocks, State.group]

@[simp] theorem softRestart_refs (s : State) (c : CellNo) : ((softRestart s).cell c).refs = 0 := by
  simp [softRestart, restartBlocks, State.cell]

@[simp] theorem softRestart_event (s : State) (e : Fin 16) :
    (softRestart s).evu.events[e] = { pending := false, mask := s.evu.events[e].mask, detail := none } := by
  simp [softRestart, restartBlocks, restartEvu]

@[simp] theorem softRestart_phase (s : State) : (softRestart s).phase = s.phase := rfl

theorem restartDue_running {s : State} (h : restartDue s = true) : s.phase = .running := by
  simp [restartDue] at h; exact h.1

/-- A restarted port that probes waits its whole interval. -/
theorem restartPort_countdown {s : State} {p : Port} (h : (restartPort s p).probe.running = true) :
    (restartPort s p).probe.countdown = (s.port p).cfg.probeInterval := if_pos h

theorem restartPort_proxy (s : State) (p : Port) (i : Fin 4) : (restartPort s p).proxies[i].occupied = false := by
  simp [restartPort, ProxyControl.free]

/-- Settles O13, block by block. -/
theorem softRestartOfEveryBlock : Obligations.SoftRestartOfEveryBlock := by
  unfold Obligations.SoftRestartOfEveryBlock
  intro s
  refine ⟨fun h => ?_, fun h => ⟨softRestart s, ?_, fun p => ?_, softRestart_committed s, rfl, rfl, rfl, rfl, rfl,
    softRestart_refs s, ?_, fun g => ?_, rfl, rfl, rfl, softRestart_event s, rfl, rfl,
    (softRestart_phase s).trans (restartDue_running h), rfl, rfl⟩⟩
  · rw [exec_softRestart, if_neg (by simp [h])]
  · rw [exec_softRestart, if_pos h]
  · rw [softRestart_port]
    exact ⟨rfl, rfl, rfl, rfl, rfl, rfl, rfl, rfl, rfl, rfl, rfl, restartPort_countdown, rfl, rfl, rfl, rfl, rfl, rfl, rfl,
      rfl, rfl, rfl, restartPort_proxy s p, rfl, rfl, rfl, rfl, rfl, rfl, rfl, rfl, rfl, rfl, rfl, rfl⟩
  · simp only [softRestart, restartBlocks, State.modAdm_free]
  · rw [softRestart_group]
    exact ⟨rfl, rfl, rfl, rfl, rfl, rfl, rfl, rfl, rfl, rfl, rfl, rfl⟩

end Sys2Proof.Machine
end

section
/-! SUPPORT. What PIN, UNPIN, PARK and UNPARK do (R21, R22, R120). -/

namespace Sys2Proof.Machine

/-! ### PIN and UNPIN -/

theorem pinPort_parked {p : Port} {s : State} (h : (s.port p).park = true) : pinPort p s = (.conflict, s) := if_pos h

/-- PIN at an unparked port (R21). -/
theorem pinPort_unparked {p : Port} {s : State} (h : (s.port p).park = false) :
    pinPort p s = (.ok, s.modPort p fun x =>
      { x with pin := true, idle := if x.pin = false ∧ x.state = .ready then 0 else x.idle }) := by
  unfold pinPort
  rw [if_neg (by simp [h])]
  cases hp : (s.port p).pin
  · rw [if_neg (by simp), restartIdle, State.modPort_modPort]
    refine congrArg _ (modPort_congr ?_)
    by_cases hr : (s.port p).state = .ready <;> simp [hp, hr]
  · rw [if_pos rfl]
    exact congrArg _ (State.modPort_id s (by rw [if_neg (by simp [hp]), ← hp])).symm

/-- UNPIN (R21). -/
theorem unpinPort_eq (p : Port) (s : State) :
    unpinPort p s = (.ok, s.modPort p fun x =>
      { x with pin := false, idle := if x.pin = true ∧ x.state = .ready then 0 else x.idle }) := by
  unfold unpinPort
  cases hp : (s.port p).pin
  · rw [if_neg (by simp)]
    exact congrArg _ (State.modPort_id s (by rw [if_neg (by simp [hp]), ← hp])).symm
  · rw [if_pos rfl, restartIdle, State.modPort_modPort]
    refine congrArg _ (modPort_congr ?_)
    by_cases hr : (s.port p).state = .ready <;> simp [hp, hr]

/-! ### PARK -/

theorem parkPort_pinned {p : Port} {s : State} (h : (s.port p).pin = true) : parkPort p s = (.conflict, s) := if_pos h

/-- Group g counts its reachable member p unreachable (R120). -/
def unreach (p : Port) (s : State) (g : Group) : State := if reachableMember s g p then markUnreachable g p s else s

theorem unreach_group (p : Port) (s : State) (g h : Group) :
    (unreach p s g).group h =
      if h = g ∧ reachableMember s g p = true then { s.group g with
        slot := { (s.group g).slot with unreachable := (s.group g).slot.unreachable ||| onlyPort p } }
      else s.group h := by
  unfold unreach
  by_cases hr : reachableMember s g p = true
  · rw [if_pos hr, markUnreachable, State.owe_group, State.modSlot, State.modGroup_group]
    simp [hr]
  · rw [if_neg hr, if_neg fun k => hr k.2]

theorem unreach_owed (p : Port) (s : State) (g : Group) :
    (unreach p s g).owed = s.owed ++ if reachableMember s g p then [.reevaluate g] else [] := by
  unfold unreach
  split <;> simp [markUnreachable]

theorem unreach_rest (p : Port) (s : State) (g : Group) :
    unreach p s g = { s with groups := (unreach p s g).groups, owed := (unreach p s g).owed } := by
  unfold unreach
  split <;> rfl

/-- The groups of a list count their reachable member p unreachable, in its order (R120). -/
theorem fold_unreach (p : Port) (l : List Group) (hl : l.Nodup) (s : State) :
    let t := l.foldl (unreach p) s
    (∀ g, t.group g = if g ∈ l ∧ reachableMember s g p = true then { s.group g with
        slot := { (s.group g).slot with unreachable := (s.group g).slot.unreachable ||| onlyPort p } }
      else s.group g) ∧
    t.owed = s.owed ++ (l.filter fun g => reachableMember s g p).map .reevaluate ∧
    t = { s with groups := t.groups, owed := t.owed } := by
  induction l generalizing s with
  | nil => simp
  | cons x l ih =>
    intro t
    obtain ⟨hx, hl⟩ := List.nodup_cons.1 hl
    obtain ⟨i1, i2, i3⟩ := ih hl (unreach p s x)
    have same : ∀ g ∈ l, (unreach p s x).group g = s.group g := fun g hg => by
      rw [unreach_group, if_neg (by rintro ⟨e, -⟩; exact hx (e ▸ hg))]
    have reach : ∀ g ∈ l, reachableMember (unreach p s x) g p = reachableMember s g p := fun g hg => by
      simp only [reachableMember, same g hg]
    refine ⟨fun g => ?_, ?_, ?_⟩
    · rw [show t.group g = _ from i1 g]
      by_cases hg : g ∈ l
      · simp only [hg, true_and, reach g hg, same g hg, List.mem_cons, or_true]
      · rw [if_neg fun k => hg k.1, unreach_group]
        by_cases e : g = x
        · subst e; simp
        · simp [e, hg]
    · rw [show t.owed = _ from i2, unreach_owed, List.append_assoc, List.filter_congr reach, List.filter_cons]
      split <;> rfl
    · have e := unreach_rest p s x
      calc t = { unreach p s x with groups := t.groups, owed := t.owed } := i3
        _ = { s with groups := t.groups, owed := t.owed } := by rw [e]

/-- PARK at an unpinned port (R22, R120). -/
theorem parkPort_unpinned {p : Port} {s : State} (h : (s.port p).pin = false) : ∃ u : State,
    parkPort p s = (.ok, u) ∧
    (let rests := decide ((s.port p).state = .paused) || decide ((s.port p).state = .asleep);
      u = { s.modPort p fun x => { x with park := true } with groups := u.groups, owed := u.owed } ∧
      (∀ g : Group, u.group g = if (rests && reachableMember s g p) = true then { s.group g with
        slot := { (s.group g).slot with unreachable := (s.group g).slot.unreachable ||| onlyPort p } } else s.group g) ∧
      u.owed = s.owed ++ (allGroups.filter fun g => rests && reachableMember s g p).map .reevaluate) := by
  obtain ⟨f1, f2, f3⟩ := fold_unreach p allGroups (List.nodup_finRange 8) (s.modPort p fun x => { x with park := true })
  unfold parkPort
  rw [if_neg (by simp [h])]
  refine ⟨_, rfl, ?_⟩
  cases hr : decide ((s.port p).state = .paused) || decide ((s.port p).state = .asleep)
  · simp only [Bool.false_eq_true, if_false, Bool.false_and, List.filter_false, List.map_nil, List.append_nil]
    exact ⟨trivial, fun _ => rfl, rfl⟩
  · simp only [if_true, Bool.true_and]
    exact ⟨f3, fun g => (f1 g).trans (if_congr (and_iff_right (List.mem_finRange g)) rfl rfl), f2⟩

/-! ### UNPARK -/

theorem eligible_iff (s : State) (p : Port) : eligible s p = true ↔
    ((s.port p).state = .paused ∨ (s.port p).state = .asleep) ∧ (s.port p).park = false := by
  simp [eligible]

theorem wakeEntry_isSome {s : State} {p : Port} : (wakeEntry? s p).isSome = true ↔ ∃ e ∈ s.adm.wakeQueue, e.port = p := by
  simp [wakeEntry?]

/-- UNPARK at a parked port whose wake-queue entry becomes eligible (R22, R56). -/
theorem unparkPort_scans {p : Port} {s : State} (h : (s.port p).park = true)
    (hr : (s.port p).state = .paused ∨ (s.port p).state = .asleep) (he : ∃ e ∈ s.adm.wakeQueue, e.port = p) :
    unparkPort p s = (.ok, scan (s.modPort p fun x => { x with park := false })) := by
  have hs : (eligible (s.modPort p fun x => { x with park := false }) p &&
      (wakeEntry? (s.modPort p fun x => { x with park := false }) p).isSome) = true := by
    rw [Bool.and_eq_true, eligible_iff, wakeEntry_isSome, State.modPort_port_same]
    exact ⟨⟨hr, rfl⟩, he⟩
  rw [unparkPort, if_pos h]
  exact congrArg _ (if_pos hs)

/-- Any other UNPARK (R22). -/
theorem unparkPort_quiet {p : Port} {s : State}
    (h : (s.port p).park = false ∨ ¬ ((s.port p).state = .paused ∨ (s.port p).state = .asleep) ∨
      ∀ e ∈ s.adm.wakeQueue, e.port ≠ p) :
    unparkPort p s = (.ok, s.modPort p fun x => { x with park := false }) := by
  unfold unparkPort
  by_cases hp : (s.port p).park = true
  · have hs : ¬ (eligible (s.modPort p fun x => { x with park := false }) p &&
        (wakeEntry? (s.modPort p fun x => { x with park := false }) p).isSome) = true := by
      rw [Bool.and_eq_true, eligible_iff, wakeEntry_isSome, State.modPort_port_same]
      rintro ⟨⟨hr, -⟩, e, he, rfl⟩
      rcases h with h | h | h
      · rw [hp] at h; cases h
      · exact h hr
      · exact h e he rfl
    rw [if_pos hp]
    exact congrArg _ (if_neg hs)
  · rw [if_neg hp]
    exact congrArg _ (State.modPort_id s (by simp at hp; simp [← hp])).symm

/-- Settles O40, command by command. -/
theorem pinAndParkFlagsExcludeEachOther : Obligations.PinAndParkFlagsExcludeEachOther := by
  unfold Obligations.PinAndParkFlagsExcludeEachOther
  intro p r rest s hp
  have port : r.port = p := Request.port_eq hp
  refine ⟨fun a => ⟨fun h => ?_, fun h => ?_⟩, fun a => ?_, fun a => ⟨fun h => ?_, fun h => ?_⟩,
    fun a => ⟨fun ⟨h, hr, he⟩ => ?_, fun h => ?_⟩⟩
  · rw [exec_pin, performPort_accepts a, port, pinPort_parked h, settle_of_owed a.settled]
  · rw [exec_pin, performPort_accepts a, port, pinPort_unparked h, settle_of_owed (by exact a.settled)]
  · rw [exec_unpin, performPort_accepts a, port, unpinPort_eq, settle_of_owed (by exact a.settled)]
  · rw [exec_park, performPort_accepts a, port, parkPort_pinned h, settle_of_owed a.settled]
  · obtain ⟨u, hu, rest', group, owed⟩ := parkPort_unpinned h
    have concerned : ∀ g : Group, ((decide ((s.port p).state = .paused) || decide ((s.port p).state = .asleep)) &&
        (s.group g).slot.pending && hasPort (s.group g).slot.members p && !hasPort (s.group g).slot.unreachable p) =
        ((decide ((s.port p).state = .paused) || decide ((s.port p).state = .asleep)) && reachableMember s g p) := by
      intro g; simp only [reachableMember, Bool.and_assoc]
    refine ⟨u, ?_, rest', fun g => ⟨fun c => ?_, fun c => ?_⟩, ?_⟩
    · rw [exec_park, performPort_accepts a, port, hu]
    · rw [group, if_pos ((concerned g).symm.trans c)]
    · rw [group, if_neg (by rw [(concerned g).symm.trans c]; exact Bool.false_ne_true)]
    · rw [owed, a.settled, List.nil_append]
      simp only [concerned]
  · rw [exec_unpark, performPort_accepts a, port, unparkPort_scans h hr he]
  · rw [exec_unpark, performPort_accepts a, port, unparkPort_quiet h, settle_of_owed (by exact a.settled)]

end Sys2Proof.Machine
end

section
/-! SUPPORT. What ADM makes of a wake need (R53 to R55, R67), and WAKE (R23). -/

namespace Sys2Proof.Machine

/-! ### The need -/

theorem takeNeed_discarded {c : WakeClass} {p : Port} {s : State} (h : ¬ takesNeed s p = true) : takeNeed c p s = s :=
  if_neg h

theorem takeNeed_merges {c : WakeClass} {p : Port} {s : State} (h : takesNeed s p = true)
    (he : ∃ e ∈ s.adm.wakeQueue, e.port = p) : takeNeed c p s = mergeNeed p c s := by
  obtain ⟨e, he⟩ := Option.isSome_iff_exists.1 (wakeEntry_isSome.2 he)
  rw [takeNeed, if_pos h, he]

/-- A need for a port without a wake-queue entry makes one, in place of the port's schedule entry where it has one (R53,
R67). -/
theorem takeNeed_creates {c : WakeClass} {p : Port} {s : State} (h : takesNeed s p = true)
    (he : ∀ e ∈ s.adm.wakeQueue, e.port ≠ p) : takeNeed c p s =
      createEntry p (if (∃ e ∈ s.adm.schedule, e.port = p) ∧ 1 < c.rank then .scheduled else c) (removeSchedule p s) := by
  rw [takeNeed, if_pos h, wakeEntry_none.2 he]
  cases hs : scheduleEntry? s p with
  | none =>
    have none : ∀ e ∈ s.adm.schedule, e.port ≠ p := schedEntry_none.1 hs
    have keep : removeSchedule p s = s := by
      have : s.adm.schedule.filter (fun e => e.port ≠ p) = s.adm.schedule := List.filter_eq_self.2 (by simpa using none)
      rw [removeSchedule, State.modAdm, this]
    rw [keep, if_neg fun ⟨⟨e, m, k⟩, _⟩ => none e m k]
  | some e =>
    have some : ∃ e ∈ s.adm.schedule, e.port = p := by
      by_contra k
      rw [schedEntry_none.2 fun e m k' => k ⟨e, m, k'⟩] at hs
      cases hs
    refine congrArg (createEntry p · _) ?_
    rw [show c.higher .scheduled = if c.rank ≤ 1 then c else .scheduled from rfl]
    by_cases hc : c.rank ≤ 1
    · rw [if_pos hc, if_neg fun k => absurd k.2 (by omega)]
    · rw [if_neg hc, if_pos ⟨some, by omega⟩]

/-- The state with port p's new wake-queue entry, before ADM checks it (R53, R54). -/
theorem addEntry_removeSchedule (c : WakeClass) (p : Port) (s : State) :
    addEntry p c (removeSchedule p s) =
      { s with adm := { s.adm with
        schedule := s.adm.schedule.filter (·.port ≠ p)
        wakeQueue := (if s.adm.arrivals = 65535 then s.adm.wakeQueue.mapIdx fun i e => { e with arrival := i }
            else s.adm.wakeQueue) ++
          [⟨p, c, if s.adm.arrivals = 65535 then s.adm.wakeQueue.length else s.adm.arrivals, 0, s.adm.passLimit = 0⟩]
        arrivals := (if s.adm.arrivals = 65535 then s.adm.wakeQueue.length else s.adm.arrivals) + 1 } } := by
  unfold addEntry removeSchedule State.modAdm renumbered
  by_cases h : s.adm.arrivals = 65535 <;> simp [h]

theorem createEntry_fault {c : WakeClass} {p : Port} {s : State}
    (hr : (s.port p).state = .paused ∨ (s.port p).state = .asleep)
    (h : s.adm.limits[domainOf p] < (s.port p).draws.inrush) :
    createEntry p c s = scan (enterFaulted p .budget (addEntry p c s)) := by
  refine congrArg scan (if_pos ?_)
  rw [Bool.and_eq_true, Bool.or_eq_true, decide_eq_true_iff, decide_eq_true_iff]
  exact ⟨hr.symm, decide_eq_true h⟩

theorem createEntry_fits {c : WakeClass} {p : Port} {s : State}
    (h : ¬ ((s.port p).state = .paused ∨ (s.port p).state = .asleep) ∨
      (s.port p).draws.inrush ≤ s.adm.limits[domainOf p]) :
    createEntry p c s = scan (addEntry p c s) := by
  refine congrArg scan (if_neg ?_)
  rw [Bool.and_eq_true, Bool.or_eq_true, decide_eq_true_iff, decide_eq_true_iff]
  rintro ⟨hr, hb⟩
  rcases h with h | h
  · exact h hr.symm
  · exact absurd (of_decide_eq_true hb) (Nat.not_lt.2 h)

/-! ### WAKE -/

/-- The need of a WAKE makes a new entry that can never be admitted (R23, R58). -/
theorem wakeOverBudget_iff (p : Port) (s : State) : wakeOverBudget p s = true ↔
    ((s.port p).state = .paused ∨ (s.port p).state = .asleep) ∧ (s.port p).park = false ∧
      (∀ e ∈ s.adm.wakeQueue, e.port ≠ p) ∧ s.adm.limits[domainOf p] < (s.port p).draws.inrush := by
  rw [wakeOverBudget, Bool.and_eq_true, Bool.and_eq_true, eligible_iff, Option.isNone_iff_eq_none, wakeEntry_none,
    neverAdmissible, decide_eq_true_iff, and_assoc, and_assoc]

theorem wakePort_shut {p : Port} {s : State} (h : (s.port p).state = .disabled ∨ (s.port p).state = .faulted) :
    wakePort p s = (.state, s) := by
  rcases h with h | h <;> simp [wakePort, h]

theorem wakePort_awake {p : Port} {s : State}
    (h : (s.port p).state = .waking ∨ (s.port p).state = .ready ∨ (s.port p).state = .resuming) :
    wakePort p s = (.ok, s) := by
  rcases h with h | h | h <;> simp [wakePort, h]

theorem wakePort_parked {p : Port} {s : State} (h : (s.port p).state = .paused ∨ (s.port p).state = .asleep)
    (hp : (s.port p).park = true) : wakePort p s = (.conflict, s) := by
  rcases h with h | h <;> simp [wakePort, h, hp]

/-- WAKE where the port takes a need (R23): a need that faults the port waits for the response (log 37). -/
theorem wakePort_takes {p : Port} {s : State} (h : takesNeed s p = true) :
    wakePort p s = (.ok, if wakeOverBudget p s then s else takeNeed .traffic p s) := by
  rcases (takesNeed_iff s p).1 h with h | ⟨h | h, hp⟩
  · simp [wakePort, wakeOverBudget, eligible, h]
  · simp [wakePort, h, hp]
  · simp [wakePort, h, hp]

/-- WAKE on the port that the request names, with what follows its response. -/
theorem exec_wake_accepts {p : Port} {r : Request} {rest : List Request} {s : State} (a : s.Accepts (.port .wake) r rest)
    (hp : natAt r.body 7 1 = p.val) : exec .wake s =
      .next (afterWake p s (finishRequest r rest (wakePort p s).1 [] (settle (wakePort p s).2))) := by
  rw [exec_wake, performPortThen_accepts a, Request.port_eq hp]

theorem takesNeed_of_wakeOverBudget {p : Port} {s : State} (h : wakeOverBudget p s = true) : takesNeed s p = true := by
  obtain ⟨rests, unparked, -, -⟩ := (wakeOverBudget_iff p s).1 h
  exact (takesNeed_iff s p).2 (.inr ⟨rests, unparked⟩)

/-- Where no need over budget is left for it, nothing follows the response to WAKE. -/
theorem afterWake_none {p : Port} {s : State} (h : ¬ wakeOverBudget p s = true) (t : State) : afterWake p s t = t :=
  if_neg h

theorem afterWake_some {p : Port} {s : State} (h : wakeOverBudget p s = true) (t : State) :
    afterWake p s t = settle (takeNeed .traffic p t) := if_pos h

/-- WAKE at a port that takes no need is its response alone (R23). -/
theorem exec_wake_untaken {p : Port} {r : Request} {rest : List Request} {s : State} {status : Status}
    (a : s.Accepts (.port .wake) r rest) (hp : natAt r.body 7 1 = p.val) (h : ¬ takesNeed s p = true)
    (hw : wakePort p s = (status, s)) : exec .wake s = .next (finishRequest r rest status [] s) := by
  rw [exec_wake_accepts a hp, afterWake_none (mt takesNeed_of_wakeOverBudget h), hw, settle_of_owed a.settled]

theorem not_takesNeed_shut {p : Port} {s : State} (h : (s.port p).state = .disabled ∨ (s.port p).state = .faulted) :
    ¬ takesNeed s p = true := by
  rcases h with h | h <;> simp [takesNeed_iff, h]

theorem not_takesNeed_awake {p : Port} {s : State}
    (h : (s.port p).state = .waking ∨ (s.port p).state = .ready ∨ (s.port p).state = .resuming) :
    ¬ takesNeed s p = true := by
  rcases h with h | h | h <;> simp [takesNeed_iff, h]

theorem not_takesNeed_parked {p : Port} {s : State} (h : (s.port p).state = .paused ∨ (s.port p).state = .asleep)
    (hp : (s.port p).park = true) : ¬ takesNeed s p = true := by
  rcases h with h | h <;> simp [takesNeed_iff, h, hp]

/-- Settles O41, by what takeNeed does and, for WAKE, by the state of the port. -/
theorem wakeNeedMergesOrMakesAnEntry : Obligations.WakeNeedMergesOrMakesAnEntry := by
  unfold Obligations.WakeNeedMergesOrMakesAnEntry
  intro cls p s st resting takes
  have ht : takesNeed s p = true ↔ takes := takesNeed_iff s p
  refine ⟨fun h => takeNeed_discarded (mt ht.1 h), fun h he => takeNeed_merges (ht.2 h) he, fun h he => ?_,
    fun r rest a hp => ⟨fun h => ?_, fun h => ?_, fun h => ?_, fun h hf => ?_, fun hf => ?_⟩⟩
  · intro c wraps q n u
    have hu : addEntry p c (removeSchedule p s) = u := addEntry_removeSchedule c p s
    refine ⟨fun hb => ?_, fun hb => ?_⟩
    · rw [takeNeed_creates (ht.2 h) he, createEntry_fault (s := removeSchedule p s) hb.1 hb.2, hu]
    · rw [takeNeed_creates (ht.2 h) he, createEntry_fits (s := removeSchedule p s) hb, hu]
  · exact exec_wake_untaken a hp (not_takesNeed_shut h) (wakePort_shut h)
  · exact exec_wake_untaken a hp (not_takesNeed_parked h.1 h.2) (wakePort_parked h.1 h.2)
  · exact exec_wake_untaken a hp (not_takesNeed_awake h) (wakePort_awake h)
  · have hw := mt (wakeOverBudget_iff p s).1 hf
    rw [exec_wake_accepts a hp, afterWake_none hw, wakePort_takes (ht.2 h), if_neg hw]
  · have hw := (wakeOverBudget_iff p s).2 hf
    rw [exec_wake_accepts a hp, afterWake_some hw, wakePort_takes (ht.2 (.inr ⟨hf.1, hf.2.1⟩)), if_pos hw,
      settle_of_owed a.settled]

end Sys2Proof.Machine
end

section
/-! SUPPORT. A camera frame that a PAUSED port receives (R20, R44, R84, R105). -/

namespace Sys2Proof.Machine

/-- A camera frame that passes the check of R70 is disposed of, and then its ingress gives the cell up (R88, log 57). -/
theorem receiveCamera_passed {p : Port} {c : CellNo} {bytes : List Byte} {s : State} (h : s.Receives (.camera p) c bytes) :
    receiveCamera p bytes true s = dropRef c (upstream p (some c) bytes (s.arrived (.camera p) c bytes)) := by
  have ok : acceptable bytes true = true := by simp [acceptable, h.long, h.short]
  rw [receiveCamera, endReception, h.into]
  dsimp only
  rw [if_pos ok]
  rfl

/-- The port at which a frame has arrived: its reception is over. -/
theorem arrived_port (p : Port) (c : CellNo) (bytes : List Byte) (s : State) :
    (s.arrived (.camera p) c bytes).port p = { s.port p with receiving := .idle } := by
  simp [State.arrived, State.setReceiving, storeCell]

theorem classifiedUp_port (p : Port) (c : CellNo) (bytes : List Byte) (s : State) :
    (s.classifiedUp p c bytes).2.port p = { s.port p with receiving := .idle } :=
  ((Quiet.classify _ _ _ _).port p).trans (arrived_port p c bytes s)

theorem classifiedUp_owed (p : Port) (c : CellNo) (bytes : List Byte) (s : State) :
    (s.classifiedUp p c bytes).2.owed = s.owed := by
  rw [State.classifiedUp, classify_owed]
  simp [State.arrived]

/-- The steps of R84 at a PAUSED port, where a POLL_ANSWER is not learned (R105). -/
theorem upstream_paused {p : Port} {c : CellNo} {bytes : List Byte} {s : State} (hf : frameType bytes ≠ Config.managementEtherType)
    (hs : (s.port p).state = .paused) :
    upstream p (some c) bytes (s.arrived (.camera p) c bytes) =
      let k := (s.classifiedUp p c bytes).1
      let v := cameraShows p bytes k (s.classifiedUp p c bytes).2
      let v := if k.activity then restartIdle p v else v
      if k.cls = .probeAnswer then v else forwardUp p c bytes.length v := by
  have st : ((s.arrived (.camera p) c bytes).port p).state = .paused := by rw [arrived_port]; exact hs
  have learn : ∀ (b : List Byte) (k o : Option Nat) (v : State), considerLearning p .paused b k o v = v :=
    fun _ _ _ _ => if_neg (by simp)
  rw [upstream, if_neg hf, st]
  dsimp only
  simp only [learn, ite_self]
  rfl

/-- The idle timer of a port that is not READY does not restart (R16). -/
theorem restartIdle_of_not_ready {p : Port} {s : State} (h : (s.port p).state ≠ .ready) : restartIdle p s = s :=
  State.modPort_id s (if_neg h)

/-! ### What the camera shows -/

theorem showsCamera_iff {mode : ReadinessMode} {cls : FrameClass} (h : cls ≠ .probeAnswer) :
    showsCamera mode cls = true ↔ cls = .readySign ∨ mode = .anyFrame := by
  simp [showsCamera, h]

theorem cameraShows_probeAnswer {p : Port} {bytes : List Byte} {k : Classified} {s : State}
    (hs : (s.port p).state = .paused) (hk : k.cls = .probeAnswer) :
    cameraShows p bytes k s = judgeProbeAnswer p (k.seqOffset.bind (word16At? bytes)) s := by
  simp [cameraShows, hs, hk]

/-- Camera-initiated activity at an unparked PAUSED port (R20). -/
theorem cameraShows_need {p : Port} {bytes : List Byte} {k : Classified} {s : State} (hs : (s.port p).state = .paused)
    (hk : k.cls ≠ .probeAnswer) (shows : k.cls = .readySign ∨ (s.port p).cfg.readiness = .anyFrame)
    (hp : (s.port p).park = false) : cameraShows p bytes k s = takeNeed .sense p s := by
  simp [cameraShows, hs, hk, (showsCamera_iff hk).2 shows, hp]

theorem cameraShows_nothing {p : Port} {bytes : List Byte} {k : Classified} {s : State} (hs : (s.port p).state = .paused)
    (hk : k.cls ≠ .probeAnswer)
    (h : ¬ (k.cls = .readySign ∨ (s.port p).cfg.readiness = .anyFrame) ∨ (s.port p).park = true) :
    cameraShows p bytes k s = s := by
  have : (showsCamera (s.port p).cfg.readiness k.cls && !(s.port p).park) = false := by
    rcases h with h | h
    · rw [Bool.eq_false_iff.2 (mt (showsCamera_iff hk).1 h), Bool.false_and]
    · rw [h, Bool.not_true, Bool.and_false]
  simp [cameraShows, hs, hk, this]

/-- A PROBE_ANSWER is judged against the outstanding probe (R44). -/
theorem judgeProbeAnswer_eq (p : Port) (received : Option (BitVec 16)) (s : State) :
    judgeProbeAnswer p received s = s.modPort p fun r => { r with
      probe := match r.probe.running, r.probe.outstanding with
        | true, some expected =>
          { r.probe with
            answered := true, misses := 0
            mismatches := match received with
              | some n => if n = expected then r.probe.mismatches else min (r.probe.mismatches + 1) 255
              | none => r.probe.mismatches
            capture := match received with
              | some n => if n ≠ expected ∧ r.probe.mismatches = 0 then some (expected, n) else r.probe.capture
              | none => r.probe.capture }
        | _, _ => r.probe } := by
  unfold judgeProbeAnswer State.modProbe
  refine modPort_congr ?_
  dsimp only
  cases (s.port p).probe.running with
  | false => rfl
  | true =>
    cases (s.port p).probe.outstanding with
    | none => rfl
    | some expected =>
      cases received with
      | none => rfl
      | some n => by_cases h : n = expected <;> simp [h]

@[simp] theorem judgeProbeAnswer_owed (p : Port) (received : Option (BitVec 16)) (s : State) :
    (judgeProbeAnswer p received s).owed = s.owed := rfl

@[simp] theorem judgeProbeAnswer_state (p : Port) (received : Option (BitVec 16)) (s : State) :
    ((judgeProbeAnswer p received s).port p).state = (s.port p).state := by
  simp [judgeProbeAnswer, State.modProbe]

/-- Settles O33: the steps of R84 at a PAUSED port, by the class of the frame. -/
theorem pausedPortHearsItsCamera : Obligations.PausedPortHearsItsCamera := by
  unfold Obligations.PausedPortHearsItsCamera
  intro p c bytes s h hf hs k u shows awake
  have hu : u.port p = { s.port p with receiving := .idle } := classifiedUp_port p c bytes s
  have hus : (u.port p).state = .paused := by rw [hu]; exact hs
  have huo : u.owed = [] := (classifiedUp_owed p c bytes s).trans h.settled
  have run : exec (.cameraFrameReceived p bytes true) s = .next (settle (dropRef c (
      if k.cls = .probeAnswer then awake (cameraShows p bytes k u)
      else forwardUp p c bytes.length (awake (cameraShows p bytes k u))))) := by
    rw [exec_cameraFrameReceived, whileRunning_of_running h.running, receiveCamera_passed h, upstream_paused hf hs]
  have still : ∀ v : State, (v.port p).state = .paused → awake v = v := fun v hv => by
    simp only [awake, restartIdle_of_not_ready (show (v.port p).state ≠ .ready by rw [hv]; decide), ite_self]
  refine ⟨fun hk => ?_, fun hk hsh hp => ?_, fun hk hq => ?_⟩
  · refine run.trans (congrArg Host.Outcome.next ?_)
    rw [if_pos hk, cameraShows_probeAnswer hus hk, still _ ((judgeProbeAnswer_state _ _ _).trans hus),
      settle_of_owed (by rw [dropRef_owed, judgeProbeAnswer_owed]; exact huo)]
    exact congrArg (dropRef c) (judgeProbeAnswer_eq p _ u)
  · rw [run, if_neg hk, cameraShows_need hus hk (by rw [hu]; exact hsh) (by rw [hu]; exact hp)]
  · rw [run, if_neg hk, cameraShows_nothing hus hk (by rw [hu]; exact hq), still u hus, settle_of_owed]
    rw [dropRef_owed, forwardUp_owed]; exact huo

end Sys2Proof.Machine
end

section
/-! SUPPORT. The entries into ASLEEP by SLEEP, a deep-idle expiry, ENABLE and CLEAR (R5, R10, R17, R25). -/

namespace Sys2Proof.Machine

/-! ### SLEEP and the deep-idle expiry -/

theorem sleepPort_sleeps {p : Port} {s : State} (h : (s.port p).state = .ready ∨ (s.port p).state = .paused) :
    sleepPort p s = (.ok, enterAsleep p s) := if_pos (by simpa using h)

theorem sleepPort_refused {p : Port} {s : State} (h1 : (s.port p).state ≠ .ready) (h2 : (s.port p).state ≠ .paused) :
    sleepPort p s = (.state, s) := if_neg (by simp [h1, h2])

theorem deepIdleExpired_iff (p : Port) (s : State) : deepIdleExpired p s = true ↔
    (s.port p).state = .paused ∧ (s.port p).cfg.deepIdle ≠ 0 ∧ (s.port p).cfg.deepIdle * 1000 ≤ (s.port p).deepIdle := by
  simp [deepIdleExpired, and_assoc]

/-! ### ENABLE and CLEAR -/

theorem readPortConfig_port (p q : Port) (s : State) : (readPortConfig p s).2.port q = s.port q :=
  (Quiet.readPortConfig p s).port q

theorem stationRefused_iff (p : Port) (a : Addr) (s : State) : stationRefused p a s = true ↔
    a = 0 ∨ isGroupAddr a = true ∨ (∃ q : Port, q ≠ p ∧ (s.port q).station = some a) ∨
      (∃ g : Group, s.tbm.group[g].val.enabled = true ∧ s.tbm.group[g].poison = false ∧
        s.tbm.group[g].val.address = a) ∨ a = s.mga.factory := by
  have ports : ∀ q : Port, q ∈ allPorts := List.mem_finRange
  have groups : ∀ g : Group, g ∈ allGroups := List.mem_finRange
  simp [stationRefused, groupServes, ports, groups, or_assoc, and_assoc]

theorem enablePort_enabled {p : Port} {s : State} (h : (s.port p).state ≠ .disabled) : enablePort p s = (.state, s) :=
  if_pos h

theorem readPortConfig_eq {p : Port} {s : State} {c : Option PortConfig} (h : (readPortConfig p s).1 = c) :
    readPortConfig p s = (c, (readPortConfig p s).2) := Prod.ext h rfl

/-- ENABLE at an entry that reads poisoned (R5). -/
theorem enablePort_poisoned {p : Port} {s : State} (h : (s.port p).state = .disabled)
    (hr : (readPortConfig p s).1 = none) : enablePort p s = (.invalidConfig, (readPortConfig p s).2) := by
  rw [enablePort, if_neg (not_not.2 h), readPortConfig_eq hr]

/-- ENABLE with a station address that cannot serve (R5). -/
theorem enablePort_refused {p : Port} {s : State} {cfg : PortConfig} (h : (s.port p).state = .disabled)
    (hr : (readPortConfig p s).1 = some cfg) (hs : stationRefused p cfg.station (readPortConfig p s).2 = true) :
    enablePort p s = (.invalidConfig, (readPortConfig p s).2) := by
  rw [enablePort, if_neg (not_not.2 h), readPortConfig_eq hr]
  exact if_pos hs

/-- ENABLE with a station address that serves takes configuration, draws and station address over (R5). -/
theorem enablePort_taken {p : Port} {s : State} {cfg : PortConfig} (h : (s.port p).state = .disabled)
    (hr : (readPortConfig p s).1 = some cfg) (hs : ¬ stationRefused p cfg.station (readPortConfig p s).2 = true) :
    enablePort p s = (.ok, enterAsleep p ((readPortConfig p s).2.modPort p fun r =>
      { r with cfg := cfg, draws := ⟨cfg.standby, cfg.active, cfg.inrush⟩, station := some cfg.station })) := by
  rw [enablePort, if_neg (not_not.2 h), readPortConfig_eq hr]
  refine (if_neg hs).trans ?_
  rw [takeConfig, State.modPort_modPort]

theorem clearPort_refused {p : Port} {s : State} (h : (s.port p).state ≠ .faulted) : clearPort p s = (.state, s) :=
  if_pos h

theorem clearPort_poisoned {p : Port} {s : State} (h : (s.port p).state = .faulted)
    (hr : (readPortConfig p s).1 = none) : clearPort p s = (.poisoned, (readPortConfig p s).2) := by
  rw [clearPort, if_neg (not_not.2 h), readPortConfig_eq hr]

/-- CLEAR takes configuration and draws over and keeps the station address (R10). -/
theorem clearPort_taken {p : Port} {s : State} {cfg : PortConfig} (h : (s.port p).state = .faulted)
    (hr : (readPortConfig p s).1 = some cfg) :
    clearPort p s = (.ok, enterAsleep p ((readPortConfig p s).2.modPort p fun r =>
      { r with cfg := cfg, draws := ⟨cfg.standby, cfg.active, cfg.inrush⟩, station := (s.port p).station })) := by
  rw [clearPort, if_neg (not_not.2 h), readPortConfig_eq hr, ← readPortConfig_port p p s]
  exact congrArg (fun v => (Status.ok, enterAsleep p v)) (modPort_congr rfl)

/-- Settles O44, command by command; the entry itself is `enterAsleep_spec`. -/
theorem portGoesToAsleep : Obligations.PortGoesToAsleep := by
  unfold Obligations.PortGoesToAsleep
  intro p s hs st asks v refusedStation taken due
  have hv : v.owed = [] := (readPortConfig_owed p s).trans hs.settled
  have refused : ∀ a, stationRefused p a v = true ↔ refusedStation a := fun a => stationRefused_iff p a v
  refine ⟨fun r rest ⟨a, hp⟩ => ⟨fun h => ⟨_, enterAsleep_spec p s, ?_⟩, fun h1 h2 => ?_⟩,
    fun h => ⟨_, enterAsleep_spec p s, ?_⟩, fun h => ?_,
    fun r rest ⟨a, hp⟩ => ⟨fun h => ?_, fun h hr => ?_, fun cfg h hr => ⟨fun hf => ?_, fun hf =>
      ⟨_, enterAsleep_spec p _, ?_⟩⟩⟩,
    fun r rest ⟨a, hp⟩ => ⟨fun h => ?_, fun h hr => ?_, fun cfg h hr => ⟨_, enterAsleep_spec p _, ?_⟩⟩⟩
  · rw [exec_sleep, performPort_accepts a, Request.port_eq hp, sleepPort_sleeps h]
  · rw [exec_sleep, performPort_accepts a, Request.port_eq hp, sleepPort_refused h1 h2, settle_of_owed hs.settled]
  · rw [exec_deepIdleExpiry, whileRunning_of_running hs.running, whenDue_pos ((deepIdleExpired_iff p s).2 h)]
  · rw [exec_deepIdleExpiry, whileRunning_of_running hs.running, whenDue_neg (mt (deepIdleExpired_iff p s).1 h),
      settle_of_owed hs.settled]
  · rw [exec_enable, performPort_accepts a, Request.port_eq hp, enablePort_enabled h, settle_of_owed hs.settled]
  · rw [exec_enable, performPort_accepts a, Request.port_eq hp, enablePort_poisoned h hr, settle_of_owed hv]
  · rw [exec_enable, performPort_accepts a, Request.port_eq hp, enablePort_refused h hr ((refused _).2 hf), settle_of_owed hv]
  · rw [exec_enable, performPort_accepts a, Request.port_eq hp, enablePort_taken h hr (mt (refused _).1 hf)]
  · rw [exec_clear, performPort_accepts a, Request.port_eq hp, clearPort_refused h, settle_of_owed hs.settled]
  · rw [exec_clear, performPort_accepts a, Request.port_eq hp, clearPort_poisoned h hr, settle_of_owed hv]
  · rw [exec_clear, performPort_accepts a, Request.port_eq hp, clearPort_taken h hr]

end Sys2Proof.Machine
end

section
/-! SUPPORT. DISABLE, the link timer expiry and the feed-fault input (R6, R7, R8, R18), and what groups make of them. -/

namespace Sys2Proof.Machine

theorem disablePort_disabled {p : Port} {s : State} (h : (s.port p).state = .disabled) : disablePort p s = (.ok, s) :=
  if_pos h

theorem disablePort_enabled {p : Port} {s : State} (h : (s.port p).state ≠ .disabled) :
    disablePort p s = (.ok, enterDisabled p s) := if_neg h

theorem linkExpired_iff (p : Port) (s : State) : linkExpired p s = true ↔
    ((s.port p).state = .ready ∨ (s.port p).state = .pausing ∨ (s.port p).state = .paused ∨
      (s.port p).state = .resuming) ∧ s.mga.linkTimeout * 1000 ≤ (s.port p).link := by
  simp [linkExpired, linkWatched, or_assoc]

/-- The feed-fault input found high while the feed is on (R8). -/
theorem sampleFeedFault_high {p : Port} {s : State} (h : (s.port p).feed = true) :
    sampleFeedFault p true s = enterFaulted p .feed (s.modPort p fun r => { r with feedFaultIn := true }) :=
  if_pos (by simp [h])

/-- Any other sample sets the input's level alone (R7, R8; log 5). -/
theorem sampleFeedFault_level {p : Port} {level : Bool} {s : State}
    (h : level = false ∨ (s.port p).feed = false ∨ (s.port p).state = .faulted) :
    sampleFeedFault p level s = s.modPort p fun r => { r with feedFaultIn := level } := by
  unfold sampleFeedFault
  dsimp only
  rw [State.modPort_port_same]
  rcases h with h | h | h
  · rw [if_neg (by simp [h])]
  · rw [if_neg (by simp [h])]
  · rw [enterFaulted_faulted (by rw [State.modPort_port_same]; exact h), ite_self]

/-- What the groups hear does not depend on what they do not look at. -/
theorem GroupsHear.congr {p : Port} {old new : PortState} {before after : List Work} {s t u : State}
    (h : GroupsHear p old new before after t u) (hg : ∀ g, t.group g = s.group g)
    (hp : (t.port p).park = (s.port p).park) (ho : t.owed = s.owed) : GroupsHear p old new before after s u where
  group g := by rw [h.group, hg, hp]
  owed := by rw [h.owed, ho, hp]; simp only [hg]
  armBroken g a b := by
    have := h.armBroken g (by rw [hg]; exact a) (by rw [hg]; exact b)
    simpa only [hg] using this
  refused g a := by
    have := h.refused g (by rw [hg]; exact a)
    simpa only [hg] using this

/-- Settles O45: the entries are `enterDisabled_spec`, `enterFaulted_spec` and `enterAsleep_spec`, and what groups make of
them is said by the lemmas of Laws/Hear. -/
theorem portIsShutDown : Obligations.PortIsShutDown := by
  unfold Obligations.PortIsShutDown
  intro p s hs st op method attempts record raised scans due
  have hm : op.faultMethod = method := by
    simp only [method]
    unfold Operation.faultMethod
    cases op.kind with
    | none | cold | pause => rfl
    | resume =>
      cases op.attempt with
      | succ n => rfl
      | zero =>
        cases op.method with
        | none => rfl
        | some m => cases m <;> rfl
  have ha : op.faultAttempts = attempts := by
    simp only [attempts]
    unfold Operation.faultAttempts
    cases op.kind <;> rfl
  have hr : ∀ code : FaultCode, (fun r : PortRec => { r with
      fault := some (FaultRecord.mk code (s.port p).state (s.port p).op.faultMethod (s.port p).op.faultAttempts) }) =
      record code := fun code => by rw [hm, ha]
  refine ⟨fun r rest a hp => ⟨fun h => ?_, fun h => ⟨_, enterDisabled_spec p s, enterDisabled_hears p s, ?_⟩⟩,
    fun h => ?_, fun h => ?_, fun hf h => ?_, fun level h => ?_,
    fun r rest a hp h => ⟨_, enterAsleep_spec p s, enterAsleep_hears p s, ?_⟩, fun new => ?_⟩
  · rw [exec_disable, performPort_accepts a, Request.port_eq hp, disablePort_disabled h, settle_of_owed hs.settled]
  · rw [exec_disable, performPort_accepts a, Request.port_eq hp, disablePort_enabled h]
  · have hn : (s.port p).state ≠ .faulted := fun e => by
      rcases h.1 with k | k | k | k <;> exact absurd (k.symm.trans e) (by decide)
    obtain ⟨hears, events⟩ := enterFaulted_hears (code := .linkLost) hn
    refine ⟨enterFaulted p .linkLost s, hr .linkLost ▸ enterFaulted_spec hn, hears, events, ?_⟩
    rw [exec_linkTimerExpiry, whileRunning_of_running hs.running, whenDue_pos ((linkExpired_iff p s).2 h)]
  · rw [exec_linkTimerExpiry, whileRunning_of_running hs.running, whenDue_neg (mt (linkExpired_iff p s).1 h),
      settle_of_owed hs.settled]
  · have port : (s.modPort p fun r => { r with feedFaultIn := true }).port p = { s.port p with feedFaultIn := true } :=
      State.modPort_port_same _ _ _
    have hn : ((s.modPort p fun r => { r with feedFaultIn := true }).port p).state ≠ .faulted := by rw [port]; exact h
    have shuts := enterFaulted_spec (code := .feed) hn
    obtain ⟨hears, events⟩ := enterFaulted_hears (code := .feed) hn
    rw [port] at shuts hears
    refine ⟨enterFaulted p .feed (s.modPort p fun r => { r with feedFaultIn := true }), hr .feed ▸ shuts,
      hears.congr (fun _ => rfl) (by rw [port]) rfl, events, ?_⟩
    rw [exec_feedFaultAsserted, if_pos hs.running, sampleFeedFault_high hf]
  · rw [exec_feedFaultAsserted, if_pos hs.running, sampleFeedFault_level h, settle_of_owed (by exact hs.settled)]
  · rw [exec_sleep, performPort_accepts a, Request.port_eq hp, sleepPort_sleeps h]
  · intro charge u
    have hc : stateCharge (s.port p).draws new = charge := by cases new <;> rfl
    obtain ⟨port, others, adm, tbm, mga, -, -⟩ := changeState_spec p new s
    rw [hc] at port
    exact ⟨hc ▸ changeState_hears p new s, port, others, adm, tbm, mga⟩

end Sys2Proof.Machine
end

section
/-! SUPPORT. How a READY port is paused (R13, R24, R28, R39, R99): what each read decides, the entry into PAUSING up to its
PAUSE frame, and what becomes of that frame. -/

namespace Sys2Proof.Machine

/-! ### The entry into PAUSING -/

/-- The entry into PAUSING with a configuration as read, up to the sending of the PAUSE frame. -/
def pausingEntry (p : Port) (cfg : PortConfig) (w : State) : State :=
  let s := changeState p .pausing (w.modPort p fun r => { r with cfg := cfg, idle := 0, releasing := false })
  let s := if anyWaking s p then s.owe (.need .traffic p) else s
  s.modPort p fun r =>
    { r with op := { Operation.reset with kind := .pause, phase := .confirm, countdown := r.cfg.confirmWindow, cls := r.op.cls } }

theorem enterPausing_eq (p : Port) (t : Template) (cfg : PortConfig) (w : State) :
    enterPausing p t (w.modPort p fun r => { r with cfg := cfg }) = sendTemplate p t none (pausingEntry p cfg w) := by
  unfold enterPausing stopRelease
  rw [State.modPort_modPort, State.modPort_modPort]
  rfl

/-- The record of a port that has entered PAUSING with configuration cfg (R13, R39, R99; log 48). -/
def PortRec.pausing (cfg : PortConfig) (r : PortRec) : PortRec :=
  { r with
    state := .pausing, charge := r.draws.active, idle := 0, cfg := cfg, releasing := false
    op := { Operation.reset with kind := .pause, phase := .confirm, countdown := cfg.confirmWindow, cls := r.op.cls } }

/-- What the entry of port p into PAUSING leaves in u beside the port, the cells and the free list of w. -/
structure EntersPausing (p : Port) (w u : State) : Prop where
  others : ∀ q : Port, q ≠ p → u.port q = w.port q
  adm : u.adm = { w.adm with committed := w.adm.committed.set (domainOf p) (domainCharge u (domainOf p)) }
  uplink : u.uplink = w.uplink
  groups : u.groups = w.groups
  tbm : u.tbm = w.tbm
  mga : u.mga = w.mga
  evu : u.evu = w.evu
  phase : u.phase = w.phase
  pending : u.pending = w.pending
  owed : u.owed = w.owed ++ ((if (w.port p).draws.active < (w.port p).charge then [.scan] else []) ++
    if (w.port p).hold.any (·.waking) then [.need .traffic p] else [])

/-- The sending of the PAUSE frame touches the port, the cells and the free list alone. -/
theorem EntersPausing.tried {p : Port} {w e u : State} (h : EntersPausing p w e) (others : ∀ q, q ≠ p → u.port q = e.port q)
    (charge : (u.port p).charge = (e.port p).charge)
    (rest : u = { e with ports := u.ports, cells := u.cells, free := u.free }) : EntersPausing p w u := by
  have hd : domainCharge u (domainOf p) = domainCharge e (domainOf p) := domainCharge_congr (fun q => by
    by_cases k : q = p
    · rw [k, charge]
    · rw [others q k]) _
  have adm : u.adm = { w.adm with committed := w.adm.committed.set (domainOf p) (domainCharge u (domainOf p)) } := by
    rw [hd, ← h.adm, rest]
  exact
    { others := fun q hq => (others q hq).trans (h.others q hq)
      adm := adm
      uplink := by rw [rest]; exact h.uplink
      groups := by rw [rest]; exact h.groups
      tbm := by rw [rest]; exact h.tbm
      mga := by rw [rest]; exact h.mga
      evu := by rw [rest]; exact h.evu
      phase := by rw [rest]; exact h.phase
      pending := by rw [rest]; exact h.pending
      owed := by rw [rest]; exact h.owed }

/-- Where no group is concerned, the entry into PAUSING does what R13 and R99 say. -/
theorem pausingEntry_spec {p : Port} {w : State} (cfg : PortConfig) (h : w.unwatched p .pausing) :
    EntersPausing p w (pausingEntry p cfg w) ∧ (pausingEntry p cfg w).port p = (w.port p).pausing cfg ∧
    (pausingEntry p cfg w).cells = w.cells ∧ (pausingEntry p cfg w).free = w.free := by
  let b := w.modPort p fun r => { r with cfg := cfg, idle := 0, releasing := false }
  have hb : b.port p = { w.port p with cfg := cfg, idle := 0, releasing := false } := State.modPort_port_same _ _ _
  have unw : b.unwatched p .pausing := fun g => by rw [hb]; exact h g
  obtain ⟨port, others, adm, tbm, mga, phase, pending⟩ := changeState_spec p .pausing b
  obtain ⟨groups, evu, uplink, cells, free, owed⟩ := changeState_alone (by decide) unw
  have eq : pausingEntry p cfg w =
      (if anyWaking (changeState p .pausing b) p then (changeState p .pausing b).owe (.need .traffic p)
        else changeState p .pausing b).modPort p fun r => { r with op := { Operation.reset with
          kind := .pause, phase := .confirm, countdown := r.cfg.confirmWindow, cls := r.op.cls } } := rfl
  generalize changeState p .pausing b = d at *
  have waking : anyWaking d p = (w.port p).hold.any (·.waking) := by rw [anyWaking, port, hb]
  rw [hb] at port owed
  rw [waking] at eq
  have ports : ∀ q, (pausingEntry p cfg w).port q = if q = p then (w.port p).pausing cfg else w.port q := fun q => by
    rw [eq, State.modPort_port]
    by_cases hq : q = p
    · rw [if_pos hq, if_pos hq]; split <;> simp only [State.owe_port, port] <;> rfl
    · have : d.port q = w.port q := (others q hq).trans (State.modPort_port_ne _ _ hq)
      rw [if_neg hq, if_neg hq]; split <;> simp only [State.owe_port, this]
  have charge : domainCharge (pausingEntry p cfg w) (domainOf p) = domainCharge d (domainOf p) :=
    domainCharge_congr (fun q => by
      rw [ports]
      split
      · rename_i e; rw [e, port]; rfl
      · rename_i e; rw [others q e]; exact congrArg _ (State.modPort_port_ne _ _ e).symm) _
  have howed : (pausingEntry p cfg w).owed =
      d.owed ++ if (w.port p).hold.any (·.waking) then [.need .traffic p] else [] := by
    rw [eq]; split <;> simp
  have rest : pausingEntry p cfg w = { d with
      ports := (pausingEntry p cfg w).ports, owed := (pausingEntry p cfg w).owed } := by rw [eq]; split <;> rfl
  have enters : EntersPausing p w (pausingEntry p cfg w) :=
    { others := fun q hq => by rw [ports, if_neg hq]
      adm := by rw [charge, rest]; exact adm
      uplink := by rw [rest]; exact uplink
      groups := by rw [rest]; exact groups
      tbm := by rw [rest]; exact tbm
      mga := by rw [rest]; exact mga
      evu := by rw [rest]; exact evu
      phase := by rw [rest]; exact phase
      pending := by rw [rest]; exact pending
      owed := by rw [howed, owed, List.append_assoc]; rfl }
  exact ⟨enters, by rw [ports, if_pos rfl], by rw [rest]; exact cells, by rw [rest]; exact free⟩

/-! ### The PAUSE frame -/

/-- A template frame with a free cell and room (R29, R88). -/
theorem sendTemplate_room {p : Port} {c : CellNo} {free : List CellNo} {s : State} (t : Template)
    (seq : Option (BitVec 16)) (h : s.free = c :: free) (k : (s.port p).egress.queue.length < 32) :
    sendTemplate p t seq s =
      let frame := templateFrame t (s.port p).cfg.station s.mga.factory seq
      (true, appendTx (.camera p) ⟨c, frame.length, none⟩ (storeCell c frame { s with free := free })) := by
  have k' : (s.egress (.camera p)).queue.length < 32 := k
  rw [sendTemplate, originate_room _ _ _ _ _ h k']

/-- A template frame with no free cell or no room (R88, R89; log 10). -/
theorem sendTemplate_lost {p : Port} {s : State} (t : Template) (seq : Option (BitVec 16))
    (k : s.free = [] ∨ 32 ≤ (s.port p).egress.queue.length) :
    sendTemplate p t seq s = (false, countDrop p (if s.free = [] then .noCell else .txFull)
      { s with free := s.free.tail ++ s.free.head?.toList }) := by
  have k' : s.free = [] ∨ 32 ≤ (s.egress (.camera p)).queue.length := k
  rw [sendTemplate, originate_lost _ _ _ k']
  by_cases h : s.free = []
  · simp only [if_pos h]
  · simp only [if_neg h]

/-- A frame that is built in cell c and appended to the transmit queue of port p (R88, R92). -/
theorem placeFrame_spec (p : Port) (c : CellNo) (frame : List Byte) (free : List CellNo) (e : State) :
    ∃ u, appendTx (.camera p) ⟨c, frame.length, none⟩ (storeCell c frame { e with free := free }) = u ∧
      u.port p = { e.port p with
        egress := { (e.port p).egress with queue := (e.port p).egress.queue ++ [⟨c, frame.length, none⟩] } } ∧
      (∀ q, q ≠ p → u.port q = e.port q) ∧
      u.cell c = { refs := (e.cell c).refs + 1, data := frame.take 2048 } ∧ (∀ d, d ≠ c → u.cell d = e.cell d) ∧
      u.free = free ∧ u = { e with ports := u.ports, cells := u.cells, free := u.free } := by
  refine ⟨_, rfl, ?_, fun q hq => ?_, ?_, fun d hd => ?_, rfl, rfl⟩
  · simp only [appendTx, addRef, storeCell, State.modEgress, State.modCell_port, State.modPort_port_same, withFree_port]
  · simp only [appendTx, addRef, storeCell, State.modEgress, State.modCell_port, State.modPort_port_ne _ _ hq,
      withFree_port]
  · simp only [appendTx, addRef, storeCell, State.modEgress, State.modCell_cell_same, State.modPort_cell, withFree_cell]
    rfl
  · simp only [appendTx, addRef, storeCell, State.modEgress, State.modCell_cell_ne _ _ hd, State.modPort_cell,
      withFree_cell]

/-- A pause whose frame is placed (R39): the frame is the new tail of the port's transmit queue. -/
theorem pauseFrame_placed {p : Port} {w : State} {c : CellNo} {free : List CellNo} (t : Template) (cfg : PortConfig)
    (h : w.unwatched p .pausing) (hf : w.free = c :: free) (room : (w.port p).egress.queue.length < 32) :
    ∃ u, sendTemplate p t none (pausingEntry p cfg w) = (true, u) ∧ EntersPausing p w u ∧
      (let frame := templateFrame t cfg.station w.mga.factory none;
        u.port p = { (w.port p).pausing cfg with
          egress := { (w.port p).egress with queue := (w.port p).egress.queue ++ [⟨c, frame.length, none⟩] } } ∧
        u.cell c = { refs := (w.cell c).refs + 1, data := frame.take 2048 }) ∧
      (∀ d : CellNo, d ≠ c → u.cell d = w.cell d) ∧ u.free = free := by
  obtain ⟨enters, port, cells, efree⟩ := pausingEntry_spec cfg h
  have cell : ∀ d, (pausingEntry p cfg w).cell d = w.cell d := fun d => by simp only [State.cell, cells]
  have hs := sendTemplate_room t none (efree.trans hf) (by rw [port]; exact room)
  generalize pausingEntry p cfg w = e at *
  have hframe : templateFrame t (e.port p).cfg.station e.mga.factory none =
      templateFrame t cfg.station w.mga.factory none := by rw [port, enters.mga]; rfl
  dsimp only at hs ⊢
  rw [hframe] at hs
  generalize templateFrame t cfg.station w.mga.factory none = frame at *
  obtain ⟨u, hu, uport, others, ucell, cells', ufree, rest⟩ := placeFrame_spec p c frame free e
  rw [hu] at hs
  rw [port] at uport
  rw [cell] at ucell
  exact ⟨u, hs, enters.tried others (by rw [uport, port]) rest, ⟨uport, ucell⟩,
    fun d hd => (cells' d hd).trans (cell d), ufree⟩

/-- A pause whose frame finds no free cell or no room (R39): the frame is counted as dropped, and a cell that it took rejoins
the tail of the free list (log 10). -/
theorem pauseFrame_lost {p : Port} {w : State} (t : Template) (cfg : PortConfig) (h : w.unwatched p .pausing)
    (lost : w.free = [] ∨ 32 ≤ (w.port p).egress.queue.length) :
    ∃ u, sendTemplate p t none (pausingEntry p cfg w) = (false, u) ∧ EntersPausing p w u ∧
      (let cause : Fin 10 := if w.free = [] then 7 else 6;
        u.port p = { (w.port p).pausing cfg with counts := { (w.port p).counts with
          dropped := (w.port p).counts.dropped.set cause (bump (w.port p).counts.dropped[cause]) } }) ∧
      u.cells = w.cells ∧ u.free = w.free.tail ++ w.free.head?.toList := by
  obtain ⟨enters, port, cells, efree⟩ := pausingEntry_spec cfg h
  have hs := sendTemplate_lost t none (s := pausingEntry p cfg w) (p := p) (by rw [port, efree]; exact lost)
  rw [efree] at hs
  generalize pausingEntry p cfg w = e at *
  refine ⟨_, hs, enters.tried (fun q hq => State.modPort_port_ne _ _ hq) ?_ rfl, ?_, cells, rfl⟩
  · simp only [countDrop, State.modCounts, State.modPort_port_same, withFree_port]
  · have cause : (if w.free = [] then DropCause.noCell else .txFull).index = if w.free = [] then 7 else 6 := by
      split <;> rfl
    simp only [countDrop, State.modCounts, State.modPort_port_same, withFree_port, port, cause]
    rfl

/-! ### What an attempt to pause comes to -/

theorem readPresent_eq {p : Port} {k : TemplateKind} {s : State} {t : Option Template} (h : (readPresent p k s).1 = t) :
    readPresent p k s = (t, (readPresent p k s).2) := Prod.ext h rfl

theorem tryPause_absent {p : Port} {s : State} (h : (readPresent p .pause s).1 = none) :
    tryPause p s = (.templateAbsent, (readPresent p .pause s).2) := by
  rw [tryPause, readPresent_eq h]

theorem tryPause_poisoned {p : Port} {s : State} {t : Template} (h : (readPresent p .pause s).1 = some t)
    (hc : (readPortConfig p (readPresent p .pause s).2).1 = none) :
    tryPause p s = (.configPoisoned, enterFaulted p .table (readPortConfig p (readPresent p .pause s).2).2) := by
  rw [tryPause, readPresent_eq h]
  dsimp only
  rw [readPortConfig_eq hc]

/-- With template and configuration read, the port enters PAUSING and its frame is tried (R13, R39). -/
theorem tryPause_enters {p : Port} {s u : State} {t : Template} {cfg : PortConfig} {placed : Bool}
    (h : (readPresent p .pause s).1 = some t) (hc : (readPortConfig p (readPresent p .pause s).2).1 = some cfg)
    (hf : sendTemplate p t none (pausingEntry p cfg (readPortConfig p (readPresent p .pause s).2).2) = (placed, u)) :
    tryPause p s = (if placed then .started else .frameLost, u) := by
  rw [tryPause, readPresent_eq h]
  dsimp only
  rw [readPortConfig_eq hc]
  dsimp only
  rw [enterPausing_eq, hf]
  cases placed <;> rfl

/-! ### The idle expiry and PAUSE -/

theorem idleExpired_iff (p : Port) (s : State) : idleExpired p s = true ↔
    (s.port p).state = .ready ∧ held s p = false ∧ (s.port p).cfg.idle ≠ 0 ∧
      (s.port p).cfg.idle * 1000 ≤ (s.port p).idle := by
  simp [idleExpired, and_assoc]

/-- A due idle expiry (R13, R16). -/
theorem exec_idleTimerExpiry_due {p : Port} {s : State} (hs : s.Settled) (h : idleExpired p s = true) :
    exec (.idleTimerExpiry p) s = .next (settle (idleOver p s)) := by
  rw [exec_idleTimerExpiry, whileRunning_of_running hs.running, whenDue_pos h]

/-- PAUSE on the port that the request names, with what follows its response. -/
theorem exec_pause_accepts {p : Port} {r : Request} {rest : List Request} {s : State}
    (a : s.Accepts (.port .pause) r rest) (hp : natAt r.body 7 1 = p.val) : exec .pause s =
      .next (afterPause p s (finishRequest r rest (pausePort p s).1 [] (settle (pausePort p s).2))) := by
  rw [exec_pause, performPortThen_accepts a, Request.port_eq hp]

theorem pausePort_refused {p : Port} {s : State} (h : (s.port p).state ≠ .ready) : pausePort p s = (.state, s) :=
  if_pos h

/-- PAUSE at a READY port, by what the attempt comes to (R24; log 16). -/
theorem pausePort_ready {p : Port} {s u : State} {x : PauseStart} (h : (s.port p).state = .ready)
    (ht : tryPause p s = (x, u)) :
    pausePort p s = (if x = .started ∨ x = .frameLost then .ok else .invalidConfig, u) := by
  rw [pausePort, if_neg (not_not.2 h), ht]
  cases x <;> rfl

theorem afterPause_none {p : Port} {s : State} (h : (s.port p).state ≠ .ready ∨ (tryPause p s).1 ≠ .frameLost)
    (t : State) : afterPause p s t = t := if_neg (by rcases h with h | h <;> simp [pauseLost, h])

theorem afterPause_lost {p : Port} {s : State} (h : (s.port p).state = .ready) (k : (tryPause p s).1 = .frameLost)
    (t : State) : afterPause p s t = settle (pauseFailed p t) := if_pos (by simp [pauseLost, h, k])

end Sys2Proof.Machine
end

section
/-! SUPPORT. The failure of a pause (R14, R95, R130), and the settling of O43. -/

namespace Sys2Proof.Machine

/-! ### The failure of a pause -/

/-- The move back to READY at the failure of a pause: it touches ports, groups, ADM and the handed-on work alone. -/
theorem pauseEnds_spec (p : Port) (y : State) :
    ∃ x, changeState p .ready (endOperation p y) = x ∧
      x = { y with ports := x.ports, groups := x.groups, adm := x.adm, owed := x.owed } ∧
      x.port p = { y.port p with
        state := .ready, charge := (y.port p).draws.active, wakeLine := false
        op := { (y.port p).op with kind := .none, phase := .none, countdown := 0, pulse := none } } ∧
      (∀ q : Port, q ≠ p → x.port q = y.port q) ∧
      (∀ g : Group, x.group g = { y.group g with arm :=
        if (y.group g).arm.armed = true ∧ (y.group g).arm.intact = true ∧ hasPort (y.group g).arm.members p = true then
          { (y.group g).arm with watched := (y.group g).arm.watched ||| onlyPort p }
        else (y.group g).arm }) ∧
      x.adm = { y.adm with committed := y.adm.committed.set (domainOf p) (domainCharge x (domainOf p)) } ∧
      x.owed = y.owed ++ if (y.port p).draws.active < (y.port p).charge then [.scan] else [] := by
  have ended : (endOperation p y).port p = { y.port p with
      op := { (y.port p).op with kind := .none, phase := .none, countdown := 0, pulse := none }, wakeLine := false } :=
    State.modPort_port_same _ _ _
  obtain ⟨port, others, adm, -, -, -, -⟩ := changeState_spec p .ready (endOperation p y)
  have hears := changeState_hears p .ready (endOperation p y)
  obtain ⟨gs, shape⟩ := changeState_ready p (endOperation p y)
  obtain ⟨-, -, -, owed⟩ := setState_hears p .ready (endOperation p y)
  have rest : ∃ ps ad, changeState p .ready (endOperation p y) =
      { y with ports := ps, groups := gs, adm := ad, owed := (setState p .ready (endOperation p y)).owed } := by
    rw [shape]
    unfold setState
    dsimp only
    split <;> exact ⟨_, _, rfl⟩
  obtain ⟨ps, ad, rest⟩ := rest
  rw [ended] at port owed
  refine ⟨_, rfl, ?_, port, fun q hq => (others q hq).trans (State.modPort_port_ne _ _ hq), fun g => ?_, adm, ?_⟩
  · rw [rest]
  · have group : (endOperation p y).group g = y.group g := rfl
    rw [hears.group g, group]
    have quiet : (y.group g).refuses p ((endOperation p y).port p).state .ready = false := by
      simp [GroupRec.refuses, ArmRecord.broken]
    simp only [GroupRec.armAfter, GroupRec.slotAfter, quiet, losesReach, if_true, Bool.and_false, Bool.false_eq_true,
      if_false, Bool.and_eq_true, and_assoc]
  · rw [rest]; exact owed

/-- The state at the failure of a pause, before the release of the held frames (R14). -/
def failedPause (p : Port) (y : State) : State :=
  removeWake p (restartIdle p (raise .pauseFailed (Detail.port p) (changeState p .ready (endOperation p y))))

theorem pauseFailed_empty {p : Port} {y : State} (h : ((failedPause p y).port p).hold = []) :
    pauseFailed p y = noteDeliverable p (failedPause p y) := by
  show startRelease p (failedPause p y) = _
  rw [startRelease, if_pos (by rw [h]; rfl)]

theorem pauseFailed_held {p : Port} {y : State} (h : ((failedPause p y).port p).hold ≠ []) :
    pauseFailed p y = stepRelease p ((failedPause p y).modPort p fun x => { x with releasing := true }) := by
  show startRelease p (failedPause p y) = _
  rw [startRelease, if_neg (by simpa using h)]

/-- What the failure changes beside the move (R14): the port's idle timer, its wake-queue entry, and what raising
PAUSE_FAILED changes. -/
theorem failedPause_spec {p : Port} {x y : State} (hx : changeState p .ready (endOperation p y) = x)
    (ready : (x.port p).state = .ready) :
    (failedPause p y).port p = { x.port p with idle := 0 } ∧
    (∀ q : Port, q ≠ p → (failedPause p y).port q = x.port q) ∧ (∀ g : Group, (failedPause p y).group g = x.group g) ∧
    (failedPause p y).adm = { x.adm with wakeQueue := x.adm.wakeQueue.filter (·.port ≠ p) } ∧
    (failedPause p y).tbm = x.tbm ∧ (failedPause p y).mga = x.mga ∧ (failedPause p y).phase = x.phase ∧
    (failedPause p y).pending = x.pending ∧ (failedPause p y).owed = x.owed := by
  have q := Quiet.raise .pauseFailed (Detail.port p) x
  have idle : ∀ r, (failedPause p y).port r = if r = p then { x.port p with idle := 0 } else x.port r := fun r => by
    rw [failedPause, hx, removeWake, State.modAdm_port, restartIdle, State.modPort_port, raise_port, raise_port, if_pos ready]
  refine ⟨by rw [idle, if_pos rfl], fun r hr => by rw [idle, if_neg hr], fun g => ?_, ?_, ?_, ?_, ?_, ?_, ?_⟩ <;>
    rw [failedPause, hx]
  exacts [q.group g, congrArg (fun a : Adm => { a with wakeQueue := a.wakeQueue.filter (·.port ≠ p) }) q.adm,
    raise_tbm _ _ x, q.mga, q.phase, q.pending, q.owed]

/-- Settles O43. The idle expiry and PAUSE come to what `tryPause` comes to, which is told by the two reads and by the
placing of the PAUSE frame; the failure of a pause is told for every PAUSING port. -/
theorem pauseStartsFromReady : Obligations.PauseStartsFromReady := by
  unfold Obligations.PauseStartsFromReady
  intro p s hs due pauses v w
  have qv : Quiet s v := Quiet.readPresent p .pause s
  have qw : Quiet s w := qv.trans (Quiet.readPortConfig p v)
  have ho : w.owed = [] := qw.owed.trans hs.settled
  have hdue : idleExpired p s = true ↔ due := idleExpired_iff p s
  -- what the two commands come to, by the outcome of the attempt
  have idle : due → exec (.idleTimerExpiry p) s = .next (settle (idleOver p s)) := fun h =>
    exec_idleTimerExpiry_due hs (hdue.2 h)
  have asked : ∀ {r rest x u}, pauses r rest → (s.port p).state = .ready → tryPause p s = (x, u) → x ≠ .frameLost →
      exec .pause s = .next (finishRequest r rest (if x = .started then .ok else .invalidConfig) [] (settle u)) := by
    intro r rest x u a hr ht hx
    rw [exec_pause_accepts a.1 a.2, afterPause_none (.inr (by rw [ht]; exact hx)), pausePort_ready hr ht]
    simp only [hx, or_false]
  refine ⟨fun h => ?_, fun h r rest a => ?_, fun hr ht => ?_, fun t hr ht => ⟨fun hc => ?_, fun cfg c free hc hu hf room => ?_,
    fun cfg hc hu lost => ?_⟩, fun y _ => ?_⟩
  · rw [exec_idleTimerExpiry, whileRunning_of_running hs.running, whenDue_neg (mt hdue.1 h), settle_of_owed hs.settled]
  · rw [exec_pause_accepts a.1 a.2, afterPause_none (.inl h), pausePort_refused h, settle_of_owed hs.settled]
  · have absent := tryPause_absent ht
    refine ⟨fun h => ⟨_, enterAsleep_spec p v, ?_⟩, fun r rest a => ?_⟩
    · rw [idle h, idleOver, absent]
    · rw [asked a hr absent (by decide), settle_of_owed (qv.owed.trans hs.settled), if_neg (by decide)]
  · have poisoned := tryPause_poisoned ht hc
    refine ⟨fun h => ?_, fun r rest a => ?_⟩
    · rw [idle h, idleOver, poisoned]
    · rw [asked a hr poisoned (by decide), if_neg (by decide)]
  · obtain ⟨u, sent, e, port, cells, hfree⟩ := pauseFrame_placed t cfg hu hf room
    have started : tryPause p s = (.started, u) := tryPause_enters ht hc sent
    rw [qw.mga] at port
    refine ⟨u, fun h => ?_, fun r rest a => ?_, port, e.others, cells, hfree, e.adm, e.uplink, e.groups, e.tbm, e.mga, e.evu,
      e.phase, e.pending, ?_⟩
    · rw [idle h, idleOver, started]
    · rw [asked a hr started (by decide), if_pos rfl]
    · rw [e.owed, ho, List.nil_append]
  · obtain ⟨u, sent, e, port, cells, hfree⟩ := pauseFrame_lost t cfg hu lost
    have frameLost : tryPause p s = (.frameLost, u) := tryPause_enters ht hc sent
    have pausing : (u.port p).state = .pausing := by rw [port]; rfl
    refine ⟨u, fun h => ?_, fun r rest a => ?_, settle_staysPausing p u pausing, port, e.others, e.adm, cells, hfree,
      e.uplink, e.groups, e.tbm, e.mga, e.evu, e.phase, e.pending, ?_⟩
    · rw [idle h, idleOver, frameLost]
    · rw [exec_pause_accepts a.1 a.2, afterPause_lost hr (by rw [frameLost]), pausePort_ready hr frameLost,
        if_pos (.inr rfl)]
    · rw [e.owed, ho, List.nil_append]
  · obtain ⟨x, hx, shape, port, others, group, adm, owed⟩ := pauseEnds_spec p y
    obtain ⟨fport, fothers, fgroup, fadm, ftbm, fmga, fphase, fpending, fowed⟩ :=
      failedPause_spec hx (by rw [port])
    have hold : ((failedPause p y).port p).hold = (y.port p).hold := by rw [fport, port]
    have charge : domainCharge (failedPause p y) (domainOf p) = domainCharge x (domainOf p) :=
      domainCharge_congr (fun q => by
        by_cases hq : q = p
        · rw [hq, fport]
        · rw [fothers q hq]) _
    refine ⟨failedPause p y, fun h => pauseFailed_held (by rw [hold]; exact h),
      fun h => pauseFailed_empty (by rw [hold]; exact h), by rw [fport, port], fun q hq => (fothers q hq).trans (others q hq),
      fun g => (fgroup g).trans (group g), by rw [fadm, charge, adm], ⟨x, shape, ?_⟩, ?_, ?_, ?_, ?_, fowed.trans owed⟩
    · rw [failedPause, hx]; exact ⟨rfl, rfl, rfl, rfl⟩
    · rw [ftbm, shape]
    · rw [fmga, shape]
    · rw [fphase, shape]
    · rw [fpending, shape]

end Sys2Proof.Machine
end

section
/-! SUPPORT. One step of learning toward a sample (R47). -/

namespace Sys2Proof.Machine

/-- What one step of learning adds to a valid estimate: the shifted difference, or 1 toward the sample (R47). -/
def learningStep (k : Nat) (d : Int) : Int := if d.tdiv (2 ^ k) = 0 then d.sign else d.tdiv (2 ^ k)

theorem learningStep_of_pos {k : Nat} {d : Int} (h : 0 < d) : 0 < learningStep k d ∧ learningStep k d ≤ d := by
  have nonneg : 0 ≤ d.tdiv (2 ^ k) := Int.tdiv_nonneg h.le (by positivity)
  have le : d.tdiv (2 ^ k) ≤ d := Int.tdiv_le_self _ h.le
  unfold learningStep
  split
  · rw [Int.sign_eq_one_of_pos h]; omega
  · omega

theorem learningStep_neg (k : Nat) (d : Int) : learningStep k (-d) = -learningStep k d := by
  simp only [learningStep, Int.neg_tdiv, Int.sign_neg, neg_eq_zero]
  split <;> rfl

theorem learningStep_zero (k : Nat) : learningStep k 0 = 0 := by simp [learningStep]

theorem learningStep_of_neg {k : Nat} {d : Int} (h : d < 0) : d ≤ learningStep k d ∧ learningStep k d < 0 := by
  have := learningStep_of_pos (k := k) (neg_pos.2 h)
  rw [learningStep_neg] at this
  omega

theorem learn_none (k sample : Nat) : learn k none sample = (sample, true) := rfl

/-- A valid estimate moves by the step toward the sample, whatever the clamp of its range. -/
theorem learn_some {k v sample : Nat} (hs : 1 ≤ sample) (hs' : sample ≤ 65535) (hv : 1 ≤ v) (hv' : v ≤ 65535) :
    ((learn k (some v) sample).1 : Int) = v + learningStep k (sample - v) ∧
      ((learn k (some v) sample).2 = true ↔ (learn k (some v) sample).1 ≠ v) := by
  have hq : learn k (some v) sample =
      ((max 1 (min ((v : Int) + learningStep k (sample - v)) 65535)).toNat,
        (max 1 (min ((v : Int) + learningStep k (sample - v)) 65535)).toNat != v) := rfl
  rw [hq]
  refine ⟨?_, by simp⟩
  have pos := learningStep_of_pos (k := k) (d := (sample : Int) - v)
  have neg := learningStep_of_neg (k := k) (d := (sample : Int) - v)
  have zero := learningStep_zero k
  rcases lt_trichotomy ((sample : Int) - v) 0 with h | h | h
  · have := neg h; omega
  · rw [h, zero]; omega
  · have := pos h; omega

/-- Whatever the shift and the estimate, learning stays in the range of the times (R47). -/
theorem learn_range (k : Nat) (e : Option Nat) {sample : Nat} (hs : 1 ≤ sample ∧ sample ≤ 65535) :
    1 ≤ (learn k e sample).1 ∧ (learn k e sample).1 ≤ 65535 := by
  cases e with
  | none => exact hs
  | some v => simp only [learn, Config.timeMaxMs]; omega

end Sys2Proof.Machine
end

section
/-! SUPPORT. The estimates: O32. -/

namespace Sys2Proof.Machine

theorem applySample_power (k sample : Nat) (e : Estimates) :
    applySample k .power sample e = ({ e with
      cold := some (learn k e.cold sample).1, coldSamples := bumpSamples e.coldSamples }, (learn k e.cold sample).2) := rfl

theorem applySample_resume {m : Method} (hm : m ≠ .power) (k sample : Nat) (e : Estimates) :
    applySample k m sample e = ({ e with
      resume := some (learn k e.resume sample).1, resumeSamples := bumpSamples e.resumeSamples },
      (learn k e.resume sample).2) := by
  cases m
  · rfl
  · rfl
  · exact absurd rfl hm

/-- Settles O32: POWER's path is the cold one, and on the path of the method the estimate makes one step of learning. -/
theorem estimateLearnsTowardTheSample : Obligations.EstimateLearnsTowardTheSample := by
  unfold Obligations.EstimateLearnsTowardTheSample
  intro k sample m e _ _ hs hs' old r new
  obtain ⟨fresh, moved, other, other'⟩ : new = some (learn k old sample).1 ∧ r.2 = (learn k old sample).2 ∧
      (m = .power → r.1.resume = e.resume ∧ r.1.resumeSamples = e.resumeSamples) ∧
      (m ≠ .power → r.1.cold = e.cold ∧ r.1.coldSamples = e.coldSamples) := by
    by_cases hm : m = .power
    · subst hm; exact ⟨rfl, rfl, fun _ => ⟨rfl, rfl⟩, fun h => absurd rfl h⟩
    · simp [new, r, old, applySample_resume hm, hm]
  refine ⟨other, other', fun h => ?_, fun v h hv hv' => ⟨_, fresh, ?_, ?_⟩⟩
  · rw [fresh, moved, h, learn_none]; exact ⟨rfl, rfl⟩
  · rw [h]
    obtain ⟨step, -⟩ := learn_some (k := k) hs hs' hv hv'
    have pos := learningStep_of_pos (k := k) (d := (sample : Int) - v)
    have neg := learningStep_of_neg (k := k) (d := (sample : Int) - v)
    refine ⟨step, fun d => ?_, fun d => ?_, fun d => ?_⟩
    · rw [d, learningStep_zero] at step; omega
    · have := pos d; omega
    · have := neg d; omega
  · rw [moved, h]
    obtain ⟨lo, hi⟩ := learn_range k (some v) ⟨hs, hs'⟩
    exact ⟨lo, hi, (learn_some hs hs' hv hv').2⟩

end Sys2Proof.Machine
end

section
/-! SUPPORT. What WKE has learned for a port, its estimates and its last-wake record (R12, R46, R47): what every operation of
the ports, the tables and the groups leaves of it. -/

namespace Sys2Proof.Machine

/-- What WKE has learned for each port: its estimates and its last-wake record (R12, R46). -/
def State.memory (s : State) (p : Port) : Estimates × Option LastWake := ((s.port p).est, (s.port p).lastWake)

theorem memory_of_ports {s t : State} (h : t.ports = s.ports) : t.memory = s.memory := by
  funext p; simp only [State.memory, State.port, h]

theorem memory_of_port {s t : State} (h : ∀ p, t.port p = s.port p) : t.memory = s.memory := by
  funext p; simp only [State.memory, h p]

/-- One port is updated without a change of what has been learned for it, and no other port is. -/
theorem memory_of_others {s t : State} {p : Port} (he : (t.port p).est = (s.port p).est)
    (hw : (t.port p).lastWake = (s.port p).lastWake) (others : ∀ q, q ≠ p → t.port q = s.port q) : t.memory = s.memory := by
  funext q
  by_cases hq : q = p
  · subst hq; simp only [State.memory, he, hw]
  · simp only [State.memory, others q hq]

@[simp] theorem State.modPort_memory (s : State) (p : Port) (f : PortRec → PortRec)
    (he : (f (s.port p)).est = (s.port p).est) (hw : (f (s.port p)).lastWake = (s.port p).lastWake) :
    (s.modPort p f).memory = s.memory :=
  memory_of_others (p := p) (by rw [State.modPort_port_same, he]) (by rw [State.modPort_port_same, hw])
    fun _ hq => State.modPort_port_ne _ _ hq

theorem Quiet.memory {s t : State} (h : Quiet s t) : t.memory = s.memory := memory_of_ports h.ports

theorem Heard.memory {s t : State} (h : Heard s t) : t.memory = s.memory := memory_of_ports h.ports

theorem foldl_memory {α : Type} {f : State → α → State} (h : ∀ s x, (f s x).memory = s.memory) (l : List α) (s : State) :
    (l.foldl f s).memory = s.memory := by
  induction l generalizing s with
  | nil => rfl
  | cons x l ih => rw [List.foldl_cons, ih, h]

/-! ### Updates of the other blocks -/

@[simp] theorem State.modGroup_memory (s : State) (g : Group) (f : GroupRec → GroupRec) :
    (s.modGroup g f).memory = s.memory := rfl

@[simp] theorem State.modArm_memory (s : State) (g : Group) (f : ArmRecord → ArmRecord) :
    (s.modArm g f).memory = s.memory := rfl

@[simp] theorem State.modSlot_memory (s : State) (g : Group) (f : Slot → Slot) : (s.modSlot g f).memory = s.memory := rfl

@[simp] theorem State.modUplink_memory (s : State) (f : Uplink → Uplink) : (s.modUplink f).memory = s.memory := rfl

@[simp] theorem State.modTbm_memory (s : State) (f : Tbm → Tbm) : (s.modTbm f).memory = s.memory := rfl

@[simp] theorem State.modAdm_memory (s : State) (f : Adm → Adm) : (s.modAdm f).memory = s.memory := rfl

@[simp] theorem State.modMga_memory (s : State) (f : Mga → Mga) : (s.modMga f).memory = s.memory := rfl

@[simp] theorem State.modEvu_memory (s : State) (f : Evu → Evu) : (s.modEvu f).memory = s.memory := rfl

@[simp] theorem State.modDevice_memory (s : State) (f : DeviceCounts → DeviceCounts) :
    (s.modDevice f).memory = s.memory := rfl

@[simp] theorem State.modCell_memory (s : State) (c : CellNo) (f : Cell → Cell) : (s.modCell c f).memory = s.memory := rfl

@[simp] theorem State.owe_memory (s : State) (w : Work) : (s.owe w).memory = s.memory := rfl

@[simp] theorem withFree_memory (s : State) (l : List CellNo) : ({ s with free := l } : State).memory = s.memory := rfl

@[simp] theorem withOwed_memory (s : State) (l : List Work) : ({ s with owed := l } : State).memory = s.memory := rfl

@[simp] theorem withPending_memory (s : State) (l : List Instr) : ({ s with pending := l } : State).memory = s.memory := rfl

/-! ### Counts, cells and queues -/

@[simp] theorem State.modCounts_memory (s : State) (p : Port) (f : Counts → Counts) :
    (s.modCounts p f).memory = s.memory := State.modPort_memory _ _ _ rfl rfl

@[simp] theorem countDrop_memory (p : Port) (c : DropCause) (s : State) : (countDrop p c s).memory = s.memory :=
  State.modCounts_memory _ _ _

@[simp] theorem countForwardedDown_memory (p : Port) (s : State) : (countForwardedDown p s).memory = s.memory :=
  State.modCounts_memory _ _ _

@[simp] theorem countUnknown_memory (s : State) : (countUnknown s).memory = s.memory := rfl

@[simp] theorem addRef_memory (c : CellNo) (s : State) : (addRef c s).memory = s.memory := rfl

@[simp] theorem storeCell_memory (c : CellNo) (bs : List Byte) (s : State) : (storeCell c bs s).memory = s.memory := rfl

@[simp] theorem dropRef_memory (c : CellNo) (s : State) : (dropRef c s).memory = s.memory :=
  memory_of_port (dropRef_port c s)

@[simp] theorem State.modEgress_memory (s : State) (e : EtherPort) (f : Egress → Egress) :
    (s.modEgress e f).memory = s.memory := by
  cases e with
  | camera p => exact State.modPort_memory _ _ _ rfl rfl
  | uplink => rfl

@[simp] theorem State.setReceiving_memory (s : State) (e : EtherPort) (r : Reception) :
    (s.setReceiving e r).memory = s.memory := by
  cases e with
  | camera p => exact State.modPort_memory _ _ _ rfl rfl
  | uplink => rfl

@[simp] theorem appendTx_memory (e : EtherPort) (x : TxEntry) (s : State) : (appendTx e x s).memory = s.memory := by
  rw [appendTx, addRef_memory, State.modEgress_memory]

@[simp] theorem originate_memory (e : EtherPort) (bs : List Byte) (s : State) :
    (originate e bs s).2.memory = s.memory := by
  unfold originate
  split
  · rfl
  · split
    · rfl
    · simp

@[simp] theorem restartIdle_memory (p : Port) (s : State) : (restartIdle p s).memory = s.memory := by
  unfold restartIdle
  exact State.modPort_memory _ _ _ (by split <;> rfl) (by split <;> rfl)

@[simp] theorem discardTx_memory (p : Port) (s : State) : (discardTx p s).memory = s.memory := by
  obtain ⟨port, others, -⟩ := discardTx_spec p s
  exact memory_of_others (by rw [port]) (by rw [port]) others

@[simp] theorem forwardDown_memory (p : Port) (x : TxEntry) (a : Bool) (s : State) :
    (forwardDown p x a s).memory = s.memory := by
  unfold forwardDown
  split
  · simp
  · dsimp only; split <;> simp

/-! ### Events and reads of table memory -/

@[simp] theorem judgeNotice_memory (s : State) : (judgeNotice s).memory = s.memory := (Quiet.judgeNotice s).memory

@[simp] theorem raise_memory (e : Event) (d : Detail) (s : State) : (raise e d s).memory = s.memory :=
  (Quiet.raise e d s).memory

@[simp] theorem setMasks_memory (m : PortSet) (s : State) : (setMasks m s).memory = s.memory := by
  unfold setMasks
  dsimp only
  split <;> simp

@[simp] theorem noteFinding_memory (t : TbmTable) (i : Nat) (f : Finding) (s : State) :
    (noteFinding t i f s).memory = s.memory := (Quiet.noteFinding t i f s).memory

@[simp] theorem readPortConfig_memory (p : Port) (s : State) : (readPortConfig p s).2.memory = s.memory :=
  (Quiet.readPortConfig p s).memory

@[simp] theorem readTemplate_memory (i : Fin 48) (s : State) : (readTemplate i s).2.memory = s.memory :=
  (Quiet.readTemplate i s).memory

@[simp] theorem readRule_memory (i : Fin 32) (s : State) : (readRule i s).2.memory = s.memory :=
  (Quiet.readRule i s).memory

@[simp] theorem readClassAction_memory (i : Fin 9) (s : State) : (readClassAction i s).2.memory = s.memory :=
  (Quiet.readClassAction i s).memory

@[simp] theorem readPresent_memory (p : Port) (k : TemplateKind) (s : State) :
    (readPresent p k s).2.memory = s.memory := (Quiet.readPresent p k s).memory

@[simp] theorem classify_memory (up : Bool) (sc : Option Port) (bs : List Byte) (s : State) :
    (classify up sc bs s).2.memory = s.memory := (Quiet.classify up sc bs s).memory

@[simp] theorem discardProxy_memory (i : Fin 64) (s : State) : (discardProxy i s).memory = s.memory := by
  simp [discardProxy]

@[simp] theorem readProxy_memory (i : Fin 64) (s : State) : (readProxy i s).2.memory = s.memory := by
  unfold readProxy
  split
  · dsimp only; split <;> simp
  · rfl

/-! ### Groups -/

@[simp] theorem endTrigger_memory (g : Group) (o : TriggerOutcome) (d m : PortSet) (s : State) :
    (endTrigger g o d m s).memory = s.memory := by rw [endTrigger, dropRef_memory, State.modSlot_memory]

@[simp] theorem dropTrigger_memory (g : Group) (o : TriggerOutcome) (s : State) :
    (dropTrigger g o s).memory = s.memory := endTrigger_memory _ _ _ _ _

@[simp] theorem refuseStrict_memory (g : Group) (s : State) : (refuseStrict g s).memory = s.memory :=
  (Heard.refuseStrict g s).memory

@[simp] theorem breakArm_memory (g : Group) (w : PortSet) (s : State) : (breakArm g w s).memory = s.memory :=
  (Heard.breakArm g w s).memory

@[simp] theorem removeSchedulesOf_memory (g : Group) (s : State) : (removeSchedulesOf g s).memory = s.memory := rfl

@[simp] theorem restartIdles_memory (ps : List Port) (s : State) :
    (ps.foldl (fun s p => restartIdle p s) s).memory = s.memory := foldl_memory (fun s p => restartIdle_memory p s) ps s

@[simp] theorem clearArm_memory (g : Group) (s : State) : (clearArm g s).memory = s.memory := by
  unfold clearArm
  split
  · simp
  · rfl

@[simp] theorem noteDeliverable_memory (p : Port) (s : State) : (noteDeliverable p s).memory = s.memory := by
  rw [noteDeliverable_eq]; rfl

/-! ### Moves of a port's state -/

@[simp] theorem changeState_memory (p : Port) (st : PortState) (s : State) : (changeState p st s).memory = s.memory := by
  obtain ⟨port, others, -⟩ := changeState_spec p st s
  exact memory_of_others (by rw [port]) (by rw [port]) others

@[simp] theorem feedOff_memory (p : Port) (s : State) : (feedOff p s).memory = s.memory :=
  State.modPort_memory _ _ _ rfl rfl

@[simp] theorem endOperation_memory (p : Port) (s : State) : (endOperation p s).memory = s.memory :=
  State.modPort_memory _ _ _ rfl rfl

@[simp] theorem stopProbing_memory (p : Port) (s : State) : (stopProbing p s).memory = s.memory :=
  State.modPort_memory _ _ _ rfl rfl

@[simp] theorem beginProbing_memory (p : Port) (s : State) : (beginProbing p s).memory = s.memory :=
  State.modPort_memory _ _ _ rfl rfl

@[simp] theorem clearProxies_memory (p : Port) (s : State) : (clearProxies p s).memory = s.memory :=
  State.modPort_memory _ _ _ rfl rfl

@[simp] theorem stopRelease_memory (p : Port) (s : State) : (stopRelease p s).memory = s.memory :=
  State.modPort_memory _ _ _ rfl rfl

@[simp] theorem removeWake_memory (p : Port) (s : State) : (removeWake p s).memory = s.memory := rfl

@[simp] theorem removeSchedule_memory (p : Port) (s : State) : (removeSchedule p s).memory = s.memory := rfl

@[simp] theorem enterFaulted_memory (p : Port) (code : FaultCode) (s : State) : (enterFaulted p code s).memory = s.memory := by
  by_cases h : (s.port p).state = .faulted
  · rw [enterFaulted_faulted h]
  · have spec := enterFaulted_spec (code := code) h
    exact memory_of_others (by rw [spec.port]; rfl) (by rw [spec.port]; rfl) spec.others

@[simp] theorem enterDisabled_memory (p : Port) (s : State) : (enterDisabled p s).memory = s.memory := by
  have spec := enterDisabled_spec p s
  exact memory_of_others (by rw [spec.port]; rfl) (by rw [spec.port]; rfl) spec.others

@[simp] theorem enterAsleep_memory (p : Port) (s : State) : (enterAsleep p s).memory = s.memory := by
  have spec := enterAsleep_spec p s
  exact memory_of_others (by rw [spec.port]; rfl) (by rw [spec.port]; rfl) spec.others

@[simp] theorem enterPaused_memory (p : Port) (s : State) : (enterPaused p s).memory = s.memory := by
  unfold enterPaused
  dsimp only
  split
  · simp
  · split
    · simp
    · split <;> simp

/-! ### Release -/

@[simp] theorem moveHeld_memory (p : Port) (h : HoldEntry) (rest : List HoldEntry) (s : State) :
    (moveHeld p h rest s).memory = s.memory :=
  memory_of_others (by rw [moveHeld_port]) (by rw [moveHeld_port]) (moveHeld_shape p h rest s).2

@[simp] theorem moveHeldUpTo_memory (n : Nat) (p : Port) (s : State) : (moveHeldUpTo n p s).memory = s.memory := by
  induction n generalizing s with
  | zero => rfl
  | succ n ih =>
    unfold moveHeldUpTo
    split
    · rfl
    · split
      · rfl
      · rw [ih, moveHeld_memory]

@[simp] theorem stepRelease_memory (p : Port) (s : State) : (stepRelease p s).memory = s.memory := by
  unfold stepRelease
  split
  · dsimp only; split <;> simp
  · rfl

@[simp] theorem startRelease_memory (p : Port) (s : State) : (startRelease p s).memory = s.memory := by
  unfold startRelease
  split <;> simp

end Sys2Proof.Machine
end

section
/-! SUPPORT. What has been learned for a port stays through the attempts of the wake engine, a pause, a probe, and all that ADM
and GRP do: they begin no READY state from a wake (R12, R47). -/

namespace Sys2Proof.Machine

/-! ### The wake engine -/

@[simp] theorem State.modOp_memory (s : State) (p : Port) (f : Operation → Operation) : (s.modOp p f).memory = s.memory :=
  State.modPort_memory _ _ _ rfl rfl

@[simp] theorem State.modProbe_memory (s : State) (p : Port) (f : ProbeRecord → ProbeRecord) :
    (s.modProbe p f).memory = s.memory := State.modPort_memory _ _ _ rfl rfl

@[simp] theorem sendTemplate_memory (p : Port) (t : Template) (q : Option (BitVec 16)) (s : State) :
    (sendTemplate p t q s).2.memory = s.memory := by
  have h := originate_memory (.camera p) (templateFrame t (s.port p).cfg.station s.mga.factory q) s
  unfold sendTemplate
  split <;> rename_i e <;> rw [e] at h
  · exact h
  · rw [countDrop_memory]; exact h
  · rw [countDrop_memory]; exact h

@[simp] theorem feedOn_memory (p : Port) (s : State) : (feedOn p s).memory = s.memory := by
  unfold feedOn
  dsimp only
  split <;> simp

@[simp] theorem startLine_memory (p : Port) (s : State) : (startLine p s).memory = s.memory :=
  State.modPort_memory _ _ _ rfl rfl

@[simp] theorem startPower_memory (p : Port) (s : State) : (startPower p s).memory = s.memory := by
  simp [startPower]

@[simp] theorem leaveFrame_memory (p : Port) (s : State) : (leaveFrame p s).memory = s.memory := by
  unfold leaveFrame
  split <;> simp

@[simp] theorem startFrame_memory (p : Port) (s : State) : (startFrame p s).memory = s.memory := by
  have h := readPresent_memory p .resume s
  unfold startFrame
  split <;> rename_i e <;> rw [e] at h
  · simpa using h
  · simpa using h

@[simp] theorem startAttempt_memory (p : Port) (s : State) : (startAttempt p s).memory = s.memory := by
  unfold startAttempt
  split <;> simp

@[simp] theorem startResume_memory (p : Port) (c : WakeClass) (s : State) : (startResume p c s).memory = s.memory := by
  simp [startResume]

@[simp] theorem startCold_memory (p : Port) (c : WakeClass) (s : State) : (startCold p c s).memory = s.memory := by
  simp [startCold]

@[simp] theorem enterSpacing_memory (p : Port) (s : State) : (enterSpacing p s).memory = s.memory := by
  unfold enterSpacing
  dsimp only
  split <;> simp

@[simp] theorem closeWindow_memory (p : Port) (s : State) : (closeWindow p s).memory = s.memory :=
  State.modPort_memory _ _ _ rfl rfl

@[simp] theorem escalate_memory (p : Port) (m : Method) (s : State) : (escalate p m s).memory = s.memory := by
  simp [escalate]

@[simp] theorem resumeAttemptFailed_memory (p : Port) (s : State) : (resumeAttemptFailed p s).memory = s.memory := by
  unfold resumeAttemptFailed
  dsimp only
  split
  · simp
  · split <;> simp

@[simp] theorem coldAttemptFailed_memory (p : Port) (s : State) : (coldAttemptFailed p s).memory = s.memory := by
  unfold coldAttemptFailed
  dsimp only
  split <;> simp

@[simp] theorem offHoldOver_memory (p : Port) (s : State) : (offHoldOver p s).memory = s.memory := by
  simp [offHoldOver]

@[simp] theorem pauseFailed_memory (p : Port) (s : State) : (pauseFailed p s).memory = s.memory := by
  simp [pauseFailed]

@[simp] theorem startPause_memory (p : Port) (t : Template) (s : State) : (startPause p t s).2.memory = s.memory := by
  simp [startPause]

@[simp] theorem enterPausing_memory (p : Port) (t : Template) (s : State) :
    (enterPausing p t s).2.memory = s.memory := by
  unfold enterPausing
  dsimp only
  rw [startPause_memory]
  split <;> simp

@[simp] theorem tryPause_memory (p : Port) (s : State) : (tryPause p s).2.memory = s.memory := by
  have h := readPresent_memory p .pause s
  unfold tryPause
  split <;> rename_i t e <;> rw [e] at h
  · exact h
  · have k := readPortConfig_memory p t
    split <;> rename_i u e <;> rw [e] at k
    · simpa using k.trans h
    · rename_i cfg
      have e := enterPausing_memory p ‹Template› (u.modPort p fun r => { r with cfg := cfg })
      have m : (u.modPort p fun r => { r with cfg := cfg }).memory = s.memory := by simpa using k.trans h
      split <;> rename_i x <;> rw [x] at e
      · exact e.trans m
      · exact e.trans m

@[simp] theorem probeLost_memory (p : Port) (s : State) : (probeLost p s).memory = s.memory := by simp [probeLost]

@[simp] theorem sendProbe_memory (p : Port) (s : State) : (sendProbe p s).memory = s.memory := by
  have h := readPresent_memory p .probe s
  unfold sendProbe
  split <;> rename_i e <;> rw [e] at h
  · simpa using h
  · simpa using h

@[simp] theorem probeIntervalOver_memory (p : Port) (s : State) : (probeIntervalOver p s).memory = s.memory := by
  unfold probeIntervalOver
  extract_lets _ missed t
  have h : t.memory = s.memory := by simp only [t]; split <;> simp
  split
  · rw [probeLost_memory, h]
  · rw [sendProbe_memory, h]

@[simp] theorem judgeProbeAnswer_memory (p : Port) (n : Option (BitVec 16)) (s : State) :
    (judgeProbeAnswer p n s).memory = s.memory := State.modProbe_memory _ _ _

/-! ### Admission (Chapter 3) -/

@[simp] theorem admitPort_memory (p : Port) (c : WakeClass) (s : State) : (admitPort p c s).memory = s.memory := by
  have h := readPortConfig_memory p (removeWake p s)
  unfold admitPort
  dsimp only
  split <;> rename_i e <;> rw [e] at h
  · simpa using h
  · split <;> simpa using h

theorem visit_memory (sc : Scan) (e : WakeEntry) : (visit sc e).state.memory = sc.state.memory := by
  unfold visit
  dsimp only
  split
  · rfl
  · split
    · simp
    · split <;> rfl

theorem visits_memory (l : List WakeEntry) (sc : Scan) : (l.foldl visit sc).state.memory = sc.state.memory := by
  induction l generalizing sc with
  | nil => rfl
  | cons e l ih => rw [List.foldl_cons, ih, visit_memory]

@[simp] theorem scan_memory (s : State) : (scan s).memory = s.memory :=
  visits_memory (scanOrder s) { state := s, closed := [], admitted := [] }

@[simp] theorem addEntry_memory (p : Port) (c : WakeClass) (s : State) : (addEntry p c s).memory = s.memory := rfl

@[simp] theorem createEntry_memory (p : Port) (c : WakeClass) (s : State) : (createEntry p c s).memory = s.memory := by
  unfold createEntry
  dsimp only
  split <;> simp

@[simp] theorem mergeNeed_memory (p : Port) (c : WakeClass) (s : State) : (mergeNeed p c s).memory = s.memory := by
  simp [mergeNeed]

@[simp] theorem takeNeed_memory (c : WakeClass) (p : Port) (s : State) : (takeNeed c p s).memory = s.memory := by
  unfold takeNeed
  split
  · split <;> simp
  · rfl

@[simp] theorem requestSchedule_memory (p : Port) (g : Group) (n : Nat) (s : State) :
    (requestSchedule p g n s).memory = s.memory := by
  unfold requestSchedule
  split
  · rfl
  · split <;> rfl
  · rfl

@[simp] theorem scheduleDue_memory (p : Port) (s : State) : (scheduleDue p s).memory = s.memory := by
  unfold scheduleDue
  dsimp only
  split <;> simp

@[simp] theorem applyLimit_memory (d : Domain) (n : Nat) (s : State) : (applyLimit d n s).memory = s.memory := by
  rw [applyLimit, scan_memory, foldl_memory]
  · rfl
  · intro s e; split <;> simp

@[simp] theorem applyPassLimit_memory (n : Nat) (s : State) : (applyPassLimit n s).memory = s.memory := rfl

/-! ### Triggers (Chapter 7) -/

@[simp] theorem groupPoisoned_memory (g : Group) (s : State) : (groupPoisoned g s).memory = s.memory := by
  unfold groupPoisoned
  dsimp only
  rw [clearArm_memory]
  split <;> simp

@[simp] theorem readGroup_memory (g : Group) (s : State) : (readGroup g s).2.memory = s.memory := by
  have h := (Quiet.readGroupEntry g s).memory
  unfold readGroup
  split <;> rename_i e <;> rw [e] at h
  · simpa using h
  · exact h

@[simp] theorem raiseIncomplete_memory (g : Group) (s : State) : (raiseIncomplete g s).memory = s.memory :=
  raise_memory _ _ _

@[simp] theorem deliverTo_memory (c : CellNo) (a : Bool) (m : PortSet) (s : State) :
    (deliverTo c a m s).2.memory = s.memory := foldl_memory (fun _ _ => forwardDown_memory _ _ _ _) _ _

@[simp] theorem deliverPending_memory (g : Group) (m : PortSet) (s : State) :
    (deliverPending g m s).memory = s.memory := by
  unfold deliverPending
  dsimp only
  split <;> simp

@[simp] theorem abandonTrigger_memory (g : Group) (s : State) : (abandonTrigger g s).memory = s.memory := by
  simp [abandonTrigger]

@[simp] theorem reevaluate_memory (g : Group) (s : State) : (reevaluate g s).memory = s.memory := by
  unfold reevaluate
  dsimp only
  split
  · rfl
  · split
    · simp
    · split
      · split
        · simp
        · split <;> simp
      · split <;> simp

@[simp] theorem windowOver_memory (g : Group) (s : State) : (windowOver g s).memory = s.memory := by
  unfold windowOver
  dsimp only
  split <;> simp

@[simp] theorem doWork_memory (w : Work) (s : State) : (doWork w s).memory = s.memory := by
  cases w with
  | need c p => exact takeNeed_memory c p s
  | scan => exact scan_memory s
  | reevaluate g => exact reevaluate_memory g s

theorem settleUpTo_memory (n : Nat) (s : State) : (settleUpTo n s).memory = s.memory := by
  induction n generalizing s with
  | zero => rfl
  | succ n ih =>
    unfold settleUpTo
    split
    · rfl
    · rw [ih, doWork_memory, withOwed_memory]

@[simp] theorem settle_memory (s : State) : (settle s).memory = s.memory := settleUpTo_memory _ _

@[simp] theorem rendezvousNeeds_memory (ps : List Port) (s : State) : (rendezvousNeeds ps s).memory = s.memory :=
  foldl_memory (fun s p => takeNeed_memory _ p s) ps s

@[simp] theorem makePending_memory (g : Group) (c : GroupConfig) (cell : CellNo) (a : Bool) (s : State) :
    (makePending g c cell a s).memory = s.memory := by
  unfold makePending
  dsimp only
  split <;> simp

@[simp] theorem deliverAtArrival_memory (g : Group) (c : GroupConfig) (cell : CellNo) (a : Bool) (s : State) :
    (deliverAtArrival g c cell a s).memory = s.memory := by
  simp [deliverAtArrival]

@[simp] theorem takeTrigger_memory (g : Group) (cell : CellNo) (a : Bool) (s : State) :
    (takeTrigger g cell a s).memory = s.memory := by
  have h := readGroup_memory g s
  unfold takeTrigger
  split <;> rename_i e <;> rw [e] at h
  · exact h
  · dsimp only
    split
    · exact h
    · split
      · simpa using h
      · split
        · simpa using h
        · split <;> simpa using h

@[simp] theorem armGroup_memory (g : Group) (c : GroupConfig) (s : State) : (armGroup g c s).memory = s.memory :=
  restartIdles_memory _ _

@[simp] theorem prepareMember_memory (g : Group) (lead : Nat) (s : State) (m : Port × Nat) :
    (prepareMember g lead s m).memory = s.memory := by
  unfold prepareMember
  split <;> simp

@[simp] theorem targetOver_memory (g : Group) (s : State) : (targetOver g s).memory = s.memory := by
  have h := readGroup_memory g s
  unfold targetOver
  split <;> rename_i e <;> rw [e] at h
  · exact h
  · dsimp only
    split <;> simpa using h

@[simp] theorem prepareGroup_memory (g : Group) (c : GroupConfig) (lead : Nat) (s : State) :
    (prepareGroup g c lead s).memory = s.memory := by
  have waits : ∀ (l : List (Port × Nat)) (s : State), (l.foldl (prepareMember g lead) s).memory = s.memory :=
    foldl_memory (prepareMember_memory g lead)
  unfold prepareGroup
  dsimp only
  split <;> simp [waits]

end Sys2Proof.Machine
end

section
/-! SUPPORT. What has been learned for a port stays through standby answers, classified frames, requests and transmissions,
lines, expiries, scrubbing and the tick (R12, R47). -/

namespace Sys2Proof.Machine

/-! ### Standby answers and downstream frames -/

@[simp] theorem readRecords_memory (p : Port) (l : List (Fin 4)) (s : State) :
    (readRecords p l s).2.memory = s.memory := by
  induction l generalizing s with
  | nil => rfl
  | cons i l ih => exact (ih _).trans (readProxy_memory _ _)

@[simp] theorem learnAnswer_memory (p : Port) (key : BitVec 16) (bs : List Byte) (o : Option Nat) (s : State) :
    (learnAnswer p key bs o s).memory = s.memory := by
  unfold learnAnswer writeProxy
  dsimp only
  have h := readRecords_memory p recordIndices s
  generalize readRecords p recordIndices s = x at h ⊢
  rw [State.modPort_memory, State.modTbm_memory, h] <;> rfl

@[simp] theorem considerLearning_memory (p : Port) (st : PortState) (bs : List Byte) (k o : Option Nat) (s : State) :
    (considerLearning p st bs k o s).memory = s.memory := by
  unfold considerLearning
  split
  · split
    · rfl
    · split <;> simp
  · rfl

@[simp] theorem lookUpPoll_memory (p : Port) (bs : List Byte) (k : Option Nat) (s : State) :
    (lookUpPoll p bs k s).2.memory = s.memory := by
  unfold lookUpPoll
  split
  · rfl
  · dsimp only
    split <;> simp

@[simp] theorem answerPoll_memory (p : Port) (e : ProxyEntry) (bs : List Byte) (o : Option Nat) (s : State) :
    (answerPoll p e bs o s).memory = s.memory := by
  have h := originate_memory .uplink (answerFrame e (s.port p).cfg.station bs o) s
  unfold answerPoll
  split <;> rename_i x <;> rw [x] at h
  · rw [State.modCounts_memory]; exact h
  · rw [State.modCounts_memory]; exact h

@[simp] theorem holdFrame_memory (p : Port) (c : CellNo) (n : Nat) (k : Classified) (s : State) :
    (holdFrame p c n k s).2.memory = s.memory := by
  unfold holdFrame
  split
  · dsimp only; split <;> simp
  · simp

@[simp] theorem holdAndNeed_memory (p : Port) (c : CellNo) (n : Nat) (k : Classified) (s : State) :
    (holdAndNeed p c n k s).memory = s.memory := by
  have h := holdFrame_memory p c n k s
  unfold holdAndNeed
  split <;> rename_i e <;> rw [e] at h
  · rw [takeNeed_memory]; exact h
  · exact h

@[simp] theorem holdOrPark_memory (p : Port) (c : CellNo) (n : Nat) (k : Classified) (s : State) :
    (holdOrPark p c n k s).memory = s.memory := by
  unfold holdOrPark
  split <;> simp

@[simp] theorem deliverToPort_memory (p : Port) (c : CellNo) (bs : List Byte) (k : Classified) (s : State) :
    (deliverToPort p c bs k s).memory = s.memory := by
  have h := lookUpPoll_memory p bs k.keyOffset s
  unfold deliverToPort
  dsimp only
  split <;> try simp only [countUnknown_memory, countDrop_memory, holdFrame_memory, holdAndNeed_memory, holdOrPark_memory]
  · split <;> simp
  · split <;> rename_i e <;> rw [e] at h
    · rw [answerPoll_memory]; exact h
    · rw [holdOrPark_memory]; exact h

@[simp] theorem noCellToPort_memory (p : Port) (k : Classified) (s : State) : (noCellToPort p k s).memory = s.memory := by
  unfold noCellToPort
  dsimp only
  repeat' split
  all_goals simp

@[simp] theorem copyTo_memory (ps : List Port) (c : CellNo) (n : Nat) (a : Bool) (s : State) :
    (copyTo ps c n a s).memory = s.memory := foldl_memory (fun _ _ => forwardDown_memory _ _ _ _) ps s

@[simp] theorem countDrops_memory (ps : List Port) (c : DropCause) (s : State) : (countDrops ps c s).memory = s.memory :=
  foldl_memory (fun s p => countDrop_memory p c s) ps s

@[simp] theorem flood_memory (c : Option CellNo) (bs : List Byte) (s : State) : (flood c bs s).memory = s.memory := by
  unfold flood
  dsimp only
  cases c with
  | some c => simp
  | none => dsimp only; split <;> simp

@[simp] theorem deliverToGroup_memory (g : Group) (c : Option CellNo) (bs : List Byte) (s : State) :
    (deliverToGroup g c bs s).memory = s.memory := by
  unfold deliverToGroup
  dsimp only
  have h := readGroup_memory g (classify false none bs s).2
  rw [classify_memory] at h
  cases c with
  | some c =>
    dsimp only
    split
    · simp
    · split <;> rename_i e <;> rw [e] at h
      · exact h
      · split
        · simpa using h
        · exact h
  | none =>
    dsimp only
    repeat' split
    all_goals simp

@[simp] theorem unknownUnicast_memory (a : Addr) (s : State) : (unknownUnicast a s).memory = s.memory := by
  unfold unknownUnicast
  split <;> simp

@[simp] theorem resolveDown_memory (c : Option CellNo) (bs : List Byte) (s : State) :
    (resolveDown c bs s).memory = s.memory := by
  unfold resolveDown
  dsimp only
  split
  · simp
  · split
    · split
      · simp
      · cases c <;> simp
    · split <;> simp

@[simp] theorem takeRequest_memory (bs : List Byte) (s : State) : (takeRequest bs s).memory = s.memory := by
  unfold takeRequest
  dsimp only
  repeat' split
  all_goals simp

@[simp] theorem dispatchDown_memory (c : Option CellNo) (bs : List Byte) (s : State) :
    (dispatchDown c bs s).memory = s.memory := by
  unfold dispatchDown
  dsimp only
  repeat' split
  all_goals simp

@[simp] theorem forwardUp_memory (p : Port) (c : CellNo) (n : Nat) (s : State) : (forwardUp p c n s).memory = s.memory := by
  unfold forwardUp
  repeat' split
  all_goals simp

/-! ### Receptions and transmissions -/

@[simp] theorem startReception_memory (e : EtherPort) (s : State) : (startReception e s).memory = s.memory := by
  unfold startReception
  split <;> simp

@[simp] theorem startTransmission_memory (e : EtherPort) (s : State) : (startTransmission e s).memory = s.memory := by
  unfold startTransmission
  split
  · rfl
  · split <;> simp

@[simp] theorem noteResponseSent_memory (c : CellNo) (s : State) : (noteResponseSent c s).memory = s.memory := rfl

@[simp] theorem endTransmission_memory (e : EtherPort) (s : State) : (endTransmission e s).memory = s.memory := by
  unfold endTransmission
  split
  · dsimp only; split <;> simp
  · rfl

/-! ### Requests -/

@[simp] theorem respond_memory (r : Request) (st : Status) (pl : List Byte) (s : State) :
    (respond r st pl s).2.memory = s.memory := by
  have h := originate_memory .uplink (responseFrame r st pl s.mga.factory) s
  unfold respond
  split <;> rename_i e <;> rw [e] at h
  · exact h
  · exact h

@[simp] theorem finishRequest_memory (r : Request) (rest : List Request) (st : Status) (pl : List Byte) (s : State) :
    (finishRequest r rest st pl s).memory = s.memory := by
  rw [finishRequest, State.modMga_memory, respond_memory]

@[simp] theorem readPortConfigWithEffect_memory (p : Port) (s : State) :
    (readPortConfigWithEffect p s).2.memory = s.memory := by
  have h := readPortConfig_memory p s
  unfold readPortConfigWithEffect portConfigPoisoned
  split <;> rename_i e <;> rw [e] at h
  · dsimp only
    split <;> simpa using h
  · exact h

@[simp] theorem performReadEntry_memory (r : Request) (s : State) : (performReadEntry r s).2.2.memory = s.memory := by
  unfold performReadEntry
  split <;> try simp [answerRead_state, answer]
  unfold readProxyEntry
  dsimp only
  split <;> simp [answerRead_state]

@[simp] theorem reloadProbing_memory (p : Port) (s : State) : (reloadProbing p s).memory = s.memory := by
  unfold reloadProbing
  split <;> simp

@[simp] theorem portConfigFieldEffect_memory (p : Port) (s : State) (n : Nat) :
    (portConfigFieldEffect p s n).memory = s.memory := by
  unfold portConfigFieldEffect
  dsimp only
  repeat' split
  all_goals simp

@[simp] theorem writeTemplateEntry_memory (i : Fin 48) (t : Template) (s : State) :
    (writeTemplateEntry i t s).2.memory = s.memory := by
  unfold writeTemplateEntry
  split
  · rfl
  · dsimp only; split <;> simp [writeTemplate]

@[simp] theorem writeRuleEntry_memory (i : Fin 32) (r : Rule) (s : State) : (writeRuleEntry i r s).2.memory = s.memory := by
  unfold writeRuleEntry
  split <;> rfl

@[simp] theorem writeClassActionEntry_memory (i : Fin 9) (a : ClassAction) (s : State) :
    (writeClassActionEntry i a s).2.memory = s.memory := by
  unfold writeClassActionEntry
  split <;> rfl

@[simp] theorem rewriteMembers_memory (g : Group) (m : PortSet) (s : State) :
    (rewriteMembers g m s).memory = s.memory := by
  unfold rewriteMembers
  split <;> simp

@[simp] theorem writeGroupFields_memory (g : Group) (w : List Nat) (c : GroupConfig) (s : State) :
    (writeGroupFields g w c s).2.memory = s.memory := by
  unfold writeGroupFields
  split
  · rfl
  · split
    · rfl
    · split
      · rfl
      · dsimp only
        split <;> split <;> simp [writeGroup]

@[simp] theorem writeLimit_memory (d : Domain) (n : Nat) (s : State) : (writeLimit d n s).2.memory = s.memory := by
  unfold writeLimit
  repeat' split
  all_goals simp

theorem setDeviceField_memory (s : State) (n v : Nat) : (setDeviceField s n v).memory = s.memory := by
  unfold setDeviceField
  split <;> simp

@[simp] theorem writeDevice_memory (f : List (Nat × Nat)) (s : State) : (writeDevice f s).2.memory = s.memory := by
  unfold writeDevice
  split
  · rfl
  · exact foldl_memory (fun s x => setDeviceField_memory s x.1 x.2) f s

theorem patchRead_memory {α : Type} (write : α → State → Status × State) (x : Option α × State) {s : State}
    (h : x.2.memory = s.memory) (hw : ∀ e t, (write e t).2.memory = t.memory) :
    (patchRead write x).2.2.memory = s.memory := by
  obtain ⟨o, t⟩ := x
  cases o with
  | none => exact h
  | some e => exact (hw e t).trans h

/-! ### Port and group commands -/

@[simp] theorem takeConfig_memory (p : Port) (c : PortConfig) (s : State) : (takeConfig p c s).memory = s.memory :=
  State.modPort_memory _ _ _ rfl rfl

@[simp] theorem enablePort_memory (p : Port) (s : State) : (enablePort p s).2.memory = s.memory := by
  have h := readPortConfig_memory p s
  unfold enablePort
  split
  · rfl
  · split <;> rename_i e <;> rw [e] at h
    · exact h
    · split
      · exact h
      · simpa using h

@[simp] theorem disablePort_memory (p : Port) (s : State) : (disablePort p s).2.memory = s.memory := by
  unfold disablePort
  split <;> simp

@[simp] theorem unreach_memory (p : Port) (s : State) (g : Group) : (unreach p s g).memory = s.memory := by
  rw [unreach_rest]; rfl

@[simp] theorem parkPort_memory (p : Port) (s : State) : (parkPort p s).2.memory = s.memory := by
  cases h : (s.port p).pin
  · obtain ⟨u, hu, rest, -⟩ := parkPort_unpinned h
    have ports : u.ports = (s.modPort p fun x => { x with park := true }).ports := by rw [rest]
    rw [hu]
    exact (memory_of_ports ports).trans (State.modPort_memory _ _ _ rfl rfl)
  · rw [parkPort_pinned h]

@[simp] theorem unparkPort_memory (p : Port) (s : State) : (unparkPort p s).2.memory = s.memory := by
  unfold unparkPort
  split
  · dsimp only; split <;> simp
  · rfl

@[simp] theorem pinPort_memory (p : Port) (s : State) : (pinPort p s).2.memory = s.memory := by
  unfold pinPort
  dsimp only
  repeat' split
  all_goals simp

@[simp] theorem unpinPort_memory (p : Port) (s : State) : (unpinPort p s).2.memory = s.memory := by
  rw [unpinPort_eq]
  exact State.modPort_memory _ _ _ rfl rfl

@[simp] theorem wakePort_memory (p : Port) (s : State) : (wakePort p s).2.memory = s.memory := by
  unfold wakePort
  dsimp only
  repeat' split
  all_goals simp

@[simp] theorem afterWake_memory (p : Port) (s t : State) : (afterWake p s t).memory = t.memory := by
  unfold afterWake
  split <;> simp

@[simp] theorem pausePort_memory (p : Port) (s : State) : (pausePort p s).2.memory = s.memory := by
  have h := tryPause_memory p s
  unfold pausePort
  split
  · rfl
  · split <;> rename_i e <;> rw [e] at h <;> exact h

@[simp] theorem afterPause_memory (p : Port) (s t : State) : (afterPause p s t).memory = t.memory := by
  unfold afterPause
  split <;> simp

@[simp] theorem sleepPort_memory (p : Port) (s : State) : (sleepPort p s).2.memory = s.memory := by
  unfold sleepPort
  dsimp only
  split <;> simp

@[simp] theorem clearPort_memory (p : Port) (s : State) : (clearPort p s).2.memory = s.memory := by
  have h := readPortConfig_memory p s
  unfold clearPort
  split
  · rfl
  · split <;> rename_i e <;> rw [e] at h
    · exact h
    · simpa using h

theorem checkedArm_memory (g : Group) (take : GroupConfig → State → State) (s : State)
    (ht : ∀ c s, (take c s).memory = s.memory) : (checkedArm g take s).2.2.memory = s.memory := by
  have h := readGroup_memory g s
  unfold checkedArm
  split <;> rename_i e <;> rw [e] at h
  · exact h
  · split
    · exact h
    · exact (ht _ _).trans h

@[simp] theorem performArm_memory (g : Group) (s : State) : (performArm g s).2.2.memory = s.memory :=
  checkedArm_memory g _ s fun _ _ => by simp [armAndWake]

@[simp] theorem performPrepare_memory (g : Group) (lead : Nat) (s : State) :
    (performPrepare g lead s).2.2.memory = s.memory := by
  unfold performPrepare
  split
  · rfl
  · exact checkedArm_memory g _ s fun c s => prepareGroup_memory g c lead s

@[simp] theorem performCancel_memory (g : Group) (s : State) : (performCancel g s).2.2.memory = s.memory := by
  unfold performCancel
  split <;> simp [answer]

@[simp] theorem performReadCounters_memory (r : Request) (s : State) :
    (performReadCounters r s).2.2.memory = s.memory := by
  unfold performReadCounters
  split <;> simp

@[simp] theorem performRestart_memory (s : State) : (performRestart s).memory = s.memory := by
  unfold performRestart
  split
  · split
    · rfl
    · split
      · split <;> simp
      · rfl
  · rfl

/-! ### Lines, expiries, scrubbing and the tick -/

@[simp] theorem linkDown_memory (p : Port) (s : State) : (linkDown p s).memory = s.memory :=
  State.modPort_memory _ _ _ rfl rfl

@[simp] theorem linkUp_memory (p : Port) (s : State) : (linkUp p s).memory = s.memory := by
  unfold linkUp
  split <;> simp

@[simp] theorem uplinkOver_memory (s : State) : (uplinkOver s).memory = s.memory := by simp [uplinkOver]

@[simp] theorem senseRise_memory (p : Port) (s : State) : (senseRise p s).memory = s.memory :=
  State.modPort_memory _ _ _ rfl rfl

@[simp] theorem senseFall_memory (p : Port) (s : State) : (senseFall p s).memory = s.memory :=
  State.modPort_memory _ _ _ rfl rfl

@[simp] theorem sampleFeedFault_memory (p : Port) (level : Bool) (s : State) :
    (sampleFeedFault p level s).memory = s.memory := by
  unfold sampleFeedFault
  dsimp only
  split <;> simp

@[simp] theorem senseEdge_memory (p : Port) (s : State) : (senseEdge p s).memory = s.memory := by
  unfold senseEdge
  dsimp only
  split <;> simp

@[simp] theorem idleOver_memory (p : Port) (s : State) : (idleOver p s).memory = s.memory := by
  have h := tryPause_memory p s
  unfold idleOver
  split <;> rename_i e <;> rw [e] at h
  · simpa using h
  · exact h
  · exact h
  · simpa using h

@[simp] theorem confirmOver_memory (p : Port) (s : State) : (confirmOver p s).memory = s.memory := by
  unfold confirmOver
  dsimp only
  split <;> simp

@[simp] theorem visitEntry_memory (e : ScrubEntry) (s : State) : (visitEntry e s).memory = s.memory := by
  cases e <;> simp [visitEntry]

@[simp] theorem visitNext_memory (s : State) : (visitNext s).memory = s.memory := by
  unfold visitNext
  split
  · rfl
  · dsimp only; split <;> simp

theorem abandonReception_memory (e : EtherPort) (s : State) : (abandonReception e s).memory = s.memory := by
  unfold abandonReception
  dsimp only
  split <;> simp

theorem haltPort_memory (p : Port) (s : State) : (haltPort p s).memory = s.memory := by
  simp [haltPort, abandonReception_memory]

theorem haltGroup_memory (g : Group) (s : State) : (haltGroup g s).memory = s.memory := by
  unfold haltGroup
  dsimp only
  split <;> simp

@[simp] theorem haltAll_memory (s : State) : (haltAll s).memory = s.memory := by
  have ports (s : State) : (allPorts.foldl (fun s p => haltPort p s) s).memory = s.memory :=
    foldl_memory (fun s p => haltPort_memory p s) _ _
  have groups (s : State) : (allGroups.foldl (fun s g => haltGroup g s) s).memory = s.memory :=
    foldl_memory (fun s g => haltGroup_memory g s) _ _
  unfold haltAll
  generalize h : allGroups.foldl (fun s g => haltGroup g s) (allPorts.foldl (fun s p => haltPort p s) s) = t
  have halted : t.memory = s.memory := by rw [← h, groups, ports]
  exact (abandonReception_memory .uplink t).trans halted

@[simp] theorem softRestart_memory (s : State) : (softRestart s).memory = s.memory := by
  funext p; simp only [State.memory, softRestart_port]; rfl

@[simp] theorem endInitialisation_memory (s : State) : (endInitialisation s).memory = s.memory := rfl

@[simp] theorem tick_memory (s : State) : (tick s).memory = s.memory := by
  funext p
  simp only [State.memory, tick_port, tickPort]

@[simp] theorem passTime_memory (s : State) : (passTime s).memory = s.memory := by
  unfold passTime
  split
  · split
    · dsimp only
      rw [withPending_memory, tick_memory]
    · rw [withPending_memory]
  · rfl

end Sys2Proof.Machine
end

section
/-! SUPPORT. What changes what has been learned for a port, readiness evidence and a write of its configuration, keeps it in
range (R36, R46, R47, R48): O10. -/

namespace Sys2Proof.Machine

/-- What has been learned for each port stays in range from s to t. -/
def KeepsLearned (s t : State) : Prop := ∀ p, (s.port p).Learned → (t.port p).Learned

theorem KeepsLearned.refl (s : State) : KeepsLearned s s := fun _ h => h

theorem KeepsLearned.trans {s t u : State} (h : KeepsLearned s t) (k : KeepsLearned t u) : KeepsLearned s u :=
  fun p l => k p (h p l)

theorem PortRec.Learned.of_eq {r r' : PortRec} (h : r.Learned) (he : r'.est = r.est) (hw : r'.lastWake = r.lastWake) :
    r'.Learned := by
  constructor
  · rw [he]; exact h.resume
  · rw [he]; exact h.cold
  · rw [he]; exact h.resumeSamples
  · rw [he]; exact h.coldSamples
  · rw [hw]; exact h.measured

theorem KeepsLearned.of_memory {s t : State} (h : t.memory = s.memory) : KeepsLearned s t := fun p l =>
  have e := Prod.ext_iff.mp (congrFun h p)
  l.of_eq e.1 e.2

theorem KeepsLearned.modPort {s : State} {p : Port} {f : PortRec → PortRec}
    (h : (s.port p).Learned → (f (s.port p)).Learned) : KeepsLearned s (s.modPort p f) := fun q l => by
  by_cases hq : q = p
  · subst hq; rw [State.modPort_port_same]; exact h l
  · rw [State.modPort_port_ne _ _ hq]; exact l

/-! ### Readiness evidence -/

theorem sampleOf_range (op : Operation) : 1 ≤ sampleOf op ∧ sampleOf op ≤ 65535 := by
  simp only [sampleOf, Config.timeMaxMs]; omega

theorem bumpSamples_le (n : Nat) : bumpSamples n ≤ 255 := min_le_right _ _

/-- The estimates that learning a sample in range leaves are in range (R46, R47). -/
theorem PortRec.Learned.applySample {r : PortRec} (h : r.Learned) (k : Nat) (m : Method) {sample : Nat}
    (hs : 1 ≤ sample ∧ sample ≤ 65535) : ({ r with est := (applySample k m sample r.est).1 } : PortRec).Learned := by
  by_cases hm : m = .power
  · subst hm
    rw [applySample_power]
    exact ⟨h.resume, fun v hv => Option.mem_some.1 hv ▸ learn_range k _ hs, h.resumeSamples, bumpSamples_le _, h.measured⟩
  · rw [applySample_resume hm]
    exact ⟨fun v hv => Option.mem_some.1 hv ▸ learn_range k _ hs, h.cold, bumpSamples_le _, h.coldSamples, h.measured⟩

theorem enterReady_keepsLearned (p : Port) (w : LastWake) (s : State) (hw : 1 ≤ w.time ∧ w.time ≤ 65535) :
    KeepsLearned s (enterReady p w s) := by
  have recorded : KeepsLearned (changeState p .ready s)
      ((changeState p .ready s).modPort p fun r => { r with idle := 0, link := 0, lastWake := some w }) :=
    .modPort fun l => ⟨l.resume, l.cold, l.resumeSamples, l.coldSamples, fun v hv => Option.mem_some.1 hv ▸ hw⟩
  exact ((KeepsLearned.of_memory (changeState_memory p .ready s)).trans recorded).trans
    (.of_memory ((startRelease_memory p _).trans (removeWake_memory p _)))

theorem acceptEvidence_keepsLearned (p : Port) (s : State) : KeepsLearned s (acceptEvidence p s) := by
  unfold acceptEvidence
  dsimp only
  split
  · exact .refl s
  · rename_i m _
    have ended : ((endOperation p s).port p).est = (s.port p).est := congrArg Prod.fst (congrFun (endOperation_memory p s) p)
    refine (KeepsLearned.of_memory (endOperation_memory p s)).trans
      (.trans (.modPort fun l => ?_) (enterReady_keepsLearned p _ _ (sampleOf_range _)))
    rw [← ended]
    exact l.applySample s.mga.learnShift m (sampleOf_range (s.port p).op)

theorem cameraShows_keepsLearned (p : Port) (bytes : List Byte) (k : Classified) (s : State) :
    KeepsLearned s (cameraShows p bytes k s) := by
  have evidence (c : Bool) : KeepsLearned s (if c then acceptEvidence p s else s) := by
    split
    · exact acceptEvidence_keepsLearned p s
    · exact .refl s
  unfold cameraShows
  dsimp only
  split
  · exact evidence _
  · exact evidence _
  · refine .of_memory ?_
    split
    · split <;> split <;> simp
    · rfl
  · refine .of_memory ?_
    split
    · simp
    · split <;> simp
  · exact .refl s

theorem upstream_keepsLearned (p : Port) (c : Option CellNo) (bytes : List Byte) (s : State) :
    KeepsLearned s (upstream p c bytes s) := by
  unfold upstream
  split
  · exact .of_memory (by simp)
  · split
    · exact .of_memory (by simp)
    · exact .of_memory (by simp)
    · have classified := classify_memory true (some p) bytes s
      generalize classify true (some p) bytes s = x at classified
      obtain ⟨k, t⟩ := x
      dsimp only
      split
      · exact .of_memory ((countDrop_memory p _ t).trans classified)
      · refine ((KeepsLearned.of_memory classified).trans (cameraShows_keepsLearned p bytes k t)).trans (.of_memory ?_)
        generalize cameraShows p bytes k t = u
        split <;> split <;> split <;> simp

/-! ### Receptions -/

theorem endReception_keepsLearned (e : EtherPort) (bytes : List Byte) (good : Bool) (drop : State → State)
    (take : Option CellNo → State → State) (s : State) (hd : ∀ t, KeepsLearned t (drop t))
    (ht : ∀ c t, KeepsLearned t (take c t)) : KeepsLearned s (endReception e bytes good drop take s) := by
  have judged (b : Bool) (c : Option CellNo) (t : State) : KeepsLearned t (if b then take c t else drop t) := by
    split
    · exact ht c t
    · exact hd t
  unfold endReception
  split
  · exact .refl s
  · exact (KeepsLearned.of_memory (by simp)).trans (judged _ none _)
  · dsimp only
    exact ((KeepsLearned.of_memory (by simp)).trans (judged _ _ _)).trans (.of_memory (dropRef_memory _ _))

theorem receiveUplink_keepsLearned (bytes : List Byte) (good : Bool) (s : State) :
    KeepsLearned s (receiveUplink bytes good s) :=
  endReception_keepsLearned _ _ _ _ _ s (fun _ => .of_memory (by simp)) fun _ _ => .of_memory (dispatchDown_memory _ _ _)

theorem receiveCamera_keepsLearned (p : Port) (bytes : List Byte) (good : Bool) (s : State) :
    KeepsLearned s (receiveCamera p bytes good s) :=
  endReception_keepsLearned _ _ _ _ _ s (fun t => .of_memory (countDrop_memory p _ t)) fun c t =>
    upstream_keepsLearned p c bytes t

/-! ### Writes of a port's configuration -/

theorem PortRec.Learned.invalid {r : PortRec} (h : r.Learned) : ({ r with est := Estimates.invalid } : PortRec).Learned where
  resume := by simp [Estimates.invalid]
  cold := by simp [Estimates.invalid]
  resumeSamples := by simp [Estimates.invalid]
  coldSamples := by simp [Estimates.invalid]
  measured := h.measured

theorem writePortFields_keepsLearned (p : Port) (w : List Nat) (c : PortConfig) (s : State) :
    KeepsLearned s (writePortFields p w c s).2 := by
  unfold writePortFields
  split
  · exact .refl s
  · split
    · exact .refl s
    · dsimp only
      have stored : KeepsLearned s (writePortConfig p c.clamped s) := .of_memory rfl
      refine (stored.trans (.modPort fun l => ?_)).trans (.of_memory (foldl_memory (portConfigFieldEffect_memory p) w _))
      split
      · exact l.invalid.of_eq rfl rfl
      · exact l.of_eq rfl rfl

theorem performWriteEntry_keepsLearned (r : Request) (s : State) : KeepsLearned s (performWriteEntry r s).2.2 := by
  unfold performWriteEntry
  dsimp only
  split
  · exact writePortFields_keepsLearned _ _ _ s
  all_goals exact .of_memory (by simp [answered, answer])

theorem performPatchField_keepsLearned (r : Request) (s : State) : KeepsLearned s (performPatchField r s).2.2 := by
  unfold performPatchField
  dsimp only
  split
  · have h := readPortConfigWithEffect_memory r.port s
    generalize readPortConfigWithEffect r.port s = x at h
    obtain ⟨_ | c, t⟩ := x
    · exact .of_memory h
    · exact (KeepsLearned.of_memory h).trans (writePortFields_keepsLearned _ _ _ t)
  · exact .of_memory (patchRead_memory _ _ (readTemplate_memory _ s) fun _ _ => writeTemplateEntry_memory _ _ _)
  · exact .of_memory (patchRead_memory _ _ (readRule_memory _ s) fun _ _ => writeRuleEntry_memory _ _ _)
  · exact .of_memory (patchRead_memory _ _ (readClassAction_memory _ s) fun _ _ => writeClassActionEntry_memory _ _ _)
  · exact .of_memory (patchRead_memory _ _ (readGroup_memory _ s) fun _ _ => writeGroupFields_memory _ _ _ _)
  all_goals exact .of_memory (by simp [answered, answer])

/-! ### The walk over the commands -/

theorem whileRunning_keepsLearned {f : State → State} {s : State} (h : KeepsLearned s (f s)) :
    KeepsLearned s (whileRunning f s) := by
  unfold whileRunning
  split
  · exact h.trans (.of_memory (settle_memory _))
  · exact .refl s

theorem whenDue_keepsLearned (due : State → Bool) {f : State → State} {s : State} (h : (f s).memory = s.memory) :
    KeepsLearned s (whileRunning (whenDue due f) s) := by
  refine whileRunning_keepsLearned ?_
  unfold whenDue
  split
  · exact .of_memory h
  · exact .refl s

theorem performHead_keepsLearned (row : Row) {effect : Request → State → Performed} {s : State}
    (h : ∀ r, KeepsLearned s (effect r s).2.2) : KeepsLearned s (performHead row effect s) := by
  unfold performHead
  split
  · split
    · exact .refl s
    · rename_i r rest _
      split
      · have made : KeepsLearned s (performed effect r s).2.2 := by
          unfold performed
          split
          · exact .refl s
          · exact h r
        exact made.trans (.of_memory ((finishRequest_memory r rest _ _ _).trans (settle_memory _)))
      · exact .refl s
  · exact .refl s

theorem performHeadThen_keepsLearned (row : Row) {effect : Request → State → Performed}
    {later : Request → State → State → State} {s : State} (h : ∀ r, KeepsLearned s (effect r s).2.2)
    (k : ∀ r t, (later r s t).memory = t.memory) : KeepsLearned s (performHeadThen row effect later s) := by
  unfold performHeadThen
  dsimp only
  split
  · exact (performHead_keepsLearned row h).trans (.of_memory (k _ _))
  · exact performHead_keepsLearned row h

theorem performPort_keepsLearned (c : PortCommand) {effect : Port → State → Status × State}
    (h : ∀ p s, (effect p s).2.memory = s.memory) (s : State) : KeepsLearned s (performPort c effect s) :=
  performHead_keepsLearned _ fun r => .of_memory (h r.port s)

theorem performPortThen_keepsLearned (c : PortCommand) {effect : Port → State → Status × State}
    {later : Port → State → State → State} (h : ∀ p s, (effect p s).2.memory = s.memory)
    (k : ∀ p s t, (later p s t).memory = t.memory) (s : State) : KeepsLearned s (performPortThen c effect later s) :=
  performHeadThen_keepsLearned _ (fun r => .of_memory (h r.port s)) fun r => k r.port s

theorem releaseReset_keepsLearned (s : State) : KeepsLearned s (releaseReset s) := fun p _ => by
  have h : (releaseReset s).port p = freshPort (s.port p) := Vector.getElem_map ..
  rw [h]
  exact (reset_learned p).of_eq (by rw [State.reset_port]; rfl) (by rw [State.reset_port]; rfl)

theorem exec_keepsLearned (i : Instr) (s : State) : ∃ t, exec i s = .next t ∧ KeepsLearned s t := by
  cases i with
  | receptionStart e =>
    exact ⟨_, exec_receptionStart e s, whileRunning_keepsLearned (.of_memory (startReception_memory e s))⟩
  | uplinkFrameReceived bytes good =>
    exact ⟨_, exec_uplinkFrameReceived bytes good s, whileRunning_keepsLearned (receiveUplink_keepsLearned bytes good s)⟩
  | cameraFrameReceived p bytes good =>
    exact ⟨_, exec_cameraFrameReceived p bytes good s, whileRunning_keepsLearned (receiveCamera_keepsLearned p bytes good s)⟩
  | identify => exact ⟨_, exec_identify s, performHead_keepsLearned _ fun _ => .refl s⟩
  | readEntry => exact ⟨_, exec_readEntry s, performHead_keepsLearned _ fun r => .of_memory (performReadEntry_memory r s)⟩
  | writeEntry => exact ⟨_, exec_writeEntry s, performHead_keepsLearned _ fun r => performWriteEntry_keepsLearned r s⟩
  | patchField => exact ⟨_, exec_patchField s, performHead_keepsLearned _ fun r => performPatchField_keepsLearned r s⟩
  | enable => exact ⟨_, exec_enable s, performPort_keepsLearned _ enablePort_memory s⟩
  | disable => exact ⟨_, exec_disable s, performPort_keepsLearned _ disablePort_memory s⟩
  | park => exact ⟨_, exec_park s, performPort_keepsLearned _ parkPort_memory s⟩
  | unpark => exact ⟨_, exec_unpark s, performPort_keepsLearned _ unparkPort_memory s⟩
  | pin => exact ⟨_, exec_pin s, performPort_keepsLearned _ pinPort_memory s⟩
  | unpin => exact ⟨_, exec_unpin s, performPort_keepsLearned _ unpinPort_memory s⟩
  | wake => exact ⟨_, exec_wake s, performPortThen_keepsLearned _ wakePort_memory afterWake_memory s⟩
  | pause => exact ⟨_, exec_pause s, performPortThen_keepsLearned _ pausePort_memory afterPause_memory s⟩
  | sleep => exact ⟨_, exec_sleep s, performPort_keepsLearned _ sleepPort_memory s⟩
  | clear => exact ⟨_, exec_clear s, performPort_keepsLearned _ clearPort_memory s⟩
  | arm => exact ⟨_, exec_arm s, performHead_keepsLearned _ fun r => .of_memory (performArm_memory r.group s)⟩
  | disarm =>
    exact ⟨_, exec_disarm s, performHead_keepsLearned _ fun r => .of_memory (by simp [performDisarm, answer])⟩
  | prepare => exact ⟨_, exec_prepare s, performHead_keepsLearned _ fun r => .of_memory (performPrepare_memory r.group r.lead s)⟩
  | cancel => exact ⟨_, exec_cancel s, performHead_keepsLearned _ fun r => .of_memory (performCancel_memory r.group s)⟩
  | readEvents => exact ⟨_, exec_readEvents s, performHead_keepsLearned _ fun _ => .of_memory rfl⟩
  | setEventMask =>
    exact ⟨_, exec_setEventMask s, performHead_keepsLearned _ fun r => .of_memory (by simp [performSetMask, answer])⟩
  | readCounters => exact ⟨_, exec_readCounters s, performHead_keepsLearned _ fun r => .of_memory (performReadCounters_memory r s)⟩
  | restart => exact ⟨_, exec_restart s, .of_memory (performRestart_memory s)⟩
  | softRestart =>
    refine ⟨_, exec_softRestart s, ?_⟩
    split
    · exact .of_memory (softRestart_memory s)
    · exact .refl s
  | transmissionStart e =>
    exact ⟨_, exec_transmissionStart e s, whileRunning_keepsLearned (.of_memory (startTransmission_memory e s))⟩
  | transmissionEnd e =>
    exact ⟨_, exec_transmissionEnd e s, whileRunning_keepsLearned (.of_memory (endTransmission_memory e s))⟩
  | releaseStep p => exact ⟨_, exec_releaseStep p s, whileRunning_keepsLearned (.of_memory (stepRelease_memory p s))⟩
  | admissionScan => exact ⟨_, exec_admissionScan s, whileRunning_keepsLearned (.of_memory (scan_memory s))⟩
  | triggerReevaluation g =>
    exact ⟨_, exec_triggerReevaluation g s, whileRunning_keepsLearned (.of_memory (reevaluate_memory g s))⟩
  | cameraLinkDown p => exact ⟨_, exec_cameraLinkDown p s, .of_memory (linkDown_memory p s)⟩
  | cameraLinkUp p => exact ⟨_, exec_cameraLinkUp p s, .of_memory (linkUp_memory p s)⟩
  | uplinkLinkDown => exact ⟨_, exec_uplinkLinkDown s, .of_memory rfl⟩
  | uplinkLinkUp => exact ⟨_, exec_uplinkLinkUp s, .of_memory rfl⟩
  | uplinkLinkTimerExpiry => exact ⟨_, exec_uplinkLinkTimerExpiry s, whenDue_keepsLearned _ (uplinkOver_memory s)⟩
  | senseInputRise p => exact ⟨_, exec_senseInputRise p s, .of_memory (senseRise_memory p s)⟩
  | senseInputFall p => exact ⟨_, exec_senseInputFall p s, .of_memory (senseFall_memory p s)⟩
  | senseFilterExpiry p => exact ⟨_, exec_senseFilterExpiry p s, whenDue_keepsLearned _ (senseEdge_memory p s)⟩
  | feedFaultAsserted p level =>
    refine ⟨_, exec_feedFaultAsserted p level s, .of_memory ?_⟩
    split
    · exact (settle_memory _).trans (sampleFeedFault_memory p level s)
    · exact State.modPort_memory _ _ _ rfl rfl
  | resetAsserted => exact ⟨_, exec_resetAsserted s, .of_memory (haltAll_memory s)⟩
  | resetReleased =>
    refine ⟨_, exec_resetReleased s, ?_⟩
    split
    · exact releaseReset_keepsLearned s
    · exact .refl s
  | tableInitialisationEnd =>
    refine ⟨_, exec_tableInitialisationEnd s, .of_memory ?_⟩
    split
    · exact endInitialisation_memory s
    · rfl
  | idleTimerExpiry p => exact ⟨_, exec_idleTimerExpiry p s, whenDue_keepsLearned _ (idleOver_memory p s)⟩
  | deepIdleExpiry p => exact ⟨_, exec_deepIdleExpiry p s, whenDue_keepsLearned _ (enterAsleep_memory p s)⟩
  | linkTimerExpiry p => exact ⟨_, exec_linkTimerExpiry p s, whenDue_keepsLearned _ (enterFaulted_memory p _ s)⟩
  | coldBootWindowExpiry p => exact ⟨_, exec_coldBootWindowExpiry p s, whenDue_keepsLearned _ (coldAttemptFailed_memory p s)⟩
  | attemptWindowExpiry p => exact ⟨_, exec_attemptWindowExpiry p s, whenDue_keepsLearned _ (resumeAttemptFailed_memory p s)⟩
  | spacingExpiry p => exact ⟨_, exec_spacingExpiry p s, whenDue_keepsLearned _ (startAttempt_memory p s)⟩
  | offHoldExpiry p => exact ⟨_, exec_offHoldExpiry p s, whenDue_keepsLearned _ (offHoldOver_memory p s)⟩
  | pulseCountdownExpiry p =>
    exact ⟨_, exec_pulseCountdownExpiry p s, whenDue_keepsLearned _ (State.modPort_memory _ _ _ rfl rfl)⟩
  | pauseConfirmWindowExpiry p =>
    exact ⟨_, exec_pauseConfirmWindowExpiry p s, whenDue_keepsLearned _ (confirmOver_memory p s)⟩
  | probeIntervalExpiry p => exact ⟨_, exec_probeIntervalExpiry p s, whenDue_keepsLearned _ (probeIntervalOver_memory p s)⟩
  | scheduleEntryDue p => exact ⟨_, exec_scheduleEntryDue p s, whenDue_keepsLearned _ (scheduleDue_memory p s)⟩
  | rendezvousWindowExpiry g => exact ⟨_, exec_rendezvousWindowExpiry g s, whenDue_keepsLearned _ (windowOver_memory g s)⟩
  | armHoldExpiry g => exact ⟨_, exec_armHoldExpiry g s, whenDue_keepsLearned _ (by simp [holdOver])⟩
  | preparationTargetExpiry g => exact ⟨_, exec_preparationTargetExpiry g s, whenDue_keepsLearned _ (targetOver_memory g s)⟩
  | scrubPassStart => exact ⟨_, exec_scrubPassStart s, whenDue_keepsLearned _ rfl⟩
  | scrubVisit => exact ⟨_, exec_scrubVisit s, whileRunning_keepsLearned (.of_memory (visitNext_memory s))⟩
  | unknownOpRequest => exact ⟨_, exec_unknownOpRequest s, performHead_keepsLearned _ fun _ => .refl s⟩

/-- Settles O10: the next command of the queue keeps what has been learned in range, and the passing of a tick leaves it. -/
theorem stepKeepsEstimatesInRange : Obligations.StepKeepsEstimatesInRange := by
  unfold Obligations.StepKeepsEstimatesInRange
  intro s t learned h p
  suffices kept : KeepsLearned s t from kept p (learned p)
  unfold step at h
  split at h
  · rename_i c rest _
    obtain ⟨u, e, kept⟩ := exec_keepsLearned c { s with pending := rest }
    rw [next_eq (e.symm.trans h)]
    exact kept
  · rw [next_eq h]
    exact .of_memory (passTime_memory s)

end Sys2Proof.Machine
end

section
/-! SUPPORT. The expiries of the wake engine: when each is due, and what a due one comes to (R27, R30, R35). -/

namespace Sys2Proof.Machine

/-- An expiry that is not due changes nothing (log 1). -/
theorem whileRunning_notDue {due : State → Bool} {f : State → State} {s : State} (hs : s.Settled) (h : ¬ due s = true) :
    whileRunning (whenDue due f) s = s := by
  rw [whileRunning_of_running hs.running, whenDue_neg h, settle_of_owed hs.settled]

/-- An expiry that is due is taken, and what follows is settled. -/
theorem whileRunning_due {due : State → Bool} {f : State → State} {s : State} (hs : s.Settled) (h : due s = true) :
    whileRunning (whenDue due f) s = settle (f s) := by
  rw [whileRunning_of_running hs.running, whenDue_pos h]

/-- The same where the expiry hands nothing on. -/
theorem whileRunning_due_of_owed {due : State → Bool} {f : State → State} {s : State} (hs : s.Settled)
    (h : due s = true) (k : (f s).owed = s.owed) : whileRunning (whenDue due f) s = f s := by
  rw [whileRunning_due hs h, settle_of_owed (k.trans hs.settled)]

theorem phaseOver_iff {st : PortState} {k : OpKind} {ph : Phase} {r : PortRec} : phaseOver st k ph r = true ↔
    r.state = st ∧ r.op.kind = k ∧ r.op.phase = ph ∧ r.op.countdown = 0 := by
  simp [phaseOver, and_assoc]

theorem pulseDue_iff {p : Port} {s : State} : pulseDue p s = true ↔ (s.port p).op.pulse = some 0 := by simp [pulseDue]

/-! ### Cold attempts and the off-hold (R30, R34) -/

/-- A cold attempt has failed and another is left: the off-hold begins. -/
theorem coldAttemptFailed_retries {p : Port} {s : State} (h : (s.port p).op.attempt < (s.port p).cfg.attempts) :
    coldAttemptFailed p s = s.modPort p fun r => { r with
      feed := false, linkUp := false, egress := { r.egress with sending := none }
      op := { r.op with phase := .offHold, countdown := r.cfg.offHold } } := by
  rw [coldAttemptFailed, if_pos h, feedOff, State.modPort_modPort]

theorem coldAttemptFailed_ends {p : Port} {s : State} (h : (s.port p).cfg.attempts ≤ (s.port p).op.attempt) :
    coldAttemptFailed p s = enterFaulted p .noResponse s := if_neg (Nat.not_lt.2 h)

theorem feedOn_eq (p : Port) (s : State) : feedOn p s =
    if (s.port p).feedFaultIn then enterFaulted p .feed (s.modPort p fun r => { r with feed := true })
    else s.modPort p fun r => { r with feed := true } := by
  simp only [feedOn, State.modPort_port_same]

theorem faultMethod_cold {op : Operation} (h : op.kind = .cold) : op.faultMethod = some .power := by
  rw [Operation.faultMethod, h]

theorem faultAttempts_cold {op : Operation} (h : op.kind = .cold) : op.faultAttempts = op.started := by
  rw [Operation.faultAttempts, h]

/-- The port after the off-hold: the feed is on and the cold boot window runs; on the cold path a further attempt. -/
def PortRec.opened (r : PortRec) : PortRec :=
  { r with
    feed := true
    op := { r.op with
      attempt := if r.op.kind = .cold then r.op.attempt + 1 else r.op.attempt
      started := if r.op.kind = .cold then r.op.started + 1 else r.op.started
      phase := .window, countdown := r.cfg.coldWindow } }

theorem offHoldOver_eq (p : Port) (s : State) : offHoldOver p s =
    if (s.port p).feedFaultIn then enterFaulted p .feed (s.modPort p PortRec.opened) else s.modPort p PortRec.opened := by
  have opened : (s.modPort p fun r => { r with
      op := { (if r.op.kind = .cold then { r.op with attempt := r.op.attempt + 1, started := r.op.started + 1 } else r.op) with
        phase := .window, countdown := r.cfg.coldWindow } }).modPort p (fun r => { r with feed := true }) =
      s.modPort p PortRec.opened := by
    rw [State.modPort_modPort]
    refine modPort_congr ?_
    unfold PortRec.opened
    split <;> rfl
  rw [offHoldOver, feedOn_eq, opened, State.modPort_port_same]

end Sys2Proof.Machine
end

section
/-! SUPPORT. Cold attempts, off-holds and pulses: O56. -/

namespace Sys2Proof.Machine

/-- Settles O56, by the expiry, whether it is due, and what is left of the attempts. -/
theorem coldAndPowerAttemptsRun : Obligations.ColdAndPowerAttemptsRun := by
  unfold Obligations.ColdAndPowerAttemptsRun
  intro p s hs r cold windowDue holdDue opened
  have due : coldWindowOver p s = true ↔ windowDue := by
    rw [coldWindowOver, phaseOver_iff]
    exact ⟨fun ⟨a, b, c, d⟩ => ⟨⟨a, b⟩, c, d⟩, fun ⟨⟨a, b⟩, c, d⟩ => ⟨a, b, c, d⟩⟩
  have hold : offHoldDue p s = true ↔ holdDue := by
    rw [offHoldDue, Bool.or_eq_true, phaseOver_iff, phaseOver_iff]
    exact ⟨fun | .inl ⟨a, b, h⟩ => ⟨.inl ⟨a, b⟩, h⟩ | .inr ⟨a, b, h⟩ => ⟨.inr ⟨a, b⟩, h⟩,
      fun | ⟨.inl ⟨a, b⟩, h⟩ => .inl ⟨a, b, h⟩ | ⟨.inr ⟨a, b⟩, h⟩ => .inr ⟨a, b, h⟩⟩
  refine ⟨fun h => ?_, fun h hlt => ?_, fun h hle => ?_, fun h => ?_, fun h hf => ?_, fun h hf => ?_, fun h => ?_, fun h => ?_⟩
  · rw [exec_coldBootWindowExpiry, whileRunning_notDue hs (mt due.1 h)]
  · have retries := coldAttemptFailed_retries hlt
    rw [exec_coldBootWindowExpiry, whileRunning_due_of_owed hs (due.2 h) (by rw [retries]; rfl), retries]
  · have ⟨⟨waking, kind⟩, _⟩ := h
    have shuts := enterFaulted_spec (p := p) (code := .noResponse) (s := s) (by rw [waking]; decide)
    rw [waking, faultMethod_cold kind, faultAttempts_cold kind] at shuts
    exact ⟨_, shuts, by rw [exec_coldBootWindowExpiry, whileRunning_due hs (due.2 h), coldAttemptFailed_ends hle]⟩
  · rw [exec_offHoldExpiry, whileRunning_notDue hs (mt hold.1 h)]
  · have low : offHoldOver p s = opened := by rw [offHoldOver_eq, if_neg (by simp [r, hf])]; rfl
    rw [exec_offHoldExpiry, whileRunning_due_of_owed hs (hold.2 h) (by rw [low]; rfl), low]
  · have high : offHoldOver p s = enterFaulted p .feed opened := by rw [offHoldOver_eq, if_pos hf]; rfl
    rw [exec_offHoldExpiry, whileRunning_due hs (hold.2 h), high]
  · rw [exec_pulseCountdownExpiry, whileRunning_notDue hs (mt pulseDue_iff.1 h)]
  · rw [exec_pulseCountdownExpiry, whileRunning_due_of_owed hs (pulseDue_iff.2 h) rfl]; rfl

end Sys2Proof.Machine
end

section
/-! SUPPORT. What sending a template comes to where the frame is not placed, and what each attempt of a resume path does
(R29, R31 to R35). -/

namespace Sys2Proof.Machine

/-- A template frame without a free cell is counted as dropped (R89). -/
theorem sendTemplate_noCell {p : Port} {s : State} (t : Template) (seq : Option (BitVec 16)) (h : s.free = []) :
    sendTemplate p t seq s = (false, countDrop p .noCell s) := by
  have unchanged : ({ s with free := s.free.tail ++ s.free.head?.toList } : State) = s := by
    rw [h]
    show ({ s with free := [] } : State) = s
    rw [← h]
  rw [sendTemplate_lost t seq (.inl h), if_pos h, unchanged]

/-- A template frame without room in the transmit queue is counted as dropped, and its cell rejoins the free list at the
tail (R88; log 10). -/
theorem sendTemplate_full {p : Port} {c : CellNo} {free : List CellNo} {s : State} (t : Template)
    (seq : Option (BitVec 16)) (h : s.free = c :: free) (full : 32 ≤ (s.port p).egress.queue.length) :
    sendTemplate p t seq s = (false, countDrop p .txFull { s with free := free ++ [c] }) := by
  have taken : s.free ≠ [] := by simp [h]
  rw [sendTemplate_lost t seq (.inr full), if_neg taken, h]
  rfl

@[simp] theorem sendTemplate_owed (p : Port) (t : Template) (seq : Option (BitVec 16)) (s : State) :
    (sendTemplate p t seq s).2.owed = s.owed := by
  have h := originate_owed (.camera p) (templateFrame t (s.port p).cfg.station s.mga.factory seq) s
  unfold sendTemplate
  split <;> rename_i e <;> rw [e] at h
  · exact h
  · exact h
  · exact h

/-! ### The attempts of a resume path (R31 to R34) -/

theorem startAttempt_line {p : Port} {s : State} (h : (s.port p).op.method = some .line) :
    startAttempt p s = startLine p s := by rw [startAttempt, h]

theorem startAttempt_power {p : Port} {s : State} (h : (s.port p).op.method = some .power) :
    startAttempt p s = s.modPort p fun r => { r with
      feed := false, linkUp := false, egress := { r.egress with sending := none }, link := 0
      op := { countAttempt r.op with method := some .power, phase := .offHold, countdown := r.cfg.offHold } } := by
  rw [startAttempt, h]
  show startPower p s = _
  rw [startPower, feedOff, State.modPort_modPort]

theorem startAttempt_frame {p : Port} {s : State} (h : (s.port p).op.method = some .frame) :
    startAttempt p s = startFrame p s := by rw [startAttempt, h]

theorem startFrame_present {p : Port} {s : State} {t : Template} (h : (readPresent p .resume s).1 = some t) :
    startFrame p s = (sendTemplate p t none (readPresent p .resume s).2).2.modPort p fun r =>
      { r with op := { countAttempt r.op with phase := .window, countdown := r.cfg.attemptWindow } } := by
  rw [startFrame, readPresent_eq h]

theorem startFrame_absent {p : Port} {s : State} (h : (readPresent p .resume s).1 = none) :
    startFrame p s = leaveFrame p (readPresent p .resume s).2 := by
  rw [startFrame, readPresent_eq h]

@[simp] theorem startLine_owed (p : Port) (s : State) : (startLine p s).owed = s.owed := rfl

@[simp] theorem leaveFrame_owed (p : Port) (s : State) : (leaveFrame p s).owed = s.owed := by
  unfold leaveFrame
  split
  · rfl
  · rw [startLine_owed, raise_owed]; rfl

/-- Starting an attempt hands nothing on. -/
theorem startAttempt_owed (p : Port) (s : State) : (startAttempt p s).owed = s.owed := by
  cases h : (s.port p).op.method with
  | none => rw [startAttempt, h]
  | some m =>
    cases m with
    | line => rw [startAttempt_line h, startLine_owed]
    | power => rw [startAttempt_power h]; rfl
    | frame =>
      rw [startAttempt_frame h]
      cases e : (readPresent p .resume s).1 with
      | none => rw [startFrame_absent e, leaveFrame_owed, readPresent_owed]
      | some t =>
        rw [startFrame_present e]
        exact (sendTemplate_owed p t none _).trans (readPresent_owed p .resume s)

/-! ### A failed attempt (R35) -/

/-- The port waits the spacing; without one the next attempt starts at once. -/
theorem enterSpacing_eq (p : Port) (s : State) : enterSpacing p s =
    let u := s.modPort p fun r => { r with op := { r.op with phase := .spacing, countdown := r.cfg.spacing } };
    if (s.port p).cfg.spacing = 0 then startAttempt p u else u := by
  simp only [enterSpacing, State.modPort_port_same]

theorem closeWindow_port (p : Port) (s : State) : (closeWindow p s).port p =
    { s.port p with wakeLine := false, op := { (s.port p).op with pulse := none } } := State.modPort_port_same ..

/-- An attempt has failed and another of its method is left. -/
theorem resumeAttemptFailed_retries {p : Port} {s : State} (h : (s.port p).op.attempt < (s.port p).cfg.attempts) :
    resumeAttemptFailed p s = enterSpacing p (closeWindow p s) := by
  rw [resumeAttemptFailed, closeWindow_port]
  exact if_pos h

/-- The attempts of the method are used up: the next method, or NO_RESPONSE. -/
theorem resumeAttemptFailed_ends {p : Port} {s : State} (h : (s.port p).cfg.attempts ≤ (s.port p).op.attempt) :
    resumeAttemptFailed p s = match (s.port p).op.method with
      | some .frame => escalate p .line (closeWindow p s)
      | some .line => escalate p .power (closeWindow p s)
      | some .power | none => enterFaulted p .noResponse (closeWindow p s) := by
  rw [resumeAttemptFailed, closeWindow_port]
  exact if_neg (Nat.not_lt.2 h)

/-- A fault from a RESUME operation whose method has been tried records that method and the attempts started (R7). -/
theorem fault_of_resume {op : Operation} (h : op.kind = .resume) (made : op.attempt ≠ 0) :
    op.faultMethod = op.method ∧ op.faultAttempts = op.started := by
  rw [Operation.faultMethod, Operation.faultAttempts, h]
  exact ⟨if_neg made, rfl⟩

end Sys2Proof.Machine
end

section
/-! SUPPORT. Resume attempts: O57. -/

namespace Sys2Proof.Machine

/-- Settles O57, by the expiry and the method, then each attempt by its method and the RESUME template. -/
theorem resumeAttemptsEscalate : Obligations.ResumeAttemptsEscalate := by
  unfold Obligations.ResumeAttemptsEscalate
  intro p s hs r runs counted closed escalated spaced line waits
  have due (ph : Phase) : phaseOver .resuming .resume ph r = true ↔ runs ∧ r.op.phase = ph := by
    rw [phaseOver_iff]
    exact ⟨fun ⟨a, b, c, d⟩ => ⟨⟨a, b, d⟩, c⟩, fun ⟨⟨a, b, d⟩, c⟩ => ⟨a, b, c, d⟩⟩
  -- a failed attempt that leads to a spacing, from closed or from an escalation
  have spacing : ∀ u : State, runs ∧ r.op.phase = .window → resumeAttemptFailed p s = enterSpacing p u →
      (u.port p).cfg = r.cfg → u.owed = s.owed → waits u := by
    intro u h e cfg owed
    rw [enterSpacing_eq, cfg] at e
    refine ⟨fun k => ?_, fun k => ?_⟩
    · have e := e.trans (if_neg k)
      rw [exec_attemptWindowExpiry, whileRunning_due_of_owed hs ((due .window).2 h) (by rw [e]; exact owed), e]
    · have e := e.trans (if_pos k)
      rw [exec_attemptWindowExpiry, whileRunning_due hs ((due .window).2 h), e]
  have cfg : (closed.port p).cfg = r.cfg := by rw [show closed.port p = _ from closeWindow_port p s]
  have escalation : ∀ (m : Method) (code : Nat), ((escalated m code).port p).cfg = r.cfg ∧
      (escalated m code).owed = s.owed := fun m code => by
    refine ⟨?_, raise_owed _ _ _⟩
    rw [raise_port, State.modPort_port_same]
    exact cfg
  refine ⟨fun h => ?_, fun hr hp => ⟨fun h => ?_, fun h => ⟨fun hm => ?_, fun hm => ?_, fun hm made => ?_⟩⟩, fun h => ?_,
    fun hr hp => ?_, fun hm => ?_, fun hm => ?_, fun hm => ?_⟩
  · rw [exec_attemptWindowExpiry, whileRunning_notDue hs (mt (due .window).1 h)]
  · exact spacing closed ⟨hr, hp⟩ (resumeAttemptFailed_retries h) cfg rfl
  · refine spacing (escalated .line 1) ⟨hr, hp⟩ ?_ (escalation .line 1).1 (escalation .line 1).2
    rw [resumeAttemptFailed_ends h, hm]; rfl
  · refine spacing (escalated .power 2) ⟨hr, hp⟩ ?_ (escalation .power 2).1 (escalation .power 2).2
    rw [resumeAttemptFailed_ends h, hm]; rfl
  · have port : closed.port p = _ := closeWindow_port p s
    have shuts := enterFaulted_spec (p := p) (code := .noResponse) (s := closed) (by rw [port, hr.1]; decide)
    obtain ⟨method, started⟩ := fault_of_resume (op := (closed.port p).op) (by rw [port]; exact hr.2.1) (by rw [port]; exact made.ne')
    rw [method, started, port, hr.1, hm] at shuts
    refine ⟨_, shuts, ?_⟩
    rw [exec_attemptWindowExpiry, whileRunning_due hs ((due .window).2 ⟨hr, hp⟩), resumeAttemptFailed_ends h, hm]
    rfl
  · rw [exec_spacingExpiry, whileRunning_notDue hs (mt (due .spacing).1 h)]
  · rw [exec_spacingExpiry, whileRunning_due_of_owed hs ((due .spacing).2 ⟨hr, hp⟩) (startAttempt_owed p s)]
  · exact startAttempt_line hm
  · exact startAttempt_power hm
  · have quiet := Quiet.readPresent p .resume s
    have port : (readPresent p .resume s).2.port p = r := quiet.port p
    have mga : (readPresent p .resume s).2.mga = s.mga := quiet.mga
    rw [startAttempt_frame hm]
    refine ⟨fun t ht => ⟨fun hf => ?_, fun c free hf => ⟨fun room => ?_, fun full => ?_⟩⟩, fun absent => ⟨fun h0 => ?_, fun h0 => ?_⟩⟩
    · rw [startFrame_present ht, sendTemplate_noCell t none hf]; rfl
    · rw [startFrame_present ht, sendTemplate_room t none hf room, port, mga]; rfl
    · rw [startFrame_present ht, sendTemplate_full t none hf full]; rfl
    · rw [startFrame_absent absent, leaveFrame, port, if_pos h0]; rfl
    · rw [startFrame_absent absent, leaveFrame, port, if_neg h0]; rfl

end Sys2Proof.Machine
end

section
/-! SUPPORT. Probes (R42, R43): O59. -/

namespace Sys2Proof.Machine

theorem probeDue_iff {p : Port} {s : State} : probeDue p s = true ↔
    (s.port p).state = .paused ∧ (s.port p).probe.running = true ∧ (s.port p).probe.countdown = 0 := by
  simp [probeDue, and_assoc]

/-- An answered or first probe leaves the miss count as it is, and the next probe is sent. -/
theorem probeIntervalOver_answered {p : Port} {s : State}
    (h : ¬ ((s.port p).probe.outstanding ≠ none ∧ (s.port p).probe.answered = false)) :
    probeIntervalOver p s = sendProbe p s := by
  have missed : ((s.port p).probe.outstanding.isSome && !(s.port p).probe.answered) = false := by
    simpa [Option.isSome_iff_ne_none] using h
  simp [probeIntervalOver, missed]

/-- An unanswered probe raises the miss count, and at the limit the port is lost (R15, R43). -/
theorem probeIntervalOver_missed {p : Port} {s : State}
    (h : (s.port p).probe.outstanding ≠ none ∧ (s.port p).probe.answered = false) :
    probeIntervalOver p s =
      let t := s.modPort p fun r => { r with probe := { r.probe with misses := r.probe.misses + 1 } };
      if (s.port p).cfg.missLimit ≤ (s.port p).probe.misses + 1 then probeLost p t else sendProbe p t := by
  have missed : ((s.port p).probe.outstanding.isSome && !(s.port p).probe.answered) = true := by
    simpa [Option.isSome_iff_ne_none] using h
  simp [probeIntervalOver, missed, State.modProbe]

theorem sendProbe_absent {p : Port} {s : State} (h : (readPresent p .probe s).1 = none) :
    sendProbe p s = stopProbing p (readPresent p .probe s).2 := by
  rw [sendProbe, readPresent_eq h]

/-- The port after a probe: it is outstanding with the next sequence, placed or not (R43). -/
def PortRec.probed (r : PortRec) (seq : BitVec 16) : PortRec :=
  { r with
    probe := { r.probe with
      outstanding := some seq, nextSeq := seq + 1, answered := false, countdown := r.cfg.probeInterval } }

theorem sendProbe_present {p : Port} {s v : State} {t : Template} (h : readPresent p .probe s = (some t, v)) :
    sendProbe p s = (sendTemplate p t (some (v.port p).probe.nextSeq) v).2.modPort p
      fun r => r.probed (v.port p).probe.nextSeq := by
  rw [sendProbe, h]
  rfl

/-- Sending the next probe hands nothing on. -/
theorem sendProbe_owed (p : Port) (s : State) : (sendProbe p s).owed = s.owed := by
  cases h : (readPresent p .probe s).1 with
  | none => rw [sendProbe_absent h]; exact readPresent_owed p .probe s
  | some t =>
    rw [sendProbe_present (readPresent_eq h)]
    exact (sendTemplate_owed p t _ _).trans (readPresent_owed p .probe s)

/-- Settles O59, by the miss and its limit, then by what reading the PROBE template gives. -/
theorem probeIntervalCountsMissesAndSends : Obligations.ProbeIntervalCountsMissesAndSends := by
  unfold Obligations.ProbeIntervalCountsMissesAndSends
  intro p s hs r due missed misses t v
  have counted (h : missed) :
      t = s.modPort p fun r => { r with probe := { r.probe with misses := r.probe.misses + 1 } } :=
    modPort_congr (by simp only [misses, if_pos h]; rfl)
  have uncounted (h : ¬ missed) : t = s := State.modPort_id s (by simp only [misses, if_neg h, r])
  have sends : due → (¬ missed ∨ misses < r.cfg.missLimit) →
      exec (.probeIntervalExpiry p) s = .next (sendProbe p t) := fun hd h => by
    have made : probeIntervalOver p s = sendProbe p t := by
      by_cases hm : missed
      · have below : ¬ r.cfg.missLimit ≤ r.probe.misses + 1 := by
          have := h.resolve_left (not_not_intro hm)
          simp only [misses, if_pos hm] at this
          omega
        rw [probeIntervalOver_missed hm, ← counted hm]
        exact if_neg below
      · rw [probeIntervalOver_answered hm, uncounted hm]
    have owed : (sendProbe p t).owed = s.owed := sendProbe_owed p t
    rw [exec_probeIntervalExpiry, whileRunning_due_of_owed hs (probeDue_iff.2 hd) (by rw [made, owed]), made]
  refine ⟨fun h => ?_, fun hd hm limit => ⟨_, enterAsleep_spec p t, ?_⟩, fun hd h => ⟨fun absent => ?_, fun e present =>
    ⟨fun hf => ?_, fun c free hf => ⟨fun room => ?_, fun full => ?_⟩⟩⟩⟩
  · rw [exec_probeIntervalExpiry, whileRunning_notDue hs (mt probeDue_iff.1 h)]
  · simp only [misses, if_pos hm] at limit
    rw [exec_probeIntervalExpiry, whileRunning_due hs (probeDue_iff.2 hd), probeIntervalOver_missed hm, ← counted hm]
    exact congrArg (fun x => Host.Outcome.next (settle x)) (if_pos limit)
  · rw [sends hd h, sendProbe_absent absent]; rfl
  · rw [sends hd h, sendProbe_present (v := v) (readPresent_eq present), sendTemplate_noCell e _ hf]; rfl
  · rw [sends hd h, sendProbe_present (v := v) (readPresent_eq present), sendTemplate_room e _ hf room]; rfl
  · rw [sends hd h, sendProbe_present (v := v) (readPresent_eq present), sendTemplate_full e _ hf full]; rfl

end Sys2Proof.Machine
end

section
/-! SUPPORT. The entry into PAUSED (R14, R42, R56, R58), and the end of the confirm window: O58. -/

namespace Sys2Proof.Machine

/-- The entry into PAUSED before its wake-queue entry is looked at: the charge falls, the deep-idle timer starts, and
probing begins where it can (R14, R42). -/
def pausedEntry (p : Port) (s : State) : State :=
  beginProbing p ((changeState p .paused (endOperation p s)).modPort p fun r => { r with deepIdle := 0 })

theorem enterPaused_noEntry {p : Port} {s : State} (h : ∀ e ∈ (pausedEntry p s).adm.wakeQueue, e.port ≠ p) :
    enterPaused p s = pausedEntry p s := by
  show (match wakeEntry? (pausedEntry p s) p with | none => pausedEntry p s | some _ => _) = _
  rw [wakeEntry_none.2 h]

/-- A wake-queue entry faults the port where it can never be admitted, and starts a scan where the port is not parked
(R56, R58). -/
theorem enterPaused_entry {p : Port} {s : State} (h : ∃ e ∈ (pausedEntry p s).adm.wakeQueue, e.port = p) :
    enterPaused p s =
      if neverAdmissible (pausedEntry p s) p then enterFaulted p .budget (pausedEntry p s)
      else if ((pausedEntry p s).port p).park then pausedEntry p s else (pausedEntry p s).owe .scan := by
  obtain ⟨e, he⟩ := Option.isSome_iff_exists.1 (wakeEntry_isSome.2 h)
  show (match wakeEntry? (pausedEntry p s) p with | none => pausedEntry p s | some _ => _) = _
  rw [he]
  rfl

/-- What the entry changes, and where no group is concerned that it changes nothing else. -/
theorem pausedEntry_spec (p : Port) (s : State) :
    (let probes := (s.port p).cfg.probeInterval != 0 && templatePresent s p .probe;
      (pausedEntry p s).port p = { s.port p with
        state := .paused, charge := (s.port p).draws.standby, wakeLine := false, deepIdle := 0
        op := { (s.port p).op with kind := .none, phase := .none, countdown := 0, pulse := none }
        probe := { (s.port p).probe with
          running := probes, countdown := if probes then (s.port p).cfg.probeInterval else 0, nextSeq := 0
          outstanding := none, answered := false, misses := 0 } }) ∧
    (∀ q : Port, q ≠ p → (pausedEntry p s).port q = s.port q) ∧
    (pausedEntry p s).adm = { s.adm with
      committed := s.adm.committed.set (domainOf p) (domainCharge (pausedEntry p s) (domainOf p)) } ∧
    (s.unwatched p .paused → pausedEntry p s = { s with
      ports := (pausedEntry p s).ports, adm := (pausedEntry p s).adm
      owed := s.owed ++ if (s.port p).draws.standby < (s.port p).charge then [.scan] else [] }) := by
  have ended : (endOperation p s).port p = { s.port p with
      op := { (s.port p).op with kind := .none, phase := .none, countdown := 0, pulse := none }, wakeLine := false } :=
    State.modPort_port_same ..
  have unw : s.unwatched p .paused → (endOperation p s).unwatched p .paused := fun h g => by
    rw [ended]; exact h g
  obtain ⟨port, others, adm, tbm, mga, phase, pending⟩ := changeState_spec p .paused (endOperation p s)
  have alone := fun h => changeState_alone (by decide) (unw h)
  have eq : pausedEntry p s =
      beginProbing p ((changeState p .paused (endOperation p s)).modPort p fun r => { r with deepIdle := 0 }) := rfl
  generalize changeState p .paused (endOperation p s) = d at port others adm tbm mga phase pending alone eq
  rw [ended] at port alone
  have template : templatePresent d p .probe = templatePresent s p .probe := by
    simp only [templatePresent, tbm]; rfl
  have uport := congrArg (State.port · p) eq
  have uothers : ∀ q, q ≠ p → (pausedEntry p s).port q = d.port q := fun q hq => by
    rw [eq, beginProbing, State.modPort_port_ne _ _ hq, State.modPort_port_ne _ _ hq]
  have template' : templatePresent (d.modPort p fun r => { r with deepIdle := 0 }) p .probe = templatePresent s p .probe :=
    template
  simp only [beginProbing, State.modPort_port_same, template', port] at uport
  have charge : domainCharge (pausedEntry p s) (domainOf p) = domainCharge d (domainOf p) :=
    domainCharge_congr (fun q => by
      by_cases hq : q = p
      · rw [hq, uport, port]
      · rw [uothers q hq]) _
  refine ⟨uport, fun q hq => (uothers q hq).trans ((others q hq).trans (State.modPort_port_ne _ _ hq)), ?_, fun h => ?_⟩
  · rw [charge, eq]; exact adm
  · obtain ⟨groups, evu, uplink, cells, free, owed⟩ := alone h
    have shape : pausedEntry p s = { d with ports := (pausedEntry p s).ports } := by rw [eq]; rfl
    have sameAdm : (pausedEntry p s).adm = d.adm := by rw [eq]; rfl
    rw [sameAdm]
    refine shape.trans ?_
    simp only [groups, evu, uplink, cells, free, owed, tbm, mga, phase, pending]
    rfl

/-! ### The end of the confirm window -/

theorem confirmDue_iff {p : Port} {s : State} : confirmDue p s = true ↔ (s.port p).state = .pausing ∧
    (s.port p).op.kind = .pause ∧ (s.port p).op.phase = .confirm ∧ (s.port p).op.countdown = 0 := phaseOver_iff

theorem confirmOver_quiet {p : Port} {s : State}
    (h : (s.port p).cfg.confirmMode = .silence ∧ (s.port p).op.activitySeen = false) :
    confirmOver p s = enterPaused p s := by
  simp [confirmOver, h.1, h.2]

theorem confirmOver_loud {p : Port} {s : State}
    (h : ¬ ((s.port p).cfg.confirmMode = .silence ∧ (s.port p).op.activitySeen = false)) :
    confirmOver p s = pauseFailed p s := by
  simp only [confirmOver]
  rw [if_neg (by simpa using h)]

theorem failedPause_event (p : Port) (s : State) :
    (failedPause p s).evu.events[Event.pauseFailed.num].pending = true ∧
    (failedPause p s).evu.events[Event.pauseFailed.num].detail = some (Detail.port p) :=
  raise_event .pauseFailed (Detail.port p) _

/-- Settles O58, by the confirm mode and the activity seen. -/
theorem confirmWindowConfirmsOrFails : Obligations.ConfirmWindowConfirmsOrFails := by
  unfold Obligations.ConfirmWindowConfirmsOrFails
  intro p s hs r due quiet ended answers
  refine ⟨fun h => ?_, fun hd hq => ?_, fun hd hq => ?_⟩
  · show exec _ s = _
    rw [exec_pauseConfirmWindowExpiry, whileRunning_notDue hs (mt confirmDue_iff.1 h)]
  · have paused : answers (settle (enterPaused p s)) := by
      show exec _ s = _
      rw [exec_pauseConfirmWindowExpiry, whileRunning_due hs (confirmDue_iff.2 hd), confirmOver_quiet hq]
    obtain ⟨port, others, adm, alone⟩ := pausedEntry_spec p s
    rw [hs.settled, List.nil_append] at alone
    have queue : (pausedEntry p s).adm.wakeQueue = s.adm.wakeQueue := by rw [adm]
    have never : neverAdmissible (pausedEntry p s) p = true ↔ s.adm.limits[domainOf p] < r.draws.inrush := by
      simp only [neverAdmissible, adm, port, decide_eq_true_eq, r]
    refine ⟨pausedEntry p s, port, others, adm, alone, fun vacant => ?_, fun entry => ⟨fun exceeds => ?_, fun fits hp => ?_,
      fun fits hp => ?_⟩⟩
    · rwa [enterPaused_noEntry (by rw [queue]; exact vacant)] at paused
    all_goals rw [enterPaused_entry (by rw [queue]; exact entry)] at paused
    · rwa [if_pos (never.2 exceeds)] at paused
    · rwa [if_neg (mt never.1 (Nat.not_lt.2 fits)), port, if_neg (by simpa using hp)] at paused
    · rwa [if_neg (mt never.1 (Nat.not_lt.2 fits)), port, if_pos hp] at paused
  · have failed : answers (settle (pauseFailed p s)) := by
      show exec _ s = _
      rw [exec_pauseConfirmWindowExpiry, whileRunning_due hs (confirmDue_iff.2 hd), confirmOver_loud hq]
    obtain ⟨x, hx, shape, port, others, -, adm, -⟩ := pauseEnds_spec p s
    obtain ⟨fport, fothers, -, fadm, ftbm, fmga, -⟩ := failedPause_spec hx (by rw [port])
    obtain ⟨pending, detail⟩ := failedPause_event p s
    have hold : ((failedPause p s).port p).hold = r.hold := by rw [fport, port]
    have charge : domainCharge (failedPause p s) (domainOf p) = domainCharge x (domainOf p) :=
      domainCharge_congr (fun q => by
        by_cases hq : q = p
        · rw [hq, fport]
        · rw [fothers q hq]) _
    refine ⟨failedPause p s, by rw [fport, port], fun q hq => (fothers q hq).trans (others q hq), by rw [fadm, charge, adm],
      pending, detail, by rw [ftbm, shape], by rw [fmga, shape], fun h => ?_, fun h => ?_⟩
    · rwa [pauseFailed_held (by rw [hold]; exact h)] at failed
    · rwa [pauseFailed_empty (by rw [hold]; exact h)] at failed

end Sys2Proof.Machine
end

section
/-! SUPPORT. A camera frame that passes the checks, from classification to its cell (R84). -/

namespace Sys2Proof.Machine

/-- The last steps of R84 for a classified frame in cell c from port p, whose state it found to be st: the idle timer,
learning, and forwarding. -/
def handledUp (p : Port) (st : PortState) (c : CellNo) (bytes : List Byte) (k : Classified) (v : State) : State :=
  let v := if k.activity then restartIdle p v else v
  let v := if k.cls = .pollAnswer then considerLearning p st bytes k.keyOffset k.seqOffset v else v
  if k.cls = .probeAnswer then v else forwardUp p c bytes.length v

/-- At an enabled port that is not FAULTED the frame is classified, shown to the port's state, and handled by its class. -/
theorem exec_cameraFrame_classified {p : Port} {c : CellNo} {bytes : List Byte} {s : State} {st : PortState}
    (h : s.Receives (.camera p) c bytes) (hf : frameType bytes ≠ Config.managementEtherType) (hs : (s.port p).state = st)
    (enabled : st ≠ .disabled) (sound : st ≠ .faulted) : exec (.cameraFrameReceived p bytes true) s =
      let k := (s.classifiedUp p c bytes).1
      .next (settle (dropRef c (handledUp p st c bytes k (cameraShows p bytes k (s.classifiedUp p c bytes).2)))) := by
  have arrived : ((s.arrived (.camera p) c bytes).port p).state = st := by rw [arrived_port]; exact hs
  rw [exec_cameraFrameReceived, whileRunning_of_running h.running, receiveCamera_passed h, upstream, if_neg hf, arrived]
  cases st
  case disabled => exact absurd rfl enabled
  case faulted => exact absurd rfl sound
  all_goals rfl

end Sys2Proof.Machine
end

section
/-! SUPPORT. What the camera of a PAUSING port shows (R40, R41): O34. -/

namespace Sys2Proof.Machine

/-- A PAUSING port whose pause operation is in CONFIRM goes by its confirm mode. -/
theorem cameraShows_confirm {p : Port} {bytes : List Byte} {k : Classified} {s : State} (hs : (s.port p).state = .pausing)
    (hk : (s.port p).op.kind = .pause) (hp : (s.port p).op.phase = .confirm) :
    cameraShows p bytes k s = match (s.port p).cfg.confirmMode with
      | .ack => if k.cls = .standbyAck then enterPaused p s else s
      | .silence => if k.activity then pauseFailed p (s.modOp p fun op => { op with activitySeen := true }) else s := by
  rw [cameraShows, hs]
  exact if_pos (by simp [hk, hp])

/-- Settles O34, by the confirm mode. -/
theorem pauseIsConfirmedOrFailsByTheCamera : Obligations.PauseIsConfirmedOrFailsByTheCamera := by
  unfold Obligations.PauseIsConfirmedOrFailsByTheCamera
  intro p c bytes s h hf hs hkind hphase k u ack loud handled
  have port : u.port p = { s.port p with receiving := .idle } := classifiedUp_port p c bytes s
  have run : ∀ v, cameraShows p bytes k u = v →
      exec (.cameraFrameReceived p bytes true) s = .next (settle (dropRef c (handled v))) := by
    rintro _ rfl
    exact exec_cameraFrame_classified h hf hs (by decide) (by decide)
  have shows := cameraShows_confirm (bytes := bytes) (k := k) (by rw [port]; exact hs) (by rw [port]; exact hkind)
    (by rw [port]; exact hphase)
  rw [show (u.port p).cfg = (s.port p).cfg by rw [port]] at shows
  cases mode : (s.port p).cfg.confirmMode with
  | ack =>
    rw [mode] at shows
    exact ⟨fun ⟨_, hk⟩ => run _ (shows.trans (if_pos hk)), fun ⟨other, _⟩ => absurd (mode.symm.trans other) (by decide),
      fun quiet _ => run _ (shows.trans (if_neg fun hk => quiet ⟨mode, hk⟩))⟩
  | silence =>
    rw [mode] at shows
    exact ⟨fun ⟨other, _⟩ => absurd (mode.symm.trans other) (by decide), fun ⟨_, hk⟩ => run _ (shows.trans (if_pos hk)),
      fun _ quiet => run _ (shows.trans (if_neg fun hk => quiet ⟨mode, hk⟩))⟩

end Sys2Proof.Machine
end

section
/-! SUPPORT. Readiness evidence (R12, R36, R46, R78, R84, R95): O31. -/

namespace Sys2Proof.Machine

/-- The entry into READY from WAKING or RESUMING, before the release of the held frames (R12). -/
def wokenEntry (p : Port) (wake : LastWake) (y : State) : State :=
  removeWake p ((changeState p .ready (endOperation p y)).modPort p fun r =>
    { r with idle := 0, link := 0, lastWake := some wake })

/-- Evidence accepted: what is learned does not meet what the end of the operation changes, so it can be taken first. -/
theorem acceptEvidence_eq {p : Port} {m : Method} {s : State} (hm : (s.port p).op.method = some m) :
    acceptEvidence p s =
      let sample := sampleOf (s.port p).op
      let learned := applySample s.mga.learnShift m sample (s.port p).est
      startRelease p (wokenEntry p ⟨(s.port p).op.cls, m, sample, learned.2⟩
        (s.modPort p fun r => { r with est := learned.1 })) := by
  have swap (e : Estimates) : (endOperation p s).modPort p (fun r => { r with est := e }) =
      endOperation p (s.modPort p fun r => { r with est := e }) := by
    rw [endOperation, endOperation, State.modPort_modPort, State.modPort_modPort]
  rw [acceptEvidence, hm]
  dsimp only
  rw [swap]
  rfl

/-- What the entry changes: the port, the arms that watch it, the charge, and its wake-queue entry (R12, R51, R57, R130). -/
theorem wokenEntry_spec (p : Port) (wake : LastWake) (y : State) :
    ∃ w, wokenEntry p wake y = w ∧
      w = { y with ports := w.ports, groups := w.groups, adm := w.adm, owed := w.owed } ∧
      w.port p = { y.port p with
        state := .ready, charge := (y.port p).draws.active, wakeLine := false, idle := 0, link := 0
        op := { (y.port p).op with kind := .none, phase := .none, countdown := 0, pulse := none }
        lastWake := some wake } ∧
      (∀ q : Port, q ≠ p → w.port q = y.port q) ∧
      (∀ g : Group, w.group g = { y.group g with arm :=
        if (y.group g).arm.armed = true ∧ (y.group g).arm.intact = true ∧ hasPort (y.group g).arm.members p = true then
          { (y.group g).arm with watched := (y.group g).arm.watched ||| onlyPort p }
        else (y.group g).arm }) ∧
      w.adm = { y.adm with
        committed := y.adm.committed.set (domainOf p) (domainCharge w (domainOf p))
        wakeQueue := y.adm.wakeQueue.filter (·.port ≠ p) } ∧
      w.owed = y.owed ++ if (y.port p).draws.active < (y.port p).charge then [.scan] else [] := by
  obtain ⟨x, hx, shape, port, others, group, adm, owed⟩ := pauseEnds_spec p y
  have eq : wokenEntry p wake y = removeWake p (x.modPort p fun r =>
      { r with idle := 0, link := 0, lastWake := some wake }) := by rw [wokenEntry, hx]
  have wport : (wokenEntry p wake y).port p = { x.port p with idle := 0, link := 0, lastWake := some wake } := by
    rw [eq, removeWake, State.modAdm_port, State.modPort_port_same]
  have wothers : ∀ q, q ≠ p → (wokenEntry p wake y).port q = x.port q := fun q hq => by
    rw [eq, removeWake, State.modAdm_port, State.modPort_port_ne _ _ hq]
  have charge : domainCharge (wokenEntry p wake y) (domainOf p) = domainCharge x (domainOf p) :=
    domainCharge_congr (fun q => by
      by_cases hq : q = p
      · rw [hq, wport]
      · rw [wothers q hq]) _
  refine ⟨_, rfl, ?_, by rw [wport, port], fun q hq => (wothers q hq).trans (others q hq), fun g => ?_, ?_, ?_⟩
  · rw [eq, shape]; rfl
  · rw [eq]; exact group g
  · rw [charge, eq]
    exact congrArg (fun a : Adm => { a with wakeQueue := a.wakeQueue.filter (·.port ≠ p) }) adm
  · rw [eq]; exact owed

theorem cameraShows_evidence {p : Port} {bytes : List Byte} {k : Classified} {s : State}
    (hs : (s.port p).state = .waking ∧ (s.port p).op.kind = .cold ∨
      (s.port p).state = .resuming ∧ (s.port p).op.kind = .resume) (hp : (s.port p).op.phase = .window)
    (shows : showsCamera (s.port p).cfg.readiness k.cls = true) : cameraShows p bytes k s = acceptEvidence p s := by
  rcases hs with ⟨hs, hk⟩ | ⟨hs, hk⟩ <;> simp [cameraShows, hs, awaitsEvidence, hk, hp, shows]

/-- A POLL_ANSWER that found the port WAKING or RESUMING is not learned (R105). -/
theorem considerLearning_unheard {p : Port} {st : PortState} (h : st = .waking ∨ st = .resuming) (bytes : List Byte)
    (k o : Option Nat) (v : State) : considerLearning p st bytes k o v = v := by
  rcases h with rfl | rfl <;> rfl

/-- The last steps of R84 at a port that evidence has made READY: no class but PROBE_ANSWER is kept from forwarding. -/
theorem handledUp_woken {p : Port} {st : PortState} {c : CellNo} {bytes : List Byte} {k : Classified} {v : State}
    (hst : st = .waking ∨ st = .resuming) (hk : k.cls ≠ .probeAnswer) (ready : (v.port p).state = .ready) :
    handledUp p st c bytes k v = forwardUp p c bytes.length
      (v.modPort p fun x => { x with idle := if k.activity then 0 else x.idle }) := by
  have restarted : (if k.activity then restartIdle p v else v) =
      v.modPort p fun x => { x with idle := if k.activity then 0 else x.idle } := by
    cases k.activity
    · exact (State.modPort_id v rfl).symm
    · exact modPort_congr (if_pos ready)
  simp only [handledUp, considerLearning_unheard hst, ite_self, if_neg hk, restarted]

/-- Settles O31: the entry into READY by `wokenEntry_spec`, the release by `startRelease_spec`, and the frame is then
handled by its class. -/
theorem readinessEvidenceEndsTheWake : Obligations.ReadinessEvidenceEndsTheWake := by
  unfold Obligations.ReadinessEvidenceEndsTheWake
  intro p c bytes m s h hf k u r hs hp hm shows
  have awake : (s.port p).state = r.state := by
    rw [show r = _ from classifiedUp_port p c bytes s]
  have st : r.state = .waking ∨ r.state = .resuming := hs.imp And.left And.left
  have hk : k.cls ≠ .probeAnswer := by
    rcases shows with e | ⟨-, e⟩
    · rw [e]; decide
    · exact e
  have evidence : cameraShows p bytes k u = acceptEvidence p u :=
    cameraShows_evidence hs hp ((showsCamera_iff hk).2 (shows.imp_right And.left))
  obtain ⟨w, hw, shape, port, others, group, adm, owed⟩ := wokenEntry_spec p
    ⟨r.op.cls, m, sampleOf r.op, (applySample u.mga.learnShift m (sampleOf r.op) r.est).2⟩
    (u.modPort p fun r' => { r' with est := (applySample u.mga.learnShift m (sampleOf r.op) r.est).1 })
  have accepted : acceptEvidence p u = startRelease p w := (acceptEvidence_eq hm).trans (congrArg (startRelease p) hw)
  rw [State.modPort_port_same] at port owed
  have huo : u.owed = [] := (classifiedUp_owed p c bytes s).trans h.settled
  obtain ⟨vport, vrest, vothers, vcells⟩ := startRelease_spec p w (by rw [port])
  generalize startRelease p w = v at accepted vport vrest vothers vcells
  have ready : (v.port p).state = .ready := by rw [vport, port]
  have charge : domainCharge v (domainOf p) = domainCharge w (domainOf p) :=
    domainCharge_congr (fun q => by
      by_cases hq : q = p
      · rw [hq, vport]
      · rw [vothers q hq]) _
  have vgroup : ∀ g, v.group g = w.group g := fun g => by rw [vrest]; rfl
  refine ⟨v, ?_, ⟨by rw [vport, port]; rfl, ?_⟩, fun q hq => ?_, ?_, fun g => ?_, fun counted => ?_, ?_, ?_, ?_, ?_, ?_, ?_⟩
  · rw [exec_cameraFrame_classified h hf awake (by rcases st with e | e <;> rw [e] <;> decide)
      (by rcases st with e | e <;> rw [e] <;> decide)]
    show Host.Outcome.next (settle (dropRef c (handledUp p r.state c bytes k (cameraShows p bytes k u)))) = _
    rw [evidence, accepted, handledUp_woken st hk ready]
  · have handed : w.owed = if r.draws.active < r.charge then [.scan] else [] := by
      rw [owed]
      show u.owed ++ _ = _
      rw [huo, List.nil_append]
    have slot : ∀ g, (w.group g).slot = (u.group g).slot := fun g => by rw [group g]; rfl
    have vowed := congrArg State.owed vrest
    simp only [handed, slot, port] at vowed
    exact vowed
  · rw [vothers q hq, others q hq]; exact State.modPort_port_ne _ _ hq
  · rw [charge, vrest]; exact adm
  · rw [vgroup]; exact group g
  · rw [port] at vcells
    obtain ⟨cells, free⟩ := vcells fun x hx => by rw [shape]; exact counted x hx
    rw [cells, free, shape]
    exact ⟨rfl, rfl⟩
  all_goals rw [vrest, shape]; rfl

end Sys2Proof.Machine
end

section
/-! SUPPORT. Every command keeps the laws of power and queues, and so does the passing of a tick (R51, R58): O7. -/

namespace Sys2Proof.Machine

/-- The laws of power and queues pass from s to t. -/
def KeepsLawful (s t : State) : Prop := s.Lawful → t.Lawful

theorem KeepsLawful.refl (s : State) : KeepsLawful s s := id

theorem KeepsLawful.ite {s t : State} {c : Prop} [Decidable c] (h : KeepsLawful s t) :
    KeepsLawful s (if c then t else s) := by
  split
  · exact h
  · exact .refl s

theorem whileRunning_keepsLawful {f : State → State} {s : State} (h : Good s (f s)) :
    KeepsLawful s (whileRunning f s) := (whileRunning_good f s h).lawful

theorem whenDue_keepsLawful {due : State → Bool} {f : State → State} {s : State} (h : due s = true → Good s (f s)) :
    KeepsLawful s (whileRunning (whenDue due f) s) := whileRunning_keepsLawful (whenDue_good due f s h)

theorem performHead_keepsLawful (row : Row) {effect : Request → State → Performed} {s : State}
    (h : ∀ r, Good s (effect r s).2.2) : KeepsLawful s (performHead row effect s) := (performHead_good row effect s h).lawful

/-- A phase that has run out in a state other than DISABLED, ASLEEP and FAULTED is that of a port in no such state. -/
theorem awake_of_phaseOver {st : PortState} {k : OpKind} {ph : Phase} {r : PortRec} (h : phaseOver st k ph r = true)
    (awake : st.resting = false) : r.state.resting = false := by rw [phaseOver_state h, awake]

theorem Calm.uplinkOver (s : State) : Calm s (uplinkOver s) :=
  (Calm.modUplink s _ fun h => h).trans (Calm.raise _ _ _)

theorem Calm.senseRise (p : Port) (s : State) : Calm s (senseRise p s) := by
  unfold Machine.senseRise
  exact Calm.modPort _ _ .plain

theorem exec_keepsLawful (i : Instr) (s : State) : ∃ t, exec i s = .next t ∧ KeepsLawful s t := by
  cases i with
  | receptionStart e => exact ⟨_, exec_receptionStart e s, whileRunning_keepsLawful (Calm.startReception e s).good⟩
  | uplinkFrameReceived bytes good =>
    exact ⟨_, exec_uplinkFrameReceived bytes good s, whileRunning_keepsLawful (receiveUplink_good bytes good s)⟩
  | cameraFrameReceived p bytes good =>
    exact ⟨_, exec_cameraFrameReceived p bytes good s, whileRunning_keepsLawful (receiveCamera_good p bytes good s)⟩
  | identify => exact ⟨_, exec_identify s, performHead_keepsLawful _ fun _ => .refl s⟩
  | readEntry => exact ⟨_, exec_readEntry s, performHead_keepsLawful _ fun r => performReadEntry_good r s⟩
  | writeEntry => exact ⟨_, exec_writeEntry s, performHead_keepsLawful _ fun r => performWriteEntry_good r s⟩
  | patchField => exact ⟨_, exec_patchField s, performHead_keepsLawful _ fun r => performPatchField_good r s⟩
  | enable => exact ⟨_, exec_enable s, performHead_keepsLawful _ fun r => enablePort_good r.port s⟩
  | disable => exact ⟨_, exec_disable s, performHead_keepsLawful _ fun r => disablePort_good r.port s⟩
  | park => exact ⟨_, exec_park s, performHead_keepsLawful _ fun r => (Calm.parkPort r.port s).good⟩
  | unpark => exact ⟨_, exec_unpark s, performHead_keepsLawful _ fun r => unparkPort_good r.port s⟩
  | pin => exact ⟨_, exec_pin s, performHead_keepsLawful _ fun r => (Calm.pinPort r.port s).good⟩
  | unpin => exact ⟨_, exec_unpin s, performHead_keepsLawful _ fun r => (Calm.unpinPort r.port s).good⟩
  | wake => exact ⟨_, exec_wake s, (performWake_good s).lawful⟩
  | pause => exact ⟨_, exec_pause s, (performPause_good s).lawful⟩
  | sleep => exact ⟨_, exec_sleep s, performHead_keepsLawful _ fun r => sleepPort_good r.port s⟩
  | clear => exact ⟨_, exec_clear s, performHead_keepsLawful _ fun r => clearPort_good r.port s⟩
  | arm => exact ⟨_, exec_arm s, performHead_keepsLawful _ fun r => performArm_good r.group s⟩
  | disarm => exact ⟨_, exec_disarm s, performHead_keepsLawful _ fun r => (Calm.clearArm r.group s).good⟩
  | prepare => exact ⟨_, exec_prepare s, performHead_keepsLawful _ fun r => performPrepare_good r.group r.lead s⟩
  | cancel => exact ⟨_, exec_cancel s, performHead_keepsLawful _ fun r => performCancel_good r.group s⟩
  | readEvents => exact ⟨_, exec_readEvents s, performHead_keepsLawful _ fun _ => (Calm.clearReported s).good⟩
  | setEventMask => exact ⟨_, exec_setEventMask s, performHead_keepsLawful _ fun _ => (Calm.setMasks _ s).good⟩
  | readCounters => exact ⟨_, exec_readCounters s, performHead_keepsLawful _ fun r => performReadCounters_good r s⟩
  | restart => exact ⟨_, exec_restart s, (performRestart_good s).lawful⟩
  | softRestart => exact ⟨_, exec_softRestart s, .ite softRestart_lawful⟩
  | transmissionStart e => exact ⟨_, exec_transmissionStart e s, whileRunning_keepsLawful (Calm.startTransmission e s).good⟩
  | transmissionEnd e => exact ⟨_, exec_transmissionEnd e s, whileRunning_keepsLawful (Calm.endTransmission e s).good⟩
  | releaseStep p => exact ⟨_, exec_releaseStep p s, whileRunning_keepsLawful (Calm.stepRelease p s).good⟩
  | admissionScan => exact ⟨_, exec_admissionScan s, whileRunning_keepsLawful (scan_good s)⟩
  | triggerReevaluation g => exact ⟨_, exec_triggerReevaluation g s, whileRunning_keepsLawful (Calm.reevaluate g s).good⟩
  | cameraLinkDown p => exact ⟨_, exec_cameraLinkDown p s, (Calm.linkDown p s).lawful⟩
  | cameraLinkUp p => exact ⟨_, exec_cameraLinkUp p s, (Calm.linkUp p s).lawful⟩
  | uplinkLinkDown => exact ⟨_, exec_uplinkLinkDown s, (Calm.modUplink s _ fun h => h).lawful⟩
  | uplinkLinkUp => exact ⟨_, exec_uplinkLinkUp s, (Calm.modUplink s _ fun h => h).lawful⟩
  | uplinkLinkTimerExpiry =>
    exact ⟨_, exec_uplinkLinkTimerExpiry s, whenDue_keepsLawful fun _ => (Calm.uplinkOver s).good⟩
  | senseInputRise p => exact ⟨_, exec_senseInputRise p s, (Calm.senseRise p s).lawful⟩
  | senseInputFall p => exact ⟨_, exec_senseInputFall p s, (Calm.modPort s p .plain).lawful⟩
  | senseFilterExpiry p => exact ⟨_, exec_senseFilterExpiry p s, whenDue_keepsLawful fun _ => senseEdge_good p s⟩
  | feedFaultAsserted p level =>
    refine ⟨_, exec_feedFaultAsserted p level s, ?_⟩
    split
    · exact ((sampleFeedFault_good p level s).trans (settle_good _)).lawful
    · exact (Calm.modPort s p .plain).lawful
  | resetAsserted => exact ⟨_, exec_resetAsserted s, haltAll_lawful⟩
  | resetReleased => exact ⟨_, exec_resetReleased s, .ite releaseReset_lawful⟩
  | tableInitialisationEnd => exact ⟨_, exec_tableInitialisationEnd s, .ite endInitialisation_lawful⟩
  | idleTimerExpiry p =>
    refine ⟨_, exec_idleTimerExpiry p s, whenDue_keepsLawful fun due => idleOver_good p s ?_⟩
    simp only [idleExpired, Bool.and_eq_true, decide_eq_true_eq] at due
    exact due.1.1.1
  | deepIdleExpiry p => exact ⟨_, exec_deepIdleExpiry p s, whenDue_keepsLawful fun _ => enterAsleep_good p s⟩
  | linkTimerExpiry p => exact ⟨_, exec_linkTimerExpiry p s, whenDue_keepsLawful fun _ => enterFaulted_good p _ s⟩
  | coldBootWindowExpiry p =>
    exact ⟨_, exec_coldBootWindowExpiry p s, whenDue_keepsLawful fun _ => coldAttemptFailed_good p s⟩
  | attemptWindowExpiry p =>
    exact ⟨_, exec_attemptWindowExpiry p s, whenDue_keepsLawful fun _ => resumeAttemptFailed_good p s⟩
  | spacingExpiry p => exact ⟨_, exec_spacingExpiry p s, whenDue_keepsLawful fun _ => (Calm.startAttempt p s).good⟩
  | offHoldExpiry p =>
    refine ⟨_, exec_offHoldExpiry p s, whenDue_keepsLawful fun due => offHoldOver_good p s ?_⟩
    simp only [offHoldDue, Bool.or_eq_true] at due
    rcases due with due | due
    · exact awake_of_phaseOver due rfl
    · exact awake_of_phaseOver due rfl
  | pulseCountdownExpiry p =>
    exact ⟨_, exec_pulseCountdownExpiry p s, whenDue_keepsLawful fun _ => (Calm.closeWindow p s).good⟩
  | pauseConfirmWindowExpiry p =>
    exact ⟨_, exec_pauseConfirmWindowExpiry p s, whenDue_keepsLawful fun due => confirmOver_good p s (phaseOver_state due)⟩
  | probeIntervalExpiry p => exact ⟨_, exec_probeIntervalExpiry p s, whenDue_keepsLawful fun _ => probeIntervalOver_good p s⟩
  | scheduleEntryDue p => exact ⟨_, exec_scheduleEntryDue p s, whenDue_keepsLawful fun _ => scheduleDue_good p s⟩
  | rendezvousWindowExpiry g =>
    exact ⟨_, exec_rendezvousWindowExpiry g s, whenDue_keepsLawful fun _ => (Calm.windowOver g s).good⟩
  | armHoldExpiry g =>
    exact ⟨_, exec_armHoldExpiry g s, whenDue_keepsLawful fun _ => ((Calm.clearArm g s).trans (Calm.raise _ _ _)).good⟩
  | preparationTargetExpiry g =>
    exact ⟨_, exec_preparationTargetExpiry g s, whenDue_keepsLawful fun _ => (Calm.targetOver g s).good⟩
  | scrubPassStart =>
    exact ⟨_, exec_scrubPassStart s, whenDue_keepsLawful fun _ => (Calm.modTbm s _ fun _ => rfl).good⟩
  | scrubVisit => exact ⟨_, exec_scrubVisit s, whileRunning_keepsLawful (visitNext_good s)⟩
  | unknownOpRequest => exact ⟨_, exec_unknownOpRequest s, performHead_keepsLawful _ fun _ => .refl s⟩

/-- Settles O7: the next command of the queue keeps the laws of power and queues, and so does the passing of a tick. -/
theorem stepKeepsPowerLaws : Obligations.StepKeepsPowerLaws := by
  unfold Obligations.StepKeepsPowerLaws
  intro s t lawful h
  unfold step at h
  split at h
  · rename_i c rest _
    obtain ⟨u, e, kept⟩ := exec_keepsLawful c { s with pending := rest }
    rw [next_eq (e.symm.trans h)]
    exact kept ⟨lawful.ports, lawful.committed, lawful.within, lawful.stored, lawful.uplink, lawful.fifo⟩
  · rw [next_eq h]
    exact passTime_lawful lawful

end Sys2Proof.Machine
end

section
/-! SUPPORT. Which operations leave ADM as it is (Chapter 3): those of frames and cells, of events and table memory, of the
attempts of the wake engine, and of pending triggers. -/

namespace Sys2Proof.Machine

theorem foldl_adm {α : Type} {f : State → α → State} (h : ∀ s x, (f s x).adm = s.adm) (l : List α) (s : State) :
    (l.foldl f s).adm = s.adm := by
  induction l generalizing s with
  | nil => rfl
  | cons x l ih => rw [List.foldl_cons, ih, h]

/-! ### Cells, queues and receptions -/

@[simp] theorem modCounts_adm (s : State) (p : Port) (f : Counts → Counts) : (s.modCounts p f).adm = s.adm := rfl

@[simp] theorem countDrop_adm (p : Port) (c : DropCause) (s : State) : (countDrop p c s).adm = s.adm := rfl

@[simp] theorem modEgress_adm (s : State) (e : EtherPort) (f : Egress → Egress) : (s.modEgress e f).adm = s.adm := by
  cases e <;> rfl

@[simp] theorem setReceiving_adm (s : State) (e : EtherPort) (r : Reception) : (s.setReceiving e r).adm = s.adm := by
  cases e <;> rfl

@[simp] theorem addRef_adm (c : CellNo) (s : State) : (addRef c s).adm = s.adm := rfl

@[simp] theorem storeCell_adm (c : CellNo) (bs : List Byte) (s : State) : (storeCell c bs s).adm = s.adm := rfl

@[simp] theorem appendTx_adm (e : EtherPort) (x : TxEntry) (s : State) : (appendTx e x s).adm = s.adm := by
  simp [appendTx]

@[simp] theorem originate_adm (e : EtherPort) (bs : List Byte) (s : State) : (originate e bs s).2.adm = s.adm := by
  unfold originate
  split
  · rfl
  · split <;> simp

@[simp] theorem restartIdle_adm (p : Port) (s : State) : (restartIdle p s).adm = s.adm := rfl

@[simp] theorem restartIdles_adm (ps : List Port) (s : State) : (ps.foldl (fun s p => restartIdle p s) s).adm = s.adm :=
  foldl_adm (fun s p => restartIdle_adm p s) ps s

@[simp] theorem forwardDown_adm (p : Port) (x : TxEntry) (a : Bool) (s : State) : (forwardDown p x a s).adm = s.adm := by
  rw [forwardDown_rest]

@[simp] theorem startReception_adm (e : EtherPort) (s : State) : (startReception e s).adm = s.adm := by
  unfold startReception
  split <;> simp

@[simp] theorem startTransmission_adm (e : EtherPort) (s : State) : (startTransmission e s).adm = s.adm := by
  unfold startTransmission
  split
  · rfl
  · split <;> simp

@[simp] theorem endTransmission_adm (e : EtherPort) (s : State) : (endTransmission e s).adm = s.adm := by
  unfold endTransmission
  split
  · dsimp only; split <;> simp [noteResponseSent]
  · rfl

@[simp] theorem abandonReception_adm (e : EtherPort) (s : State) : (abandonReception e s).adm = s.adm := by
  unfold abandonReception
  dsimp only
  split <;> simp

/-! ### Events, masks and reads of table memory -/

@[simp] theorem setMasks_adm (m : PortSet) (s : State) : (setMasks m s).adm = s.adm := by
  unfold setMasks
  dsimp only
  split
  · exact (Quiet.judgeNotice _).adm
  · rfl

@[simp] theorem readPortConfig_adm (p : Port) (s : State) : (readPortConfig p s).2.adm = s.adm :=
  (Quiet.readPortConfig p s).adm

@[simp] theorem readTemplate_adm (i : Fin 48) (s : State) : (readTemplate i s).2.adm = s.adm := (Quiet.readTemplate i s).adm

@[simp] theorem readRule_adm (i : Fin 32) (s : State) : (readRule i s).2.adm = s.adm := (Quiet.readRule i s).adm

@[simp] theorem readClassAction_adm (i : Fin 9) (s : State) : (readClassAction i s).2.adm = s.adm :=
  (Quiet.readClassAction i s).adm

@[simp] theorem readGroupEntry_adm (g : Group) (s : State) : (readGroupEntry g s).2.adm = s.adm :=
  (Quiet.readGroupEntry g s).adm

@[simp] theorem classify_adm (up : Bool) (sc : Option Port) (bs : List Byte) (s : State) :
    (classify up sc bs s).2.adm = s.adm := (Quiet.classify up sc bs s).adm

@[simp] theorem readProxy_adm (i : Fin 64) (s : State) : (readProxy i s).2.adm = s.adm := by
  have noted (f : Finding) (u : State) : (noteFinding .proxy i.val f u).adm = u.adm := (Quiet.noteFinding _ _ f u).adm
  unfold readProxy
  split
  · dsimp only
    split
    · exact noted _ _
    · exact noted _ _
  · rfl

@[simp] theorem readRecords_adm (p : Port) (l : List (Fin 4)) (s : State) : (readRecords p l s).2.adm = s.adm := by
  induction l generalizing s with
  | nil => rfl
  | cons i l ih => exact (ih _).trans (readProxy_adm _ _)

/-! ### Standby answers and frames -/

@[simp] theorem learnAnswer_adm (p : Port) (key : BitVec 16) (bs : List Byte) (o : Option Nat) (s : State) :
    (learnAnswer p key bs o s).adm = s.adm := by
  have h := readRecords_adm p recordIndices s
  unfold learnAnswer
  generalize readRecords p recordIndices s = x at h
  exact h

@[simp] theorem considerLearning_adm (p : Port) (st : PortState) (bs : List Byte) (k o : Option Nat) (s : State) :
    (considerLearning p st bs k o s).adm = s.adm := by
  unfold considerLearning
  split
  · split
    · rfl
    · split
      · rfl
      · exact learnAnswer_adm _ _ _ _ _
  · rfl

@[simp] theorem lookUpPoll_adm (p : Port) (bs : List Byte) (k : Option Nat) (s : State) :
    (lookUpPoll p bs k s).2.adm = s.adm := by
  unfold lookUpPoll
  split
  · rfl
  · dsimp only
    split <;> simp

@[simp] theorem answerPoll_adm (p : Port) (e : ProxyEntry) (bs : List Byte) (o : Option Nat) (s : State) :
    (answerPoll p e bs o s).adm = s.adm := by
  have h := originate_adm .uplink (answerFrame e (s.port p).cfg.station bs o) s
  unfold answerPoll
  split <;> rename_i x <;> rw [x] at h <;> exact h

@[simp] theorem holdFrame_adm (p : Port) (c : CellNo) (n : Nat) (k : Classified) (s : State) :
    (holdFrame p c n k s).2.adm = s.adm := by
  unfold holdFrame
  split
  · dsimp only; split <;> simp
  · simp

@[simp] theorem noCellToPort_adm (p : Port) (k : Classified) (s : State) : (noCellToPort p k s).adm = s.adm := by
  unfold noCellToPort
  dsimp only
  repeat' split
  all_goals simp [countUnknown, State.modDevice]

@[simp] theorem copyTo_adm (ps : List Port) (c : CellNo) (n : Nat) (a : Bool) (s : State) :
    (copyTo ps c n a s).adm = s.adm := foldl_adm (fun _ _ => forwardDown_adm _ _ _ _) ps s

@[simp] theorem countDrops_adm (ps : List Port) (c : DropCause) (s : State) : (countDrops ps c s).adm = s.adm :=
  foldl_adm (fun s p => countDrop_adm p c s) ps s

@[simp] theorem flood_adm (c : Option CellNo) (bs : List Byte) (s : State) : (flood c bs s).adm = s.adm := by
  unfold flood
  dsimp only
  cases c with
  | some c => simp
  | none => dsimp only; split <;> simp

@[simp] theorem unknownUnicast_adm (a : Addr) (s : State) : (unknownUnicast a s).adm = s.adm := by
  unfold unknownUnicast
  split <;> simp [countUnknown, State.modDevice]

@[simp] theorem takeRequest_adm (bs : List Byte) (s : State) : (takeRequest bs s).adm = s.adm := by
  unfold takeRequest
  dsimp only
  repeat' split
  all_goals simp [countUnknown, State.modDevice]

@[simp] theorem forwardUp_adm (p : Port) (c : CellNo) (n : Nat) (s : State) : (forwardUp p c n s).adm = s.adm := by
  unfold forwardUp
  repeat' split
  all_goals simp

/-! ### Release -/

@[simp] theorem noteDeliverable_adm (p : Port) (s : State) : (noteDeliverable p s).adm = s.adm := by
  rw [noteDeliverable_eq]

@[simp] theorem moveHeldUpTo_adm (n : Nat) (p : Port) (s : State) : (moveHeldUpTo n p s).adm = s.adm := by
  induction n generalizing s with
  | zero => rfl
  | succ n ih =>
    unfold moveHeldUpTo
    split
    · rfl
    · split
      · rfl
      · rw [ih, (moveHeld_shape _ _ _ _).1]

@[simp] theorem stepRelease_adm (p : Port) (s : State) : (stepRelease p s).adm = s.adm := by
  unfold stepRelease
  split
  · dsimp only; split <;> simp [stopRelease]
  · rfl

@[simp] theorem startRelease_adm (p : Port) (s : State) : (startRelease p s).adm = s.adm := by
  unfold startRelease
  split <;> simp

/-! ### The wake engine -/

@[simp] theorem readPresent_adm (p : Port) (k : TemplateKind) (s : State) : (readPresent p k s).2.adm = s.adm :=
  (Quiet.readPresent p k s).adm

@[simp] theorem sendTemplate_adm (p : Port) (t : Template) (q : Option (BitVec 16)) (s : State) :
    (sendTemplate p t q s).2.adm = s.adm := by
  have h := originate_adm (.camera p) (templateFrame t (s.port p).cfg.station s.mga.factory q) s
  unfold sendTemplate
  split <;> rename_i e <;> rw [e] at h <;> exact h

@[simp] theorem leaveFrame_adm (p : Port) (s : State) : (leaveFrame p s).adm = s.adm := by
  unfold leaveFrame
  split <;> simp [startLine, State.modOp]

@[simp] theorem startFrame_adm (p : Port) (s : State) : (startFrame p s).adm = s.adm := by
  have h := readPresent_adm p .resume s
  unfold startFrame
  split <;> rename_i e <;> rw [e] at h
  · simpa using h
  · simpa using h

@[simp] theorem startAttempt_adm (p : Port) (s : State) : (startAttempt p s).adm = s.adm := by
  unfold startAttempt
  split
  · exact startFrame_adm p s
  · rfl
  · rfl
  · rfl

@[simp] theorem enterSpacing_adm (p : Port) (s : State) : (enterSpacing p s).adm = s.adm := by
  unfold enterSpacing
  dsimp only
  split <;> simp

@[simp] theorem escalate_adm (p : Port) (m : Method) (s : State) : (escalate p m s).adm = s.adm := by
  simp [escalate, State.modOp]

@[simp] theorem sendProbe_adm (p : Port) (s : State) : (sendProbe p s).adm = s.adm := by
  have h := readPresent_adm p .probe s
  unfold sendProbe
  split <;> rename_i e <;> rw [e] at h
  · exact h
  · simpa using h

/-! ### Pending triggers -/

@[simp] theorem dropTrigger_adm (g : Group) (o : TriggerOutcome) (s : State) : (dropTrigger g o s).adm = s.adm := by
  simp [dropTrigger, endTrigger, State.modSlot]

@[simp] theorem deliverTo_adm (c : CellNo) (a : Bool) (m : PortSet) (s : State) : (deliverTo c a m s).2.adm = s.adm :=
  foldl_adm (fun _ _ => forwardDown_adm _ _ _ _) _ _

@[simp] theorem deliverPending_adm (g : Group) (m : PortSet) (s : State) : (deliverPending g m s).adm = s.adm := by
  unfold deliverPending
  dsimp only
  split <;> simp [endTrigger, State.modSlot, raiseIncomplete]

@[simp] theorem abandonTrigger_adm (g : Group) (s : State) : (abandonTrigger g s).adm = s.adm := by
  simp [abandonTrigger, raiseIncomplete]

@[simp] theorem reevaluate_adm (g : Group) (s : State) : (reevaluate g s).adm = s.adm := by
  unfold reevaluate
  dsimp only
  split
  · rfl
  · split
    · exact (Heard.refuseStrict g s).adm
    · split
      · split
        · simp
        · split <;> simp
      · split <;> simp

@[simp] theorem windowOver_adm (g : Group) (s : State) : (windowOver g s).adm = s.adm := by
  unfold windowOver
  dsimp only
  split <;> simp [endTrigger, State.modSlot, raiseIncomplete]

@[simp] theorem deliverAtArrival_adm (g : Group) (c : GroupConfig) (cell : CellNo) (a : Bool) (s : State) :
    (deliverAtArrival g c cell a s).adm = s.adm := by
  simp [deliverAtArrival, State.modSlot]

@[simp] theorem armGroup_adm (g : Group) (c : GroupConfig) (s : State) : (armGroup g c s).adm = s.adm :=
  restartIdles_adm _ _

@[simp] theorem rewriteMembers_adm (g : Group) (m : PortSet) (s : State) : (rewriteMembers g m s).adm = s.adm := by
  unfold rewriteMembers
  split
  · rw [restartIdles_adm]; exact (Heard.breakArm _ _ _).adm
  · rfl

/-! ### Requests -/

@[simp] theorem respond_adm (r : Request) (st : Status) (pl : List Byte) (s : State) : (respond r st pl s).2.adm = s.adm := by
  have h := originate_adm .uplink (responseFrame r st pl s.mga.factory) s
  unfold respond
  split <;> rename_i e <;> rw [e] at h <;> exact h

@[simp] theorem finishRequest_adm (r : Request) (rest : List Request) (st : Status) (pl : List Byte) (s : State) :
    (finishRequest r rest st pl s).adm = s.adm := respond_adm r st pl s

@[simp] theorem reloadProbing_adm (p : Port) (s : State) : (reloadProbing p s).adm = s.adm := by
  unfold reloadProbing
  split <;> rfl

@[simp] theorem portConfigFieldEffect_adm (p : Port) (s : State) (n : Nat) : (portConfigFieldEffect p s n).adm = s.adm := by
  unfold portConfigFieldEffect
  dsimp only
  repeat' split
  all_goals simp [stopProbing, State.modProbe, clearProxies]

@[simp] theorem writeTemplateEntry_adm (i : Fin 48) (t : Template) (s : State) : (writeTemplateEntry i t s).2.adm = s.adm := by
  unfold writeTemplateEntry
  split
  · rfl
  · dsimp only; split <;> simp [writeTemplate]

@[simp] theorem writeRuleEntry_adm (i : Fin 32) (r : Rule) (s : State) : (writeRuleEntry i r s).2.adm = s.adm := by
  unfold writeRuleEntry
  split <;> rfl

@[simp] theorem writeClassActionEntry_adm (i : Fin 9) (a : ClassAction) (s : State) :
    (writeClassActionEntry i a s).2.adm = s.adm := by
  unfold writeClassActionEntry
  split <;> rfl

@[simp] theorem performRestart_adm (s : State) : (performRestart s).adm = s.adm := by
  unfold performRestart
  split
  · split
    · rfl
    · split
      · split <;> simp
      · rfl
  · rfl

@[simp] theorem parkPort_adm (p : Port) (s : State) : (parkPort p s).2.adm = s.adm := by
  unfold parkPort
  dsimp only
  split
  · rfl
  · dsimp only
    split
    · rw [foldl_adm fun s g => ?_]
      · rfl
      · split <;> rfl
    · rfl

end Sys2Proof.Machine
end

section
/-! SUPPORT. What keeps the laws of the wake queue and the schedule list (R54, R56, R64): a change that makes no need, a port
that comes to rest, a port whose entry is removed, and a new entry. -/

namespace Sys2Proof.Machine

/-- The laws of the wake queue and the schedule list pass from s to t. -/
def KeepsWake (s t : State) : Prop := s.WakeLawful → t.WakeLawful

theorem KeepsWake.refl (s : State) : KeepsWake s s := id

theorem KeepsWake.trans {s t u : State} (h : KeepsWake s t) (k : KeepsWake t u) : KeepsWake s u := k ∘ h

theorem KeepsWake.foldl {α : Type} {f : State → α → State} (h : ∀ s x, KeepsWake s (f s x)) (l : List α) (s : State) :
    KeepsWake s (l.foldl f s) := by
  induction l generalizing s with
  | nil => exact .refl s
  | cons x l ih => exact (h s x).trans (ih _)

/-- Either branch keeps them. -/
theorem KeepsWake.ite {s t u : State} {c : Prop} [Decidable c] (h : c → KeepsWake s t) (k : ¬ c → KeepsWake s u) :
    KeepsWake s (if c then t else u) := by
  split <;> rename_i hc
  · exact h hc
  · exact k hc

/-- A state in which a port may have a wake-queue entry (R56). -/
def PortState.Waits (st : PortState) : Prop := st = .pausing ∨ st = .paused ∨ st = .asleep

/-- What the laws of the wake queue read of an entry. -/
def WakeEntry.ticket (e : WakeEntry) : Port × Nat := (e.port, e.arrival)

/-- The laws of the wake queue, as its tickets have them. -/
theorem wakeLawful_iff (s : State) : s.WakeLawful ↔
    (∀ x ∈ s.adm.wakeQueue.map WakeEntry.ticket, (s.port x.1).state.Waits ∧ x.2 < s.adm.arrivals) ∧
    ((s.adm.wakeQueue.map WakeEntry.ticket).map Prod.fst ++ s.adm.schedule.map (·.port)).Nodup ∧
    (s.adm.wakeQueue.map WakeEntry.ticket).Pairwise (fun a b => a.2 < b.2) ∧ s.adm.arrivals ≤ 65535 := by
  have ports : (s.adm.wakeQueue.map WakeEntry.ticket).map Prod.fst = s.adm.wakeQueue.map (·.port) := List.map_map ..
  rw [ports, List.pairwise_map, List.forall_mem_map]
  constructor
  · rintro ⟨waits, single, ordered, numbered, counter⟩
    exact ⟨fun e he => ⟨waits e he, numbered e he⟩, single, ordered, counter⟩
  · rintro ⟨each, single, ordered, counter⟩
    exact ⟨fun e he => (each e he).1, single, ordered, fun e he => (each e he).2, counter⟩

/-- A change that adds no entry to either list, and takes no port with an entry out of the states in which it waits. -/
theorem KeepsWake.of_fewer {s t : State}
    (queue : (t.adm.wakeQueue.map WakeEntry.ticket).Sublist (s.adm.wakeQueue.map WakeEntry.ticket))
    (schedule : (t.adm.schedule.map (·.port)).Sublist (s.adm.schedule.map (·.port)))
    (arrivals : t.adm.arrivals = s.adm.arrivals)
    (waits : ∀ e ∈ t.adm.wakeQueue, (s.port e.port).state.Waits → (t.port e.port).state.Waits) : KeepsWake s t := by
  intro lawful
  rw [wakeLawful_iff] at lawful ⊢
  obtain ⟨each, single, ordered, counter⟩ := lawful
  refine ⟨?_, single.sublist ((queue.map _).append schedule), ordered.sublist queue, arrivals ▸ counter⟩
  rw [List.forall_mem_map]
  intro e he
  obtain ⟨waited, numbered⟩ := each _ (queue.subset (List.mem_map_of_mem he))
  exact ⟨waits e he waited, arrivals ▸ numbered⟩

/-- A change that leaves both lists and the states of the ports as they are. -/
theorem KeepsWake.of_states {s t : State} (states : ∀ p, (t.port p).state = (s.port p).state)
    (queue : t.adm.wakeQueue = s.adm.wakeQueue) (schedule : t.adm.schedule = s.adm.schedule)
    (arrivals : t.adm.arrivals = s.adm.arrivals) : KeepsWake s t :=
  .of_fewer (by rw [queue]) (by rw [schedule]) arrivals fun e _ => by rw [states]; exact id

/-- A change that the laws of power do not see either, with ADM as it is. -/
theorem KeepsWake.of_calm {s t : State} (c : Calm s t) (adm : t.adm = s.adm) : KeepsWake s t :=
  .of_states c.state (by rw [adm]) (by rw [adm]) (by rw [adm])

theorem KeepsWake.modPort (s : State) {p : Port} {f : PortRec → PortRec} (h : (f (s.port p)).state = (s.port p).state) :
    KeepsWake s (s.modPort p f) := by
  refine .of_states (fun q => ?_) rfl rfl rfl
  by_cases hq : q = p
  · rw [hq, State.modPort_port_same, h]
  · rw [State.modPort_port_ne _ _ hq]

theorem KeepsWake.modTbm (s : State) (f : Tbm → Tbm) : KeepsWake s (s.modTbm f) := .of_states (fun _ => rfl) rfl rfl rfl

/-- The work that is handed on is no matter of the laws. -/
theorem KeepsWake.setOwed (s : State) (l : List Work) : KeepsWake s { s with owed := l } :=
  .of_states (fun _ => rfl) rfl rfl rfl

theorem KeepsWake.owe (s : State) (w : Work) : KeepsWake s (s.owe w) := .setOwed s _

/-- A rewriting of the queue that leaves the port and the arrival number of each entry. -/
theorem KeepsWake.mapQueue (s : State) (f : Adm → Adm) (g : WakeEntry → WakeEntry)
    (tickets : ∀ e, (g e).ticket = e.ticket) (queue : (f s.adm).wakeQueue = s.adm.wakeQueue.map g)
    (schedule : (f s.adm).schedule = s.adm.schedule) (arrivals : (f s.adm).arrivals = s.adm.arrivals) :
    KeepsWake s (s.modAdm f) := by
  refine .of_fewer ?_ (by rw [State.modAdm_adm, schedule]) arrivals fun e _ => id
  have same : WakeEntry.ticket ∘ g = WakeEntry.ticket := funext tickets
  rw [State.modAdm_adm, queue, List.map_map, same]

/-- Schedule entries may go. -/
theorem KeepsWake.fewerSchedules (s : State) (keep : ScheduleEntry → Bool) :
    KeepsWake s (s.modAdm fun a => { a with schedule := a.schedule.filter keep }) :=
  .of_fewer (List.Sublist.refl _) (List.filter_sublist.map _) rfl fun _ _ => id

/-- A port whose entry is removed may move to any state. -/
theorem KeepsWake.of_removed {s t : State} (p : Port) (queue : t.adm.wakeQueue = s.adm.wakeQueue.filter (·.port ≠ p))
    (schedule : t.adm.schedule.Sublist s.adm.schedule) (arrivals : t.adm.arrivals = s.adm.arrivals)
    (others : ∀ q, q ≠ p → (t.port q).state = (s.port q).state) : KeepsWake s t := by
  refine .of_fewer (by rw [queue]; exact List.filter_sublist.map _) (schedule.map _) arrivals fun e he => ?_
  rw [queue] at he
  have other : e.port ≠ p := by simpa using (List.mem_filter.1 he).2
  rw [others _ other]
  exact id

/-- A port may come to rest with its entry. -/
theorem changeState_keepsWake (p : Port) {st : PortState} (h : st.Waits) (s : State) : KeepsWake s (changeState p st s) := by
  obtain ⟨port, others, adm, -⟩ := changeState_spec p st s
  refine .of_fewer (by rw [adm]) (by rw [adm]) (by rw [adm]) fun e _ waited => ?_
  by_cases he : e.port = p
  · rw [he, port]; exact h
  · rw [others _ he]; exact waited

/-! ### New entries (R53, R54) -/

/-- Ports without repeats are at most sixteen. -/
theorem length_le_of_nodup_ports {l : List Port} (h : l.Nodup) : l.length ≤ 16 := by
  have := h.length_le_card
  simpa using this

/-- A new entry of the schedule list, for a port without a pending need (R64). -/
theorem newSchedule_keepsWake {s : State} {p : Port} (g : Group) (n : Nat) (queue : ∀ e ∈ s.adm.wakeQueue, e.port ≠ p)
    (schedule : ∀ e ∈ s.adm.schedule, e.port ≠ p) :
    KeepsWake s (s.modAdm fun a => { a with schedule := a.schedule ++ [⟨p, g, n⟩] }) := by
  rintro ⟨waits, single, ordered, numbered, counter⟩
  refine ⟨waits, ?_, ordered, numbered, counter⟩
  show (s.adm.wakeQueue.map (·.port) ++ (s.adm.schedule ++ [ScheduleEntry.mk p g n]).map (·.port)).Nodup
  rw [List.map_append, ← List.append_assoc]
  refine List.nodup_append.2 ⟨single, List.nodup_singleton _, fun a ha b hb e => ?_⟩
  obtain rfl : b = p := List.mem_singleton.1 hb
  subst e
  rcases List.mem_append.1 ha with m | m
  · obtain ⟨x, hx, k⟩ := List.mem_map.1 m; exact queue x hx k
  · obtain ⟨x, hx, k⟩ := List.mem_map.1 m; exact schedule x hx k

/-- A renumbered queue keeps its ports and stands in the order of its new numbers. -/
theorem renumbered_spec (q : List WakeEntry) :
    (renumbered q).map (·.port) = q.map (·.port) ∧ (renumbered q).Pairwise (fun a b => a.arrival < b.arrival) ∧
      ∀ e ∈ renumbered q, e.arrival < q.length := by
  refine ⟨?_, ?_, fun e he => ?_⟩
  · exact List.ext_getElem (by simp [renumbered]) fun i _ _ => by simp [renumbered]
  · rw [List.pairwise_iff_getElem]
    intro i j hi hj hij
    simpa [renumbered] using hij
  · obtain ⟨i, hi, rfl⟩ := List.getElem_of_mem he
    simpa [renumbered] using hi

/-- The laws with the entry that a queue in order gains at its tail. -/
theorem wakeLawful_newEntry {s t : State} {p : Port} {q : List WakeEntry} {n : Nat} (l : s.WakeLawful)
    (ports : q.map (·.port) = s.adm.wakeQueue.map (·.port)) (ordered : q.Pairwise fun a b => a.arrival < b.arrival)
    (below : ∀ e ∈ q, e.arrival < n) (counter : n < 65535) (x : WakeEntry) (hx : x.port = p) (hn : x.arrival = n)
    (waits : (s.port p).state.Waits) (queue : ∀ e ∈ s.adm.wakeQueue, e.port ≠ p)
    (schedule : ∀ e ∈ s.adm.schedule, e.port ≠ p) (ht : t = { s with adm := { s.adm with
      wakeQueue := q ++ [x], arrivals := n + 1 } }) : t.WakeLawful := by
  subst ht
  refine ⟨fun e he => ?_, ?_, ?_, fun e he => ?_, counter⟩
  · rcases List.mem_append.1 he with m | m
    · have : e.port ∈ q.map (·.port) := List.mem_map_of_mem m
      rw [ports] at this
      obtain ⟨e', he', k⟩ := List.mem_map.1 this
      have := l.waits e' he'
      rw [k] at this
      exact this
    · rw [List.mem_singleton.1 m, hx]; exact waits
  · show ((q ++ [x]).map (·.port) ++ s.adm.schedule.map (·.port)).Nodup
    rw [List.map_append, ports, List.append_assoc]
    refine List.nodup_middle.2 (List.nodup_cons.2 ⟨fun m => ?_, l.single⟩)
    rcases List.mem_append.1 m with m | m
    · obtain ⟨e, he, k⟩ := List.mem_map.1 m; exact queue e he (k.trans hx)
    · obtain ⟨e, he, k⟩ := List.mem_map.1 m; exact schedule e he (k.trans hx)
  · refine List.pairwise_append.2 ⟨ordered, List.pairwise_singleton _ _, fun a ha b hb => ?_⟩
    rw [List.mem_singleton.1 hb, hn]
    exact below a ha
  · show e.arrival < n + 1
    rcases List.mem_append.1 he with m | m
    · have := below e m; omega
    · rw [List.mem_singleton.1 m, hn]; omega

/-- A new entry, for a port that may wait and has no pending need; at the end of the numbers the queue, of at most sixteen
entries, is renumbered first (R53, R54). -/
theorem addEntry_keepsWake {p : Port} {s : State} (cls : WakeClass) (waits : (s.port p).state.Waits)
    (queue : ∀ e ∈ s.adm.wakeQueue, e.port ≠ p) (schedule : ∀ e ∈ s.adm.schedule, e.port ≠ p) :
    KeepsWake s (addEntry p cls s) := by
  intro l
  by_cases full : s.adm.arrivals = 65535
  · obtain ⟨ports, ordered, below⟩ := renumbered_spec s.adm.wakeQueue
    have short : s.adm.wakeQueue.length ≤ 16 := by
      have := length_le_of_nodup_ports (List.nodup_append.1 l.single).1
      rwa [List.length_map] at this
    exact wakeLawful_newEntry l ports ordered below (by omega) ⟨p, cls, s.adm.wakeQueue.length, 0, s.adm.passLimit = 0⟩
      rfl rfl waits queue schedule (by simp [addEntry, State.modAdm, full])
  · have := l.counter
    exact wakeLawful_newEntry l rfl l.ordered l.numbered (by omega) ⟨p, cls, s.adm.arrivals, 0, s.adm.passLimit = 0⟩
      rfl rfl waits queue schedule (by simp [addEntry, State.modAdm, full])

end Sys2Proof.Machine
end

section
/-! SUPPORT. The moves of the ports, the wake engine, admission and the groups keep the laws of the wake queue and the
schedule list (R54, R56, R57, R64, R67, R68). -/

namespace Sys2Proof.Machine

/-! ### Moves of a port's state -/

theorem removeSchedule_keepsWake (p : Port) (s : State) : KeepsWake s (removeSchedule p s) := .fewerSchedules s _

theorem enterFaulted_keepsWake (p : Port) (code : FaultCode) (s : State) : KeepsWake s (enterFaulted p code s) := by
  by_cases h : (s.port p).state = .faulted
  · rw [enterFaulted_faulted h]; exact .refl s
  · have spec := enterFaulted_spec (code := code) h
    exact .of_removed p (by rw [spec.adm]) (by rw [spec.adm]; exact List.filter_sublist) (by rw [spec.adm])
      fun q hq => by rw [spec.others q hq]

theorem enterDisabled_keepsWake (p : Port) (s : State) : KeepsWake s (enterDisabled p s) := by
  have spec := enterDisabled_spec p s
  exact .of_removed p (by rw [spec.adm]) (by rw [spec.adm]; exact List.filter_sublist) (by rw [spec.adm])
    fun q hq => by rw [spec.others q hq]

theorem enterAsleep_keepsWake (p : Port) (s : State) : KeepsWake s (enterAsleep p s) := by
  have spec := enterAsleep_spec p s
  refine .of_fewer (by rw [spec.adm]) (by rw [spec.adm]) (by rw [spec.adm]) fun e _ waited => ?_
  by_cases he : e.port = p
  · rw [he, spec.port]; exact .inr (.inr rfl)
  · rw [spec.others _ he]; exact waited

theorem enterPaused_keepsWake (p : Port) (s : State) : KeepsWake s (enterPaused p s) := by
  have h : KeepsWake s (beginProbing p ((changeState p .paused (endOperation p s)).modPort p
      fun r => { r with deepIdle := 0 })) :=
    (((KeepsWake.of_calm (Calm.endOperation p s) rfl).trans (changeState_keepsWake p (.inr (.inl rfl)) _)).trans
      (.modPort _ rfl)).trans (.of_calm (Calm.beginProbing p _) rfl)
  unfold enterPaused
  dsimp only
  split
  · exact h
  · exact .ite (fun _ => h.trans (enterFaulted_keepsWake _ _ _)) fun _ =>
      .ite (fun _ => h) fun _ => h.trans (.owe _ _)

/-- A port that becomes READY loses its wake-queue entry (R57); `later` comes between the two. -/
theorem ready_keepsWake (p : Port) {s t : State} (c : Calm (changeState p .ready s) t)
    (adm : t.adm = (changeState p .ready s).adm) : KeepsWake s (removeWake p t) := by
  obtain ⟨-, others, moved, -⟩ := changeState_spec p .ready s
  rw [moved] at adm
  refine .of_removed p ?_ ?_ ?_ fun q hq => ?_
  · show t.adm.wakeQueue.filter _ = _; rw [adm]
  · show t.adm.schedule.Sublist _; rw [adm]
  · show t.adm.arrivals = _; rw [adm]
  · show (t.port q).state = _; rw [c.state, others q hq]

theorem startRelease_keepsWake (p : Port) (s : State) : KeepsWake s (startRelease p s) :=
  .of_calm (Calm.startRelease p s) (startRelease_adm p s)

theorem enterReady_keepsWake (p : Port) (w : LastWake) (s : State) : KeepsWake s (enterReady p w s) := by
  unfold enterReady
  exact (ready_keepsWake p (Calm.modPort _ p .plain) rfl).trans (startRelease_keepsWake p _)

theorem pauseFailed_keepsWake (p : Port) (s : State) : KeepsWake s (pauseFailed p s) := by
  unfold pauseFailed
  exact ((KeepsWake.of_calm (Calm.endOperation p s) rfl).trans
    (ready_keepsWake p ((Calm.raise _ _ _).trans (Calm.restartIdle _ _)) (by simp))).trans (startRelease_keepsWake p _)

/-! ### The wake engine -/

theorem feedOn_keepsWake (p : Port) (s : State) : KeepsWake s (feedOn p s) := by
  have h : KeepsWake s (s.modPort p fun r => { r with feed := true }) := .modPort s rfl
  unfold feedOn
  dsimp only
  split
  · exact h.trans (enterFaulted_keepsWake _ _ _)
  · exact h

theorem startAttempt_keepsWake (p : Port) (s : State) : KeepsWake s (startAttempt p s) :=
  .of_calm (Calm.startAttempt p s) (startAttempt_adm p s)

theorem closeWindow_keepsWake (p : Port) (s : State) : KeepsWake s (closeWindow p s) := .of_calm (Calm.closeWindow p s) rfl

theorem resumeAttemptFailed_keepsWake (p : Port) (s : State) : KeepsWake s (resumeAttemptFailed p s) := by
  have closed := closeWindow_keepsWake p s
  have escalates (m : Method) (t : State) : KeepsWake t (escalate p m t) := .of_calm (Calm.escalate p m t) (escalate_adm p m t)
  unfold resumeAttemptFailed
  dsimp only
  split
  · exact closed.trans (.of_calm (Calm.enterSpacing p _) (enterSpacing_adm p _))
  · refine closed.trans ?_
    split
    · exact escalates _ _
    · exact escalates _ _
    · exact enterFaulted_keepsWake _ _ _
    · exact enterFaulted_keepsWake _ _ _

theorem coldAttemptFailed_keepsWake (p : Port) (s : State) : KeepsWake s (coldAttemptFailed p s) := by
  unfold coldAttemptFailed
  exact .ite (fun _ => (KeepsWake.of_calm (Calm.feedOff p s) rfl).trans (.modPort _ rfl)) fun _ =>
    enterFaulted_keepsWake _ _ _

theorem offHoldOver_keepsWake (p : Port) (s : State) : KeepsWake s (offHoldOver p s) :=
  KeepsWake.trans (.modPort s rfl) (feedOn_keepsWake p _)

theorem acceptEvidence_keepsWake (p : Port) (s : State) : KeepsWake s (acceptEvidence p s) := by
  unfold acceptEvidence
  dsimp only
  split
  · exact .refl s
  · exact ((KeepsWake.of_calm (Calm.endOperation p s) rfl).trans (.modPort _ rfl)).trans (enterReady_keepsWake p _ _)

theorem enterPausing_keepsWake (p : Port) (t : Template) (s : State) : KeepsWake s (enterPausing p t s).2 := by
  have sent (u : State) : KeepsWake u (startPause p t u).2 :=
    .of_calm (Calm.startPause p t u) (sendTemplate_adm p t none _)
  have moved : KeepsWake s (changeState p .pausing (stopRelease p (s.modPort p fun r => { r with idle := 0 }))) :=
    (KeepsWake.trans (.modPort s rfl) (.modPort _ rfl)).trans (changeState_keepsWake p (.inl rfl) _)
  unfold enterPausing
  dsimp only
  split
  · exact (moved.trans (.owe _ _)).trans (sent _)
  · exact moved.trans (sent _)

theorem tryPause_keepsWake (p : Port) (s : State) : KeepsWake s (tryPause p s).2 := by
  have template := KeepsWake.of_calm (Calm.readPresent p .pause s) (readPresent_adm p .pause s)
  unfold tryPause
  split <;> rename_i x u eq <;> rw [eq] at template
  · exact template
  · have config := template.trans (.of_calm (Calm.readPortConfig p u) (readPortConfig_adm p u))
    split <;> rename_i y v eq <;> rw [eq] at config
    · exact config.trans (enterFaulted_keepsWake _ _ _)
    · have entered := enterPausing_keepsWake p x (v.modPort p fun r => { r with cfg := y })
      have taken : KeepsWake s (v.modPort p fun r => { r with cfg := y }) := config.trans (.modPort v rfl)
      split <;> rename_i eq <;> rw [eq] at entered
      · exact taken.trans entered
      · exact taken.trans entered

theorem probeIntervalOver_keepsWake (p : Port) (s : State) : KeepsWake s (probeIntervalOver p s) := by
  unfold probeIntervalOver
  extract_lets pr missed t
  have counted : KeepsWake s t := by
    show KeepsWake s (if missed = true then _ else _)
    exact .ite (fun _ => .modPort s rfl) fun _ => .refl s
  refine .ite (fun _ => counted.trans ?_) fun _ => counted.trans (.of_calm (Calm.sendProbe p t) (sendProbe_adm p t))
  exact (enterAsleep_keepsWake p t).trans (.of_calm (Calm.raise _ _ _) (raise_adm _ _ _))

/-! ### Admission (Chapter 3) -/

/-- The entry of a port goes before the port does (R11, R57). -/
theorem admitPort_keepsWake (p : Port) (cls : WakeClass) (s : State) : KeepsWake s (admitPort p cls s) := by
  have removed : KeepsWake s (removeWake p s) := .of_removed p rfl (List.Sublist.refl _) rfl fun _ _ => rfl
  have read : (readPortConfig p (removeWake p s)).2.adm = (removeWake p s).adm := readPortConfig_adm p _
  have calm := Calm.readPortConfig p (removeWake p s)
  unfold admitPort
  dsimp only
  split <;> rename_i e <;> rw [e] at read calm
  · exact (removed.trans (.of_calm calm read)).trans (enterFaulted_keepsWake _ _ _)
  · rename_i cfg t
    have moved (st : PortState) : KeepsWake s
        (changeState p st (stopProbing p (t.modPort p fun r => { r with cfg := cfg, deepIdle := 0 }))) := by
      have c : Calm (removeWake p s) (stopProbing p (t.modPort p fun r => { r with cfg := cfg, deepIdle := 0 })) :=
        (calm.thenPort .plain).trans (Calm.stopProbing _ _)
      obtain ⟨-, others, adm, -⟩ :=
        changeState_spec p st (stopProbing p (t.modPort p fun r => { r with cfg := cfg, deepIdle := 0 }))
      have adm' : (stopProbing p (t.modPort p fun r => { r with cfg := cfg, deepIdle := 0 })).adm =
        (removeWake p s).adm := read
      rw [adm'] at adm
      exact .of_removed p (by rw [adm]; rfl) (by rw [adm]; exact List.Sublist.refl _) (by rw [adm]; rfl)
        fun q hq => by rw [others q hq, c.state]; rfl
    split
    · exact ((moved .waking).trans (.modPort _ rfl)).trans (feedOn_keepsWake p _)
    · exact (moved .resuming).trans (.of_calm (Calm.startResume p cls _) (startAttempt_adm p _))

theorem visit_keepsWake (sc : Scan) (e : WakeEntry) : KeepsWake sc.state (visit sc e).state := by
  unfold visit
  dsimp only
  split
  · exact .refl _
  · split
    · exact admitPort_keepsWake _ _ _
    · split <;> exact .refl _

theorem countPasses_keepsWake (passed : List Port) (s : State) : KeepsWake s (countPasses passed s) :=
  .mapQueue s _ (fun e => if passed.contains e.port then passEntry s.adm.passLimit e else e)
    (fun e => by split <;> rfl) rfl rfl rfl

theorem scan_keepsWake (s : State) : KeepsWake s (scan s) := by
  have visits : ∀ (l : List WakeEntry) (sc : Scan), KeepsWake sc.state (l.foldl visit sc).state := by
    intro l
    induction l with
    | nil => exact fun sc => .refl _
    | cons e l ih => exact fun sc => (visit_keepsWake sc e).trans (ih _)
  exact (visits (scanOrder s) { state := s, closed := [], admitted := [] }).trans (countPasses_keepsWake _ _)

theorem mergeNeed_keepsWake (p : Port) (cls : WakeClass) (s : State) : KeepsWake s (mergeNeed p cls s) :=
  (KeepsWake.mapQueue s _ (fun e => if e.port = p then { e with cls := e.cls.higher cls } else e)
    (fun e => by split <;> rfl) rfl rfl rfl).trans (scan_keepsWake _)

theorem createEntry_keepsWake {p : Port} {s : State} (cls : WakeClass) (waits : (s.port p).state.Waits)
    (queue : ∀ e ∈ s.adm.wakeQueue, e.port ≠ p) (schedule : ∀ e ∈ s.adm.schedule, e.port ≠ p) :
    KeepsWake s (createEntry p cls s) := by
  have added := addEntry_keepsWake cls waits queue schedule
  unfold createEntry
  extract_lets t resting
  exact (KeepsWake.ite (fun _ => added.trans (enterFaulted_keepsWake _ _ _)) fun _ => added).trans (scan_keepsWake _)

/-- A need merges, or takes the place of the port's schedule entry, or is the port's only one (R55, R67). -/
theorem takeNeed_keepsWake (cls : WakeClass) (p : Port) (s : State) : KeepsWake s (takeNeed cls p s) := by
  by_cases h : takesNeed s p = true
  · by_cases queued : ∃ e ∈ s.adm.wakeQueue, e.port = p
    · rw [takeNeed_merges h queued]; exact mergeNeed_keepsWake p cls s
    · have none : ∀ e ∈ s.adm.wakeQueue, e.port ≠ p := fun e he k => queued ⟨e, he, k⟩
      rw [takeNeed_creates h none]
      refine (removeSchedule_keepsWake p s).trans (createEntry_keepsWake _ ?_ none fun e he => ?_)
      · exact ((takesNeed_iff s p).1 h).imp_right And.left
      · simpa using (List.mem_filter.1 he).2
  · rw [takeNeed_discarded h]; exact .refl s

theorem requestSchedule_keepsWake (p : Port) (g : Group) (n : Nat) (s : State) : KeepsWake s (requestSchedule p g n s) := by
  unfold requestSchedule
  split
  · exact .refl s
  · rename_i queued _
    refine .ite (fun _ => ?_) fun _ => .refl s
    refine (removeSchedule_keepsWake p s).trans (newSchedule_keepsWake g n (wakeEntry_none.1 queued) fun e he => ?_)
    simpa using (List.mem_filter.1 he).2
  · rename_i queued listed
    exact newSchedule_keepsWake g n (wakeEntry_none.1 queued) (schedEntry_none.1 listed)

theorem scheduleDue_keepsWake (p : Port) (s : State) : KeepsWake s (scheduleDue p s) := by
  have removed := removeSchedule_keepsWake p s
  unfold scheduleDue
  exact .ite (fun _ => removed.trans (takeNeed_keepsWake _ _ _)) fun _ => removed

theorem applyLimit_keepsWake (d : Domain) (n : Nat) (s : State) : KeepsWake s (applyLimit d n s) := by
  have limited : KeepsWake s (s.modAdm fun a => { a with limits := a.limits.set d n }) :=
    .of_states (fun _ => rfl) rfl rfl rfl
  unfold applyLimit
  exact (limited.trans (.foldl (fun s e => .ite (fun _ => enterFaulted_keepsWake _ _ _) fun _ => .refl _) _ _)).trans
    (scan_keepsWake _)

theorem applyPassLimit_keepsWake (n : Nat) (s : State) : KeepsWake s (applyPassLimit n s) :=
  .mapQueue s _ (fun e => if n ≤ e.passes then { e with blocking := true } else e) (fun e => by split <;> rfl) rfl rfl rfl

/-! ### Groups and what is handed on (Chapter 7) -/

theorem clearArm_keepsWake (g : Group) (s : State) : KeepsWake s (clearArm g s) := by
  by_cases h : (s.group g).arm.armed = true
  · obtain ⟨-, adm, -⟩ := clearArm_spec g s h
    exact .of_fewer (by rw [adm]) (by rw [adm]; exact List.filter_sublist.map _) (by rw [adm]) fun e _ => by
      rw [(Calm.clearArm g s).state]; exact id
  · rw [clearArm, if_neg h]; exact .refl s

theorem readGroup_keepsWake (g : Group) (s : State) : KeepsWake s (readGroup g s).2 := by
  have read := KeepsWake.of_calm (Calm.readGroupEntry g s) (readGroupEntry_adm g s)
  unfold readGroup
  split <;> rename_i u e <;> rw [e] at read
  · unfold groupPoisoned
    refine (read.trans (.ite (fun _ => ?_) fun _ => .refl _)).trans (clearArm_keepsWake g _)
    exact .of_calm ((Calm.dropTrigger _ _ _).trans (Calm.raise _ _ _)) (by simp)
  · exact read

theorem doWork_keepsWake (w : Work) (s : State) : KeepsWake s (doWork w s) := by
  cases w with
  | need c p => exact takeNeed_keepsWake c p s
  | scan => exact scan_keepsWake s
  | reevaluate g => exact .of_calm (Calm.reevaluate g s) (reevaluate_adm g s)

theorem settle_keepsWake (s : State) : KeepsWake s (settle s) := by
  suffices h : ∀ (n : Nat) (s : State), KeepsWake s (settleUpTo n s) from h settleFuel s
  intro n
  induction n with
  | zero => exact fun s => .refl s
  | succ n ih =>
    intro s
    unfold settleUpTo
    split
    · exact .refl s
    · exact ((KeepsWake.setOwed s _).trans (doWork_keepsWake _ _)).trans (ih _)

theorem rendezvousNeeds_keepsWake (ps : List Port) (s : State) : KeepsWake s (rendezvousNeeds ps s) :=
  .foldl (fun s p => takeNeed_keepsWake _ p s) ps s

theorem makePending_keepsWake (g : Group) (c : GroupConfig) (cell : CellNo) (a : Bool) (s : State) :
    KeepsWake s (makePending g c cell a s) := by
  unfold makePending
  extract_lets u t
  have made : KeepsWake s t := .of_states (fun _ => rfl) rfl rfl rfl
  exact .ite (fun _ => made.trans (.of_calm (Calm.abandonTrigger g t) (abandonTrigger_adm g t))) fun _ =>
    made.trans (rendezvousNeeds_keepsWake _ _)

theorem takeTrigger_keepsWake (g : Group) (cell : CellNo) (a : Bool) (s : State) :
    KeepsWake s (takeTrigger g cell a s) := by
  have read := readGroup_keepsWake g s
  have unknown (t : State) : KeepsWake t (countUnknown t) := .of_calm (Calm.countUnknown t) rfl
  have raised (e : Event) (d : Detail) (t : State) : KeepsWake t (raise e d t) := .of_calm (Calm.raise e d t) (raise_adm e d t)
  unfold takeTrigger
  split <;> rename_i e <;> rw [e] at read
  · exact read.trans (unknown _)
  · exact read.trans (.ite (fun _ => unknown _) fun _ => .ite (fun _ => raised _ _ _) fun _ =>
      .ite (fun _ => raised _ _ _) fun _ =>
        .ite (fun _ => .of_calm (Calm.deliverAtArrival _ _ _ _ _) (deliverAtArrival_adm _ _ _ _ _)) fun _ =>
          makePending_keepsWake _ _ _ _ _)

theorem armGroup_keepsWake (g : Group) (c : GroupConfig) (s : State) : KeepsWake s (armGroup g c s) :=
  .of_calm (Calm.armGroup g c s) (armGroup_adm g c s)

theorem targetOver_keepsWake (g : Group) (s : State) : KeepsWake s (targetOver g s) := by
  have read := readGroup_keepsWake g s
  have cleared (t : State) : KeepsWake t (t.modArm g fun a => { a with target := none }) := .of_states (fun _ => rfl) rfl rfl rfl
  unfold targetOver
  split <;> rename_i e <;> rw [e] at read
  · exact read.trans (cleared _)
  · exact (read.trans (cleared _)).trans
      (.ite (fun _ => .refl _) fun _ => .of_calm (Calm.raise _ _ _) (raise_adm _ _ _))

theorem prepareGroup_keepsWake (g : Group) (c : GroupConfig) (lead : Nat) (s : State) :
    KeepsWake s (prepareGroup g c lead s) := by
  have member (s : State) (m : Port × Nat) : KeepsWake s (prepareMember g lead s m) := by
    unfold prepareMember
    exact .ite (fun _ => takeNeed_keepsWake _ _ _) fun _ => requestSchedule_keepsWake _ _ _ _
  unfold prepareGroup
  extract_lets t waits u v
  have armed : KeepsWake s t := (KeepsWake.fewerSchedules s _).trans (armGroup_keepsWake g c _)
  have targeted : KeepsWake u v := .of_states (fun _ => rfl) rfl rfl rfl
  have prepared : KeepsWake s v := (armed.trans (.foldl member waits t)).trans targeted
  exact .ite (fun _ => prepared.trans (targetOver_keepsWake g v)) fun _ => prepared

end Sys2Proof.Machine
end

section
/-! SUPPORT. Frames, requests, port and group commands and the scrubber keep the laws of the wake queue and the schedule list
(R54, R56, R64). -/

namespace Sys2Proof.Machine

/-! ### Downstream frames (R78 to R82) -/

theorem holdAndNeed_keepsWake (p : Port) (c : CellNo) (n : Nat) (k : Classified) (s : State) :
    KeepsWake s (holdAndNeed p c n k s) := by
  have held := KeepsWake.of_calm (Calm.holdFrame p c n k s) (holdFrame_adm p c n k s)
  unfold holdAndNeed
  split <;> rename_i e <;> rw [e] at held
  · exact held.trans (takeNeed_keepsWake _ _ _)
  · exact held

theorem holdOrPark_keepsWake (p : Port) (c : CellNo) (n : Nat) (k : Classified) (s : State) :
    KeepsWake s (holdOrPark p c n k s) := by
  unfold holdOrPark
  exact .ite (fun _ => .of_calm (Calm.countDrop _ _ _) rfl) fun _ => holdAndNeed_keepsWake _ _ _ _ _

theorem deliverToPort_keepsWake (p : Port) (c : CellNo) (bytes : List Byte) (k : Classified) (s : State) :
    KeepsWake s (deliverToPort p c bytes k s) := by
  have dropped (cause : DropCause) : KeepsWake s (countDrop p cause s) := .of_calm (Calm.countDrop p cause s) rfl
  have held : KeepsWake s (holdFrame p c bytes.length k s).2 := .of_calm (Calm.holdFrame _ _ _ _ _) (holdFrame_adm _ _ _ _ _)
  have looked := KeepsWake.of_calm (Calm.lookUpPoll p bytes k.keyOffset s) (lookUpPoll_adm p bytes k.keyOffset s)
  unfold deliverToPort
  dsimp only
  split
  · exact .of_calm (Calm.countUnknown s) rfl
  · exact dropped _
  · exact .ite (fun _ => .of_calm (Calm.forwardDown _ _ _ _) (forwardDown_adm _ _ _ _)) fun _ => held
  · exact dropped _
  · exact held
  · exact held
  · exact held
  · exact holdAndNeed_keepsWake _ _ _ _ _
  · exact holdOrPark_keepsWake _ _ _ _ _
  · split <;> rename_i e <;> rw [e] at looked
    · exact looked.trans (.of_calm (Calm.answerPoll _ _ _ _ _) (answerPoll_adm _ _ _ _ _))
    · exact looked.trans (holdOrPark_keepsWake _ _ _ _ _)
  · exact holdOrPark_keepsWake _ _ _ _ _

theorem classify_keepsWake (up : Bool) (sc : Option Port) (bytes : List Byte) (s : State) :
    KeepsWake s (classify up sc bytes s).2 := .of_calm (Calm.classify up sc bytes s) (classify_adm up sc bytes s)

theorem deliverToGroup_keepsWake (g : Group) (c : Option CellNo) (bytes : List Byte) (s : State) :
    KeepsWake s (deliverToGroup g c bytes s) := by
  have unknown (t : State) : KeepsWake t (countUnknown t) := .of_calm (Calm.countUnknown t) rfl
  have dropped (ps : List Port) (t : State) : KeepsWake t (countDrops ps .noCell t) :=
    .of_calm (Calm.countDrops ps .noCell t) (countDrops_adm ps .noCell t)
  have classified := classify_keepsWake false none bytes s
  unfold deliverToGroup
  generalize classify false none bytes s = x at classified
  obtain ⟨k, t⟩ := x
  dsimp only at classified ⊢
  refine classified.trans ?_
  cases c with
  | some c =>
    refine .ite (fun _ => takeTrigger_keepsWake _ _ _ _) fun _ => ?_
    have read := readGroup_keepsWake g t
    split <;> rename_i e <;> rw [e] at read
    · exact read.trans (unknown _)
    · exact read.trans (.ite (fun _ => .of_calm (Calm.copyTo _ _ _ _ _) (copyTo_adm _ _ _ _ _)) fun _ => unknown _)
  | none =>
    exact .ite (fun _ => unknown _) fun _ =>
      .ite (fun _ => (dropped _ _).trans (.of_calm (Calm.raise _ _ _) (raise_adm _ _ _))) fun _ => dropped _ _

theorem resolveDown_keepsWake (c : Option CellNo) (bytes : List Byte) (s : State) : KeepsWake s (resolveDown c bytes s) := by
  have flooded : KeepsWake s (flood c bytes s) := .of_calm (Calm.flood c bytes s) (flood_adm c bytes s)
  unfold resolveDown
  refine .ite (fun _ => flooded) fun _ => .ite (fun _ => ?_) fun _ => ?_
  · split
    · exact .of_calm (Calm.unknownUnicast _ s) (unknownUnicast_adm _ s)
    · rename_i p _
      have classified := classify_keepsWake false (some p) bytes s
      generalize classify false (some p) bytes s = x at classified
      obtain ⟨k, t⟩ := x
      refine classified.trans ?_
      cases c with
      | some c => exact deliverToPort_keepsWake _ _ _ _ _
      | none => exact .of_calm (Calm.noCellToPort p k t) (noCellToPort_adm p k t)
  · split
    · exact deliverToGroup_keepsWake _ _ _ _
    · exact flooded

theorem dispatchDown_keepsWake (c : Option CellNo) (bytes : List Byte) (s : State) :
    KeepsWake s (dispatchDown c bytes s) := by
  unfold dispatchDown
  refine .ite (fun _ => ?_) fun _ => .ite (fun _ => .of_calm (Calm.countUnknown s) rfl) fun _ =>
    resolveDown_keepsWake c bytes s
  cases c with
  | some c => exact .of_calm (Calm.takeRequest bytes s) (takeRequest_adm bytes s)
  | none => exact .of_calm (Calm.modDevice s _) rfl

/-! ### Upstream frames and receptions -/

theorem cameraShows_keepsWake (p : Port) (bytes : List Byte) (k : Classified) (s : State) :
    KeepsWake s (cameraShows p bytes k s) := by
  have evidence (c : Bool) : KeepsWake s (if c then acceptEvidence p s else s) :=
    .ite (fun _ => acceptEvidence_keepsWake p s) fun _ => .refl s
  unfold cameraShows
  dsimp only
  split
  · exact evidence _
  · exact evidence _
  · refine .ite (fun _ => ?_) fun _ => .refl s
    split
    · exact .ite (fun _ => enterPaused_keepsWake p s) fun _ => .refl s
    · exact .ite (fun _ => KeepsWake.trans (.modPort s rfl) (pauseFailed_keepsWake p _)) fun _ => .refl s
  · exact .ite (fun _ => .of_calm (Calm.judgeProbeAnswer _ _ s) rfl) fun _ =>
      .ite (fun _ => takeNeed_keepsWake _ p s) fun _ => .refl s
  · exact .refl s

theorem upstream_keepsWake (p : Port) (c : Option CellNo) (bytes : List Byte) (s : State) :
    KeepsWake s (upstream p c bytes s) := by
  have dropped (cause : DropCause) (t : State) : KeepsWake t (countDrop p cause t) := .of_calm (Calm.countDrop p cause t) rfl
  unfold upstream
  refine .ite (fun _ => .of_calm (Calm.modDevice s _) rfl) fun _ => ?_
  split
  · exact dropped _ s
  · exact dropped _ s
  · have classified := classify_keepsWake true (some p) bytes s
    generalize classify true (some p) bytes s = x at classified
    obtain ⟨k, t⟩ := x
    refine classified.trans ?_
    cases c with
    | none => exact dropped _ t
    | some c =>
      dsimp only
      have shown := cameraShows_keepsWake p bytes k t
      generalize cameraShows p bytes k t = u at shown
      have restarted (v : State) : KeepsWake v (if k.activity then restartIdle p v else v) :=
        .ite (fun _ => .of_calm (Calm.restartIdle p v) rfl) fun _ => .refl v
      have learned (v : State) : KeepsWake v (if k.cls = .pollAnswer then
          considerLearning p (s.port p).state bytes k.keyOffset k.seqOffset v else v) :=
        .ite (fun _ => .of_calm (Calm.considerLearning _ _ _ _ _ v) (considerLearning_adm _ _ _ _ _ v)) fun _ => .refl v
      refine ((shown.trans (restarted u)).trans (learned _)).trans ?_
      exact .ite (fun _ => .refl _) fun _ => .of_calm (Calm.forwardUp _ _ _ _) (forwardUp_adm _ _ _ _)

theorem endReception_keepsWake (e : EtherPort) (bytes : List Byte) (good : Bool) (drop : State → State)
    (take : Option CellNo → State → State) (s : State) (hd : ∀ t, KeepsWake t (drop t))
    (ht : ∀ c t, KeepsWake t (take c t)) : KeepsWake s (endReception e bytes good drop take s) := by
  have ended : KeepsWake s (s.setReceiving e .idle) := .of_calm (Calm.setReceiving s e .idle) (setReceiving_adm s e .idle)
  unfold endReception
  split
  · exact .refl s
  · exact ended.trans (.ite (fun _ => ht _ _) fun _ => hd _)
  · exact (((ended.trans (.of_calm (Calm.storeCell _ _ _) rfl)).trans (.ite (fun _ => ht _ _) fun _ => hd _))).trans
      (.of_calm (Calm.dropRef _ _) (dropRef_adm _ _))

theorem receiveUplink_keepsWake (bytes : List Byte) (good : Bool) (s : State) : KeepsWake s (receiveUplink bytes good s) :=
  endReception_keepsWake _ _ _ _ _ s (fun t => .of_calm (Calm.modDevice t _) rfl) fun c t => dispatchDown_keepsWake c bytes t

theorem receiveCamera_keepsWake (p : Port) (bytes : List Byte) (good : Bool) (s : State) :
    KeepsWake s (receiveCamera p bytes good s) :=
  endReception_keepsWake _ _ _ _ _ s (fun t => .of_calm (Calm.countDrop p _ t) rfl) fun c t => upstream_keepsWake p c bytes t

/-! ### Requests (Chapter 9) -/

theorem readPortConfigWithEffect_keepsWake (p : Port) (s : State) : KeepsWake s (readPortConfigWithEffect p s).2 := by
  have read := KeepsWake.of_calm (Calm.readPortConfig p s) (readPortConfig_adm p s)
  unfold readPortConfigWithEffect portConfigPoisoned
  split <;> rename_i e <;> rw [e] at read
  · exact read.trans (.ite (fun _ => enterFaulted_keepsWake _ _ _) fun _ => .refl _)
  · exact read

theorem readTemplate_keepsWake (i : Fin 48) (s : State) : KeepsWake s (readTemplate i s).2 :=
  .of_calm (Calm.readTemplate i s) (readTemplate_adm i s)

theorem readRule_keepsWake (i : Fin 32) (s : State) : KeepsWake s (readRule i s).2 :=
  .of_calm (Calm.readRule i s) (readRule_adm i s)

theorem readClassAction_keepsWake (i : Fin 9) (s : State) : KeepsWake s (readClassAction i s).2 :=
  .of_calm (Calm.readClassAction i s) (readClassAction_adm i s)

theorem readProxy_keepsWake (i : Fin 64) (s : State) : KeepsWake s (readProxy i s).2 :=
  .of_calm (Calm.readProxy i s) (readProxy_adm i s)

theorem performReadEntry_keepsWake (r : Request) (s : State) : KeepsWake s (performReadEntry r s).2.2 := by
  unfold performReadEntry
  split
  · exact .refl s
  · rw [answerRead_state]; exact readPortConfigWithEffect_keepsWake _ s
  · rw [answerRead_state]; exact readTemplate_keepsWake _ s
  · rw [answerRead_state]; exact readRule_keepsWake _ s
  · rw [answerRead_state]; exact readClassAction_keepsWake _ s
  · rw [answerRead_state]; exact readGroup_keepsWake _ s
  · exact .refl s
  · exact .refl s
  · exact .refl s
  · exact .refl s
  · unfold readProxyEntry
    dsimp only
    split
    · rw [answerRead_state]; exact readProxy_keepsWake _ s
    · exact .refl s

theorem writePortFields_keepsWake (p : Port) (w : List Nat) (c : PortConfig) (s : State) :
    KeepsWake s (writePortFields p w c s).2 := by
  unfold writePortFields
  split
  · exact .refl s
  · split
    · exact .refl s
    · have stored : KeepsWake s (writePortConfig p c.clamped s) := .of_states (fun _ => rfl) rfl rfl rfl
      exact (stored.trans (.modPort _ rfl)).trans
        (.foldl (fun t n => .of_calm (Calm.portConfigFieldEffect p t n) (portConfigFieldEffect_adm p t n)) _ _)

theorem writeTemplateEntry_keepsWake (i : Fin 48) (t : Template) (s : State) : KeepsWake s (writeTemplateEntry i t s).2 :=
  .of_calm (Calm.writeTemplateEntry i t s) (writeTemplateEntry_adm i t s)

theorem writeRuleEntry_keepsWake (i : Fin 32) (r : Rule) (s : State) : KeepsWake s (writeRuleEntry i r s).2 :=
  .of_calm (Calm.writeRuleEntry i r s) (writeRuleEntry_adm i r s)

theorem writeClassActionEntry_keepsWake (i : Fin 9) (a : ClassAction) (s : State) :
    KeepsWake s (writeClassActionEntry i a s).2 :=
  .of_calm (Calm.writeClassActionEntry i a s) (writeClassActionEntry_adm i a s)

theorem writeGroupFields_keepsWake (g : Group) (w : List Nat) (c : GroupConfig) (s : State) :
    KeepsWake s (writeGroupFields g w c s).2 := by
  unfold writeGroupFields
  split
  · exact .refl s
  · split
    · exact .refl s
    · split
      · exact .refl s
      · extract_lets t u
        have stored : KeepsWake s t := .of_states (fun _ => rfl) rfl rfl rfl
        have members : KeepsWake t u :=
          .ite (fun _ => .of_calm (Calm.rewriteMembers _ _ _) (rewriteMembers_adm _ _ _)) fun _ => .refl t
        exact (stored.trans members).trans (.ite (fun _ => clearArm_keepsWake g u) fun _ => .refl u)

theorem writeLimit_keepsWake (d : Domain) (n : Nat) (s : State) : KeepsWake s (writeLimit d n s).2 := by
  unfold writeLimit
  split
  · exact .refl s
  · split
    · exact .refl s
    · exact applyLimit_keepsWake d n s

theorem writeDevice_keepsWake (f : List (Nat × Nat)) (s : State) : KeepsWake s (writeDevice f s).2 := by
  have field (s : State) (x : Nat × Nat) : KeepsWake s (setDeviceField s x.1 x.2) := by
    unfold setDeviceField
    split
    · exact .of_states (fun _ => rfl) rfl rfl rfl
    · exact .of_states (fun _ => rfl) rfl rfl rfl
    · exact .of_states (fun _ => rfl) rfl rfl rfl
    · exact .of_states (fun _ => rfl) rfl rfl rfl
    · exact applyPassLimit_keepsWake _ s
    · exact .of_states (fun _ => rfl) rfl rfl rfl
    · exact .refl s
  unfold writeDevice
  split
  · exact .refl s
  · exact .foldl field f s

theorem performWriteEntry_keepsWake (r : Request) (s : State) : KeepsWake s (performWriteEntry r s).2.2 := by
  unfold performWriteEntry
  dsimp only
  split
  · exact writePortFields_keepsWake _ _ _ s
  · exact writeTemplateEntry_keepsWake _ _ s
  · exact writeRuleEntry_keepsWake _ _ s
  · exact writeClassActionEntry_keepsWake _ _ s
  · exact writeGroupFields_keepsWake _ _ _ s
  · exact writeLimit_keepsWake _ _ s
  · exact writeDevice_keepsWake _ s
  · exact .refl s

theorem patchRead_keepsWake {α : Type} (write : α → State → Status × State) (x : Option α × State) {s : State}
    (h : KeepsWake s x.2) (hw : ∀ e t, KeepsWake t (write e t).2) : KeepsWake s (patchRead write x).2.2 := by
  obtain ⟨o, t⟩ := x
  cases o with
  | none => exact h
  | some e => exact h.trans (hw e t)

theorem performPatchField_keepsWake (r : Request) (s : State) : KeepsWake s (performPatchField r s).2.2 := by
  unfold performPatchField
  dsimp only
  split
  · exact patchRead_keepsWake _ _ (readPortConfigWithEffect_keepsWake _ s) fun _ _ => writePortFields_keepsWake _ _ _ _
  · exact patchRead_keepsWake _ _ (readTemplate_keepsWake _ s) fun _ _ => writeTemplateEntry_keepsWake _ _ _
  · exact patchRead_keepsWake _ _ (readRule_keepsWake _ s) fun _ _ => writeRuleEntry_keepsWake _ _ _
  · exact patchRead_keepsWake _ _ (readClassAction_keepsWake _ s) fun _ _ => writeClassActionEntry_keepsWake _ _ _
  · exact patchRead_keepsWake _ _ (readGroup_keepsWake _ s) fun _ _ => writeGroupFields_keepsWake _ _ _ _
  · exact writeLimit_keepsWake _ _ s
  · exact writeDevice_keepsWake _ s
  · exact .refl s

/-! ### Port and group commands -/

theorem takeConfig_keepsWake (p : Port) (c : PortConfig) (s : State) : KeepsWake s (takeConfig p c s) := .modPort s rfl

theorem enablePort_keepsWake (p : Port) (s : State) : KeepsWake s (enablePort p s).2 := by
  have read := KeepsWake.of_calm (Calm.readPortConfig p s) (readPortConfig_adm p s)
  unfold enablePort
  split
  · exact .refl s
  · split <;> rename_i e <;> rw [e] at read
    · exact read
    · split
      · exact read
      · exact ((read.trans (takeConfig_keepsWake p _ _)).trans (.modPort _ rfl)).trans (enterAsleep_keepsWake p _)

theorem disablePort_keepsWake (p : Port) (s : State) : KeepsWake s (disablePort p s).2 := by
  unfold disablePort
  split
  · exact .refl s
  · exact enterDisabled_keepsWake p s

theorem unparkPort_keepsWake (p : Port) (s : State) : KeepsWake s (unparkPort p s).2 := by
  unfold unparkPort
  split
  · exact KeepsWake.trans (.modPort s rfl) (.ite (fun _ => scan_keepsWake _) fun _ => .refl _)
  · exact .refl s

theorem wakePort_keepsWake (p : Port) (s : State) : KeepsWake s (wakePort p s).2 := by
  have rests : KeepsWake s (if (s.port p).park then (Status.conflict, s)
      else (.ok, if wakeOverBudget p s then s else takeNeed .traffic p s)).2 := by
    split
    · exact .refl s
    · exact .ite (fun _ => .refl s) fun _ => takeNeed_keepsWake _ p s
  unfold wakePort
  dsimp only
  generalize (s.port p).state = st
  cases st with
  | disabled | faulted | waking | ready | resuming => exact .refl s
  | pausing => exact takeNeed_keepsWake _ p s
  | asleep | paused => exact rests

theorem afterWake_keepsWake (p : Port) (s t : State) : KeepsWake t (afterWake p s t) := by
  unfold afterWake
  exact .ite (fun _ => (takeNeed_keepsWake _ p t).trans (settle_keepsWake _)) fun _ => .refl t

theorem pausePort_keepsWake (p : Port) (s : State) : KeepsWake s (pausePort p s).2 := by
  have tried := tryPause_keepsWake p s
  unfold pausePort
  split
  · exact .refl s
  · split <;> rename_i e <;> rw [e] at tried <;> exact tried

theorem afterPause_keepsWake (p : Port) (s t : State) : KeepsWake t (afterPause p s t) := by
  unfold afterPause
  exact .ite (fun _ => (pauseFailed_keepsWake p t).trans (settle_keepsWake _)) fun _ => .refl t

theorem sleepPort_keepsWake (p : Port) (s : State) : KeepsWake s (sleepPort p s).2 := by
  unfold sleepPort
  dsimp only
  split
  · exact enterAsleep_keepsWake p s
  · exact .refl s

theorem clearPort_keepsWake (p : Port) (s : State) : KeepsWake s (clearPort p s).2 := by
  have read := KeepsWake.of_calm (Calm.readPortConfig p s) (readPortConfig_adm p s)
  unfold clearPort
  split
  · exact .refl s
  · split <;> rename_i e <;> rw [e] at read
    · exact read
    · exact (read.trans (takeConfig_keepsWake p _ _)).trans (enterAsleep_keepsWake p _)

theorem checkedArm_keepsWake (g : Group) (take : GroupConfig → State → State) (s : State)
    (ht : ∀ c t, KeepsWake t (take c t)) : KeepsWake s (checkedArm g take s).2.2 := by
  have read := readGroup_keepsWake g s
  unfold checkedArm
  split <;> rename_i e <;> rw [e] at read
  · exact read
  · split
    · exact read
    · exact read.trans (ht _ _)

theorem performArm_keepsWake (g : Group) (s : State) : KeepsWake s (performArm g s).2.2 :=
  checkedArm_keepsWake g _ s fun c t => (armGroup_keepsWake g c t).trans (rendezvousNeeds_keepsWake _ _)

theorem performPrepare_keepsWake (g : Group) (lead : Nat) (s : State) : KeepsWake s (performPrepare g lead s).2.2 := by
  unfold performPrepare
  split
  · exact .refl s
  · exact checkedArm_keepsWake g _ s fun c t => prepareGroup_keepsWake g c lead t

theorem performCancel_keepsWake (g : Group) (s : State) : KeepsWake s (performCancel g s).2.2 := by
  unfold performCancel
  split
  · exact .of_calm (Calm.dropTrigger g .cancelled s) (dropTrigger_adm g .cancelled s)
  · exact .refl s

theorem performReadCounters_keepsWake (r : Request) (s : State) : KeepsWake s (performReadCounters r s).2.2 := by
  unfold performReadCounters
  split
  · exact .of_states (fun _ => rfl) rfl rfl rfl
  · exact .of_calm (Calm.modCounts s r.port fun _ => Counts.zero) rfl

/-! ### Lines, expiries and the scrubber -/

theorem sampleFeedFault_keepsWake (p : Port) (level : Bool) (s : State) : KeepsWake s (sampleFeedFault p level s) := by
  unfold sampleFeedFault
  exact KeepsWake.trans (.modPort s rfl) (.ite (fun _ => enterFaulted_keepsWake _ _ _) fun _ => .refl _)

theorem senseEdge_keepsWake (p : Port) (s : State) : KeepsWake s (senseEdge p s) := by
  unfold senseEdge
  exact KeepsWake.trans (.modPort s rfl) (.ite (fun _ => takeNeed_keepsWake _ _ _) fun _ => .of_calm (Calm.restartIdle _ _) rfl)

theorem idleOver_keepsWake (p : Port) (s : State) : KeepsWake s (idleOver p s) := by
  have tried := tryPause_keepsWake p s
  unfold idleOver
  split <;> rename_i e <;> rw [e] at tried
  · exact tried.trans (enterAsleep_keepsWake p _)
  · exact tried
  · exact tried
  · exact (tried.trans (settle_keepsWake _)).trans (pauseFailed_keepsWake p _)

theorem confirmOver_keepsWake (p : Port) (s : State) : KeepsWake s (confirmOver p s) := by
  unfold confirmOver
  exact .ite (fun _ => enterPaused_keepsWake p s) fun _ => pauseFailed_keepsWake p s

theorem visitEntry_keepsWake (e : ScrubEntry) (s : State) : KeepsWake s (visitEntry e s) := by
  cases e with
  | portConfig p => exact readPortConfigWithEffect_keepsWake p s
  | template i => exact readTemplate_keepsWake i s
  | rule i => exact readRule_keepsWake i s
  | classAction i => exact readClassAction_keepsWake i s
  | group g => exact readGroup_keepsWake g s
  | proxy i => exact readProxy_keepsWake i s

theorem visitNext_keepsWake (s : State) : KeepsWake s (visitNext s) := by
  unfold visitNext
  split
  · exact .refl s
  · rename_i n _
    generalize scrubPass[n]? = e
    extract_lets t
    have counted : KeepsWake s t := .modTbm s _
    cases e with
    | none => exact counted
    | some e => exact counted.trans (visitEntry_keepsWake e t)

end Sys2Proof.Machine
end

section
/-! SUPPORT. Every command keeps the laws of the wake queue and the schedule list, and so does the passing of a tick (R54,
R56, R64): O8. -/

namespace Sys2Proof.Machine

/-! ### Restarts and the tick -/

/-- With both lists empty the laws hold. -/
theorem wakeLawful_of_empty {s : State} (queue : s.adm.wakeQueue = []) (schedule : s.adm.schedule = [])
    (arrivals : s.adm.arrivals = 0) : s.WakeLawful := by
  rw [wakeLawful_iff, queue, schedule, arrivals]
  simp

theorem haltAll_keepsWake (s : State) : KeepsWake s (haltAll s) := by
  have port (s : State) (p : Port) : KeepsWake s (haltPort p s) :=
    .of_calm (Calm.haltPort p s) ((abandonReception_adm _ _).trans rfl)
  have group (s : State) (g : Group) : KeepsWake s (haltGroup g s) := by
    refine .of_calm (Calm.haltGroup g s) ?_
    unfold haltGroup
    dsimp only
    split <;> simp
  have uplink (s : State) : KeepsWake s (abandonReception .uplink s) :=
    .of_calm (Calm.abandonReception .uplink s) (abandonReception_adm .uplink s)
  unfold haltAll
  extract_lets a b c d
  have halted : KeepsWake s a := (KeepsWake.foldl port allPorts s).trans (.foldl group allGroups _)
  clear_value a
  have cut : KeepsWake a b := (uplink a).trans (.of_states (fun _ => rfl) rfl rfl rfl)
  have cleared : KeepsWake b c := .of_fewer (List.Sublist.refl _) (List.nil_sublist _) rfl fun _ _ => id
  have idle : KeepsWake c { d with phase := .inReset, owed := [] } := .of_states (fun _ => rfl) rfl rfl rfl
  exact ((halted.trans cut).trans cleared).trans idle

theorem tick_keepsWake (s : State) : KeepsWake s (tick s) := by
  refine .of_fewer (List.Sublist.refl _) ?_ rfl fun e _ => by rw [tick_port]; exact id
  show ((s.adm.schedule.map fun e => { e with countdown := e.countdown - 1 }).map (·.port)).Sublist _
  rw [List.map_map]
  exact List.Sublist.refl _

/-- The queue of commands is no matter of the laws. -/
theorem KeepsWake.setPending (s : State) (l : List Instr) : KeepsWake s { s with pending := l } :=
  .of_states (fun _ => rfl) rfl rfl rfl

theorem passTime_keepsWake (s : State) : KeepsWake s (passTime s) := by
  unfold passTime
  split
  · split
    · exact (tick_keepsWake s).trans (.setPending _ _)
    · exact .setPending s _
  · exact .refl s

/-! ### The walk over the commands -/

theorem whileRunning_keepsWake {f : State → State} {s : State} (h : KeepsWake s (f s)) : KeepsWake s (whileRunning f s) := by
  unfold whileRunning
  exact .ite (fun _ => h.trans (settle_keepsWake _)) fun _ => .refl s

theorem whenDue_keepsWake (due : State → Bool) {f : State → State} {s : State} (h : KeepsWake s (f s)) :
    KeepsWake s (whileRunning (whenDue due f) s) := by
  refine whileRunning_keepsWake ?_
  unfold whenDue
  exact .ite (fun _ => h) fun _ => .refl s

theorem performHead_keepsWake (row : Row) {effect : Request → State → Performed} {s : State}
    (h : ∀ r, KeepsWake s (effect r s).2.2) : KeepsWake s (performHead row effect s) := by
  unfold performHead
  refine .ite (fun _ => ?_) fun _ => .refl s
  split
  · exact .refl s
  · rename_i r rest _
    refine .ite (fun _ => ?_) fun _ => .refl s
    have made : KeepsWake s (performed effect r s).2.2 := by
      unfold performed
      split
      · exact .refl s
      · exact h r
    have answered (st : Status) (pl : List Byte) (t : State) : KeepsWake t (finishRequest r rest st pl t) :=
      (KeepsWake.of_calm (Calm.respond r st pl t) (respond_adm r st pl t)).trans (.of_states (fun _ => rfl) rfl rfl rfl)
    exact (made.trans (settle_keepsWake _)).trans (answered _ _ _)

theorem performHeadThen_keepsWake (row : Row) {effect : Request → State → Performed}
    {later : Request → State → State → State} {s : State} (h : ∀ r, KeepsWake s (effect r s).2.2)
    (k : ∀ r t, KeepsWake t (later r s t)) : KeepsWake s (performHeadThen row effect later s) := by
  unfold performHeadThen
  dsimp only
  split
  · exact (performHead_keepsWake row h).trans (k _ _)
  · exact performHead_keepsWake row h

theorem performRestart_keepsWake (s : State) : KeepsWake s (performRestart s) := by
  have states : ∀ p, ((performRestart s).port p).state = (s.port p).state := by
    intro p
    unfold performRestart
    split
    · split
      · rfl
      · split
        · split
          · exact (Calm.respond _ _ _ s).state p
          · exact (Calm.respond _ _ _ s).state p
        · rfl
    · rfl
  exact .of_states states (by rw [performRestart_adm]) (by rw [performRestart_adm]) (by rw [performRestart_adm])

theorem exec_keepsWake (i : Instr) (s : State) : ∃ t, exec i s = .next t ∧ KeepsWake s t := by
  cases i with
  | receptionStart e =>
    exact ⟨_, exec_receptionStart e s, whileRunning_keepsWake (.of_calm (Calm.startReception e s) (startReception_adm e s))⟩
  | uplinkFrameReceived bytes good =>
    exact ⟨_, exec_uplinkFrameReceived bytes good s, whileRunning_keepsWake (receiveUplink_keepsWake bytes good s)⟩
  | cameraFrameReceived p bytes good =>
    exact ⟨_, exec_cameraFrameReceived p bytes good s, whileRunning_keepsWake (receiveCamera_keepsWake p bytes good s)⟩
  | identify => exact ⟨_, exec_identify s, performHead_keepsWake _ fun _ => .refl s⟩
  | readEntry => exact ⟨_, exec_readEntry s, performHead_keepsWake _ fun r => performReadEntry_keepsWake r s⟩
  | writeEntry => exact ⟨_, exec_writeEntry s, performHead_keepsWake _ fun r => performWriteEntry_keepsWake r s⟩
  | patchField => exact ⟨_, exec_patchField s, performHead_keepsWake _ fun r => performPatchField_keepsWake r s⟩
  | enable => exact ⟨_, exec_enable s, performHead_keepsWake _ fun r => enablePort_keepsWake r.port s⟩
  | disable => exact ⟨_, exec_disable s, performHead_keepsWake _ fun r => disablePort_keepsWake r.port s⟩
  | park =>
    exact ⟨_, exec_park s, performHead_keepsWake _ fun r => .of_calm (Calm.parkPort r.port s) (parkPort_adm r.port s)⟩
  | unpark => exact ⟨_, exec_unpark s, performHead_keepsWake _ fun r => unparkPort_keepsWake r.port s⟩
  | pin =>
    refine ⟨_, exec_pin s, performHead_keepsWake _ fun r => .of_calm (Calm.pinPort r.port s) ?_⟩
    show (pinPort r.port s).2.adm = s.adm
    unfold pinPort
    dsimp only
    split
    · rfl
    · split <;> rfl
  | unpin =>
    refine ⟨_, exec_unpin s, performHead_keepsWake _ fun r => .of_calm (Calm.unpinPort r.port s) ?_⟩
    show (unpinPort r.port s).2.adm = s.adm
    rw [unpinPort_eq]; rfl
  | wake =>
    exact ⟨_, exec_wake s, performHeadThen_keepsWake _ (fun r => wakePort_keepsWake r.port s) fun r => afterWake_keepsWake r.port s⟩
  | pause =>
    exact ⟨_, exec_pause s, performHeadThen_keepsWake _ (fun r => pausePort_keepsWake r.port s) fun r => afterPause_keepsWake r.port s⟩
  | sleep => exact ⟨_, exec_sleep s, performHead_keepsWake _ fun r => sleepPort_keepsWake r.port s⟩
  | clear => exact ⟨_, exec_clear s, performHead_keepsWake _ fun r => clearPort_keepsWake r.port s⟩
  | arm => exact ⟨_, exec_arm s, performHead_keepsWake _ fun r => performArm_keepsWake r.group s⟩
  | disarm => exact ⟨_, exec_disarm s, performHead_keepsWake _ fun r => clearArm_keepsWake r.group s⟩
  | prepare => exact ⟨_, exec_prepare s, performHead_keepsWake _ fun r => performPrepare_keepsWake r.group r.lead s⟩
  | cancel => exact ⟨_, exec_cancel s, performHead_keepsWake _ fun r => performCancel_keepsWake r.group s⟩
  | readEvents =>
    exact ⟨_, exec_readEvents s, performHead_keepsWake _ fun _ => .of_states (fun _ => rfl) rfl rfl rfl⟩
  | setEventMask =>
    exact ⟨_, exec_setEventMask s, performHead_keepsWake _ fun _ => .of_calm (Calm.setMasks _ s) (setMasks_adm _ s)⟩
  | readCounters => exact ⟨_, exec_readCounters s, performHead_keepsWake _ fun r => performReadCounters_keepsWake r s⟩
  | restart => exact ⟨_, exec_restart s, performRestart_keepsWake s⟩
  | softRestart =>
    exact ⟨_, exec_softRestart s, .ite (fun _ _ => wakeLawful_of_empty rfl rfl rfl) fun _ => .refl s⟩
  | transmissionStart e =>
    exact ⟨_, exec_transmissionStart e s,
      whileRunning_keepsWake (.of_calm (Calm.startTransmission e s) (startTransmission_adm e s))⟩
  | transmissionEnd e =>
    exact ⟨_, exec_transmissionEnd e s, whileRunning_keepsWake (.of_calm (Calm.endTransmission e s) (endTransmission_adm e s))⟩
  | releaseStep p =>
    exact ⟨_, exec_releaseStep p s, whileRunning_keepsWake (.of_calm (Calm.stepRelease p s) (stepRelease_adm p s))⟩
  | admissionScan => exact ⟨_, exec_admissionScan s, whileRunning_keepsWake (scan_keepsWake s)⟩
  | triggerReevaluation g =>
    exact ⟨_, exec_triggerReevaluation g s, whileRunning_keepsWake (.of_calm (Calm.reevaluate g s) (reevaluate_adm g s))⟩
  | cameraLinkDown p => exact ⟨_, exec_cameraLinkDown p s, .of_calm (Calm.linkDown p s) rfl⟩
  | cameraLinkUp p =>
    refine ⟨_, exec_cameraLinkUp p s, ?_⟩
    unfold linkUp
    exact .ite (fun _ => .modPort s rfl) fun _ => .refl s
  | uplinkLinkDown => exact ⟨_, exec_uplinkLinkDown s, .of_states (fun _ => rfl) rfl rfl rfl⟩
  | uplinkLinkUp => exact ⟨_, exec_uplinkLinkUp s, .of_states (fun _ => rfl) rfl rfl rfl⟩
  | uplinkLinkTimerExpiry =>
    exact ⟨_, exec_uplinkLinkTimerExpiry s, whenDue_keepsWake _ (.of_calm (Calm.uplinkOver s) (raise_adm _ _ _))⟩
  | senseInputRise p => exact ⟨_, exec_senseInputRise p s, .of_calm (Calm.senseRise p s) rfl⟩
  | senseInputFall p =>
    refine ⟨_, exec_senseInputFall p s, ?_⟩
    unfold senseFall
    exact .modPort s rfl
  | senseFilterExpiry p => exact ⟨_, exec_senseFilterExpiry p s, whenDue_keepsWake _ (senseEdge_keepsWake p s)⟩
  | feedFaultAsserted p level =>
    exact ⟨_, exec_feedFaultAsserted p level s,
      .ite (fun _ => (sampleFeedFault_keepsWake p level s).trans (settle_keepsWake _)) fun _ => .modPort s rfl⟩
  | resetAsserted => exact ⟨_, exec_resetAsserted s, haltAll_keepsWake s⟩
  | resetReleased =>
    exact ⟨_, exec_resetReleased s, .ite (fun _ _ => wakeLawful_of_empty rfl rfl rfl) fun _ => .refl s⟩
  | tableInitialisationEnd =>
    exact ⟨_, exec_tableInitialisationEnd s, .ite (fun _ => .of_states (fun _ => rfl) rfl rfl rfl) fun _ => .refl s⟩
  | idleTimerExpiry p => exact ⟨_, exec_idleTimerExpiry p s, whenDue_keepsWake _ (idleOver_keepsWake p s)⟩
  | deepIdleExpiry p => exact ⟨_, exec_deepIdleExpiry p s, whenDue_keepsWake _ (enterAsleep_keepsWake p s)⟩
  | linkTimerExpiry p => exact ⟨_, exec_linkTimerExpiry p s, whenDue_keepsWake _ (enterFaulted_keepsWake p _ s)⟩
  | coldBootWindowExpiry p => exact ⟨_, exec_coldBootWindowExpiry p s, whenDue_keepsWake _ (coldAttemptFailed_keepsWake p s)⟩
  | attemptWindowExpiry p =>
    exact ⟨_, exec_attemptWindowExpiry p s, whenDue_keepsWake _ (resumeAttemptFailed_keepsWake p s)⟩
  | spacingExpiry p => exact ⟨_, exec_spacingExpiry p s, whenDue_keepsWake _ (startAttempt_keepsWake p s)⟩
  | offHoldExpiry p => exact ⟨_, exec_offHoldExpiry p s, whenDue_keepsWake _ (offHoldOver_keepsWake p s)⟩
  | pulseCountdownExpiry p => exact ⟨_, exec_pulseCountdownExpiry p s, whenDue_keepsWake _ (closeWindow_keepsWake p s)⟩
  | pauseConfirmWindowExpiry p => exact ⟨_, exec_pauseConfirmWindowExpiry p s, whenDue_keepsWake _ (confirmOver_keepsWake p s)⟩
  | probeIntervalExpiry p => exact ⟨_, exec_probeIntervalExpiry p s, whenDue_keepsWake _ (probeIntervalOver_keepsWake p s)⟩
  | scheduleEntryDue p => exact ⟨_, exec_scheduleEntryDue p s, whenDue_keepsWake _ (scheduleDue_keepsWake p s)⟩
  | rendezvousWindowExpiry g =>
    exact ⟨_, exec_rendezvousWindowExpiry g s, whenDue_keepsWake _ (.of_calm (Calm.windowOver g s) (windowOver_adm g s))⟩
  | armHoldExpiry g =>
    exact ⟨_, exec_armHoldExpiry g s,
      whenDue_keepsWake _ ((clearArm_keepsWake g s).trans (.of_calm (Calm.raise _ _ _) (raise_adm _ _ _)))⟩
  | preparationTargetExpiry g => exact ⟨_, exec_preparationTargetExpiry g s, whenDue_keepsWake _ (targetOver_keepsWake g s)⟩
  | scrubPassStart => exact ⟨_, exec_scrubPassStart s, whenDue_keepsWake _ (.modTbm s _)⟩
  | scrubVisit => exact ⟨_, exec_scrubVisit s, whileRunning_keepsWake (visitNext_keepsWake s)⟩
  | unknownOpRequest => exact ⟨_, exec_unknownOpRequest s, performHead_keepsWake _ fun _ => .refl s⟩

/-- Settles O8: the next command of the queue keeps the laws of the wake queue and the schedule list, and so does the passing
of a tick. -/
theorem stepKeepsWakeQueueLaws : Obligations.StepKeepsWakeQueueLaws := by
  unfold Obligations.StepKeepsWakeQueueLaws
  intro s t lawful h
  suffices kept : KeepsWake s t from kept lawful
  unfold step at h
  split at h
  · rename_i c rest _
    obtain ⟨u, e, kept⟩ := exec_keepsWake c { s with pending := rest }
    rw [next_eq (e.symm.trans h)]
    exact (KeepsWake.setPending s rest).trans kept
  · rw [next_eq h]
    exact passTime_keepsWake s

end Sys2Proof.Machine
end

section
/-! SUPPORT. A schedule entry that is due (R66) and a qualified sense edge (R19): O42. -/

namespace Sys2Proof.Machine

/-- The port's schedule entry has counted down (R66). -/
theorem scheduleExpired_iff (p : Port) (s : State) :
    scheduleExpired p s = true ↔ ∃ e : ScheduleEntry, scheduleEntry? s p = some e ∧ e.countdown = 0 := by
  simp [scheduleExpired, Option.any_eq_true]

/-- The sense filter has completed (R19). -/
theorem senseQualified_iff (p : Port) (s : State) : senseQualified p s = true ↔ (s.port p).senseFilter = some 0 :=
  decide_eq_true_iff

/-- A due entry goes, and makes a need where the port rests unparked (R66). -/
theorem scheduleDue_eq (p : Port) (s : State) : scheduleDue p s =
    if ((s.port p).state = .paused ∨ (s.port p).state = .asleep) ∧ (s.port p).park = false then
      takeNeed .scheduled p (removeSchedule p s) else removeSchedule p s :=
  if_congr (eligible_iff (removeSchedule p s) p) rfl rfl

/-- The edge makes a need at a PAUSED port that is not parked (R19). -/
theorem senseEdge_need {p : Port} {s : State} (paused : (s.port p).state = .paused) (unparked : (s.port p).park = false) :
    senseEdge p s = takeNeed .sense p (s.modPort p fun r => { r with senseFilter := none }) := by
  simp [senseEdge, paused, unparked]

/-- At another port it makes none, and restarts a READY port's idle timer (R16, R19). -/
theorem senseEdge_noNeed {p : Port} {s : State} (h : (s.port p).state ≠ .paused ∨ (s.port p).park = true) :
    senseEdge p s = restartIdle p (s.modPort p fun r => { r with senseFilter := none }) := by
  have : ¬ ((s.port p).state = .paused ∧ (s.port p).park = false) := by
    rintro ⟨paused, unparked⟩
    rcases h with h | h
    · exact h paused
    · rw [unparked] at h; cases h
  simp only [senseEdge, State.modPort_port_same, Bool.and_eq_true, decide_eq_true_iff, Bool.not_eq_true', this, if_false]

theorem restartIdle_ready {p : Port} {s : State} (h : (s.port p).state = .ready) :
    restartIdle p s = s.modPort p fun r => { r with idle := 0 } := modPort_congr (if_pos h)

theorem restartIdle_idle {p : Port} {s : State} (h : (s.port p).state ≠ .ready) : restartIdle p s = s :=
  modPort_self s p _ (if_neg h)

/-- Settles O42: each of the two commands where it is due, by the port's state, and where it is not. -/
theorem dueScheduleEntryAndSenseEdgeMakeNeeds : Obligations.DueScheduleEntryAndSenseEdgeMakeNeeds := by
  unfold Obligations.DueScheduleEntryAndSenseEdgeMakeNeeds
  intro p s h r
  have running {f : State → State} : whileRunning f s = settle (f s) := whileRunning_of_running h.running
  constructor
  · intro due u wakes
    have expired : scheduleExpired p s = true ↔ due := scheduleExpired_iff p s
    rw [exec_scheduleEntryDue, running]
    refine ⟨fun hd hw => ?_, fun hd hw => ?_, fun hd => ?_⟩
    · rw [whenDue_pos (expired.2 hd), scheduleDue_eq, if_pos hw]; rfl
    · rw [whenDue_pos (expired.2 hd), scheduleDue_eq, if_neg hw, settle_of_owed (s := removeSchedule p s) h.settled]; rfl
    · rw [whenDue_neg (mt expired.1 hd), settle_of_owed h.settled]
  · intro u
    have uport : u.port p = { r with senseFilter := none } := State.modPort_port_same s p _
    have qualified : senseQualified p s = true ↔ r.senseFilter = some 0 := senseQualified_iff p s
    rw [exec_senseFilterExpiry, running]
    refine ⟨fun hd paused unparked => ?_, fun hd ready => ?_, fun hd awake rests => ?_, fun hd => ?_⟩
    · rw [whenDue_pos (qualified.2 hd), senseEdge_need paused unparked]
    · rw [whenDue_pos (qualified.2 hd), senseEdge_noNeed (.inl (by rw [show (s.port p).state = _ from ready]; decide)),
        restartIdle_ready (by rw [uport]; exact ready)]
      exact congrArg Host.Outcome.next (settle_of_owed h.settled)
    · rw [whenDue_pos (qualified.2 hd), senseEdge_noNeed rests, restartIdle_idle (by rw [uport]; exact awake)]
      exact congrArg Host.Outcome.next (settle_of_owed h.settled)
    · rw [whenDue_neg (mt qualified.1 hd), settle_of_owed h.settled]

end Sys2Proof.Machine
end

section
/-! SUPPORT. The scan of the wake queue (R60, R61): its order, the visit of one entry, and the passes at its end. -/

namespace Sys2Proof.Machine

/-! ### The order (R60) -/

theorem mem_scanOrder (s : State) (e : WakeEntry) : e ∈ scanOrder s ↔ e ∈ s.adm.wakeQueue ∧ eligible s e.port = true := by
  have classes : e.cls ∈ [WakeClass.rendezvous, .scheduled, .traffic, .sense] := by cases e.cls <;> decide
  simp only [scanOrder, List.mem_flatMap, List.mem_filter, Bool.and_eq_true, decide_eq_true_iff]
  constructor
  · rintro ⟨c, -, queued, -, el⟩; exact ⟨queued, el⟩
  · rintro ⟨queued, el⟩; exact ⟨e.cls, classes, queued, rfl, el⟩

theorem scanOrder_rank (s : State) : (scanOrder s).Pairwise fun a b => a.cls.rank ≤ b.cls.rank := by
  have cls {c : WakeClass} {e : WakeEntry} (h : e ∈ s.adm.wakeQueue.filter fun e => e.cls = c && eligible s e.port) :
      e.cls = c := by
    have := (List.mem_filter.1 h).2
    rw [Bool.and_eq_true, decide_eq_true_iff] at this
    exact this.1
  refine List.pairwise_flatMap.2 ⟨fun c _ => ?_, ?_⟩
  · exact List.pairwise_of_forall_mem_list fun a ha b hb => by rw [cls ha, cls hb]
  · have ranks : [WakeClass.rendezvous, .scheduled, .traffic, .sense].Pairwise fun c d => c.rank ≤ d.rank := by decide
    exact ranks.imp fun h a ha b hb => by rw [cls ha, cls hb]; exact h

/-- Within a class the queue's order is kept. -/
theorem scanOrder_class (s : State) (c : WakeClass) : ((scanOrder s).filter (·.cls = c)).Sublist s.adm.wakeQueue := by
  have own (d : WakeClass) : (s.adm.wakeQueue.filter fun e => e.cls = d && eligible s e.port).filter (·.cls = c) =
      if d = c then s.adm.wakeQueue.filter fun e => e.cls = d && eligible s e.port else [] := by
    split
    · rename_i h
      refine List.filter_eq_self.2 fun e he => ?_
      have := (List.mem_filter.1 he).2
      simp_all
    · rename_i h
      refine List.filter_eq_nil_iff.2 fun e he => ?_
      have := (List.mem_filter.1 he).2
      simp_all
  have : (scanOrder s).filter (·.cls = c) = s.adm.wakeQueue.filter fun e => e.cls = c && eligible s e.port := by
    simp only [scanOrder, List.flatMap_cons, List.flatMap_nil, List.filter_append, List.filter_nil, own]
    cases c <;> simp
  rw [this]
  exact List.filter_sublist

/-! ### One visit (R60) -/

theorem visit_skips {sc : Scan} {e : WakeEntry} (h : domainOf e.port ∈ sc.closed ∨ eligible sc.state e.port ≠ true) :
    visit sc e = sc := by
  have : (sc.closed.contains (domainOf e.port) || !eligible sc.state e.port) = true := by
    rcases h with h | h
    · simp [h]
    · simp [h]
  simp only [visit, this, if_true]

theorem visit_admits {sc : Scan} {e : WakeEntry} (opened : domainOf e.port ∉ sc.closed)
    (el : eligible sc.state e.port = true) (fits : admits sc.state e.port = true) :
    visit sc e = { sc with state := admitPort e.port e.cls sc.state, admitted := e.port :: sc.admitted } := by
  simp [visit, opened, el, fits]

/-- An entry that fails its test closes its domain if it is blocking. -/
theorem visit_fails {sc : Scan} {e : WakeEntry} (opened : domainOf e.port ∉ sc.closed)
    (el : eligible sc.state e.port = true) (fails : admits sc.state e.port ≠ true) :
    visit sc e = if e.blocking then { sc with closed := domainOf e.port :: sc.closed } else sc := by
  simp [visit, opened, el, fails]

theorem admits_iff (s : State) (p : Port) : admits s p = true ↔
    s.adm.committed[domainOf p] + (s.port p).draws.inrush ≤ s.adm.limits[domainOf p] + (s.port p).charge :=
  decide_eq_true_iff

/-! ### Passes (R61) -/

theorem countPasses_eq (passed : List Port) (s : State) : countPasses passed s =
    s.modAdm fun m => { m with wakeQueue := m.wakeQueue.map fun e =>
      if e.port ∈ passed then
        { e with
          passes := min (e.passes + 1) 15
          blocking := e.blocking || decide (m.passLimit ≤ min (e.passes + 1) 15) }
      else e } := by
  simp only [countPasses, List.contains_eq_mem, decide_eq_true_iff]; rfl

/-- With no entry passed over the queue stays. -/
theorem countPasses_none (s : State) : countPasses [] s = s := by
  simp [countPasses_eq, State.modAdm]

/-- Where none is admitted, none is passed over. -/
theorem passedOver_none (l : List WakeEntry) : passedOver [] l = [] := by
  refine List.eq_nil_iff_forall_not_mem.2 fun p hp => ?_
  obtain ⟨-, -, -, -, -, -, x, -, -, hx⟩ := (mem_passedOver [] l p).1 hp
  cases hx

theorem scan_eq (s : State) (sc : Scan) (h : (scanOrder s).foldl visit ⟨s, [], []⟩ = sc) :
    scan s = countPasses (passedOver sc.admitted (scanOrder s)) sc.state := by
  subst h; rfl

/-- A scan that admits nothing changes nothing. -/
theorem scan_idle {s : State} {closed : List Domain} (h : (scanOrder s).foldl visit ⟨s, [], []⟩ = ⟨s, closed, []⟩) :
    scan s = s := by
  rw [scan_eq s _ h, passedOver_none, countPasses_none]

end Sys2Proof.Machine
end

section
/-! SUPPORT. Admission (R11, R27), and the settling of O54. -/

namespace Sys2Proof.Machine

/-! ### Admission -/

/-- An admission that finds the configuration poisoned faults the port (R9, R11). -/
theorem admitPort_poisoned {p : Port} {s : State} (cls : WakeClass) (h : (readPortConfig p (removeWake p s)).1 = none) :
    admitPort p cls s = enterFaulted p .table (readPortConfig p (removeWake p s)).2 := by
  unfold admitPort
  dsimp only
  generalize readPortConfig p (removeWake p s) = v at h
  obtain ⟨o, t⟩ := v
  cases h
  rfl

/-- The state in which the operation of an admitted port starts: the port moved, its configuration taken (R9, R11). -/
def admitted (p : Port) (st : PortState) (cfg : PortConfig) (s : State) : State :=
  changeState p st (stopProbing p ((readPortConfig p (removeWake p s)).2.modPort p fun r =>
    { r with cfg := cfg, deepIdle := 0 }))

/-- An admission with a configuration starts a COLD operation at an ASLEEP port, a RESUME operation at another (R11, R27). -/
theorem admitPort_starts {p : Port} {s : State} {cfg : PortConfig} (cls : WakeClass)
    (h : (readPortConfig p (removeWake p s)).1 = some cfg) : admitPort p cls s =
      if (s.port p).state = .asleep then startCold p cls (admitted p .waking cfg s)
      else startResume p cls (admitted p .resuming cfg s) := by
  have asleep : ((readPortConfig p (removeWake p s)).2.port p).state = (s.port p).state :=
    congrArg PortRec.state ((Quiet.readPortConfig p (removeWake p s)).port p)
  unfold admitPort admitted
  dsimp only
  generalize readPortConfig p (removeWake p s) = v at h asleep ⊢
  obtain ⟨o, t⟩ := v
  cases h
  dsimp only at asleep ⊢
  simp only [asleep]

/-- What the move of an admission and a change of the port's operation alone come to (R11, R51, R57). -/
theorem admitted_spec (p : Port) {st : PortState} (hst : st = .waking ∨ st = .resuming) (cfg : PortConfig) (s : State)
    (op : Operation) :
    let u := (admitted p st cfg s).modPort p fun r => { r with op := op }
    u.port p = { s.port p with
      state := st, charge := (s.port p).draws.inrush, cfg := cfg, deepIdle := 0, op := op
      probe := { (s.port p).probe with running := false, countdown := 0, outstanding := none, misses := 0 } } ∧
    (∀ q : Port, q ≠ p → u.port q = s.port q) ∧
    u.adm.committed[domainOf p] = domainCharge u (domainOf p) ∧
    (∀ e ∈ u.adm.wakeQueue, e.port ≠ p) ∧ u.tbm = (readPortConfig p (removeWake p s)).2.tbm := by
  have read := Quiet.readPortConfig p (removeWake p s)
  have readPort (q : Port) : (readPortConfig p (removeWake p s)).2.port q = s.port q := read.port q
  have readAdm := read.adm
  unfold admitted
  generalize (readPortConfig p (removeWake p s)).2 = t at readPort readAdm
  obtain ⟨port, others, adm, tbm, -⟩ :=
    changeState_spec p st (stopProbing p (t.modPort p fun r => { r with cfg := cfg, deepIdle := 0 }))
  generalize changeState p st (stopProbing p (t.modPort p fun r => { r with cfg := cfg, deepIdle := 0 })) = v at *
  have stopped : (stopProbing p (t.modPort p fun r => { r with cfg := cfg, deepIdle := 0 })).port p = { s.port p with
      cfg := cfg, deepIdle := 0
      probe := { (s.port p).probe with running := false, countdown := 0, outstanding := none, misses := 0 } } := by
    simp only [stopProbing, State.modPort_port_same, readPort]
  have inrush (d : Draws) : stateCharge d st = d.inrush := by rcases hst with rfl | rfl <;> rfl
  have charges (q : Port) : ((v.modPort p fun r => { r with op := op }).port q).charge = (v.port q).charge := by
    rw [State.modPort_port]
    split
    · rename_i e; rw [e]
    · rfl
  refine ⟨?_, fun q hq => ?_, ?_, fun e he => ?_, tbm⟩
  · rw [State.modPort_port_same, port, stopped]
    simp only [inrush]
  · rw [State.modPort_port_ne _ _ hq, others q hq]
    simp only [stopProbing, State.modPort_port_ne _ _ hq, readPort]
  · rw [domainCharge_congr charges, State.modPort_adm, adm]
    simp
  · rw [State.modPort_adm, adm] at he
    have he : e ∈ t.adm.wakeQueue := he
    rw [readAdm] at he
    simpa using (List.mem_filter.1 he).2

/-- A COLD operation starts as its record with the feed on, and a high feed-fault input then faults the port (R27, R30). -/
theorem startCold_eq (p : Port) (cls : WakeClass) (s : State) : startCold p cls s =
    feedOn p (s.modPort p fun r => { r with
      op := { Operation.reset with
        kind := .cold, phase := .window, method := some .power, attempt := 1, started := 1,
        countdown := (s.port p).cfg.coldWindow, cls := cls } }) := congrArg (feedOn p) (modPort_congr rfl)

theorem startResume_eq (p : Port) (cls : WakeClass) (s : State) : startResume p cls s =
    startAttempt p (s.modPort p fun r => { r with
      op := { Operation.reset with kind := .resume, method := some (s.port p).cfg.firstMethod, cls := cls } }) :=
  congrArg (startAttempt p) (modPort_congr rfl)

/-! ### The scans of one and of two entries (R60, R61) -/

theorem not_admits_iff (s : State) (p : Port) : admits s p ≠ true ↔
    s.adm.limits[domainOf p] + (s.port p).charge < s.adm.committed[domainOf p] + (s.port p).draws.inrush := by
  rw [Ne, admits_iff, Nat.not_le]

theorem eligible_of_mem {s : State} {e : WakeEntry} (h : e ∈ scanOrder s) : eligible s e.port = true :=
  ((mem_scanOrder s e).1 h).2

/-- An entry that fails its test admits none, and closes its domain if it is blocking. -/
theorem visit_fails_idle {s : State} {closed : List Domain} {e : WakeEntry} (opened : domainOf e.port ∉ closed)
    (el : eligible s e.port = true) (fails : admits s e.port ≠ true) :
    visit ⟨s, closed, []⟩ e = ⟨s, if e.blocking then domainOf e.port :: closed else closed, []⟩ := by
  rw [visit_fails opened el fails]
  split <;> rfl

theorem scan_sole_fails {s : State} {e : WakeEntry} (sole : scanOrder s = [e]) (fails : admits s e.port ≠ true) :
    scan s = s := by
  refine scan_idle (closed := if e.blocking then [domainOf e.port] else []) ?_
  rw [sole, List.foldl_cons, visit_fails_idle List.not_mem_nil (eligible_of_mem (by simp [sole])) fails]
  rfl

theorem scan_sole_fits {s : State} {e : WakeEntry} (sole : scanOrder s = [e]) (fits : admits s e.port = true) :
    scan s = admitPort e.port e.cls s := by
  have fold : (scanOrder s).foldl visit ⟨s, [], []⟩ = ⟨admitPort e.port e.cls s, [], [e.port]⟩ := by
    rw [sole, List.foldl_cons, visit_admits List.not_mem_nil (eligible_of_mem (by simp [sole])) fits]
    rfl
  have none : passedOver [e.port] [e] = [] := by simp [passedOver]
  rw [scan_eq s _ fold, sole, none, countPasses_none]

section pair
variable {s : State} {a b : WakeEntry} (order : scanOrder s = [a, b]) (failsA : admits s a.port ≠ true)
include order failsA

/-- A first entry that fails and is blocking closes the second's domain; behind one that is not, the second fails. -/
theorem scan_pair_idle (domain : domainOf a.port = domainOf b.port)
    (h : a.blocking = true ∨ admits s b.port ≠ true) : scan s = s := by
  have elA : eligible s a.port = true := eligible_of_mem (by simp [order])
  have elB : eligible s b.port = true := eligible_of_mem (by simp [order])
  have first := visit_fails_idle (closed := []) List.not_mem_nil elA failsA
  by_cases blocking : a.blocking = true
  · rw [if_pos blocking] at first
    refine scan_idle (closed := [domainOf a.port]) ?_
    rw [order, List.foldl_cons, first, List.foldl_cons, visit_skips (.inl (by simp [domain]))]
    rfl
  · rw [if_neg blocking] at first
    refine scan_idle (closed := if b.blocking then [domainOf b.port] else []) ?_
    rw [order, List.foldl_cons, first, List.foldl_cons,
      visit_fails_idle List.not_mem_nil elB (h.resolve_left blocking)]
    rfl

/-- Behind one that fails and is not blocking, the second is admitted, and the first is passed over. -/
theorem scan_pair_passes (domain : domainOf a.port = domainOf b.port) (ne : a.port ≠ b.port)
    (open_ : a.blocking = false) (fits : admits s b.port = true) :
    scan s = countPasses [a.port] (admitPort b.port b.cls s) := by
  have elA : eligible s a.port = true := eligible_of_mem (by simp [order])
  have elB : eligible s b.port = true := eligible_of_mem (by simp [order])
  have fold : (scanOrder s).foldl visit ⟨s, [], []⟩ = ⟨admitPort b.port b.cls s, [], [b.port]⟩ := by
    rw [order, List.foldl_cons, visit_fails_idle List.not_mem_nil elA failsA, open_, List.foldl_cons,
      if_neg Bool.false_ne_true, visit_admits List.not_mem_nil elB fits]
    rfl
  have passed : passedOver [b.port] [a, b] = [a.port] := by simp [passedOver, domain, ne]
  rw [scan_eq s _ fold, order, passed]

end pair

/-! ### Any scan -/

/-- A visit by the conditions on the entry's domain, its port and its draw (R60). -/
theorem visit_eq (sc : Scan) (e : WakeEntry) : visit sc e =
    if domainOf e.port ∈ sc.closed ∨ ¬ (((sc.state.port e.port).state = .paused ∨ (sc.state.port e.port).state = .asleep) ∧
      (sc.state.port e.port).park = false) then sc
    else if sc.state.adm.committed[domainOf e.port] + (sc.state.port e.port).draws.inrush ≤
      sc.state.adm.limits[domainOf e.port] + (sc.state.port e.port).charge then
      ⟨admitPort e.port e.cls sc.state, sc.closed, e.port :: sc.admitted⟩
    else if e.blocking then ⟨sc.state, domainOf e.port :: sc.closed, sc.admitted⟩
    else sc := by
  simp only [← eligible_iff, ← admits_iff]
  split
  next skipped => exact visit_skips skipped
  next h =>
    obtain ⟨opened, el⟩ := not_or.1 h
    split
    next fits => exact visit_admits opened (not_not.1 el) fits
    next fails => exact visit_fails opened (not_not.1 el) fails

/-- The scan's record as the three things it holds. -/
def Scan.parts (sc : Scan) : State × List Domain × List Port := (sc.state, sc.closed, sc.admitted)

/-- A fold over the entries may carry the three parts in the record's place. -/
theorem foldl_visit_parts {f : State × List Domain × List Port → WakeEntry → State × List Domain × List Port}
    (h : ∀ sc e, f sc.parts e = (visit sc e).parts) (l : List WakeEntry) (sc : Scan) :
    l.foldl f sc.parts = (l.foldl visit sc).parts := by
  induction l generalizing sc with
  | nil => rfl
  | cons e l ih => rw [List.foldl_cons, List.foldl_cons, h, ih]

/-! ### The start of an admitted port's operation -/

theorem admitPort_asleep {p : Port} {s : State} {cfg : PortConfig} (cls : WakeClass)
    (h : (readPortConfig p (removeWake p s)).1 = some cfg) (asleep : (s.port p).state = .asleep) :
    admitPort p cls s = feedOn p ((admitted p .waking cfg s).modPort p fun r => { r with
      op := { Operation.reset with
        kind := .cold, phase := .window, method := some .power, attempt := 1, started := 1,
        countdown := cfg.coldWindow, cls := cls } }) := by
  have moved := (admitted_spec p (.inl rfl : PortState.waking = .waking ∨ _) cfg s Operation.reset).1
  have config : ((admitted p .waking cfg s).port p).cfg = cfg := by
    simpa using congrArg PortRec.cfg moved
  rw [admitPort_starts cls h, if_pos asleep, startCold_eq, config]

theorem admitPort_paused {p : Port} {s : State} {cfg : PortConfig} (cls : WakeClass)
    (h : (readPortConfig p (removeWake p s)).1 = some cfg) (paused : (s.port p).state = .paused) :
    admitPort p cls s = startAttempt p ((admitted p .resuming cfg s).modPort p fun r => { r with
      op := { Operation.reset with kind := .resume, method := some cfg.firstMethod, cls := cls } }) := by
  have moved := (admitted_spec p (.inr rfl : PortState.resuming = .waking ∨ _) cfg s Operation.reset).1
  have config : ((admitted p .resuming cfg s).port p).cfg = cfg := by
    simpa using congrArg PortRec.cfg moved
  rw [admitPort_starts cls h, if_neg (by rw [paused]; decide), startResume_eq, config]

/-- Settles O54: the order, the scans of none, one and two entries, any scan as its visits and passes, and admission. -/
theorem scanAdmitsInOrderUnderTheLimit : Obligations.ScanAdmitsInOrderUnderTheLimit := by
  unfold Obligations.ScanAdmitsInOrderUnderTheLimit
  intro s h
  have run {u : State} (scanned : scan s = u) : exec .admissionScan s = .next (settle u) := by
    rw [exec_admissionScan, whileRunning_of_running h.running, scanned]
  have idle (scanned : scan s = s) : exec .admissionScan s = .next s := by
    rw [run scanned, settle_of_owed h.settled]
  refine ⟨fun e => ?_, scanOrder_rank s, scanOrder_class s, ?_, ?_, ?_⟩
  · rw [mem_scanOrder, eligible_iff]
  · simp only [← not_admits_iff, not_not]
    refine ⟨fun none => idle (scan_idle (by rw [none]; rfl)), fun e sole => ?_, fun a b order domain ne failsA => ?_⟩
    · exact ⟨fun fails => idle (scan_sole_fails sole fails), fun fits => run (scan_sole_fits sole fits)⟩
    · refine ⟨fun closed => idle (scan_pair_idle order failsA domain closed), fun open_ fits => ?_⟩
      rw [run (scan_pair_passes order failsA domain ne open_ fits), countPasses_eq]
      simp only [List.mem_singleton]
  · intro visited r
    have agrees (sc : Scan) (e : WakeEntry) : visited sc.parts e = (visit sc e).parts := by
      rw [visit_eq]
      simp only [apply_ite Scan.parts]
      rfl
    have fold : r = ((scanOrder s).foldl visit ⟨s, [], []⟩).parts := foldl_visit_parts agrees _ ⟨s, [], []⟩
    rw [fold]
    refine ⟨passedOver ((scanOrder s).foldl visit ⟨s, [], []⟩).admitted (scanOrder s),
      fun p => mem_passedOver _ _ p, ?_⟩
    rw [run (scan_eq s _ rfl), countPasses_eq]
    rfl
  · intro p cls v
    refine ⟨admitPort_poisoned cls, fun cfg found => ?_⟩
    intro start
    refine ⟨fun asleep => ?_, fun paused => ?_⟩
    · have spec := admitted_spec p (.inl rfl) cfg s { Operation.reset with
        kind := .cold, phase := .window, method := some .power, attempt := 1, started := 1,
        countdown := cfg.coldWindow, cls := cls }
      refine ⟨_, spec, ?_⟩
      rw [admitPort_asleep cls found asleep, feedOn_eq, spec.1]
      exact ⟨fun low => if_neg (by simp [low]), fun high => if_pos high⟩
    · exact ⟨_, admitted_spec p (.inr rfl) cfg s _, admitPort_paused cls found paused⟩

end Sys2Proof.Machine
end

section
/-! SUPPORT. The start and the end of a reception (R70, R83, R87, R88): O14 and O16. -/

namespace Sys2Proof.Machine

/-! ### The start -/

theorem startReception_noCell {e : EtherPort} {s : State} (idle : s.receiving e = .idle) (none : s.free = []) :
    startReception e s = s.setReceiving e .bufferOnly := by
  simp only [startReception, idle, none]

theorem startReception_takes {e : EtherPort} {c : CellNo} {rest : List CellNo} {s : State}
    (idle : s.receiving e = .idle) (head : s.free = c :: rest) :
    startReception e s = addRef c (({ s with free := rest } : State).setReceiving e (.intoCell c)) := by
  simp only [startReception, idle, head]

theorem startReception_busy {e : EtherPort} {s : State} (busy : s.receiving e ≠ .idle) : startReception e s = s := by
  unfold startReception
  split
  · rename_i idle _; exact absurd idle busy
  · rename_i idle _; exact absurd idle busy
  · rfl

theorem startReception_owed (e : EtherPort) (s : State) : (startReception e s).owed = s.owed := by
  unfold startReception
  split
  · rw [setReceiving_owed]
  · rw [addRef_owed, setReceiving_owed]
  · rfl

@[simp] theorem setReceiving_receiving (s : State) (e : EtherPort) (r : Reception) :
    (s.setReceiving e r).receiving e = r := by
  cases e <;> simp [State.setReceiving, State.receiving]

@[simp] theorem setReceiving_cell (s : State) (e : EtherPort) (r : Reception) (c : CellNo) :
    (s.setReceiving e r).cell c = s.cell c := by cases e <;> rfl

@[simp] theorem setReceiving_free (s : State) (e : EtherPort) (r : Reception) : (s.setReceiving e r).free = s.free := by
  cases e <;> rfl

@[simp] theorem addRef_receiving (c : CellNo) (s : State) (e : EtherPort) : (addRef c s).receiving e = s.receiving e := by
  cases e <;> rfl

/-- Settles O14, by what the ingress receives and by the free list. -/
theorem receptionTakesTheHeadCell : Obligations.ReceptionTakesTheHeadCell := by
  unfold Obligations.ReceptionTakesTheHeadCell
  intro e s h
  have run : exec (.receptionStart e) s = .next (startReception e s) := by
    rw [exec_receptionStart, whileRunning_of_owed h.running ((startReception_owed e s).trans h.settled)]
  refine ⟨fun idle none => ?_, fun c rest idle head => ?_, fun busy => ?_⟩
  · rw [run, startReception_noCell idle none]
  · have refs : ((startReception e s).cell c).refs = (s.cell c).refs + 1 := by
      simp [startReception_takes idle head, addRef_cell]
    refine ⟨_, run, startReception_takes idle head, ?_, refs, ?_, fun law => ?_⟩
    · rw [startReception_takes idle head, addRef_receiving, setReceiving_receiving]
    · rw [startReception_takes idle head]
      exact setReceiving_free _ _ _
    · have unused : (s.cell c).refs = 0 := (law.listed c).1 (by rw [head]; exact List.mem_cons_self)
      rw [refs, unused]
  · rw [run, startReception_busy busy]

/-! ### The end -/

section
variable {e : EtherPort} {bytes : List Byte} {good : Bool} {drop : State → State}
  {take : Option CellNo → State → State} {s : State}

theorem acceptable_iff : acceptable bytes good = true ↔ good = true ∧ 64 ≤ bytes.length ∧ bytes.length ≤ 2048 := by
  simp only [acceptable, Bool.and_eq_true, decide_eq_true_iff, and_assoc]
  rfl

theorem not_acceptable (h : good = false ∨ bytes.length < 64 ∨ 2048 < bytes.length) : ¬ acceptable bytes good = true := by
  rw [acceptable_iff]
  rintro ⟨sound, long, short⟩
  rcases h with bad | brief | excess
  · rw [sound] at bad; cases bad
  · omega
  · omega

/-- A frame received into a cell is disposed of, and then its ingress gives the cell up (R88, log 57). -/
theorem endReception_cell {c : CellNo} (into : s.receiving e = .intoCell c) :
    endReception e bytes good drop take s = dropRef c (
      if acceptable bytes good then take (some c) (s.arrived e c bytes) else drop (s.arrived e c bytes)) := by
  rw [endReception, into]
  rfl

/-- A frame received into the buffer alone holds no cell (R89). -/
theorem endReception_buffer (buffer : s.receiving e = .bufferOnly) :
    endReception e bytes good drop take s =
      if acceptable bytes good then take none (s.setReceiving e .idle) else drop (s.setReceiving e .idle) := by
  rw [endReception, buffer]

end

/-- The end of a camera frame that hands nothing on. -/
theorem exec_cameraFrame_of_owed {p : Port} {bytes : List Byte} {good : Bool} {s t : State} (h : s.Settled)
    (ends : receiveCamera p bytes good s = t) (owed : t.owed = s.owed) :
    exec (.cameraFrameReceived p bytes good) s = .next t := by
  subst ends
  rw [exec_cameraFrameReceived, whileRunning_of_owed h.running (owed.trans h.settled)]

/-- The end of an uplink frame that hands nothing on. -/
theorem exec_uplinkFrame_of_owed {bytes : List Byte} {good : Bool} {s t : State} (h : s.Settled)
    (ends : receiveUplink bytes good s = t) (owed : t.owed = s.owed) :
    exec (.uplinkFrameReceived bytes good) s = .next t := by
  subst ends
  rw [exec_uplinkFrameReceived, whileRunning_of_owed h.running (owed.trans h.settled)]

/-- A camera frame that passes the check, received into the buffer alone. -/
theorem exec_cameraFrame_buffered {p : Port} {bytes : List Byte} {s t : State} (h : s.Settled)
    (buffer : s.receiving (.camera p) = .bufferOnly) (long : 64 ≤ bytes.length) (short : bytes.length ≤ 2048)
    (takes : upstream p none bytes (s.setReceiving (.camera p) .idle) = t) (owed : t.owed = s.owed) :
    exec (.cameraFrameReceived p bytes true) s = .next t := by
  refine exec_cameraFrame_of_owed h ?_ owed
  rw [receiveCamera, endReception_buffer buffer, if_pos (acceptable_iff.2 ⟨rfl, long, short⟩), takes]

/-- An uplink frame that passes the check, received into the buffer alone. -/
theorem exec_uplinkFrame_buffered {bytes : List Byte} {s t : State} (h : s.Settled)
    (buffer : s.receiving .uplink = .bufferOnly) (long : 64 ≤ bytes.length) (short : bytes.length ≤ 2048)
    (takes : dispatchDown none bytes (s.setReceiving .uplink .idle) = t) (owed : t.owed = s.owed) :
    exec (.uplinkFrameReceived bytes true) s = .next t := by
  refine exec_uplinkFrame_of_owed h ?_ owed
  rw [receiveUplink, endReception_buffer buffer, if_pos (acceptable_iff.2 ⟨rfl, long, short⟩), takes]

@[simp] theorem arrived_owed (s : State) (e : EtherPort) (c : CellNo) (bytes : List Byte) :
    (s.arrived e c bytes).owed = s.owed := by simp [State.arrived]

/-- A camera frame with the management EtherType (R83). -/
theorem upstream_management {bytes : List Byte} (h : frameType bytes = 0x88B6) (p : Port) (c : Option CellNo) (s : State) :
    upstream p c bytes s = s.modDevice fun d => { d with denied := bump d.denied } := if_pos h

/-- Settles O16: the EtherType is judged before all else, with a cell or without one. -/
theorem upstreamManagementFrameIsDenied : Obligations.UpstreamManagementFrameIsDenied := by
  unfold Obligations.UpstreamManagementFrameIsDenied
  intro p bytes s h long short management
  have denied (c : Option CellNo) := upstream_management management p c
  refine ⟨fun c into => exec_cameraFrame_of_owed h ?_ (by simp), fun buffer =>
    exec_cameraFrame_buffered h buffer long short (denied none _) (by simp)⟩
  rw [receiveCamera, endReception_cell into, if_pos (acceptable_iff.2 ⟨rfl, long, short⟩), denied]

end Sys2Proof.Machine
end

section
/-! SUPPORT. The rule search where nothing has to be corrected or skipped (R74 to R76): O30. -/

namespace Sys2Proof.Machine

/-! ### A read of a clean entry (R139) -/

/-- A read of a clean rule. -/
theorem readRule_clean {i : Fin 32} {s : State} (h : s.tbm.rule[i].Clean) : readRule i s = (some s.tbm.rule[i].val, s) := by
  have self : s.modTbm (fun t => { t with rule := t.rule.set i s.tbm.rule[i] }) = s := by simp [State.modTbm]
  exact (ReadsAs.of (t := .rule) (index := i.val)
    (put := fun e s => s.modTbm fun t => { t with rule := t.rule.set i e }) self).clean h.1 h.2

/-- A read of a clean class action. -/
theorem readClassAction_clean {i : Fin 9} {s : State} (h : s.tbm.classAction[i].Clean) :
    readClassAction i s = (some s.tbm.classAction[i].val, s) := by
  have self : s.modTbm (fun t => { t with classAction := t.classAction.set i s.tbm.classAction[i] }) = s := by
    simp [State.modTbm]
  exact (ReadsAs.of (t := .classAction) (index := i.val)
    (put := fun e s => s.modTbm fun t => { t with classAction := t.classAction.set i e }) self).clean h.1 h.2

/-! ### Which rule takes a frame -/

theorem Rule.fits_iff (r : Rule) (up : Bool) (scope : Option Port) : r.fits up scope = true ↔
    r.enabled = true ∧ (r.direction = .both ∨ r.direction = .up ∧ up = true ∨ r.direction = .down ∧ up = false) ∧
      ∀ p ∈ scope, hasPort r.scope p = true := by
  cases direction : r.direction <;> cases scope <;> simp [Rule.fits, direction, and_assoc]

theorem Rule.matchesFrame_iff (r : Rule) (bytes : List Byte) : r.matchesFrame bytes = true ↔
    r.offset + r.length ≤ bytes.length ∧
      BitVec.ofNat 32 (natAt bytes r.offset r.length) &&& r.mask = r.value &&& r.mask := by
  simp only [Rule.matchesFrame, Bool.and_eq_true, decide_eq_true_iff, beq_iff_eq]

/-- The indices before i stand before it in the order of the search. -/
theorem finRange_split {n : Nat} (i : Fin n) :
    ∃ before after, List.finRange n = before ++ i :: after ∧ ∀ j ∈ before, j < i := by
  obtain ⟨before, after, split⟩ := List.append_of_mem (List.mem_finRange i)
  have sorted := List.pairwise_lt_finRange n
  rw [split, List.pairwise_append] at sorted
  exact ⟨before, after, split, fun j hj => sorted.2.2 j hj i List.mem_cons_self⟩

/-- With every rule clean, the search changes nothing and ends at the first rule that takes the frame (R75). -/
theorem searchRules_clean {up : Bool} {scope : Option Port} {bytes : List Byte} {s : State}
    (clean : ∀ i : Fin 32, s.tbm.rule[i].Clean) :
    let takes := fun i : Fin 32 => (s.tbm.rule[i].val.fits up scope && s.tbm.rule[i].val.matchesFrame bytes) = true
    (∀ i, takes i → (∀ j, j < i → ¬ takes j) →
      searchRules up scope bytes (List.finRange 32) s = (some s.tbm.rule[i].val, s)) ∧
    ((∀ i, ¬ takes i) → searchRules up scope bytes (List.finRange 32) s = (none, s)) := by
  intro takes
  have handed (i : Fin 32) : s.tbm.rule[i].handed = some s.tbm.rule[i].val := congrArg Prod.fst (readRule_clean (clean i))
  have same (i : Fin 32) : (∃ r, s.tbm.rule[i].handed = some r ∧ (r.fits up scope && r.matchesFrame bytes) = true) ↔
      takes i := by simp only [handed, Option.some.injEq, exists_eq_left', takes]
  have read (l : List (Fin 32)) : l.foldl (fun u i => (readRule i u).2) s = s :=
    List.foldl_fixed' (fun i => congrArg Prod.snd (readRule_clean (clean i))) l
  obtain ⟨misses, finds⟩ := searchRules_eq up scope bytes s (List.finRange 32) s (List.nodup_finRange 32) fun _ _ => rfl
  simp only [same, read] at misses finds
  refine ⟨fun i taken first => ?_, fun untaken => misses fun i _ => untaken i⟩
  obtain ⟨before, after, split, earlier⟩ := finRange_split i
  exact finds before i after split taken fun j hj => first j (earlier j hj)

section
variable {up : Bool} {scope : Option Port} {bytes : List Byte} {s : State}

theorem classify_found {r : Rule} (search : searchRules up scope bytes (List.finRange 32) s = (some r, s))
    (clean : s.tbm.classAction[r.cls.index].Clean) :
    classify up scope bytes s =
      ({ cls := r.cls, keyOffset := r.keyOffset, seqOffset := r.seqOffset
         action := s.tbm.classAction[r.cls.index].val.action
         activity := s.tbm.classAction[r.cls.index].val.activity }, s) := by
  unfold classify
  rw [search]
  dsimp only
  rw [readClassAction_clean clean]
  rfl

theorem classify_bulk (search : searchRules up scope bytes (List.finRange 32) s = (none, s))
    (clean : s.tbm.classAction[FrameClass.bulk.index].Clean) :
    classify up scope bytes s =
      ({ cls := .bulk, keyOffset := none, seqOffset := none
         action := s.tbm.classAction[FrameClass.bulk.index].val.action
         activity := s.tbm.classAction[FrameClass.bulk.index].val.activity }, s) := by
  unfold classify
  rw [search]
  dsimp only
  rw [readClassAction_clean clean]
  rfl

end

/-- Settles O30, by the first rule that takes the frame. -/
theorem firstFittingRuleClassifiesAFrame : Obligations.FirstFittingRuleClassifiesAFrame := by
  unfold Obligations.FirstFittingRuleClassifiesAFrame
  intro up scope bytes s rules actions takes result
  have same (i : Fin 32) : takes i ↔
      (s.tbm.rule[i].val.fits up scope && s.tbm.rule[i].val.matchesFrame bytes) = true :=
    by simp only [takes, Bool.and_eq_true, Rule.fits_iff, Rule.matchesFrame_iff, and_assoc]
  obtain ⟨finds, misses⟩ := searchRules_clean (up := up) (scope := scope) (bytes := bytes) rules
  refine ⟨fun i taken first => ?_, fun untaken => ?_⟩
  · exact classify_found (finds i ((same i).1 taken) fun j hj => mt (same j).2 (first j hj)) (actions _)
  · exact classify_bulk (misses fun i => mt (same i).2 (untaken i)) (actions _)

end Sys2Proof.Machine
end

section
/-! SUPPORT. The dispatch of an uplink frame by its destination (R71, R72): O23. -/

namespace Sys2Proof.Machine

/-- An uplink frame that passes the check of R70 is dispatched, and then its ingress gives the cell up (R88, log 57). -/
theorem receiveUplink_passed {c : CellNo} {bytes : List Byte} {s : State} (h : s.Receives .uplink c bytes) :
    receiveUplink bytes true s = dropRef c (dispatchDown (some c) bytes (s.arrived .uplink c bytes)) := by
  rw [receiveUplink, endReception_cell h.into, if_pos (acceptable_iff.2 ⟨rfl, h.long, h.short⟩)]

/-- A dispatch that hands nothing on. -/
theorem exec_uplinkFrame_dispatched {c : CellNo} {bytes : List Byte} {s t : State} (h : s.Receives .uplink c bytes)
    (dispatch : dispatchDown (some c) bytes (s.arrived .uplink c bytes) = t) (owed : t.owed = s.owed) :
    exec (.uplinkFrameReceived bytes true) s = .next (dropRef c t) :=
  exec_uplinkFrame_of_owed h.toSettled (by rw [receiveUplink_passed h, dispatch]) (by rw [dropRef_owed, owed])

/-- A group address is no unicast address. -/
theorem ne_broadcast_of_unicast {a : Addr} (unicast : isGroupAddr a = false) : a ≠ broadcast := by
  rintro rfl
  exact absurd unicast (by decide)

section
variable {cell : Option CellNo} {bytes : List Byte} {s : State}

/-- A frame for the part itself with another EtherType (R71). -/
theorem dispatchDown_own (own : frameDest bytes = s.mga.factory) (other : frameType bytes ≠ 0x88B6) :
    dispatchDown cell bytes s = countUnknown s := by
  have : frameType bytes ≠ Config.managementEtherType := other
  simp [dispatchDown, own, this]

/-- A frame that R71 does not take is resolved. -/
theorem dispatchDown_resolves (foreign : frameDest bytes ≠ s.mga.factory)
    (h : frameDest bytes ≠ broadcast ∨ frameType bytes ≠ 0x88B6) :
    dispatchDown cell bytes s = resolveDown cell bytes s := by
  have : ¬ (frameType bytes = Config.managementEtherType ∧ frameDest bytes = broadcast) :=
    fun ⟨management, wide⟩ => h.elim (absurd wide) (absurd management)
  simp [dispatchDown, foreign, this]

/-- A frame for a unicast address that no enabled port holds (R72 step 5). -/
theorem dispatchDown_unknown (foreign : frameDest bytes ≠ s.mga.factory) (unicast : isGroupAddr (frameDest bytes) = false)
    (unheld : portWithStation? s (frameDest bytes) = none) :
    dispatchDown cell bytes s = unknownUnicast (frameDest bytes) s := by
  have narrow := ne_broadcast_of_unicast unicast
  simp [dispatchDown_resolves foreign (.inl narrow), resolveDown, narrow, unicast, unheld]

/-- A frame in a cell for one port (R72 step 2). -/
theorem dispatchDown_port {p : Port} {c : CellNo} (foreign : frameDest bytes ≠ s.mga.factory)
    (unicast : isGroupAddr (frameDest bytes) = false) (station : portWithStation? s (frameDest bytes) = some p) :
    dispatchDown (some c) bytes s =
      deliverToPort p c bytes (classify false (some p) bytes s).1 (classify false (some p) bytes s).2 := by
  have narrow := ne_broadcast_of_unicast unicast
  simp [dispatchDown_resolves foreign (.inl narrow), resolveDown, narrow, unicast, station]

/-- A frame without a cell for one port (R72 step 2, R89). -/
theorem dispatchDown_port_noCell {p : Port} (foreign : frameDest bytes ≠ s.mga.factory)
    (unicast : isGroupAddr (frameDest bytes) = false) (station : portWithStation? s (frameDest bytes) = some p) :
    dispatchDown none bytes s =
      noCellToPort p (classify false (some p) bytes s).1 (classify false (some p) bytes s).2 := by
  have narrow := ne_broadcast_of_unicast unicast
  simp [dispatchDown_resolves foreign (.inl narrow), resolveDown, narrow, unicast, station]

/-- A frame for a group (R72 step 3). -/
theorem dispatchDown_group {g : Group} (foreign : frameDest bytes ≠ s.mga.factory) (narrow : frameDest bytes ≠ broadcast)
    (multicast : isGroupAddr (frameDest bytes) = true) (address : groupWithAddress? s (frameDest bytes) = some g) :
    dispatchDown cell bytes s = deliverToGroup g cell bytes s := by
  simp [dispatchDown_resolves foreign (.inl narrow), resolveDown, narrow, multicast, address]

/-- A broadcast frame that is not for management, and a multicast frame of no group, are flooded (R72 steps 1 and 4). -/
theorem dispatchDown_flood (foreign : frameDest bytes ≠ s.mga.factory)
    (wide : frameDest bytes = broadcast ∧ frameType bytes ≠ 0x88B6 ∨
      frameDest bytes ≠ broadcast ∧ isGroupAddr (frameDest bytes) = true ∧
        groupWithAddress? s (frameDest bytes) = none) :
    dispatchDown cell bytes s = flood cell bytes s := by
  rcases wide with ⟨all, other⟩ | ⟨narrow, multicast, unheld⟩
  · rw [dispatchDown_resolves foreign (.inr other), resolveDown]
    exact if_pos all
  · simp [dispatchDown_resolves foreign (.inl narrow), resolveDown, narrow, multicast, unheld]

end

/-- The one DISABLED port that holds the address is counted too (R72 step 5, log 31). -/
theorem unknownUnicast_sole {a : Addr} {s : State} {p : Port}
    (sole : (allPorts.filter fun q => (s.port q).state = .disabled && (s.port q).cfg.station = a) = [p]) :
    unknownUnicast a s = countDrop p .disabled (countUnknown s) := by rw [unknownUnicast, sole]

theorem unknownUnicast_other {a : Addr} {s : State}
    (other : (allPorts.filter fun q => (s.port q).state = .disabled && (s.port q).cfg.station = a).length ≠ 1) :
    unknownUnicast a s = countUnknown s := by
  unfold unknownUnicast
  split
  · rename_i sole; exact absurd (by rw [sole]; rfl) other
  · rfl

/-- Settles O23: R71 judges the part's own address, R72 any other. -/
theorem unknownDestinationIsCounted : Obligations.UnknownDestinationIsCounted := by
  unfold Obligations.UnknownDestinationIsCounted
  intro c bytes s h a holders
  refine ⟨fun own other => exec_uplinkFrame_dispatched h (dispatchDown_own own other) (by simp),
    fun foreign unicast unheld => ?_⟩
  have unknown : dispatchDown (some c) bytes (s.arrived .uplink c bytes) = unknownUnicast a (s.arrived .uplink c bytes) :=
    dispatchDown_unknown foreign unicast unheld
  exact ⟨fun p sole => exec_uplinkFrame_dispatched h (unknown.trans (unknownUnicast_sole sole)) (by simp),
    fun other => exec_uplinkFrame_dispatched h (unknown.trans (unknownUnicast_other other)) (by simp)⟩

end Sys2Proof.Machine
end

section
/-! SUPPORT. A unicast frame for one port (Table 4-4, R78 to R80, R90, R97): O18 and O19. -/

namespace Sys2Proof.Machine

/-! ### The state that a classified frame is delivered in -/

theorem arrived_refs (s : State) (e : EtherPort) (c d : CellNo) (bytes : List Byte) :
    ((s.arrived e c bytes).cell d).refs = (s.cell d).refs := by
  rw [State.arrived, storeCell, State.modCell_cell]
  split
  · rename_i same; rw [same, setReceiving_cell]
  · rw [setReceiving_cell]

theorem classifiedDown_port (s : State) (p : Port) (c : CellNo) (bytes : List Byte) (q : Port) :
    (s.classifiedDown p c bytes).2.port q = s.port q := (Quiet.classify _ _ _ _).port q

theorem classifiedDown_owed (s : State) (p : Port) (c : CellNo) (bytes : List Byte) :
    (s.classifiedDown p c bytes).2.owed = s.owed := by rw [State.classifiedDown, classify_owed, arrived_owed]

theorem classifiedDown_counted {s : State} {c : CellNo} (counted : 0 < (s.cell c).refs) (p : Port) (bytes : List Byte) :
    0 < ((s.classifiedDown p c bytes).2.cell c).refs :=
  Nat.lt_of_lt_of_le (by rwa [arrived_refs]) ((Quiet.classify false (some p) bytes (s.arrived .uplink c bytes)).refs c)

/-- A frame for one port is classified, delivered to it, and then its ingress gives the cell up. -/
theorem exec_uplinkFrame_port {s : State} {p : Port} {c : CellNo} {bytes : List Byte} (h : s.Addresses p c bytes) :
    exec (.uplinkFrameReceived bytes true) s = .next (settle (dropRef c
      (deliverToPort p c bytes (s.classifiedDown p c bytes).1 (s.classifiedDown p c bytes).2))) := by
  rw [exec_uplinkFrameReceived, whileRunning_of_running h.running, receiveUplink_passed h.toReceives,
    dispatchDown_port (s := s.arrived .uplink c bytes) h.other h.unicast h.station]
  rfl

/-- A delivery that hands nothing on. -/
theorem exec_uplinkFrame_port_of_owed {s t : State} {p : Port} {c : CellNo} {bytes : List Byte}
    (h : s.Addresses p c bytes) (delivers :
      deliverToPort p c bytes (s.classifiedDown p c bytes).1 (s.classifiedDown p c bytes).2 = t)
    (owed : t.owed = (s.classifiedDown p c bytes).2.owed) :
    exec (.uplinkFrameReceived bytes true) s = .next (dropRef c t) := by
  rw [exec_uplinkFrame_port h, delivers,
    settle_of_owed (by rw [dropRef_owed, owed, classifiedDown_owed]; exact h.settled)]

/-! ### Table 4-4, row by row -/

section
variable {p : Port} {c : CellNo} {bytes : List Byte} {k : Classified} {s : State}

theorem deliverToPort_faulted (faulted : (s.port p).state = .faulted) :
    deliverToPort p c bytes k s = countDrop p .faulted s := by simp [deliverToPort, faulted]

theorem deliverToPort_deliverable (ready : (s.port p).state = .ready) (h : deliverable s p = true) :
    deliverToPort p c bytes k s = forwardDown p ⟨c, bytes.length, none⟩ k.activity s := by
  simp [deliverToPort, ready, h]

/-- A READY port with a release in progress (R97). -/
theorem deliverToPort_releasing (ready : (s.port p).state = .ready) (h : deliverable s p = false) :
    deliverToPort p c bytes k s = (holdFrame p c bytes.length k s).2 := by
  simp [deliverToPort, ready, h]

theorem deliverToPort_action (unready : (s.port p).state ≠ .ready) (sound : (s.port p).state ≠ .faulted)
    (enabled : (s.port p).state ≠ .disabled) (drop : k.action = .drop) :
    deliverToPort p c bytes k s = countDrop p .action s := by
  unfold deliverToPort
  cases state : (s.port p).state
  case ready => exact absurd state unready
  case faulted => exact absurd state sound
  case disabled => exact absurd state enabled
  all_goals simp only [drop]

theorem deliverToPort_holds
    (h : ((s.port p).state = .waking ∨ (s.port p).state = .resuming) ∧ k.action ≠ .drop ∨
      ((s.port p).state = .pausing ∨ (s.port p).state = .paused ∨ (s.port p).state = .asleep) ∧ k.action = .hold) :
    deliverToPort p c bytes k s = (holdFrame p c bytes.length k s).2 := by
  rcases h with ⟨waking | resuming, kept⟩ | ⟨pausing | paused | asleep, hold⟩
  · cases action : k.action <;> simp_all [deliverToPort]
  · cases action : k.action <;> simp_all [deliverToPort]
  · simp [deliverToPort, pausing, hold]
  · simp [deliverToPort, paused, hold]
  · simp [deliverToPort, asleep, hold]

theorem deliverToPort_pausing (pausing : (s.port p).state = .pausing) (waking : k.action.waking = true) :
    deliverToPort p c bytes k s = holdAndNeed p c bytes.length k s := by
  cases action : k.action <;> simp_all [deliverToPort, Action.waking]

/-- A frame with a waking action at a port that rests; a poll for a PAUSED port is looked up before (R108). -/
theorem deliverToPort_resting (h : (s.port p).state = .asleep ∧ k.action.waking = true ∨
      (s.port p).state = .paused ∧ k.action = .holdAndWake) :
    deliverToPort p c bytes k s = holdOrPark p c bytes.length k s := by
  rcases h with ⟨asleep, waking⟩ | ⟨paused, wake⟩
  · cases action : k.action <;> simp_all [deliverToPort, Action.waking]
  · simp [deliverToPort, paused, wake]

/-! ### Placing, holding and parking -/

/-- A copy that its transmit queue has room for. -/
theorem forwardDown_room {x : TxEntry} {a : Bool} (ready : (s.port p).state = .ready)
    (room : txFull s (.camera p) = false) :
    forwardDown p x a s = addRef x.cell (s.modPort p fun r => { r with
      egress := { r.egress with queue := r.egress.queue ++ [x] }
      counts := { r.counts with forwardedDown := bump r.counts.forwardedDown }
      idle := if a then 0 else r.idle }) := by
  have placed : countForwardedDown p (appendTx (.camera p) x s) = addRef x.cell (s.modPort p fun r => { r with
      egress := { r.egress with queue := r.egress.queue ++ [x] }
      counts := { r.counts with forwardedDown := bump r.counts.forwardedDown } }) := by
    rw [countForwardedDown, appendTx, addRef_modCounts, State.modCounts, State.modEgress, State.modPort_modPort]
  unfold forwardDown
  rw [room, if_neg (by decide), placed]
  cases a
  · rfl
  · dsimp only
    rw [if_pos rfl, restartIdle, addRef_modPort, State.modPort_modPort]
    exact congrArg (addRef x.cell) (modPort_congr (if_pos ready))

theorem forwardDown_full {x : TxEntry} {a : Bool} (full : txFull s (.camera p) = true) :
    forwardDown p x a s = countDrop p .txFull s := if_pos full

theorem holdAndNeed_held {n : Nat} {t : State} (h : holdFrame p c n k s = (true, t)) :
    holdAndNeed p c n k s = takeNeed .traffic p t := by rw [holdAndNeed, h]

theorem holdAndNeed_dropped {n : Nat} {t : State} (h : holdFrame p c n k s = (false, t)) :
    holdAndNeed p c n k s = t := by rw [holdAndNeed, h]

theorem holdOrPark_parked {n : Nat} (parked : (s.port p).park = true) :
    holdOrPark p c n k s = countDrop p .parked s := if_pos parked

theorem holdOrPark_unparked {n : Nat} (unparked : (s.port p).park = false) :
    holdOrPark p c n k s = holdAndNeed p c n k s := if_neg (by rw [unparked]; decide)

end

/-! ### The statements -/

/-- Settles O18: by deliverability, and then by the room in the transmit queue or in the hold queue. -/
theorem downstreamFrameAtReadyPort : Obligations.DownstreamFrameAtReadyPort := by
  unfold Obligations.DownstreamFrameAtReadyPort
  intro p c bytes s h ready k u full
  have awake : (u.port p).state = .ready := by rw [classifiedDown_port]; exact ready
  have counted : 0 < (u.cell c).refs := classifiedDown_counted h.counted p bytes
  have run {t : State} : deliverToPort p c bytes k u = t → t.owed = u.owed →
      exec (.uplinkFrameReceived bytes true) s = .next (dropRef c t) := exec_uplinkFrame_port_of_owed h
  refine ⟨fun passes room => ?_, fun passes crowded => ?_, fun busy room => ?_, fun busy crowded => ?_⟩
  · rw [run ((deliverToPort_deliverable awake passes).trans (forwardDown_room awake room)) rfl]
    exact congrArg Host.Outcome.next (dropRef_addRef counted)
  · exact run ((deliverToPort_deliverable awake passes).trans (forwardDown_full crowded)) rfl
  · rw [run ((deliverToPort_releasing awake busy).trans (congrArg Prod.snd (holdFrame_room room))) rfl]
    exact congrArg Host.Outcome.next (dropRef_addRef counted)
  · have held := congrArg Prod.snd (holdFrame_full (c := c) (n := bytes.length) (k := k) crowded)
    exact run ((deliverToPort_releasing awake busy).trans held)
      ((congrArg State.owed held).symm.trans (holdFrame_owed _ _ _ _ _))

/-- Settles O19: by the row of Table 4-4, and for a frame that would be held by the room in the hold queue. -/
theorem downstreamFrameAtPortThatIsNotReady : Obligations.DownstreamFrameAtPortThatIsNotReady := by
  unfold Obligations.DownstreamFrameAtPortThatIsNotReady
  intro p c bytes s h k u st kept
  have port : u.port p = s.port p := classifiedDown_port s p c bytes p
  have state : (u.port p).state = st := by rw [port]
  have counted : 0 < (u.cell c).refs := classifiedDown_counted h.counted p bytes
  have run {t : State} : deliverToPort p c bytes k u = t → t.owed = u.owed →
      exec (.uplinkFrameReceived bytes true) s = .next (dropRef c t) := exec_uplinkFrame_port_of_owed h
  refine ⟨fun faulted => run (deliverToPort_faulted (state.trans faulted)) rfl, fun unready sound enabled drop =>
    run (deliverToPort_action (by rwa [state]) (by rwa [state]) (by rwa [state]) drop) rfl, fun room => ?_,
    fun parked rests => ?_, fun crowded holds => ?_⟩
  · have held : holdFrame p c bytes.length k u = (true, addRef c kept) := holdFrame_room room
    refine ⟨fun holds => ?_, fun needs => ?_⟩
    · rw [run ((deliverToPort_holds (by rwa [state])).trans (congrArg Prod.snd held)) rfl]
      exact congrArg Host.Outcome.next (dropRef_addRef counted)
    · have delivers : deliverToPort p c bytes k u = takeNeed .traffic p (addRef c kept) := by
        rw [← holdAndNeed_held held]
        rcases needs with ⟨pausing, waking⟩ | ⟨asleep, waking, unparked⟩ | ⟨paused, wake, unparked⟩
        · exact deliverToPort_pausing (state.trans pausing) waking
        · rw [deliverToPort_resting (.inl ⟨state.trans asleep, waking⟩), holdOrPark_unparked (by rw [port, unparked])]
        · rw [deliverToPort_resting (.inr ⟨state.trans paused, wake⟩), holdOrPark_unparked (by rw [port, unparked])]
      rw [exec_uplinkFrame_port h]
      exact congrArg (fun t => Host.Outcome.next (settle (dropRef c t))) delivers
  · exact run ((deliverToPort_resting (by rwa [state])).trans (holdOrPark_parked (by rw [port, parked]))) rfl
  · intro full
    have held : holdFrame p c bytes.length k u = _ := holdFrame_full crowded
    have delivers : deliverToPort p c bytes k u = (holdFrame p c bytes.length k u).2 := by
      rcases holds with ⟨wakes, kept⟩ | ⟨rests, hold⟩ | ⟨pausing, waking⟩ | ⟨asleep, waking, unparked⟩ |
        ⟨paused, wake, unparked⟩
      · exact deliverToPort_holds (.inl ⟨by rwa [state], kept⟩)
      · exact deliverToPort_holds (.inr ⟨by rwa [state], hold⟩)
      · rw [deliverToPort_pausing (state.trans pausing) waking, holdAndNeed_dropped held, held]
      · rw [deliverToPort_resting (.inl ⟨state.trans asleep, waking⟩), holdOrPark_unparked (by rw [port, unparked]),
          holdAndNeed_dropped held, held]
      · rw [deliverToPort_resting (.inr ⟨state.trans paused, wake⟩), holdOrPark_unparked (by rw [port, unparked]),
          holdAndNeed_dropped held, held]
    rw [run delivers (holdFrame_owed _ _ _ _ _), held]
    rfl

end Sys2Proof.Machine
end

section
/-! SUPPORT. One frame for several ports (R77, R81, R82, R88): O24 and O25. -/

namespace Sys2Proof.Machine

/-! ### The copies -/

/-- The copies of the frame in cell c for the READY ports among those that `serves` names, with the cell then given up by
the ingress (R88). -/
theorem copyTo_spec (serves : Port → Bool) (c : CellNo) (n : Nat) (a : Bool) (u : State) :
    let t := dropRef c (copyTo (readyOf u (allPorts.filter serves)) c n a u)
    let copies := allPorts.countP fun q => serves q && (u.port q).state = .ready && !txFull u (.camera q)
    (∀ q, t.port q =
      if (u.port q).state ≠ .ready ∨ serves q = false then u.port q
      else if txFull u (.camera q) then
        { u.port q with counts := { (u.port q).counts with
          dropped := (u.port q).counts.dropped.set 6 (bump (u.port q).counts.dropped[6]) } }
      else
        { u.port q with
          egress := { (u.port q).egress with queue := (u.port q).egress.queue ++ [⟨c, n, none⟩] }
          counts := { (u.port q).counts with forwardedDown := bump (u.port q).counts.forwardedDown }
          idle := if a then 0 else (u.port q).idle }) ∧
    (t.cell c).refs = (u.cell c).refs + copies - 1 ∧ (t.cell c).data = (u.cell c).data ∧
    (∀ d, d ≠ c → t.cell d = u.cell d) ∧
    t.free = (if (u.cell c).refs + copies = 1 then u.free ++ [c] else u.free) ∧
    t.uplink = u.uplink ∧ t.adm = u.adm ∧ t.groups = u.groups ∧ t.tbm = u.tbm ∧ t.mga = u.mga ∧ t.evu = u.evu ∧
    t.phase = u.phase ∧ t.owed = u.owed ∧ t.pending = u.pending := by
  intro t copies
  have nodup : (readyOf u (allPorts.filter serves)).Nodup := ((List.nodup_finRange 16).filter _).filter _
  have mem (q : Port) : q ∈ readyOf u (allPorts.filter serves) ↔ ¬ ((u.port q).state ≠ .ready ∨ serves q = false) := by
    simp [readyOf, allPorts, and_comm]
  have count : (readyOf u (allPorts.filter serves)).countP (fun q => !txFull u (.camera q)) = copies := by
    simp only [readyOf, List.countP_filter, copies]
    refine List.countP_congr fun q _ => ?_
    simp [and_comm, and_left_comm]
  obtain ⟨w, spread⟩ : ∃ w, copyTo (readyOf u (allPorts.filter serves)) c n a u = w := ⟨_, rfl⟩
  have given : t = dropRef c w := congrArg (dropRef c) spread
  obtain ⟨port, refs, data, others, rest⟩ :=
    fold_forwardDown (fun _ => ⟨c, n, none⟩) c n (fun _ => ⟨rfl, rfl⟩) a _ nodup u
  rw [count] at refs
  rw [copyTo] at spread
  rw [spread] at rest refs data
  simp only [spread] at port others
  obtain ⟨dropped, drefs, ddata, dothers, dfree⟩ := dropRef_spec c w
  have free : w.free = u.free := by rw [rest]
  have alone : dropRef c w = { u with ports := w.ports, cells := (dropRef c w).cells, free := (dropRef c w).free } :=
    dropped.trans (congrArg (fun x : State => { x with cells := (dropRef c w).cells, free := (dropRef c w).free }) rest)
  rw [given]
  refine ⟨fun q => ?_, by rw [drefs, refs], ddata.trans data, fun d hd => (dothers d hd).trans (others d hd),
    by rw [dfree, free, refs], ?_⟩
  · rw [dropRef_port, port]
    by_cases h : (u.port q).state ≠ .ready ∨ serves q = false
    · rw [if_pos h, if_neg (mt (mem q).1 (not_not_intro h))]
    · have ready : (u.port q).state = .ready := not_not.1 (not_or.1 h).1
      rw [if_neg h, if_pos ((mem q).2 h)]
      simp only [PortRec.copied, ready, and_true]
  · rw [alone]
    exact ⟨rfl, rfl, rfl, rfl, rfl, rfl, rfl, rfl, rfl⟩

/-! ### Floods and groups -/

theorem classifiedWide_owed (s : State) (c : CellNo) (bytes : List Byte) : (s.classifiedWide c bytes).2.owed = s.owed := by
  rw [State.classifiedWide, classify_owed, arrived_owed]

/-- A flooded frame in a cell (R82). -/
theorem flood_cell (c : CellNo) (bytes : List Byte) (s : State) :
    flood (some c) bytes s = copyTo (readyOf (classify false none bytes s).2 allPorts) c bytes.length
      (classify false none bytes s).1.activity (classify false none bytes s).2 := rfl

/-- Settles O24: the copies for the READY ones of all ports. -/
theorem floodedFrameReachesEveryReadyPort : Obligations.FloodedFrameReachesEveryReadyPort := by
  unfold Obligations.FloodedFrameReachesEveryReadyPort
  intro c bytes s h foreign wide k u copies
  have owed : u.owed = [] := (classifiedWide_owed s c bytes).trans h.settled
  have pending : u.pending = s.pending := (Quiet.classify _ _ _ _).pending
  have run : exec (.uplinkFrameReceived bytes true) s =
      .next (dropRef c (copyTo (readyOf u allPorts) c bytes.length k.activity u)) :=
    exec_uplinkFrame_dispatched h
      ((dispatchDown_flood (s := s.arrived .uplink c bytes) foreign wide).trans (flood_cell _ _ _))
      ((copyTo_owed _ _ _ _ _).trans (classifiedWide_owed s c bytes))
  clear_value u k
  have copied := copyTo_spec (fun _ => true) c bytes.length k.activity u
  rw [show allPorts.filter (fun _ => true) = allPorts from List.filter_true _] at copied
  obtain ⟨port, refs, data, others, free, uplink, adm, groups, tbm, mga, evu, phase, kept, waiting⟩ := copied
  exact ⟨_, run, fun q => (port q).trans (if_congr (by simp) rfl rfl), refs, others, data, free, uplink, adm, groups, tbm,
    mga, evu, phase, kept.trans owed, waiting.trans pending⟩

section
variable {g : Group} {c : CellNo} {bytes : List Byte} {s u : State} {k : Classified}

/-- A group frame that is no CAPTURE frame goes by GRP's read of the entry (R81). -/
theorem deliverToGroup_serves {cfg : GroupConfig} (classified : classify false none bytes s = (k, u))
    (quiet : k.cls ≠ .capture) (read : (readGroup g u).1 = some cfg) (enabled : cfg.enabled = true) :
    deliverToGroup g (some c) bytes s =
      copyTo (readyOf (readGroup g u).2 (portList cfg.members)) c bytes.length k.activity (readGroup g u).2 := by
  unfold deliverToGroup
  rw [classified]
  dsimp only
  rw [if_neg quiet, show readGroup g u = (some cfg, (readGroup g u).2) from Prod.ext read rfl]
  exact if_pos enabled

theorem deliverToGroup_poisoned (classified : classify false none bytes s = (k, u)) (quiet : k.cls ≠ .capture)
    (read : (readGroup g u).1 = none) : deliverToGroup g (some c) bytes s = countUnknown (readGroup g u).2 := by
  unfold deliverToGroup
  rw [classified]
  dsimp only
  rw [if_neg quiet, show readGroup g u = (none, (readGroup g u).2) from Prod.ext read rfl]

theorem deliverToGroup_disabled {cfg : GroupConfig} (classified : classify false none bytes s = (k, u))
    (quiet : k.cls ≠ .capture) (read : (readGroup g u).1 = some cfg) (disabled : cfg.enabled = false) :
    deliverToGroup g (some c) bytes s = countUnknown (readGroup g u).2 := by
  unfold deliverToGroup
  rw [classified]
  dsimp only
  rw [if_neg quiet, show readGroup g u = (some cfg, (readGroup g u).2) from Prod.ext read rfl]
  exact if_neg (by rw [disabled]; decide)

end

/-- Settles O25: by what GRP's read hands over. -/
theorem groupFrameIsCopiedToReadyMembers : Obligations.GroupFrameIsCopiedToReadyMembers := by
  unfold Obligations.GroupFrameIsCopiedToReadyMembers
  intro g c bytes s h foreign narrow multicast address k read v quiet
  have owed : v.owed = [] := (readGroup_owed _ _).trans ((classifiedWide_owed s c bytes).trans h.settled)
  have pending : v.pending = s.pending := (Calm.readGroup _ _).pending.trans (Quiet.classify _ _ _ _).pending
  have run {t : State} (delivers : deliverToGroup g (some c) bytes (s.arrived .uplink c bytes) = t)
      (kept : t.owed = v.owed) : exec (.uplinkFrameReceived bytes true) s = .next (dropRef c t) :=
    exec_uplinkFrame_dispatched h
      ((dispatchDown_group (s := s.arrived .uplink c bytes) foreign narrow multicast address).trans delivers)
      (kept.trans (owed.trans h.settled.symm))
  refine ⟨fun poisoned => run (deliverToGroup_poisoned rfl quiet poisoned) rfl,
    fun cfg found disabled => run (deliverToGroup_disabled rfl quiet found disabled) rfl, fun cfg found enabled => ?_⟩
  intro copies
  have served := run (deliverToGroup_serves rfl quiet found enabled) (copyTo_owed _ _ _ _ _)
  clear run
  change exec _ s = .next (dropRef c (copyTo (readyOf v (portList cfg.members)) c bytes.length k.activity v)) at served
  clear_value v k
  obtain ⟨port, refs, data, others, free, uplink, adm, groups, tbm, mga, evu, phase, kept, waiting⟩ :=
    copyTo_spec (hasPort cfg.members) c bytes.length k.activity v
  exact ⟨_, served, port, refs, data, others, free, uplink, adm, groups, tbm, mga, evu, phase, kept.trans owed,
    waiting.trans pending⟩

end Sys2Proof.Machine
end

section
/-! SUPPORT. A camera frame at a port to which it is no evidence (Table 4-5, R84, R85): O17. -/

namespace Sys2Proof.Machine

/-! ### Step 1 of R84: nothing is shown -/

section
variable {p : Port} {bytes : List Byte} {k : Classified} {s : State}

theorem cameraShows_ready (ready : (s.port p).state = .ready) : cameraShows p bytes k s = s := by
  simp [cameraShows, ready]

theorem cameraShows_asleep (asleep : (s.port p).state = .asleep) : cameraShows p bytes k s = s := by
  simp [cameraShows, asleep]

/-- Readiness evidence: a READY_SIGN, or in ANY_FRAME mode any frame but a PROBE_ANSWER, in the window of a wake (R36). -/
theorem isEvidence_iff (r : PortRec) (cls : FrameClass) :
    (awaitsEvidence r.op && showsCamera r.cfg.readiness cls) = true ↔
      (r.op.kind = .cold ∨ r.op.kind = .resume) ∧ r.op.phase = .window ∧
        (cls = .readySign ∨ r.cfg.readiness = .anyFrame ∧ cls ≠ .probeAnswer) := by
  simp [awaitsEvidence, showsCamera, and_assoc]

theorem cameraShows_noEvidence (wakes : (s.port p).state = .waking ∨ (s.port p).state = .resuming)
    (h : ¬ (awaitsEvidence (s.port p).op && showsCamera (s.port p).cfg.readiness k.cls) = true) :
    cameraShows p bytes k s = s := by
  rcases wakes with wakes | wakes <;> rw [cameraShows, wakes] <;> exact if_neg h

/-! ### Steps 2 to 4 of R84 -/

/-- The idle timer of a READY port and the activity flag (R16, R77). -/
theorem restartIdle_activity (ready : (s.port p).state = .ready) (a : Bool) :
    (if a then restartIdle p s else s) = s.modPort p fun r => { r with idle := if a then 0 else r.idle } := by
  cases a
  · exact (State.modPort_id s rfl).symm
  · exact restartIdle_ready ready

/-- Only an answer that found its port READY or PAUSING is learned (R105). -/
theorem considerLearning_unlearned {st : PortState} (ready : st ≠ .ready) (pausing : st ≠ .pausing) (bytes : List Byte)
    (key seq : Option Nat) (s : State) : considerLearning p st bytes key seq s = s := if_neg (by simp [ready, pausing])

/-- At a port that is neither READY nor PAUSING only the forwarding is left. -/
theorem handledUp_unheard {st : PortState} (c : CellNo) (hs : (s.port p).state = st) (ready : st ≠ .ready)
    (pausing : st ≠ .pausing) :
    handledUp p st c bytes k s = if k.cls = .probeAnswer then s else forwardUp p c bytes.length s := by
  simp only [handledUp, restartIdle_of_not_ready (hs ▸ ready), considerLearning_unlearned ready pausing, ite_self]

/-! ### Forwarding (R85) -/

/-- What forwarding, and then the giving up of the cell by the ingress, comes to. -/
theorem forwardUp_answers {answers : State → Prop} {c : CellNo} {n : Nat} (counted : 0 < (s.cell c).refs)
    (run : answers (dropRef c (forwardUp p c n s))) :
    (s.uplink.linkUp = false → answers (dropRef c (countDrop p .uplink s))) ∧
    (s.uplink.linkUp = true → txFull s .uplink = true → answers (dropRef c (countDrop p .txFull s))) ∧
    (s.uplink.linkUp = true → txFull s .uplink = false → answers
      ((s.modEgress .uplink fun g => { g with queue := g.queue ++ [⟨c, n, none⟩] }).modCounts p
        fun m => { m with forwardedUp := bump m.forwardedUp })) := by
  unfold forwardUp at run
  refine ⟨fun down => ?_, fun up full => ?_, fun up room => ?_⟩
  · simpa only [down, Bool.not_false, if_true] using run
  · simpa only [up, full, Bool.not_true, Bool.false_eq_true, if_false, if_true] using run
  · simp only [up, room, Bool.not_true, Bool.false_eq_true, if_false, appendTx, addRef_modCounts] at run
    rwa [dropRef_addRef (by exact counted)] at run

end

/-! ### The whole path -/

theorem upstream_disabled {p : Port} {cell : Option CellNo} {bytes : List Byte} {s : State}
    (hf : frameType bytes ≠ Config.managementEtherType) (disabled : (s.port p).state = .disabled) :
    upstream p cell bytes s = countDrop p .disabled s := by
  rw [upstream, if_neg hf, disabled]

theorem upstream_faulted {p : Port} {cell : Option CellNo} {bytes : List Byte} {s : State}
    (hf : frameType bytes ≠ Config.managementEtherType) (faulted : (s.port p).state = .faulted) :
    upstream p cell bytes s = countDrop p .faulted s := by
  rw [upstream, if_neg hf, faulted]

/-- A frame that shows its port nothing and hands nothing on. -/
theorem exec_cameraFrame_quiet {p : Port} {c : CellNo} {bytes : List Byte} {s t : State} {st : PortState}
    (h : s.Receives (.camera p) c bytes) (hf : frameType bytes ≠ Config.managementEtherType) (hs : (s.port p).state = st)
    (enabled : st ≠ .disabled) (sound : st ≠ .faulted)
    (nothing : cameraShows p bytes (s.classifiedUp p c bytes).1 (s.classifiedUp p c bytes).2 = (s.classifiedUp p c bytes).2)
    (handled : handledUp p st c bytes (s.classifiedUp p c bytes).1 (s.classifiedUp p c bytes).2 = t)
    (owed : t.owed = (s.classifiedUp p c bytes).2.owed) :
    exec (.cameraFrameReceived p bytes true) s = .next (dropRef c t) := by
  rw [exec_cameraFrame_classified h hf hs enabled sound]
  dsimp only
  rw [nothing, handled, settle_of_owed (by rw [dropRef_owed, owed, classifiedUp_owed]; exact h.settled)]

theorem classifiedUp_spares (s : State) (p : Port) (c : CellNo) (bytes : List Byte) :
    Spares (s.arrived (.camera p) c bytes) (s.classifiedUp p c bytes).2 := (Quiet.classify _ _ _ _).spares

theorem classifiedUp_counted {s : State} {c : CellNo} (counted : 0 < (s.cell c).refs) (p : Port) (bytes : List Byte) :
    0 < ((s.classifiedUp p c bytes).2.cell c).refs :=
  Nat.lt_of_lt_of_le (by rwa [arrived_refs]) ((classifiedUp_spares s p c bytes).refs c)

/-- Settles O17, by the state of the port and then by the class of the frame. -/
theorem upstreamFrameIsForwardedOrDropped : Obligations.UpstreamFrameIsForwardedOrDropped := by
  unfold Obligations.UpstreamFrameIsForwardedOrDropped
  intro p c bytes s h hf
  have arrived : ((s.arrived (.camera p) c bytes).port p).state = (s.port p).state := by rw [arrived_port]
  have port := classifiedUp_port p c bytes s
  have link : (s.classifiedUp p c bytes).2.uplink.linkUp = s.uplink.linkUp := (classifiedUp_spares s p c bytes).linkUp
  have counted := classifiedUp_counted h.counted p bytes
  have shut {t : State} (drops : upstream p (some c) bytes (s.arrived (.camera p) c bytes) = t) (owed : t.owed = s.owed) :
      exec (.cameraFrameReceived p bytes true) s = .next (dropRef c t) :=
    exec_cameraFrame_of_owed h.toSettled (by rw [receiveCamera_passed h, drops]) (by rw [dropRef_owed, owed])
  refine ⟨fun disabled => shut (upstream_disabled hf (arrived.trans disabled)) (by simp),
    fun faulted => shut (upstream_faulted hf (arrived.trans faulted)) (by simp), ?_, ?_⟩
  · intro ready k u w v hk
    have awake : (u.port p).state = .ready := by rw [port]; exact ready
    obtain ⟨learned, kept⟩ : Spares w v ∧ v.owed = u.owed := by
      by_cases poll : k.cls = .pollAnswer
      · rw [show v = considerLearning p .ready bytes k.keyOffset k.seqOffset w from if_pos poll]
        exact ⟨Spares.considerLearning _ _ _ _ _ _, considerLearning_owed _ _ _ _ _ _⟩
      · rw [show v = w from if_neg poll]
        exact ⟨Spares.refl w, rfl⟩
    have handled : handledUp p .ready c bytes k u = forwardUp p c bytes.length v := by
      simp only [handledUp, restartIdle_activity awake, if_neg hk]
      rfl
    have run := exec_cameraFrame_quiet h hf ready (by decide) (by decide) (cameraShows_ready awake) handled
      ((forwardUp_owed _ _ _ _).trans kept)
    have sent := forwardUp_answers (answers := fun t => exec (.cameraFrameReceived p bytes true) s = .next t)
      (Nat.lt_of_lt_of_le counted (learned.refs c)) run
    rwa [show v.uplink.linkUp = s.uplink.linkUp from learned.linkUp.trans link] at sent
  · intro k u r answers evidence quiet
    have unheard : quiet → answers (dropRef c (if k.cls = .probeAnswer then u else forwardUp p c bytes.length u)) := by
      intro hq
      have op : (u.port p).op = r.op := by rw [port]
      have cfg : (u.port p).cfg = r.cfg := by rw [port]
      have state : (u.port p).state = r.state := by rw [port]
      have nothing : cameraShows p bytes k u = u := by
        rcases hq with asleep | ⟨wakes, unproved⟩
        · exact cameraShows_asleep (state.trans asleep)
        · refine cameraShows_noEvidence (by rwa [state]) ?_
          rw [op, cfg, isEvidence_iff]
          exact unproved
      have rests : r.state ∈ [PortState.asleep, .waking, .resuming] := by
        rcases hq with asleep | ⟨waking | resuming, -⟩
        · rw [asleep]; decide
        · rw [waking]; decide
        · rw [resuming]; decide
      have other (st : PortState) (absent : st ∉ [PortState.asleep, .waking, .resuming]) : r.state ≠ st :=
        fun same => absent (same ▸ rests)
      refine exec_cameraFrame_quiet h hf rfl (other _ (by decide)) (other _ (by decide)) nothing
        (handledUp_unheard c state (other _ (by decide)) (other _ (by decide))) ?_
      split
      · rfl
      · exact forwardUp_owed _ _ _ _
    refine ⟨fun ready hk => ?_, fun hq hk => ?_, fun hq hk => ?_⟩
    · have awake : (u.port p).state = .ready := by rw [port]; exact ready
      have handled : handledUp p .ready c bytes k u = if k.activity then restartIdle p u else u := by
        simp only [handledUp, hk, if_true, reduceCtorEq, if_false]
      rw [restartIdle_activity awake] at handled
      exact exec_cameraFrame_quiet h hf ready (by decide) (by decide) (cameraShows_ready awake) handled rfl
    · have run := unheard hq
      rwa [if_pos hk] at run
    · have run := unheard hq
      rw [if_neg hk] at run
      have sent := forwardUp_answers counted run
      rwa [link] at sent

end Sys2Proof.Machine
end

section
/-! SUPPORT. Frames that fail the check of R70, and frames that found no cell (R72, R89): O15. -/

namespace Sys2Proof.Machine

/-! ### What a classification leaves in table memory -/

theorem searchRules_group (up : Bool) (scope : Option Port) (bytes : List Byte) (l : List (Fin 32)) (s : State) :
    (searchRules up scope bytes l s).2.tbm.group = s.tbm.group := by
  have read (i : Fin 32) (s : State) : (readRule i s).2.tbm.group = s.tbm.group := by
    simp only [readRule, noteFinding_tbm, State.modTbm_tbm]
  induction l generalizing s with
  | nil => rfl
  | cons i l ih =>
    have first := read i s
    unfold searchRules
    split <;> rename_i found <;> rw [found] at first
    · split
      · exact first
      · exact (ih _).trans first
    · exact (ih _).trans first

/-- A classification leaves the GROUP entries as they are. -/
theorem classify_group (up : Bool) (scope : Option Port) (bytes : List Byte) (s : State) :
    (classify up scope bytes s).2.tbm.group = s.tbm.group := by
  simp only [classify, readClassAction, noteFinding_tbm, State.modTbm_tbm, searchRules_group]

/-! ### A camera frame without a cell (R84, R89) -/

theorem upstream_noCell {p : Port} {bytes : List Byte} {s : State} (hf : frameType bytes ≠ Config.managementEtherType)
    (enabled : (s.port p).state ≠ .disabled) (sound : (s.port p).state ≠ .faulted) :
    upstream p none bytes s = countDrop p .noCell (classify true (some p) bytes s).2 := by
  rw [upstream, if_neg hf]
  cases state : (s.port p).state
  case disabled => exact absurd state enabled
  case faulted => exact absurd state sound
  all_goals rfl

/-! ### A frame for one port without a cell (R89) -/

section
variable {p : Port} {k : Classified} {s : State}

theorem noCellToPort_faulted (faulted : (s.port p).state = .faulted) : noCellToPort p k s = countDrop p .faulted s := by
  simp [noCellToPort, faulted]

theorem noCellToPort_action (sound : (s.port p).state ≠ .faulted) (enabled : (s.port p).state ≠ .disabled)
    (unready : (s.port p).state ≠ .ready) (drop : k.action = .drop) : noCellToPort p k s = countDrop p .action s := by
  simp [noCellToPort, sound, enabled, unready, drop]

theorem Action.waking_iff (a : Action) : a.waking = true ↔ a = .holdAndWake ∨ a = .answerOrWake := by
  cases a <;> simp [Action.waking]

theorem noCellToPort_parked (rests : (s.port p).state = .paused ∨ (s.port p).state = .asleep)
    (parked : (s.port p).park = true) (wakes : k.action = .holdAndWake ∨ k.action = .answerOrWake) :
    noCellToPort p k s = countDrop p .parked s := by
  have waking := (Action.waking_iff _).2 wakes
  have kept : k.action ≠ .drop := by rcases wakes with e | e <;> rw [e] <;> decide
  rcases rests with e | e <;> simp [noCellToPort, e, parked, waking, kept]

theorem noCellToPort_counted (sound : (s.port p).state ≠ .faulted) (enabled : (s.port p).state ≠ .disabled)
    (kept : (s.port p).state = .ready ∨ k.action ≠ .drop)
    (free : ¬ (((s.port p).state = .paused ∨ (s.port p).state = .asleep) ∧ (s.port p).park = true ∧
      (k.action = .holdAndWake ∨ k.action = .answerOrWake))) :
    noCellToPort p k s = if k.cls = .capture then raise .captureDrop (Detail.port p) (countDrop p .noCell s)
      else countDrop p .noCell s := by
  have action : ¬ ((s.port p).state ≠ .ready ∧ k.action = .drop) := by tauto
  rw [← Action.waking_iff] at free
  simp only [noCellToPort, if_neg enabled, if_neg sound]
  rw [if_neg (by simpa using action), if_neg (by simpa [and_assoc] using free)]

end

/-! ### A frame for several ports without a cell (R89, log 17) -/

/-- The state in which each port that `lost` names has counted a frame with cause NO_CELL (R89). -/
def State.missedBy (u : State) (lost : Port → Bool) : State :=
  { u with
    ports := Vector.ofFn fun q =>
      if lost q then { u.port q with counts := { (u.port q).counts with
        dropped := (u.port q).counts.dropped.set 7 (bump (u.port q).counts.dropped[7]) } }
      else u.port q }

/-- The counting of the frame for each port of a list, as the model does it. -/
theorem countDrops_missedBy {ps : List Port} {lost : Port → Bool} (u : State) (nodup : ps.Nodup)
    (mem : ∀ q, q ∈ ps ↔ lost q = true) : countDrops ps .noCell u = u.missedBy lost := by
  rw [countDrops_noCell ps u nodup]
  simp only [mem]
  rfl

/-- Of the ports that `serves` names the READY ones count the frame; a classification moves no port. -/
theorem countDrops_ready {s u : State} (quiet : Quiet s u) (serves : Port → Bool) :
    countDrops (readyOf u (allPorts.filter serves)) .noCell u =
      u.missedBy fun q => serves q && (s.port q).state = .ready :=
  countDrops_missedBy u (((List.nodup_finRange 16).filter _).filter _) fun q => by
    simp [readyOf, allPorts, quiet.port, and_comm]

theorem countDrops_enabled {s u : State} (quiet : Quiet s u) (serves : Port → Bool) :
    countDrops ((allPorts.filter serves).filter fun q => (u.port q).enabled) .noCell u =
      u.missedBy fun q => serves q && (s.port q).state ≠ .disabled :=
  countDrops_missedBy u (((List.nodup_finRange 16).filter _).filter _) fun q => by
    simp [PortRec.enabled, allPorts, quiet.port, and_comm]

section
variable {g : Group} {bytes : List Byte} {s u : State} {k : Classified}

theorem flood_noCell (classified : classify false none bytes s = (k, u)) : flood none bytes s =
    if k.cls = .capture then raise .captureDrop Detail.bare (u.missedBy fun q => (s.port q).state = .ready)
    else u.missedBy fun q => (s.port q).state = .ready := by
  have quiet := Quiet.classify false none bytes s
  rw [classified] at quiet
  have missed := countDrops_ready quiet fun _ => true
  rw [show allPorts.filter (fun _ => true) = allPorts from List.filter_true _] at missed
  simp only [Bool.true_and] at missed
  unfold flood
  rw [classified]
  dsimp only
  rw [missed]

/-- Whether the group serves is known without a read (log 17). -/
theorem deliverToGroup_noCell (classified : classify false none bytes s = (k, u)) : deliverToGroup g none bytes s =
    if groupServes s g then
      if k.cls = .capture then raise .captureDrop (Detail.group g 1)
        (u.missedBy fun q => hasPort s.tbm.group[g].val.members q && (s.port q).state ≠ .disabled)
      else u.missedBy fun q => hasPort s.tbm.group[g].val.members q && (s.port q).state = .ready
    else countUnknown u := by
  have quiet := Quiet.classify false none bytes s
  have group := classify_group false none bytes s
  rw [classified] at quiet group
  dsimp only at quiet group
  have serves : groupServes u g = groupServes s g := by simp only [groupServes, group]
  unfold deliverToGroup
  rw [classified]
  dsimp only
  simp only [serves, group]
  rw [portList, countDrops_enabled quiet, countDrops_ready quiet]
  cases groupServes s g <;> rfl

end

/-! ### The statement -/

/-- Settles O15: first by the check of R70, then by the ingress, and on the uplink by the destination. -/
theorem badFrameIsDroppedAndCounted : Obligations.BadFrameIsDroppedAndCounted := by
  unfold Obligations.BadFrameIsDroppedAndCounted
  refine ⟨fun p bytes good s h bad => ?_, fun bytes s h long short => ⟨fun p buffer hf => ?_, fun buffer => ?_⟩⟩
  · have fails := not_acceptable bad
    refine ⟨fun c into => exec_uplinkFrame_of_owed h ?_ (by simp), fun buffer => exec_uplinkFrame_of_owed h ?_ (by simp),
      fun c into => exec_cameraFrame_of_owed h ?_ (by simp), fun buffer => exec_cameraFrame_of_owed h ?_ (by simp)⟩
    · rw [receiveUplink, endReception_cell into, if_neg fails]
    · rw [receiveUplink, endReception_buffer buffer, if_neg fails]
    · rw [receiveCamera, endReception_cell into, if_neg fails]
    · rw [receiveCamera, endReception_buffer buffer, if_neg fails]
  · intro w answers
    have state : (w.port p).state = (s.port p).state := by simp [w, State.setReceiving]
    have owed : w.owed = s.owed := setReceiving_owed _ _ _
    have run {t : State} (takes : upstream p none bytes w = t) (kept : t.owed = w.owed) : answers t :=
      exec_cameraFrame_buffered h buffer long short takes (kept.trans owed)
    exact ⟨fun disabled => run (upstream_disabled hf (state.trans disabled)) rfl,
      fun faulted => run (upstream_faulted hf (state.trans faulted)) rfl,
      fun enabled sound => run (upstream_noCell hf (by rwa [state]) (by rwa [state]))
        ((countDrop_owed _ _ _).trans (classify_owed _ _ _ _))⟩
  · intro a w answers holders k u missed
    have owed : w.owed = s.owed := setReceiving_owed _ _ _
    have run {t : State} (takes : dispatchDown none bytes w = t) (kept : t.owed = w.owed) : answers t :=
      exec_uplinkFrame_buffered h buffer long short takes (kept.trans owed)
    have wide : u.owed = w.owed := classify_owed _ _ _ _
    refine ⟨fun own other => run (dispatchDown_own own other) rfl, fun foreign unicast unheld => ?_,
      fun p foreign unicast station => ?_, fun g foreign narrow multicast address => ?_, fun foreign flooded => ?_⟩
    · have unknown : dispatchDown none bytes w = unknownUnicast a w := dispatchDown_unknown foreign unicast unheld
      exact ⟨fun p sole => run (unknown.trans (unknownUnicast_sole sole)) rfl,
        fun other => run (unknown.trans (unknownUnicast_other other)) rfl⟩
    · intro k u st parked
      have port : u.port p = s.port p := (Quiet.classify _ _ _ _).port p
      have served {t : State} (takes : noCellToPort p k u = t) (kept : t.owed = u.owed) : answers t :=
        run ((dispatchDown_port_noCell (s := w) foreign unicast station).trans takes) (kept.trans (classify_owed _ _ _ _))
      refine ⟨fun faulted => served (noCellToPort_faulted (by rwa [port])) rfl, fun sound enabled unready drop =>
        served (noCellToPort_action (by rwa [port]) (by rwa [port]) (by rwa [port]) drop) rfl,
        fun ⟨rests, parks, wakes⟩ => served (noCellToPort_parked (by rwa [port]) (by rwa [port]) wakes) rfl,
        fun sound enabled kept free => served (noCellToPort_counted (by rwa [port]) (by rwa [port]) (by rwa [port])
          (by rwa [port])) ?_⟩
      split
      · exact raise_owed _ _ _
      · rfl
    · intro c
      have group := (dispatchDown_group (cell := none) (s := w) foreign narrow multicast address).trans
        (deliverToGroup_noCell (k := k) (u := u) rfl)
      have serves : groupServes w g = true ↔ c.val.enabled = true ∧ c.poison = false := by
        rw [groupServes, Bool.and_eq_true, Bool.not_eq_true']
        rfl
      refine ⟨fun unserved => run (group.trans (if_neg ?_)) wide, fun enabled sound capture => run (group.trans
          ((if_pos (serves.2 ⟨enabled, sound⟩)).trans (if_pos capture))) ((raise_owed _ _ _).trans wide),
        fun enabled sound other => run (group.trans ((if_pos (serves.2 ⟨enabled, sound⟩)).trans (if_neg other))) wide⟩
      rw [serves]
      rintro ⟨enabled, sound⟩
      rcases unserved with disabled | poisoned
      · rw [enabled] at disabled; cases disabled
      · rw [sound] at poisoned; cases poisoned
    · refine run ((dispatchDown_flood (cell := none) (s := w) foreign flooded).trans
        (flood_noCell (k := k) (u := u) rfl)) ?_
      split
      · exact (raise_owed _ _ _).trans wide
      · exact wide

end Sys2Proof.Machine
end

section
/-! SUPPORT. The books of the frame store while a command runs (R87, R88): each cell's count is the number of entries that
name it and of the references to it that the command holds. -/

namespace Sys2Proof.Machine

/-! ### The entries that name a cell -/

/-- How many entries of a port name cell c, with the reception that fills it (R87). -/
def PortRec.names (c : CellNo) (r : PortRec) : Nat :=
  r.hold.countP (·.cell = c) + r.egress.queue.countP (·.cell = c) + (r.receiving.fills c).toNat

/-- How many entries of the uplink name cell c, with the reception that fills it (R87). -/
def Uplink.names (c : CellNo) (u : Uplink) : Nat :=
  u.egress.queue.countP (·.cell = c) + (u.receiving.fills c).toNat

/-- The slot of a group names cell c while a trigger is pending in it (R87). -/
def GroupRec.names (c : CellNo) (r : GroupRec) : Nat := (r.slot.pending && r.slot.cell = c).toNat

theorem countP_eq_sum_toNat {α : Type} (f : α → Bool) (l : List α) : l.countP f = (l.map fun x => (f x).toNat).sum := by
  induction l with
  | nil => rfl
  | cons x l ih =>
    rw [List.countP_cons, ih, List.map_cons, List.sum_cons]
    cases f x <;> simp [Nat.add_comm]

theorem refsTo_eq_sum (s : State) (c : CellNo) : s.refsTo c =
    (allPorts.map fun p => (s.port p).names c).sum + s.uplink.names c + (allGroups.map fun g => (s.group g).names c).sum := by
  have groups := countP_eq_sum_toNat (fun g => (s.group g).slot.pending && (s.group g).slot.cell = c) allGroups
  unfold State.refsTo Uplink.names
  rw [groups, ← Nat.add_assoc]
  rfl

theorem refsTo_congr {s t : State} {c : CellNo} (ports : ∀ p, (t.port p).names c = (s.port p).names c)
    (uplink : t.uplink.names c = s.uplink.names c) (groups : ∀ g, (t.group g).names c = (s.group g).names c) :
    t.refsTo c = s.refsTo c := by
  simp only [refsTo_eq_sum, ports, uplink, groups]

theorem refsTo_modPort (s : State) (p : Port) (f : PortRec → PortRec) (c : CellNo) :
    (s.modPort p f).refsTo c + (s.port p).names c = s.refsTo c + (f (s.port p)).names c := by
  have moved := sum_map_update (l := allPorts) (List.nodup_finRange 16) (List.mem_finRange p) (f := fun q => (s.port q).names c)
    (g := fun q => ((s.modPort p f).port q).names c) fun q hq => by simp only [State.modPort_port_ne s f hq]
  rw [State.modPort_port_same] at moved
  simp only [refsTo_eq_sum, State.modPort_uplink, State.modPort_group]
  omega

theorem refsTo_modUplink (s : State) (f : Uplink → Uplink) (c : CellNo) :
    (s.modUplink f).refsTo c + s.uplink.names c = s.refsTo c + (f s.uplink).names c := by
  simp only [refsTo_eq_sum, State.modUplink_uplink, State.modUplink_port, State.modUplink_group]
  omega

theorem refsTo_modGroup (s : State) (g : Group) (f : GroupRec → GroupRec) (c : CellNo) :
    (s.modGroup g f).refsTo c + (s.group g).names c = s.refsTo c + (f (s.group g)).names c := by
  have moved := sum_map_update (l := allGroups) (List.nodup_finRange 8) (List.mem_finRange g) (f := fun h => (s.group h).names c)
    (g := fun h => ((s.modGroup g f).group h).names c) fun h hh => by simp only [State.modGroup_group_ne s f hh]
  rw [State.modGroup_group_same] at moved
  simp only [refsTo_eq_sum, State.modGroup_uplink, State.modGroup_port]
  omega

/-! ### The books -/

/-- The law of the frame store with the references `loose`, which belong to no entry: the command that runs has taken them
for entries that it has yet to make, or has removed their entries and has yet to give them up (R88). -/
structure State.Balanced (s : State) (loose : List CellNo) : Prop where
  counted : ∀ c : CellNo, (s.cell c).refs = s.refsTo c + loose.count c
  listed : ∀ c : CellNo, c ∈ s.free ↔ (s.cell c).refs = 0
  once : s.free.Nodup

/-- Between commands no reference is loose. -/
theorem balanced_nil_iff {s : State} : s.Balanced [] ↔ s.CellsLawful :=
  ⟨fun h => ⟨fun c => by simpa using h.counted c, h.listed, h.once⟩,
    fun h => ⟨fun c => by simpa using h.counted c, h.listed, h.once⟩⟩

section
variable {s t : State} {loose loose' : List CellNo} {c : CellNo}

theorem State.Balanced.referenced (h : s.Balanced loose) (hc : c ∈ loose) : 0 < (s.cell c).refs := by
  have := h.counted c
  have := List.count_pos_iff.2 hc
  omega

/-- The cells stay, and entries and loose references are exchanged one for one. -/
theorem State.Balanced.exchange (h : s.Balanced loose) (cells : t.cells = s.cells) (free : t.free = s.free)
    (names : ∀ c, t.refsTo c + loose'.count c = s.refsTo c + loose.count c) : t.Balanced loose' := by
  have cell : ∀ c, t.cell c = s.cell c := fun c => by simp only [State.cell, cells]
  exact ⟨fun c => by rw [cell, names, h.counted], fun c => by rw [cell, free, h.listed], free ▸ h.once⟩

/-- The books are read from the ports, the uplink, the cells, the free list and the groups. -/
theorem State.Balanced.of_parts (h : s.Balanced loose)
    (parts : (t.ports, t.uplink, t.cells, t.free, t.groups) = (s.ports, s.uplink, s.cells, s.free, s.groups)) :
    t.Balanced loose := by
  simp only [Prod.mk.injEq] at parts
  obtain ⟨ports, uplink, cells, free, groups⟩ := parts
  refine h.exchange cells free fun c => ?_
  rw [refsTo_congr (s := s) (fun p => by simp only [State.port, ports]) (by rw [uplink])
    (fun g => by simp only [State.group, groups])]

theorem State.Balanced.foldl {α : Type} {f : State → α → State} (h : s.Balanced loose)
    (step : ∀ (s : State) (x : α), s.Balanced loose → (f s x).Balanced loose) (l : List α) :
    (l.foldl f s).Balanced loose := by
  induction l generalizing s with
  | nil => exact h
  | cons x l ih => exact ih (step s x h)

theorem State.Balanced.ite {b : Prop} [Decidable b] (h : b → s.Balanced loose) (k : ¬ b → t.Balanced loose) :
    (if b then s else t).Balanced loose := by
  split <;> rename_i hb
  · exact h hb
  · exact k hb

/-! ### Updates of one part -/

theorem State.Balanced.exchangePort (h : s.Balanced loose) {p : Port} {f : PortRec → PortRec}
    (names : ∀ c, (f (s.port p)).names c + loose'.count c = (s.port p).names c + loose.count c) :
    (s.modPort p f).Balanced loose' :=
  h.exchange rfl rfl fun c => by
    have := refsTo_modPort s p f c
    have := names c
    omega

theorem State.Balanced.exchangeUplink (h : s.Balanced loose) {f : Uplink → Uplink}
    (names : ∀ c, (f s.uplink).names c + loose'.count c = s.uplink.names c + loose.count c) :
    (s.modUplink f).Balanced loose' :=
  h.exchange rfl rfl fun c => by
    have := refsTo_modUplink s f c
    have := names c
    omega

theorem State.Balanced.exchangeGroup (h : s.Balanced loose) {g : Group} {f : GroupRec → GroupRec}
    (names : ∀ c, (f (s.group g)).names c + loose'.count c = (s.group g).names c + loose.count c) :
    (s.modGroup g f).Balanced loose' :=
  h.exchange rfl rfl fun c => by
    have := refsTo_modGroup s g f c
    have := names c
    omega

/-- An update of a port that leaves its queues and its reception. -/
theorem State.Balanced.modPort (h : s.Balanced loose) {p : Port} {f : PortRec → PortRec}
    (same : ((f (s.port p)).hold, (f (s.port p)).egress.queue, (f (s.port p)).receiving) =
      ((s.port p).hold, (s.port p).egress.queue, (s.port p).receiving)) : (s.modPort p f).Balanced loose := by
  simp only [Prod.mk.injEq] at same
  obtain ⟨hold, queue, receiving⟩ := same
  exact h.exchangePort fun c => by simp only [PortRec.names, hold, queue, receiving]

/-- An update of a group that leaves its slot. -/
theorem State.Balanced.modGroup (h : s.Balanced loose) {g : Group} {f : GroupRec → GroupRec}
    (same : ((f (s.group g)).slot.pending, (f (s.group g)).slot.cell) =
      ((s.group g).slot.pending, (s.group g).slot.cell)) : (s.modGroup g f).Balanced loose := by
  simp only [Prod.mk.injEq] at same
  obtain ⟨pending, cell⟩ := same
  exact h.exchangeGroup fun c => by simp only [GroupRec.names, pending, cell]

theorem State.Balanced.modUplink (h : s.Balanced loose) {f : Uplink → Uplink}
    (same : ((f s.uplink).egress.queue, (f s.uplink).receiving) = (s.uplink.egress.queue, s.uplink.receiving)) :
    (s.modUplink f).Balanced loose := by
  simp only [Prod.mk.injEq] at same
  obtain ⟨queue, receiving⟩ := same
  exact h.exchangeUplink fun c => by simp only [Uplink.names, queue, receiving]

theorem State.Balanced.exchangeEgress (h : s.Balanced loose) {e : EtherPort} {f : Egress → Egress}
    (names : ∀ c, (f (s.egress e)).queue.countP (·.cell = c) + loose'.count c =
      (s.egress e).queue.countP (·.cell = c) + loose.count c) : (s.modEgress e f).Balanced loose' := by
  cases e with
  | camera p =>
    show (s.modPort p fun r => { r with egress := f r.egress }).Balanced loose'
    refine h.exchangePort fun c => ?_
    have : (f (s.port p).egress).queue.countP (·.cell = c) + _ = (s.port p).egress.queue.countP (·.cell = c) + _ := names c
    simp only [PortRec.names]
    omega
  | uplink =>
    show (s.modUplink fun u => { u with egress := f u.egress }).Balanced loose'
    refine h.exchangeUplink fun c => ?_
    have : (f s.uplink.egress).queue.countP (·.cell = c) + _ = s.uplink.egress.queue.countP (·.cell = c) + _ := names c
    simp only [Uplink.names]
    omega

theorem State.Balanced.exchangeReceiving (h : s.Balanced loose) {e : EtherPort} {r : Reception}
    (names : ∀ c, (r.fills c).toNat + loose'.count c = ((s.receiving e).fills c).toNat + loose.count c) :
    (s.setReceiving e r).Balanced loose' := by
  cases e with
  | camera p =>
    show (s.modPort p fun x => { x with receiving := r }).Balanced loose'
    refine h.exchangePort fun c => ?_
    have : _ = ((s.port p).receiving.fills c).toNat + _ := names c
    simp only [PortRec.names]
    omega
  | uplink =>
    show (s.modUplink fun u => { u with receiving := r }).Balanced loose'
    refine h.exchangeUplink fun c => ?_
    have : _ = (s.uplink.receiving.fills c).toNat + _ := names c
    simp only [Uplink.names]
    omega

/-! ### Cells (R87, R88) -/

theorem State.Balanced.addRef (h : s.Balanced loose) (hc : 0 < (s.cell c).refs) : (addRef c s).Balanced (c :: loose) := by
  have refs : ∀ d, ((Machine.addRef c s).cell d).refs = (s.cell d).refs + [c].count d := fun d => by
    rw [addRef_cell]
    by_cases e : d = c
    · simp [e]
    · simp [e, Ne.symm e]
  refine ⟨fun d => ?_, fun d => ?_, h.once⟩
  · have same : (Machine.addRef c s).refsTo d = s.refsTo d := rfl
    rw [refs, same, h.counted, List.count_cons (l := loose), List.count_singleton]
    omega
  · show d ∈ s.free ↔ _
    rw [refs, h.listed, List.count_singleton]
    by_cases e : d = c
    · subst e; simp; omega
    · simp [Ne.symm e]

theorem State.Balanced.dropRef (h : s.Balanced (c :: loose)) : (dropRef c s).Balanced loose := by
  obtain ⟨-, refs, -, others, free⟩ := dropRef_spec c s
  have same : ∀ d, (Machine.dropRef c s).refsTo d = s.refsTo d := fun d => by simp [State.refsTo]
  have taken := h.referenced (List.mem_cons_self (a := c) (l := loose))
  refine ⟨fun d => ?_, fun d => ?_, ?_⟩
  · have counted := h.counted d
    rw [List.count_cons] at counted
    by_cases e : d = c
    · subst e; rw [refs, same, counted]; simp
    · rw [others d e, same, counted]; simp [Ne.symm e]
  · have listed := h.listed d
    rw [free]
    by_cases e : d = c
    · subst e
      rw [refs]
      split
      · simp; omega
      · rw [listed]; omega
    · rw [others d e, ← listed]
      split <;> simp [e]
  · rw [free]
    split
    · refine List.nodup_append.2 ⟨h.once, List.nodup_singleton c, fun a ha b hb e => ?_⟩
      obtain rfl := List.mem_singleton.1 hb
      have := (h.listed a).1 ha
      subst e
      omega
    · exact h.once

/-- The cell at the head of the free list is taken, with a reference to it. -/
theorem State.Balanced.takeFree (h : s.Balanced loose) {rest : List CellNo} (hf : s.free = c :: rest) :
    (Machine.addRef c { s with free := rest }).Balanced (c :: loose) := by
  have once := h.once
  rw [hf, List.nodup_cons] at once
  refine ⟨fun d => ?_, fun d => ?_, once.2⟩
  · have same : (Machine.addRef c { s with free := rest }).refsTo d = s.refsTo d := rfl
    have counted := h.counted d
    rw [same, List.count_cons, addRef_cell]
    by_cases e : d = c
    · subst e; simp [counted]; omega
    · simp [e, Ne.symm e, counted]
  · have listed := h.listed d
    rw [hf] at listed
    show d ∈ rest ↔ _
    rw [addRef_cell]
    by_cases e : d = c
    · subst e; simp [once.1]
    · simpa [e] using listed

/-- The cell at the head of the free list goes to its tail (log 10). -/
theorem State.Balanced.rotateFree (h : s.Balanced loose) {rest : List CellNo} (hf : s.free = c :: rest) :
    ({ s with free := rest ++ [c] } : State).Balanced loose := by
  have perm : (rest ++ [c]).Perm s.free := hf ▸ List.perm_append_singleton c rest
  exact ⟨h.counted, fun d => perm.mem_iff.trans (h.listed d), perm.nodup_iff.2 h.once⟩

theorem State.Balanced.storeCell (h : s.Balanced loose) (c : CellNo) (bytes : List Byte) :
    (storeCell c bytes s).Balanced loose := by
  have refs : ∀ d, ((Machine.storeCell c bytes s).cell d).refs = (s.cell d).refs := fun d => by
    rw [Machine.storeCell, State.modCell_cell]
    split <;> rename_i e
    · rw [e]
    · rfl
  exact ⟨fun d => (refs d).trans (h.counted d), fun d => by rw [refs]; exact h.listed d, h.once⟩

/-! ### Queues and receptions -/

/-- A transmit-queue entry for a reference that is held. -/
theorem State.Balanced.queueTx {x : TxEntry} (h : s.Balanced (x.cell :: loose)) (e : EtherPort) :
    (s.modEgress e fun g => { g with queue := g.queue ++ [x] }).Balanced loose :=
  h.exchangeEgress fun d => by
    simp only [List.countP_append, List.countP_singleton, List.count_cons, decide_eq_true_eq, beq_iff_eq]
    omega

theorem State.Balanced.appendTx (h : s.Balanced loose) (e : EtherPort) {x : TxEntry} (hc : 0 < (s.cell x.cell).refs) :
    (appendTx e x s).Balanced loose := by
  have queued := (h.addRef hc).queueTx e
  cases e <;> exact queued

theorem State.Balanced.originate (h : s.Balanced loose) (e : EtherPort) (bytes : List Byte) :
    (originate e bytes s).2.Balanced loose := by
  unfold Machine.originate
  split
  · exact h
  · rename_i c rest hf
    split
    · exact h.rotateFree hf
    · have queued := ((h.takeFree hf).storeCell c bytes).queueTx (x := ⟨c, bytes.length, none⟩) e
      have swap : Machine.addRef c (Machine.storeCell c bytes { s with free := rest }) =
          Machine.storeCell c bytes (Machine.addRef c { s with free := rest }) := by
        simp only [Machine.addRef, Machine.storeCell, modCell_modCell]
      rw [← swap] at queued
      cases e <;> exact queued

theorem State.Balanced.endReceiving (h : s.Balanced loose) {e : EtherPort} (into : s.receiving e = .intoCell c) :
    (s.setReceiving e .idle).Balanced (c :: loose) :=
  h.exchangeReceiving fun d => by
    simp only [into, Reception.fills, List.count_cons, beq_eq_decide]
    by_cases e : c = d <;> simp [e, Nat.add_comm]

theorem State.Balanced.beginReceiving (h : s.Balanced (c :: loose)) {e : EtherPort} (idle : s.receiving e = .idle) :
    (s.setReceiving e (.intoCell c)).Balanced loose :=
  h.exchangeReceiving fun d => by
    simp only [idle, Reception.fills, List.count_cons, beq_eq_decide]
    by_cases e : c = d <;> simp [e, Nat.add_comm]

end
end Sys2Proof.Machine
end

section
/-! SUPPORT. The operations on counts, events, table memory, groups and port states keep the books of the frame store (R87,
R88). -/

namespace Sys2Proof.Machine

variable {s : State} {loose : List CellNo} {c : CellNo}

/-! ### Counts, timers and the other blocks -/

theorem State.Balanced.modCounts (h : s.Balanced loose) (p : Port) (f : Counts → Counts) :
    (s.modCounts p f).Balanced loose := h.modPort rfl

theorem State.Balanced.countDrop (h : s.Balanced loose) (p : Port) (cause : DropCause) :
    (countDrop p cause s).Balanced loose := h.modCounts p _

theorem State.Balanced.modEvu (h : s.Balanced loose) (f : Evu → Evu) : (s.modEvu f).Balanced loose := h.of_parts rfl

theorem State.Balanced.modTbm (h : s.Balanced loose) (f : Tbm → Tbm) : (s.modTbm f).Balanced loose := h.of_parts rfl

theorem State.Balanced.modAdm (h : s.Balanced loose) (f : Adm → Adm) : (s.modAdm f).Balanced loose := h.of_parts rfl

theorem State.Balanced.modMga (h : s.Balanced loose) (f : Mga → Mga) : (s.modMga f).Balanced loose := h.of_parts rfl

theorem State.Balanced.owe (h : s.Balanced loose) (w : Work) : (s.owe w).Balanced loose := h.of_parts rfl

theorem State.Balanced.modDevice (h : s.Balanced loose) (f : DeviceCounts → DeviceCounts) :
    (s.modDevice f).Balanced loose := h.modEvu _

theorem State.Balanced.restartIdle (h : s.Balanced loose) (p : Port) : (restartIdle p s).Balanced loose :=
  h.modPort (by split <;> rfl)

theorem State.Balanced.restartIdles (h : s.Balanced loose) (ps : List Port) :
    (ps.foldl (fun s p => Machine.restartIdle p s) s).Balanced loose := h.foldl (fun _ p k => k.restartIdle p) ps

/-! ### Discards (R91, R94) -/

theorem dropRef_modPort (c : CellNo) (p : Port) (f : PortRec → PortRec) (s : State) :
    (dropRef c s).modPort p f = dropRef c (s.modPort p f) := by
  unfold dropRef
  rw [State.modPort_cell]
  split
  · rfl
  · dsimp only
    split <;> rfl

/-- An update of the port that leaves its counts alone may come before a discard. -/
theorem foldl_discard_modPort {α : Type} (cellOf : α → CellNo) (p : Port) {f : PortRec → PortRec}
    (swap : ∀ t : State, (countDrop p .discarded t).modPort p f = countDrop p .discarded (t.modPort p f))
    (l : List α) (s : State) :
    (l.foldl (fun s e => countDrop p .discarded (dropRef (cellOf e) s)) s).modPort p f =
      l.foldl (fun s e => countDrop p .discarded (dropRef (cellOf e) s)) (s.modPort p f) := by
  induction l generalizing s with
  | nil => rfl
  | cons x l ih => rw [List.foldl_cons, List.foldl_cons, ih, swap, dropRef_modPort]

/-- Entries that have been removed give up their references one by one. -/
theorem State.Balanced.discard {α : Type} {cellOf : α → CellNo} {l : List α} (p : Port)
    (h : s.Balanced (l.map cellOf ++ loose)) :
    (l.foldl (fun s e => Machine.countDrop p .discarded (Machine.dropRef (cellOf e) s)) s).Balanced loose := by
  induction l generalizing s with
  | nil => exact h
  | cons x l ih => exact ih (h.dropRef.countDrop p .discarded)

theorem count_map_cell {α : Type} (cellOf : α → CellNo) (l : List α) (c : CellNo) :
    (l.map cellOf).count c = l.countP (cellOf · = c) := by
  rw [List.count, List.countP_map]
  rfl

theorem State.Balanced.discardTx (h : s.Balanced loose) (p : Port) : (discardTx p s).Balanced loose := by
  unfold Machine.discardTx
  rw [foldl_discard_modPort TxEntry.cell p]
  · refine State.Balanced.discard p (h.exchangePort fun c => ?_)
    simp only [PortRec.names, Egress.empty, List.countP_nil, List.count_append, count_map_cell]
    omega
  · exact fun t => by simp only [Machine.countDrop, State.modCounts, State.modPort_modPort]

theorem State.Balanced.discardHold (h : s.Balanced loose) (p : Port) : (discardHold p s).Balanced loose := by
  unfold Machine.discardHold
  rw [foldl_discard_modPort HoldEntry.cell p]
  · refine State.Balanced.discard p (h.exchangePort fun c => ?_)
    simp only [PortRec.names, List.countP_nil, List.count_append, count_map_cell]
    omega
  · exact fun t => by simp only [Machine.countDrop, State.modCounts, State.modPort_modPort]

/-! ### Copies of one frame (R77, R81, R82, R124) -/

theorem State.Balanced.forwardDown (h : s.Balanced loose) (p : Port) {x : TxEntry} (a : Bool)
    (hc : 0 < (s.cell x.cell).refs) : (forwardDown p x a s).Balanced loose := by
  have sent : (countForwardedDown p (Machine.appendTx (.camera p) x s)).Balanced loose :=
    (h.appendTx (.camera p) hc).modCounts p _
  unfold Machine.forwardDown
  exact .ite (fun _ => h.countDrop p _) fun _ => .ite (fun _ => sent.restartIdle p) fun _ => sent

theorem forwardDown_refs (p : Port) (x : TxEntry) (a : Bool) (s : State) (c : CellNo) :
    (s.cell c).refs ≤ ((forwardDown p x a s).cell c).refs := by
  simp only [State.cell, forwardDown_cells]
  split
  · exact le_rfl
  · show _ ≤ ((addRef x.cell s).cell c).refs
    rw [addRef_cell]
    split <;> rename_i e
    · rw [e]; exact Nat.le_succ _
    · exact le_rfl

/-- Copies of the frame in a cell that stays referenced. -/
theorem State.Balanced.copies (h : s.Balanced loose) (hc : 0 < (s.cell c).refs) {entry : State → Port → TxEntry}
    (same : ∀ s p, (entry s p).cell = c) (a : Bool) (ps : List Port) :
    (ps.foldl (fun s p => Machine.forwardDown p (entry s p) a s) s).Balanced loose := by
  induction ps generalizing s with
  | nil => exact h
  | cons p ps ih =>
    exact ih (h.forwardDown p a (by rwa [same])) (hc.trans_le (forwardDown_refs _ _ _ _ _))

theorem State.Balanced.copyTo (h : s.Balanced loose) (hc : 0 < (s.cell c).refs) (ps : List Port) (n : Nat) (a : Bool) :
    (copyTo ps c n a s).Balanced loose := h.copies hc (fun _ _ => rfl) a ps

theorem State.Balanced.deliverTo (h : s.Balanced loose) (hc : 0 < (s.cell c).refs) (a : Bool) (set : PortSet) :
    (deliverTo c a set s).2.Balanced loose := h.copies hc (fun _ _ => rfl) a _

/-! ### Events and reads of table memory -/

theorem State.Balanced.judgeNotice (h : s.Balanced loose) : (judgeNotice s).Balanced loose := by
  have placed := h.originate .uplink (noticeFrame s)
  unfold Machine.judgeNotice
  split
  · exact h
  · split <;> rename_i e <;> rw [e] at placed
    · exact placed.of_parts rfl
    · exact placed

theorem State.Balanced.raise (h : s.Balanced loose) (e : Event) (d : Detail) : (raise e d s).Balanced loose := by
  unfold Machine.raise
  exact .ite (fun _ => (h.modEvu _).judgeNotice) fun _ => h.modEvu _

theorem State.Balanced.setMasks (h : s.Balanced loose) (mask : PortSet) : (setMasks mask s).Balanced loose := by
  unfold Machine.setMasks
  exact .ite (fun _ => (h.modEvu _).judgeNotice) fun _ => h.modEvu _

theorem State.Balanced.noteFinding (h : s.Balanced loose) (t : TbmTable) (i : Nat) (f : Finding) :
    (noteFinding t i f s).Balanced loose := by
  cases f with
  | clean | poisonedBefore => exact h
  | corrected n => exact (h.modDevice _).raise _ _
  | poisonedNow => exact (h.modDevice _).raise _ _

theorem State.Balanced.readPortConfig (h : s.Balanced loose) (p : Port) : (readPortConfig p s).2.Balanced loose :=
  (h.modTbm _).noteFinding _ _ _

theorem State.Balanced.readTemplate (h : s.Balanced loose) (i : Fin 48) : (readTemplate i s).2.Balanced loose :=
  (h.modTbm _).noteFinding _ _ _

theorem State.Balanced.readRule (h : s.Balanced loose) (i : Fin 32) : (readRule i s).2.Balanced loose :=
  (h.modTbm _).noteFinding _ _ _

theorem State.Balanced.readClassAction (h : s.Balanced loose) (i : Fin 9) : (readClassAction i s).2.Balanced loose :=
  (h.modTbm _).noteFinding _ _ _

theorem State.Balanced.readGroupEntry (h : s.Balanced loose) (g : Group) : (readGroupEntry g s).2.Balanced loose :=
  (h.modTbm _).noteFinding _ _ _

theorem State.Balanced.discardProxy (h : s.Balanced loose) (i : Fin 64) : (discardProxy i s).Balanced loose := by
  unfold Machine.discardProxy
  exact State.Balanced.modTbm (h.modPort rfl) _

theorem State.Balanced.readProxy (h : s.Balanced loose) (i : Fin 64) : (readProxy i s).2.Balanced loose := by
  have noted (f : Finding) : (Machine.noteFinding .proxy i.val f
      (s.modTbm fun t => { t with proxy := t.proxy.set i s.tbm.proxy[i].afterRead })).Balanced loose :=
    (h.modTbm _).noteFinding _ _ _
  unfold Machine.readProxy
  split
  · exact .ite (fun _ => (noted _).discardProxy i) fun _ => noted _
  · exact h

theorem State.Balanced.readRecords (h : s.Balanced loose) (p : Port) (l : List (Fin 4)) :
    (readRecords p l s).2.Balanced loose := by
  induction l generalizing s with
  | nil => exact h
  | cons i l ih => exact ih (h.readProxy _)

theorem State.Balanced.readPresent (h : s.Balanced loose) (p : Port) (k : TemplateKind) :
    (readPresent p k s).2.Balanced loose := by
  have read := h.readTemplate (templateIndex p k)
  unfold Machine.readPresent
  split <;> rename_i e <;> rw [e] at read <;> exact read

theorem State.Balanced.classify (h : s.Balanced loose) (up : Bool) (scope : Option Port) (bytes : List Byte) :
    (classify up scope bytes s).2.Balanced loose := by
  suffices searched : ∀ (l : List (Fin 32)) {t : State}, t.Balanced loose →
      (searchRules up scope bytes l t).2.Balanced loose by
    have found := searched (List.finRange 32) h
    unfold Machine.classify
    generalize searchRules up scope bytes (List.finRange 32) s = x at found
    exact found.readClassAction _
  intro l
  induction l with
  | nil => exact fun k => k
  | cons i l ih =>
    intro t k
    have read := k.readRule i
    unfold searchRules
    split <;> rename_i e <;> rw [e] at read
    · split
      · exact read
      · exact ih read
    · exact ih read

/-! ### Groups (Chapter 7) -/

theorem State.Balanced.modArm (h : s.Balanced loose) (g : Group) (f : ArmRecord → ArmRecord) :
    (s.modArm g f).Balanced loose := h.modGroup rfl

/-- The cell of a pending trigger is referenced (R87). -/
theorem State.Balanced.pending_referenced (h : s.Balanced loose) {g : Group} (pending : (s.group g).slot.pending = true) :
    0 < (s.cell (s.group g).slot.cell).refs := by
  have counted := h.counted (s.group g).slot.cell
  have named := refsTo_modGroup s g (fun _ => GroupRec.reset) (s.group g).slot.cell
  have one : (s.group g).names (s.group g).slot.cell = 1 := by simp [GroupRec.names, pending]
  have none : GroupRec.reset.names (s.group g).slot.cell = 0 := rfl
  omega

/-- A pending trigger ends and gives up its reference. -/
theorem State.Balanced.endTrigger (h : s.Balanced loose) {g : Group} (pending : (s.group g).slot.pending = true)
    (o : TriggerOutcome) (d m : PortSet) : (endTrigger g o d m s).Balanced loose := by
  refine State.Balanced.dropRef (h.exchangeGroup fun c => ?_)
  by_cases e : (s.group g).slot.cell = c
  · simp [GroupRec.names, pending, e]; omega
  · simp [GroupRec.names, e]

/-- A trigger that was never pending gives up the reference that the command holds for it. -/
theorem State.Balanced.endUnpending (h : s.Balanced (c :: loose)) {g : Group} (free : (s.group g).slot.pending = false)
    (cell : (s.group g).slot.cell = c) (o : TriggerOutcome) (d m : PortSet) : (Machine.endTrigger g o d m s).Balanced loose := by
  subst cell
  exact State.Balanced.dropRef (h.exchangeGroup fun c => by simp [GroupRec.names, free])

theorem State.Balanced.dropTrigger (h : s.Balanced loose) {g : Group} (pending : (s.group g).slot.pending = true)
    (o : TriggerOutcome) : (dropTrigger g o s).Balanced loose := h.endTrigger pending o _ _

theorem State.Balanced.refuseStrict (h : s.Balanced loose) (g : Group) : (refuseStrict g s).Balanced loose := by
  unfold Machine.refuseStrict
  refine .ite (fun strict => ?_) fun _ => h
  exact (h.dropTrigger (Bool.and_eq_true_iff.1 strict).1 _).raise _ _

theorem State.Balanced.breakArm (h : s.Balanced loose) (g : Group) (who : PortSet) : (breakArm g who s).Balanced loose := by
  unfold Machine.breakArm
  refine .ite (fun _ => State.Balanced.refuseStrict ?_ g) fun _ => h
  exact .ite (fun _ => h.modArm g _) fun _ => ((h.modArm g _).modArm g _).raise _ _

theorem State.Balanced.clearArm (h : s.Balanced loose) (g : Group) : (clearArm g s).Balanced loose := by
  unfold Machine.clearArm
  refine .ite (fun _ => State.Balanced.refuseStrict (State.Balanced.restartIdles ?_ _) g) fun _ => h
  exact (h.modArm g _).modAdm _

theorem State.Balanced.joinWatched (h : s.Balanced loose) (g : Group) (p : Port) (new : PortState) :
    (joinWatched g p new s).Balanced loose := by
  unfold Machine.joinWatched
  exact .ite (fun _ => h.modArm g _) fun _ => h

theorem State.Balanced.markUnreachable (h : s.Balanced loose) (g : Group) (p : Port) :
    (markUnreachable g p s).Balanced loose := State.Balanced.owe (s := s.modSlot g _) (h.modGroup rfl) _

theorem State.Balanced.slotReact (h : s.Balanced loose) (g : Group) (p : Port) (new : PortState) :
    (slotReact g p new s).Balanced loose := by
  have lost := h.markUnreachable g p
  have needed := h.owe (.need .rendezvous p)
  unfold Machine.slotReact
  refine .ite (fun _ => ?_) fun _ => h
  cases new with
  | disabled | faulted => exact lost
  | paused | asleep => exact .ite (fun _ => lost) fun _ => needed
  | pausing => exact .ite (fun _ => h) fun _ => needed
  | waking | ready | resuming => exact h

theorem State.Balanced.memberChanged (h : s.Balanced loose) (p : Port) (old new : PortState) :
    (memberChanged p old new s).Balanced loose := by
  refine h.foldl (fun s g k => ?_) _
  have joined := k.joinWatched g p new
  exact State.Balanced.slotReact (.ite (fun _ => joined.breakArm g _) fun _ => joined) g p new

theorem State.Balanced.noteDeliverable (h : s.Balanced loose) (p : Port) : (noteDeliverable p s).Balanced loose := by
  rw [noteDeliverable_eq]
  exact h.of_parts rfl

/-! ### Moves of a port's state -/

theorem State.Balanced.changeState (h : s.Balanced loose) (p : Port) (new : PortState) :
    (changeState p new s).Balanced loose := by
  refine State.Balanced.memberChanged ?_ p _ new
  have moved : (recommit (domainOf p) (s.modPort p fun r =>
      { r with state := new, charge := stateCharge (s.port p).draws new })).Balanced loose :=
    (State.Balanced.modPort h rfl).modAdm _
  exact .ite (fun _ => moved.owe _) fun _ => moved

theorem State.Balanced.feedOff (h : s.Balanced loose) (p : Port) : (feedOff p s).Balanced loose := h.modPort rfl

theorem State.Balanced.endOperation (h : s.Balanced loose) (p : Port) : (endOperation p s).Balanced loose := h.modPort rfl

theorem State.Balanced.stopProbing (h : s.Balanced loose) (p : Port) : (stopProbing p s).Balanced loose := h.modPort rfl

theorem State.Balanced.clearProxies (h : s.Balanced loose) (p : Port) : (clearProxies p s).Balanced loose := h.modPort rfl

theorem State.Balanced.stopTimers (h : s.Balanced loose) (p : Port) : (stopTimers p s).Balanced loose := h.modPort rfl

theorem State.Balanced.stopRelease (h : s.Balanced loose) (p : Port) : (stopRelease p s).Balanced loose := h.modPort rfl

theorem State.Balanced.removeWake (h : s.Balanced loose) (p : Port) : (removeWake p s).Balanced loose := h.modAdm _

theorem State.Balanced.removeSchedule (h : s.Balanced loose) (p : Port) : (removeSchedule p s).Balanced loose := h.modAdm _

/-- The entry into DISABLED or FAULTED discards both queues of the port (R6, R7). -/
theorem State.Balanced.shutDown (h : s.Balanced loose) (p : Port) (new : PortState) : (shutDown p new s).Balanced loose :=
  h |>.feedOff p |>.endOperation p |>.stopProbing p |>.discardHold p |>.discardTx p |>.stopRelease p |>.removeWake p
    |>.removeSchedule p |>.clearProxies p |>.stopTimers p |>.changeState p new

theorem State.Balanced.enterFaulted (h : s.Balanced loose) (p : Port) (code : FaultCode) :
    (enterFaulted p code s).Balanced loose := by
  unfold Machine.enterFaulted
  exact .ite (fun _ => h) fun _ => State.Balanced.raise (State.Balanced.modPort (h.shutDown p .faulted) rfl) _ _

theorem State.Balanced.enterDisabled (h : s.Balanced loose) (p : Port) : (enterDisabled p s).Balanced loose :=
  State.Balanced.modPort (h.shutDown p .disabled) rfl

/-- The entry into ASLEEP discards the transmit queue of the port (R15). -/
theorem State.Balanced.enterAsleep (h : s.Balanced loose) (p : Port) : (enterAsleep p s).Balanced loose := by
  have slept := h |>.feedOff p |>.endOperation p |>.stopProbing p |>.clearProxies p |>.discardTx p |>.stopRelease p
    |>.stopTimers p |>.changeState p .asleep
  unfold Machine.enterAsleep
  exact .ite (fun _ => slept.owe _) fun _ => slept

theorem State.Balanced.beginProbing (h : s.Balanced loose) (p : Port) : (beginProbing p s).Balanced loose := by
  unfold Machine.beginProbing
  exact h.modPort rfl

theorem State.Balanced.enterPaused (h : s.Balanced loose) (p : Port) : (enterPaused p s).Balanced loose := by
  have paused := State.Balanced.beginProbing (((h.endOperation p).changeState p .paused).modPort (p := p)
    (f := fun r => { r with deepIdle := 0 }) rfl) p
  unfold Machine.enterPaused
  dsimp only
  split
  · exact paused
  · exact .ite (fun _ => paused.enterFaulted p _) fun _ => .ite (fun _ => paused) fun _ => paused.owe _

/-! ### Release (R95 to R98) -/

/-- The cell of a held frame is referenced (R87). -/
theorem State.Balanced.held_referenced (h : s.Balanced loose) {p : Port} {x : HoldEntry} (hx : x ∈ (s.port p).hold) :
    0 < (s.cell x.cell).refs := by
  have counted := h.counted x.cell
  have named := refsTo_modPort s p (fun _ => PortRec.reset) x.cell
  have one : 0 < (s.port p).hold.countP (·.cell = x.cell) := List.countP_pos_iff.2 ⟨x, hx, by simp⟩
  have none : PortRec.reset.names x.cell = 0 := rfl
  rw [none, PortRec.names] at named
  omega

/-- A held frame takes its place in the transmit queue before it leaves the hold queue (R96). -/
theorem State.Balanced.moveHeld (h : s.Balanced loose) {p : Port} {x : HoldEntry} {rest : List HoldEntry}
    (held : (s.port p).hold = x :: rest) : (moveHeld p x rest s).Balanced loose := by
  have queued := h.appendTx (.camera p) (x := ⟨x.cell, x.length, none⟩) (h.held_referenced (held ▸ List.mem_cons_self))
  have head : ((Machine.appendTx (.camera p) ⟨x.cell, x.length, none⟩ s).port p).hold = x :: rest := by
    simp [Machine.appendTx, Machine.addRef, State.modEgress, held]
  have left : ((Machine.appendTx (.camera p) ⟨x.cell, x.length, none⟩ s).modPort p
      fun r => { r with hold := rest }).Balanced (x.cell :: loose) := queued.exchangePort fun c => by
    simp only [PortRec.names, head, List.countP_cons, List.count_cons, decide_eq_true_eq, beq_iff_eq]
    omega
  have moved := left.dropRef.modCounts p fun c =>
    { c with released := bump c.released, forwardedDown := bump c.forwardedDown }
  unfold Machine.moveHeld
  exact .ite (fun _ => moved.restartIdle p) fun _ => moved

theorem State.Balanced.moveHeldUpTo (h : s.Balanced loose) (n : Nat) (p : Port) : (moveHeldUpTo n p s).Balanced loose := by
  induction n generalizing s with
  | zero => exact h
  | succ n ih =>
    unfold Machine.moveHeldUpTo
    split
    · exact h
    · rename_i held
      exact .ite (fun _ => h) fun _ => ih (h.moveHeld held)

theorem State.Balanced.stepRelease (h : s.Balanced loose) (p : Port) : (stepRelease p s).Balanced loose := by
  have moved := h.moveHeldUpTo Config.txDepth p
  unfold Machine.stepRelease
  exact .ite (fun _ => .ite (fun _ => (moved.stopRelease p).noteDeliverable p) fun _ => moved) fun _ => h

theorem State.Balanced.startRelease (h : s.Balanced loose) (p : Port) : (startRelease p s).Balanced loose := by
  unfold Machine.startRelease
  exact .ite (fun _ => h.noteDeliverable p) fun _ => State.Balanced.stepRelease (State.Balanced.modPort h rfl) p

end Sys2Proof.Machine
end

section
/-! SUPPORT. The wake engine, admission, triggers and what is handed on keep the books of the frame store (R87, R88). -/

namespace Sys2Proof.Machine

variable {s : State} {loose : List CellNo} {c : CellNo}

/-! ### The wake engine (Chapter 2) -/

theorem State.Balanced.sendTemplate (h : s.Balanced loose) (p : Port) (t : Template) (seq : Option (BitVec 16)) :
    (sendTemplate p t seq s).2.Balanced loose := by
  have placed := h.originate (.camera p) (templateFrame t (s.port p).cfg.station s.mga.factory seq)
  unfold Machine.sendTemplate
  split <;> rename_i e <;> rw [e] at placed
  · exact placed
  · exact placed.countDrop p _
  · exact placed.countDrop p _

theorem State.Balanced.feedOn (h : s.Balanced loose) (p : Port) : (feedOn p s).Balanced loose := by
  have fed : (s.modPort p fun r => { r with feed := true }).Balanced loose := h.modPort rfl
  unfold Machine.feedOn
  exact .ite (fun _ => fed.enterFaulted p _) fun _ => fed

theorem State.Balanced.startLine (h : s.Balanced loose) (p : Port) : (startLine p s).Balanced loose := by
  unfold Machine.startLine
  exact h.modPort rfl

theorem State.Balanced.modOp (h : s.Balanced loose) (p : Port) (f : Operation → Operation) :
    (s.modOp p f).Balanced loose := h.modPort rfl

theorem State.Balanced.startFrame (h : s.Balanced loose) (p : Port) : (startFrame p s).Balanced loose := by
  have read := h.readPresent p .resume
  unfold Machine.startFrame
  split <;> rename_i e <;> rw [e] at read
  · exact (read.sendTemplate p _ none).modPort rfl
  · unfold leaveFrame
    exact .ite (fun _ => read.startLine p) fun _ => ((read.modOp p _).raise _ _).startLine p

theorem State.Balanced.startAttempt (h : s.Balanced loose) (p : Port) : (startAttempt p s).Balanced loose := by
  unfold Machine.startAttempt
  split
  · exact h.startFrame p
  · exact h.startLine p
  · unfold startPower
    exact (h.feedOff p).modPort rfl
  · exact h

theorem State.Balanced.startResume (h : s.Balanced loose) (p : Port) (cls : WakeClass) :
    (startResume p cls s).Balanced loose := State.Balanced.startAttempt (h.modPort rfl) p

theorem State.Balanced.startCold (h : s.Balanced loose) (p : Port) (cls : WakeClass) :
    (startCold p cls s).Balanced loose := State.Balanced.feedOn (h.modPort rfl) p

theorem State.Balanced.enterSpacing (h : s.Balanced loose) (p : Port) : (enterSpacing p s).Balanced loose := by
  have spaced : (s.modPort p fun r =>
      { r with op := { r.op with phase := .spacing, countdown := r.cfg.spacing } }).Balanced loose := h.modPort rfl
  unfold Machine.enterSpacing
  exact .ite (fun _ => spaced.startAttempt p) fun _ => spaced

theorem State.Balanced.closeWindow (h : s.Balanced loose) (p : Port) : (closeWindow p s).Balanced loose := h.modPort rfl

theorem State.Balanced.resumeAttemptFailed (h : s.Balanced loose) (p : Port) :
    (resumeAttemptFailed p s).Balanced loose := by
  have closed := h.closeWindow p
  have escalated (m : Method) : (escalate p m (Machine.closeWindow p s)).Balanced loose :=
    ((closed.modOp p _).raise _ _).enterSpacing p
  unfold Machine.resumeAttemptFailed
  refine .ite (fun _ => closed.enterSpacing p) fun _ => ?_
  split
  · exact escalated _
  · exact escalated _
  · exact closed.enterFaulted p _
  · exact closed.enterFaulted p _

theorem State.Balanced.coldAttemptFailed (h : s.Balanced loose) (p : Port) : (coldAttemptFailed p s).Balanced loose := by
  unfold Machine.coldAttemptFailed
  exact .ite (fun _ => (h.feedOff p).modPort rfl) fun _ => h.enterFaulted p _

theorem State.Balanced.offHoldOver (h : s.Balanced loose) (p : Port) : (offHoldOver p s).Balanced loose :=
  State.Balanced.feedOn (h.modPort rfl) p

theorem State.Balanced.enterReady (h : s.Balanced loose) (p : Port) (wake : LastWake) :
    (enterReady p wake s).Balanced loose := by
  unfold Machine.enterReady
  exact (State.Balanced.removeWake ((h.changeState p .ready).modPort rfl) p).startRelease p

theorem State.Balanced.acceptEvidence (h : s.Balanced loose) (p : Port) : (acceptEvidence p s).Balanced loose := by
  unfold Machine.acceptEvidence
  dsimp only
  split
  · exact h
  · exact State.Balanced.enterReady ((h.endOperation p).modPort rfl) p _

theorem State.Balanced.pauseFailed (h : s.Balanced loose) (p : Port) : (pauseFailed p s).Balanced loose :=
  h |>.endOperation p |>.changeState p .ready |>.raise _ _ |>.restartIdle p |>.removeWake p |>.startRelease p

theorem State.Balanced.enterPausing (h : s.Balanced loose) (p : Port) (t : Template) :
    (enterPausing p t s).2.Balanced loose := by
  have stopped : (Machine.stopRelease p (s.modPort p fun r => { r with idle := 0 })).Balanced loose :=
    State.Balanced.stopRelease (h.modPort rfl) p
  have moved := stopped.changeState p .pausing
  have sent {u : State} (k : u.Balanced loose) : (startPause p t u).2.Balanced loose :=
    State.Balanced.sendTemplate (k.modPort rfl) p t none
  unfold Machine.enterPausing
  exact sent (.ite (fun _ => moved.owe _) fun _ => moved)

theorem State.Balanced.tryPause (h : s.Balanced loose) (p : Port) : (tryPause p s).2.Balanced loose := by
  have template := h.readPresent p .pause
  unfold Machine.tryPause
  split <;> rename_i x u e <;> rw [e] at template
  · exact template
  · have config := template.readPortConfig p
    split <;> rename_i y v e <;> rw [e] at config
    · exact config.enterFaulted p _
    · have entered := (config.modPort (p := p) (f := fun r => { r with cfg := y }) rfl).enterPausing p x
      split <;> rename_i e <;> rw [e] at entered <;> exact entered

theorem State.Balanced.sendProbe (h : s.Balanced loose) (p : Port) : (sendProbe p s).Balanced loose := by
  have read := h.readPresent p .probe
  unfold Machine.sendProbe
  split <;> rename_i e <;> rw [e] at read
  · exact read.stopProbing p
  · exact (read.sendTemplate p _ _).modPort rfl

theorem State.Balanced.probeIntervalOver (h : s.Balanced loose) (p : Port) : (probeIntervalOver p s).Balanced loose := by
  unfold Machine.probeIntervalOver
  extract_lets pr missed t
  have counted : t.Balanced loose := .ite (fun _ => h.modPort rfl) fun _ => h
  exact .ite (fun _ => (counted.enterAsleep p).raise _ _) fun _ => counted.sendProbe p

theorem State.Balanced.judgeProbeAnswer (h : s.Balanced loose) (p : Port) (received : Option (BitVec 16)) :
    (judgeProbeAnswer p received s).Balanced loose := by
  unfold Machine.judgeProbeAnswer State.modProbe
  exact h.modPort rfl

/-! ### Admission (Chapter 3) -/

theorem State.Balanced.admitPort (h : s.Balanced loose) (p : Port) (cls : WakeClass) : (admitPort p cls s).Balanced loose := by
  have read := (h.removeWake p).readPortConfig p
  unfold Machine.admitPort
  dsimp only
  split <;> rename_i e <;> rw [e] at read
  · exact read.enterFaulted p _
  · rename_i cfg t
    have taken := (read.modPort (p := p) (f := fun r => { r with cfg := cfg, deepIdle := 0 }) rfl).stopProbing p
    exact .ite (fun _ => (taken.changeState p .waking).startCold p cls) fun _ =>
      (taken.changeState p .resuming).startResume p cls

theorem State.Balanced.scan (h : s.Balanced loose) : (scan s).Balanced loose := by
  have visited (sc : Scan) (e : WakeEntry) (k : sc.state.Balanced loose) : (visit sc e).state.Balanced loose := by
    unfold visit
    dsimp only
    split
    · exact k
    · split
      · exact k.admitPort _ _
      · split <;> exact k
  suffices visits : ∀ (l : List WakeEntry) (sc : Scan), sc.state.Balanced loose → (l.foldl visit sc).state.Balanced loose by
    have visited := visits (scanOrder s) { state := s, closed := [], admitted := [] } h
    unfold Machine.scan countPasses
    exact visited.modAdm _
  intro l
  induction l with
  | nil => exact fun _ k => k
  | cons e l ih => exact fun sc k => ih _ (visited sc e k)

theorem State.Balanced.createEntry (h : s.Balanced loose) (p : Port) (cls : WakeClass) :
    (createEntry p cls s).Balanced loose := by
  have added : (addEntry p cls s).Balanced loose := h.modAdm _
  exact State.Balanced.scan (.ite (fun _ => added.enterFaulted p _) fun _ => added)

theorem State.Balanced.takeNeed (h : s.Balanced loose) (cls : WakeClass) (p : Port) : (takeNeed cls p s).Balanced loose := by
  unfold Machine.takeNeed
  refine .ite (fun _ => ?_) fun _ => h
  split
  · exact State.Balanced.scan (h.modAdm _)
  · exact (h.removeSchedule p).createEntry p _
  · exact h.createEntry p _

theorem State.Balanced.requestSchedule (h : s.Balanced loose) (p : Port) (g : Group) (n : Nat) :
    (requestSchedule p g n s).Balanced loose := by
  unfold Machine.requestSchedule
  split
  · exact h
  · exact .ite (fun _ => (h.removeSchedule p).modAdm _) fun _ => h
  · exact h.modAdm _

theorem State.Balanced.scheduleDue (h : s.Balanced loose) (p : Port) : (scheduleDue p s).Balanced loose := by
  have removed := h.removeSchedule p
  unfold Machine.scheduleDue
  exact .ite (fun _ => removed.takeNeed _ p) fun _ => removed

theorem State.Balanced.applyLimit (h : s.Balanced loose) (d : Domain) (n : Nat) : (applyLimit d n s).Balanced loose := by
  unfold Machine.applyLimit
  exact ((h.modAdm _).foldl (fun _ _ k => .ite (fun _ => k.enterFaulted _ _) fun _ => k) _).scan

/-! ### Triggers (Chapter 7) -/

theorem State.Balanced.readGroup (h : s.Balanced loose) (g : Group) : (readGroup g s).2.Balanced loose := by
  have read := h.readGroupEntry g
  unfold Machine.readGroup
  split <;> rename_i e <;> rw [e] at read
  · unfold groupPoisoned
    exact State.Balanced.clearArm (.ite (fun pending => (read.dropTrigger pending _).raise _ _) fun _ => read) g
  · exact read

theorem deliverTo_group (cell : CellNo) (a : Bool) (set : PortSet) (s : State) (g : Group) :
    (deliverTo cell a set s).2.group g = s.group g := by
  suffices copied : ∀ (l : List Port) (s : State), (l.foldl (deliverCopy cell a) s).groups = s.groups by
    show (State.groups _)[g] = s.groups[g]
    rw [show (deliverTo cell a set s).2.groups = s.groups from copied _ s]
  intro l
  induction l with
  | nil => exact fun _ => rfl
  | cons p l ih =>
    intro s
    rw [List.foldl_cons, ih, deliverCopy, forwardDown_rest]

/-- A delivery makes its copies while the cell is referenced, and then ends the trigger (R124); the copies leave the slot. -/
theorem State.Balanced.deliver (h : s.Balanced loose) {g : Group} (hc : 0 < (s.cell (s.group g).slot.cell).refs)
    {left : List CellNo} (ended : ∀ (t : State) (o : TriggerOutcome) (d m : PortSet), t.Balanced loose →
      t.group g = s.group g → (Machine.endTrigger g o d m t).Balanced left) (targets : PortSet) :
    (deliverPending g targets s).Balanced left := by
  have copied := h.deliverTo hc (s.group g).slot.activity targets
  have same := deliverTo_group (s.group g).slot.cell (s.group g).slot.activity targets s g
  unfold deliverPending
  dsimp only
  generalize Machine.deliverTo (s.group g).slot.cell (s.group g).slot.activity targets s = x at copied same
  exact .ite (fun _ => ended _ _ _ _ copied same) fun _ => (ended _ _ _ _ copied same).raise _ _

theorem State.Balanced.deliverPending (h : s.Balanced loose) {g : Group} (pending : (s.group g).slot.pending = true)
    (targets : PortSet) : (deliverPending g targets s).Balanced loose :=
  h.deliver (h.pending_referenced pending) (fun _ _ _ _ k same => k.endTrigger (same ▸ pending) _ _ _) targets

theorem State.Balanced.abandonTrigger (h : s.Balanced loose) {g : Group} (pending : (s.group g).slot.pending = true) :
    (abandonTrigger g s).Balanced loose := (h.dropTrigger pending _).raise _ _

theorem State.Balanced.reevaluate (h : s.Balanced loose) (g : Group) : (reevaluate g s).Balanced loose := by
  unfold Machine.reevaluate
  refine .ite (fun _ => h) fun waits => .ite (fun _ => h.refuseStrict g) fun _ => ?_
  have pending : (s.group g).slot.pending = true := by simpa using waits
  split
  · exact .ite (fun _ => h.abandonTrigger pending) fun _ => .ite (fun _ => h.deliverPending pending _) fun _ => h
  · exact .ite (fun _ => h.deliverPending pending _) fun _ => h

theorem State.Balanced.windowOver (h : s.Balanced loose) {g : Group} (pending : (s.group g).slot.pending = true) :
    (windowOver g s).Balanced loose := by
  have copied (set : PortSet) := h.deliverTo (h.pending_referenced pending) (s.group g).slot.activity set
  have same (set : PortSet) := deliverTo_group (s.group g).slot.cell (s.group g).slot.activity set s g
  unfold Machine.windowOver
  dsimp only
  split
  · exact ((copied _).endTrigger (by rwa [same]) _ _ _).raise _ _
  · exact (h.dropTrigger pending _).raise _ _

theorem State.Balanced.doWork (h : s.Balanced loose) (w : Work) : (doWork w s).Balanced loose := by
  cases w with
  | need cls p => exact h.takeNeed cls p
  | scan => exact h.scan
  | reevaluate g => exact h.reevaluate g

theorem State.Balanced.settle (h : s.Balanced loose) : (settle s).Balanced loose := by
  suffices settled : ∀ (n : Nat) {s : State}, s.Balanced loose → (settleUpTo n s).Balanced loose from settled settleFuel h
  intro n
  induction n with
  | zero => exact fun h => h
  | succ n ih =>
    intro s h
    unfold settleUpTo
    split
    · exact h
    · rename_i w rest _
      exact ih (State.Balanced.doWork (h.of_parts (t := { s with owed := rest }) rfl) _)

theorem State.Balanced.rendezvousNeeds (h : s.Balanced loose) (ps : List Port) : (rendezvousNeeds ps s).Balanced loose :=
  h.foldl (fun _ p k => k.takeNeed _ p) ps

/-- The slot of a group with no pending trigger takes a loose reference (R119). -/
theorem State.Balanced.fillSlot (h : s.Balanced (c :: loose)) {g : Group} (free : (s.group g).slot.pending = false)
    {f : Slot → Slot} (pending : (f (s.group g).slot).pending = true) (cell : (f (s.group g).slot).cell = c) :
    (s.modSlot g f).Balanced loose :=
  h.exchangeGroup fun d => by
    by_cases e : c = d
    · simp [GroupRec.names, free, pending, cell, e]; omega
    · simp [GroupRec.names, free, cell, e]

theorem State.Balanced.makePending (h : s.Balanced loose) (hc : 0 < (s.cell c).refs) {g : Group}
    (free : (s.group g).slot.pending = false) (cfg : GroupConfig) (a : Bool) :
    (makePending g cfg c a s).Balanced loose := by
  unfold Machine.makePending
  extract_lets unreachable t
  have made : t.Balanced loose := State.Balanced.fillSlot (h.addRef hc) free rfl rfl
  have pending : (t.group g).slot.pending = true := by simp [t, State.modSlot]
  exact .ite (fun _ => made.abandonTrigger pending) fun _ => made.rendezvousNeeds _

/-- A trigger that is delivered at its arrival is never pending: its reference stays loose until it ends. -/
theorem State.Balanced.deliverAtArrival (h : s.Balanced loose) (hc : 0 < (s.cell c).refs) {g : Group}
    (free : (s.group g).slot.pending = false) (cfg : GroupConfig) (a : Bool) :
    (deliverAtArrival g cfg c a s).Balanced loose := by
  unfold Machine.deliverAtArrival
  generalize ht : State.modSlot _ g _ = t
  have slot : (t.group g).slot.pending = false ∧ (t.group g).slot.cell = c := by
    simp [← ht, State.modSlot, Machine.addRef, free]
  have taken : t.Balanced (c :: loose) := by
    rw [← ht]
    exact (h.addRef hc).exchangeGroup fun d => by simp [GroupRec.names, Machine.addRef, free]
  refine taken.deliver (slot.2.symm ▸ taken.referenced List.mem_cons_self) (fun u o d m k same => ?_) _
  exact State.Balanced.endUnpending k (same ▸ slot.1) (same ▸ slot.2) o d m

theorem State.Balanced.takeTrigger (h : s.Balanced loose) (hc : c ∈ loose) (g : Group) (a : Bool) :
    (takeTrigger g c a s).Balanced loose := by
  have read := h.readGroup g
  unfold Machine.takeTrigger
  split <;> rename_i e <;> rw [e] at read
  · exact read.modDevice _
  · refine .ite (fun _ => read.modDevice _) fun _ => .ite (fun _ => read.raise _ _) fun idle =>
      .ite (fun _ => read.raise _ _) fun _ => ?_
    have free := Bool.eq_false_iff.2 idle
    exact .ite (fun _ => read.deliverAtArrival (read.referenced hc) free _ _) fun _ =>
      read.makePending (read.referenced hc) free _ _

theorem State.Balanced.armGroup (h : s.Balanced loose) (g : Group) (cfg : GroupConfig) : (armGroup g cfg s).Balanced loose :=
  (h.modArm g _).restartIdles _

theorem State.Balanced.targetOver (h : s.Balanced loose) (g : Group) : (targetOver g s).Balanced loose := by
  have read := h.readGroup g
  unfold Machine.targetOver
  split <;> rename_i e <;> rw [e] at read
  · exact read.modArm g _
  · exact .ite (fun _ => read.modArm g _) fun _ => (read.modArm g _).raise _ _

theorem State.Balanced.prepareGroup (h : s.Balanced loose) (g : Group) (cfg : GroupConfig) (lead : Nat) :
    (prepareGroup g cfg lead s).Balanced loose := by
  have armed : (Machine.armGroup g cfg (removeSchedulesOf g s)).Balanced loose := State.Balanced.armGroup (h.modAdm _) g cfg
  unfold Machine.prepareGroup
  extract_lets t waits u v
  have prepared : u.Balanced loose := armed.foldl (fun s m k => by
    unfold prepareMember
    exact .ite (fun _ => k.takeNeed _ _) fun _ => k.requestSchedule _ _ _) waits
  exact .ite (fun _ => (prepared.modArm g _).targetOver g) fun _ => prepared.modArm g _

end Sys2Proof.Machine
end

section
/-! SUPPORT. Frames, receptions, transmissions and the requests keep the books of the frame store (R87, R88). -/

namespace Sys2Proof.Machine

variable {s : State} {loose : List CellNo} {c : CellNo}

/-! ### Standby answers (Chapter 6) -/

theorem State.Balanced.learnAnswer (h : s.Balanced loose) (p : Port) (key : BitVec 16) (bytes : List Byte)
    (o : Option Nat) : (learnAnswer p key bytes o s).Balanced loose := by
  have read := h.readRecords p recordIndices
  unfold Machine.learnAnswer
  generalize Machine.readRecords p recordIndices s = x at read
  exact State.Balanced.modPort (read.modTbm _) rfl

theorem State.Balanced.considerLearning (h : s.Balanced loose) (p : Port) (st : PortState) (bytes : List Byte)
    (k o : Option Nat) : (considerLearning p st bytes k o s).Balanced loose := by
  unfold Machine.considerLearning
  refine .ite (fun _ => ?_) fun _ => h
  split
  · exact h
  · exact .ite (fun _ => h.modCounts p _) fun _ => h.learnAnswer p _ bytes o

theorem State.Balanced.lookUpPoll (h : s.Balanced loose) (p : Port) (bytes : List Byte) (k : Option Nat) :
    (lookUpPoll p bytes k s).2.Balanced loose := by
  have read := h.readRecords p recordIndices
  unfold Machine.lookUpPoll
  generalize Machine.readRecords p recordIndices s = x at read
  split
  · exact h
  · dsimp only
    split <;> exact read

theorem State.Balanced.answerPoll (h : s.Balanced loose) (p : Port) (e : ProxyEntry) (bytes : List Byte)
    (o : Option Nat) : (answerPoll p e bytes o s).Balanced loose := by
  have placed := h.originate .uplink (answerFrame e (s.port p).cfg.station bytes o)
  unfold Machine.answerPoll
  split <;> rename_i e <;> rw [e] at placed <;> exact placed.modCounts p _

/-! ### Downstream frames (R78 to R82) -/

/-- A hold-queue entry for a reference that is held. -/
theorem State.Balanced.queueHold {x : HoldEntry} (h : s.Balanced (x.cell :: loose)) (p : Port) :
    (s.modPort p fun r => { r with hold := r.hold ++ [x] }).Balanced loose :=
  h.exchangePort fun d => by
    simp only [PortRec.names, List.countP_append, List.countP_singleton, List.count_cons, decide_eq_true_eq, beq_iff_eq]
    omega

/-- A held frame gets a reference of its own (R78, R90). -/
theorem State.Balanced.holdFrame (h : s.Balanced loose) (hc : 0 < (s.cell c).refs) (p : Port) (n : Nat) (k : Classified) :
    (holdFrame p c n k s).2.Balanced loose := by
  have dropped := (h.countDrop p .holdFull).raise .holdDrop (Detail.port p)
  have queued := State.Balanced.queueHold (x := ⟨c, n, k.cls, k.activity, k.action.waking⟩) (h.addRef hc) p
  unfold Machine.holdFrame
  split
  · exact .ite (fun _ => dropped.raise _ _) fun _ => dropped
  · exact queued.modCounts p fun x => { x with held := bump x.held }

theorem State.Balanced.holdAndNeed (h : s.Balanced loose) (hc : 0 < (s.cell c).refs) (p : Port) (n : Nat)
    (k : Classified) : (holdAndNeed p c n k s).Balanced loose := by
  have held := h.holdFrame hc p n k
  unfold Machine.holdAndNeed
  split <;> rename_i e <;> rw [e] at held
  · exact held.takeNeed _ p
  · exact held

theorem State.Balanced.holdOrPark (h : s.Balanced loose) (hc : 0 < (s.cell c).refs) (p : Port) (n : Nat)
    (k : Classified) : (holdOrPark p c n k s).Balanced loose := by
  unfold Machine.holdOrPark
  exact .ite (fun _ => h.countDrop p _) fun _ => h.holdAndNeed hc p n k

theorem State.Balanced.countUnknown (h : s.Balanced loose) : (countUnknown s).Balanced loose := h.modDevice _

theorem State.Balanced.deliverToPort (h : s.Balanced loose) (hc : c ∈ loose) (p : Port) (bytes : List Byte)
    (k : Classified) : (deliverToPort p c bytes k s).Balanced loose := by
  have named := h.referenced hc
  have held := h.holdFrame named p bytes.length k
  have looked := h.lookUpPoll p bytes k.keyOffset
  unfold Machine.deliverToPort
  dsimp only
  split
  · exact h.countUnknown
  · exact h.countDrop p _
  · exact .ite (fun _ => h.forwardDown p _ named) fun _ => held
  · exact h.countDrop p _
  · exact held
  · exact held
  · exact held
  · exact h.holdAndNeed named p _ k
  · exact h.holdOrPark named p _ k
  · split <;> rename_i e <;> rw [e] at looked
    · exact looked.answerPoll p _ bytes _
    · exact looked.holdOrPark (looked.referenced hc) p _ k
  · exact h.holdOrPark named p _ k

theorem State.Balanced.noCellToPort (h : s.Balanced loose) (p : Port) (k : Classified) :
    (noCellToPort p k s).Balanced loose := by
  have counted := h.countDrop p .noCell
  unfold Machine.noCellToPort
  exact .ite (fun _ => h.countUnknown) fun _ => .ite (fun _ => h.countDrop p _) fun _ =>
    .ite (fun _ => h.countDrop p _) fun _ => .ite (fun _ => h.countDrop p _) fun _ =>
      .ite (fun _ => counted.raise _ _) fun _ => counted

theorem State.Balanced.countDrops (h : s.Balanced loose) (ps : List Port) (cause : DropCause) :
    (countDrops ps cause s).Balanced loose := h.foldl (fun _ p k => k.countDrop p cause) ps

section
variable {cell : Option CellNo}

theorem State.Balanced.flood (h : s.Balanced loose) (hc : ∀ c ∈ cell, c ∈ loose) (bytes : List Byte) :
    (flood cell bytes s).Balanced loose := by
  have classified := h.classify false none bytes
  unfold Machine.flood
  generalize Machine.classify false none bytes s = x at classified
  obtain ⟨k, t⟩ := x
  cases cell with
  | some c => exact classified.copyTo (classified.referenced (hc c rfl)) _ _ _
  | none => exact .ite (fun _ => (classified.countDrops _ _).raise _ _) fun _ => classified.countDrops _ _

theorem State.Balanced.deliverToGroup (h : s.Balanced loose) (hc : ∀ c ∈ cell, c ∈ loose) (g : Group)
    (bytes : List Byte) : (deliverToGroup g cell bytes s).Balanced loose := by
  have classified := h.classify false none bytes
  unfold Machine.deliverToGroup
  generalize Machine.classify false none bytes s = x at classified
  obtain ⟨k, t⟩ := x
  cases cell with
  | some c =>
    have read := State.Balanced.readGroup classified g
    refine .ite (fun _ => State.Balanced.takeTrigger classified (hc c rfl) g _) fun _ => ?_
    split <;> rename_i e <;> rw [e] at read
    · exact read.countUnknown
    · exact .ite (fun _ => read.copyTo (read.referenced (hc c rfl)) _ _ _) fun _ => read.countUnknown
  | none =>
    have counted (ps : List Port) := State.Balanced.countDrops classified ps .noCell
    exact .ite (fun _ => classified.countUnknown) fun _ => .ite (fun _ => (counted _).raise _ _) fun _ => counted _

theorem State.Balanced.resolveDown (h : s.Balanced loose) (hc : ∀ c ∈ cell, c ∈ loose) (bytes : List Byte) :
    (resolveDown cell bytes s).Balanced loose := by
  unfold Machine.resolveDown
  refine .ite (fun _ => h.flood hc bytes) fun _ => .ite (fun _ => ?_) fun _ => ?_
  · split
    · unfold unknownUnicast
      split
      · exact h.countUnknown.countDrop _ _
      · exact h.countUnknown
    · rename_i p _
      have classified := h.classify false (some p) bytes
      generalize Machine.classify false (some p) bytes s = x at classified
      obtain ⟨k, t⟩ := x
      cases cell with
      | some c => exact State.Balanced.deliverToPort classified (hc c rfl) p bytes k
      | none => exact State.Balanced.noCellToPort classified p k
  · split
    · exact h.deliverToGroup hc _ bytes
    · exact h.flood hc bytes

theorem State.Balanced.takeRequest (h : s.Balanced loose) (bytes : List Byte) : (takeRequest bytes s).Balanced loose := by
  unfold Machine.takeRequest
  exact .ite (fun _ => (h.modDevice _).raise _ _) fun _ => .ite (fun _ => h.countUnknown) fun _ =>
    .ite (fun _ => h.countUnknown) fun _ => .ite (fun _ => h.modDevice _) fun _ => h.modMga _

theorem State.Balanced.dispatchDown (h : s.Balanced loose) (hc : ∀ c ∈ cell, c ∈ loose) (bytes : List Byte) :
    (dispatchDown cell bytes s).Balanced loose := by
  unfold Machine.dispatchDown
  refine .ite (fun _ => ?_) fun _ => .ite (fun _ => h.countUnknown) fun _ => h.resolveDown hc bytes
  cases cell with
  | some c => exact h.takeRequest bytes
  | none => exact h.modDevice _

/-! ### Upstream frames (R83 to R85) -/

theorem State.Balanced.cameraShows (h : s.Balanced loose) (p : Port) (bytes : List Byte) (k : Classified) :
    (cameraShows p bytes k s).Balanced loose := by
  have evidence (b : Bool) : (if b then Machine.acceptEvidence p s else s).Balanced loose :=
    .ite (fun _ => h.acceptEvidence p) fun _ => h
  unfold Machine.cameraShows
  dsimp only
  split
  · exact evidence _
  · exact evidence _
  · refine .ite (fun _ => ?_) fun _ => h
    split
    · exact .ite (fun _ => h.enterPaused p) fun _ => h
    · exact .ite (fun _ => (h.modOp p _).pauseFailed p) fun _ => h
  · exact .ite (fun _ => h.judgeProbeAnswer p _) fun _ => .ite (fun _ => h.takeNeed _ p) fun _ => h
  · exact h

theorem State.Balanced.forwardUp (h : s.Balanced loose) (hc : c ∈ loose) (p : Port) (n : Nat) :
    (forwardUp p c n s).Balanced loose := by
  unfold Machine.forwardUp
  exact .ite (fun _ => h.countDrop p _) fun _ => .ite (fun _ => h.countDrop p _) fun _ =>
    (h.appendTx .uplink (h.referenced hc)).modCounts p _

theorem State.Balanced.upstream (h : s.Balanced loose) (hc : ∀ c ∈ cell, c ∈ loose) (p : Port) (bytes : List Byte) :
    (upstream p cell bytes s).Balanced loose := by
  unfold Machine.upstream
  refine .ite (fun _ => h.modDevice _) fun _ => ?_
  split
  · exact h.countDrop p _
  · exact h.countDrop p _
  · have classified := h.classify true (some p) bytes
    generalize Machine.classify true (some p) bytes s = x at classified
    obtain ⟨k, t⟩ := x
    cases cell with
    | none => exact State.Balanced.countDrop classified p _
    | some c =>
      have restarted {u : State} (hu : u.Balanced loose) :
          (if k.activity then Machine.restartIdle p u else u).Balanced loose := .ite (fun _ => hu.restartIdle p) fun _ => hu
      have learned {u : State} (hu : u.Balanced loose) : (if k.cls = .pollAnswer then
          Machine.considerLearning p (s.port p).state bytes k.keyOffset k.seqOffset u else u).Balanced loose :=
        .ite (fun _ => hu.considerLearning p _ bytes _ _) fun _ => hu
      have shown := learned (restarted (State.Balanced.cameraShows classified p bytes k))
      exact .ite (fun _ => shown) fun _ => shown.forwardUp (hc c rfl) p _

end

/-! ### Receptions and transmissions (R70, R93) -/

theorem State.Balanced.startReception (h : s.Balanced loose) (e : EtherPort) : (startReception e s).Balanced loose := by
  unfold Machine.startReception
  split
  · rename_i idle _
    exact h.exchangeReceiving fun d => by rw [idle]; rfl
  · rename_i c rest idle hf
    have taken := (h.takeFree hf).beginReceiving (e := e) (by cases e <;> exact idle)
    cases e <;> exact taken
  · exact h

/-- While a received frame is disposed of, the reference of its ingress is loose; it is given up last (R88). -/
theorem State.Balanced.endReception (h : s.Balanced loose) (e : EtherPort) (bytes : List Byte) (good : Bool)
    {drop : State → State} {take : Option CellNo → State → State}
    (dropped : ∀ {t : State} {l : List CellNo}, t.Balanced l → (drop t).Balanced l)
    (taken : ∀ {t : State} {l : List CellNo} {cell : Option CellNo}, t.Balanced l → (∀ c ∈ cell, c ∈ l) →
      (take cell t).Balanced l) : (endReception e bytes good drop take s).Balanced loose := by
  unfold Machine.endReception
  split
  · exact h
  · rename_i buffer
    have ended : (s.setReceiving e .idle).Balanced loose := h.exchangeReceiving fun d => by rw [buffer]; rfl
    exact .ite (fun _ => taken ended nofun) fun _ => dropped ended
  · rename_i c into
    have stored := (h.endReceiving into).storeCell c bytes
    refine State.Balanced.dropRef (.ite (fun _ => taken stored fun d hd => ?_) fun _ => dropped stored)
    obtain rfl : c = d := Option.some.inj hd
    exact List.mem_cons_self

theorem State.Balanced.receiveUplink (h : s.Balanced loose) (bytes : List Byte) (good : Bool) :
    (receiveUplink bytes good s).Balanced loose :=
  h.endReception .uplink bytes good (fun k => k.modDevice _) fun k hc => k.dispatchDown hc bytes

theorem State.Balanced.receiveCamera (h : s.Balanced loose) (p : Port) (bytes : List Byte) (good : Bool) :
    (receiveCamera p bytes good s).Balanced loose :=
  h.endReception (.camera p) bytes good (fun k => k.countDrop p _) fun k hc => k.upstream hc p bytes

theorem State.Balanced.startTransmission (h : s.Balanced loose) (e : EtherPort) :
    (startTransmission e s).Balanced loose := by
  unfold Machine.startTransmission
  split
  · exact h
  · exact .ite (fun _ => h.exchangeEgress fun _ => rfl) fun _ => h

theorem State.Balanced.endTransmission (h : s.Balanced loose) (e : EtherPort) : (endTransmission e s).Balanced loose := by
  unfold Machine.endTransmission
  split
  · rename_i x rest _ queue
    have left := (h.exchangeEgress (e := e) (f := fun _ => ⟨rest, none⟩) (loose' := x.cell :: loose) fun d => by
      simp only [queue, List.countP_cons, List.count_cons, decide_eq_true_eq, beq_iff_eq]; omega).dropRef
    exact .ite (fun _ => left.modMga _) fun _ => left
  · exact h

/-! ### Requests (Chapter 9) -/

theorem State.Balanced.readPortConfigWithEffect (h : s.Balanced loose) (p : Port) :
    (readPortConfigWithEffect p s).2.Balanced loose := by
  have read := h.readPortConfig p
  unfold Machine.readPortConfigWithEffect portConfigPoisoned
  split <;> rename_i e <;> rw [e] at read
  · exact .ite (fun _ => read.enterFaulted p _) fun _ => read
  · exact read

theorem State.Balanced.performReadEntry (h : s.Balanced loose) (r : Request) :
    (performReadEntry r s).2.2.Balanced loose := by
  unfold Machine.performReadEntry
  split
  · exact h
  · rw [answerRead_state]; exact h.readPortConfigWithEffect _
  · rw [answerRead_state]; exact h.readTemplate _
  · rw [answerRead_state]; exact h.readRule _
  · rw [answerRead_state]; exact h.readClassAction _
  · rw [answerRead_state]; exact h.readGroup _
  · exact h
  · exact h
  · exact h
  · exact h
  · unfold readProxyEntry
    dsimp only
    split
    · rw [answerRead_state]; exact h.readProxy _
    · exact h

theorem State.Balanced.reloadProbing (h : s.Balanced loose) (p : Port) : (reloadProbing p s).Balanced loose := by
  unfold Machine.reloadProbing
  exact .ite (fun _ => h.modPort rfl) fun _ => h

theorem State.Balanced.portConfigFieldEffect (h : s.Balanced loose) (p : Port) (n : Nat) :
    (portConfigFieldEffect p s n).Balanced loose := by
  unfold Machine.portConfigFieldEffect
  dsimp only
  split
  · exact h.restartIdle p
  · exact .ite (fun _ => h.modPort rfl) fun _ => h
  · exact .ite (fun _ => State.Balanced.modPort (h.stopProbing p) rfl) fun _ => h.reloadProbing p
  · exact .ite (fun _ => h.clearProxies p) fun _ => h
  · exact h

theorem State.Balanced.writePortFields (h : s.Balanced loose) (p : Port) (w : List Nat) (cfg : PortConfig) :
    (writePortFields p w cfg s).2.Balanced loose := by
  unfold Machine.writePortFields
  split
  · exact h
  · split
    · exact h
    · exact State.Balanced.foldl (State.Balanced.modPort (s := writePortConfig p cfg.clamped s) (h.modTbm _) rfl)
        (fun _ n k => k.portConfigFieldEffect p n) w

theorem State.Balanced.writeTemplateEntry (h : s.Balanced loose) (i : Fin 48) (t : Template) :
    (writeTemplateEntry i t s).2.Balanced loose := by
  have stored : (writeTemplate i t s).Balanced loose := h.modTbm _
  unfold Machine.writeTemplateEntry
  split
  · exact h
  · exact .ite (fun _ => stored.reloadProbing _) fun _ => stored

theorem State.Balanced.writeRuleEntry (h : s.Balanced loose) (i : Fin 32) (r : Rule) :
    (writeRuleEntry i r s).2.Balanced loose := by
  unfold Machine.writeRuleEntry
  split
  · exact h
  · exact (h.modTbm _ : (writeRule i r s).Balanced loose)

theorem State.Balanced.writeClassActionEntry (h : s.Balanced loose) (i : Fin 9) (a : ClassAction) :
    (writeClassActionEntry i a s).2.Balanced loose := by
  unfold Machine.writeClassActionEntry
  split
  · exact h
  · exact (h.modTbm _ : (writeClassAction i a s).Balanced loose)

theorem State.Balanced.writeGroupFields (h : s.Balanced loose) (g : Group) (w : List Nat) (cfg : GroupConfig) :
    (writeGroupFields g w cfg s).2.Balanced loose := by
  have rewritten {t : State} (k : t.Balanced loose) : (rewriteMembers g cfg.members t).Balanced loose := by
    unfold rewriteMembers
    exact .ite (fun _ => ((k.breakArm g 0).modArm g _).restartIdles _) fun _ => k
  unfold Machine.writeGroupFields
  split
  · exact h
  · split
    · exact h
    · split
      · exact h
      · extract_lets t u
        have stored : t.Balanced loose := State.Balanced.modGroup (s := writeGroup g cfg s) (h.modTbm _) rfl
        have members : u.Balanced loose := .ite (fun _ => rewritten stored) fun _ => stored
        exact .ite (fun _ => members.clearArm g) fun _ => members

theorem State.Balanced.writeLimit (h : s.Balanced loose) (d : Domain) (n : Nat) : (writeLimit d n s).2.Balanced loose := by
  unfold Machine.writeLimit
  split
  · exact h
  · split
    · exact h
    · exact h.applyLimit d n

theorem State.Balanced.setDeviceField (h : s.Balanced loose) (n v : Nat) : (setDeviceField s n v).Balanced loose := by
  unfold Machine.setDeviceField
  split
  · exact h.modMga _
  · exact h.modMga _
  · exact h.modMga _
  · exact h.modMga _
  · exact h.modAdm _
  · exact h.modMga _
  · exact h

theorem State.Balanced.writeDevice (h : s.Balanced loose) (f : List (Nat × Nat)) : (writeDevice f s).2.Balanced loose := by
  unfold Machine.writeDevice
  split
  · exact h
  · exact h.foldl (fun _ x k => k.setDeviceField x.1 x.2) f

theorem State.Balanced.performWriteEntry (h : s.Balanced loose) (r : Request) :
    (performWriteEntry r s).2.2.Balanced loose := by
  unfold Machine.performWriteEntry
  dsimp only
  split
  · exact h.writePortFields _ _ _
  · exact h.writeTemplateEntry _ _
  · exact h.writeRuleEntry _ _
  · exact h.writeClassActionEntry _ _
  · exact h.writeGroupFields _ _ _
  · exact h.writeLimit _ _
  · exact h.writeDevice _
  · exact h

theorem State.Balanced.patchRead {α : Type} {write : α → State → Status × State} {x : Option α × State}
    (h : x.2.Balanced loose) (written : ∀ (e : α) {t : State}, t.Balanced loose → (write e t).2.Balanced loose) :
    (patchRead write x).2.2.Balanced loose := by
  obtain ⟨o, t⟩ := x
  cases o with
  | none => exact h
  | some e => exact written e h

theorem State.Balanced.performPatchField (h : s.Balanced loose) (r : Request) :
    (performPatchField r s).2.2.Balanced loose := by
  unfold Machine.performPatchField
  dsimp only
  split
  · exact (h.readPortConfigWithEffect _).patchRead fun _ _ k => k.writePortFields _ _ _
  · exact (h.readTemplate _).patchRead fun _ _ k => k.writeTemplateEntry _ _
  · exact (h.readRule _).patchRead fun _ _ k => k.writeRuleEntry _ _
  · exact (h.readClassAction _).patchRead fun _ _ k => k.writeClassActionEntry _ _
  · exact (h.readGroup _).patchRead fun _ _ k => k.writeGroupFields _ _ _
  · exact h.writeLimit _ _
  · exact h.writeDevice _
  · exact h

end Sys2Proof.Machine
end

section
/-! SUPPORT. Port and group commands, expiries, the scrubber, the resets and the tick keep the books of the frame store (R87,
R88). -/

namespace Sys2Proof.Machine

variable {s : State} {loose : List CellNo} {c : CellNo}

/-! ### Port and group commands -/

theorem State.Balanced.takeConfig (h : s.Balanced loose) (p : Port) (cfg : PortConfig) :
    (takeConfig p cfg s).Balanced loose := h.modPort rfl

theorem State.Balanced.enablePort (h : s.Balanced loose) (p : Port) : (enablePort p s).2.Balanced loose := by
  have read := h.readPortConfig p
  unfold Machine.enablePort
  split
  · exact h
  · split <;> rename_i e <;> rw [e] at read
    · exact read
    · split
      · exact read
      · exact State.Balanced.enterAsleep ((read.takeConfig p _).modPort rfl) p

theorem State.Balanced.disablePort (h : s.Balanced loose) (p : Port) : (disablePort p s).2.Balanced loose := by
  unfold Machine.disablePort
  split
  · exact h
  · exact h.enterDisabled p

theorem State.Balanced.parkPort (h : s.Balanced loose) (p : Port) : (parkPort p s).2.Balanced loose := by
  have parked : (s.modPort p fun r => { r with park := true }).Balanced loose := h.modPort rfl
  unfold Machine.parkPort
  dsimp only
  split
  · exact h
  · exact .ite (fun _ => parked.foldl (fun _ g k => .ite (fun _ => k.markUnreachable g p) fun _ => k) _) fun _ => parked

theorem State.Balanced.unparkPort (h : s.Balanced loose) (p : Port) : (unparkPort p s).2.Balanced loose := by
  have unparked : (s.modPort p fun r => { r with park := false }).Balanced loose := h.modPort rfl
  unfold Machine.unparkPort
  split
  · exact .ite (fun _ => unparked.scan) fun _ => unparked
  · exact h

theorem State.Balanced.pinPort (h : s.Balanced loose) (p : Port) : (pinPort p s).2.Balanced loose := by
  have pinned : (s.modPort p fun r => { r with pin := true }).Balanced loose := h.modPort rfl
  unfold Machine.pinPort
  dsimp only
  split
  · exact h
  · split
    · exact h
    · exact pinned.restartIdle p

theorem State.Balanced.unpinPort (h : s.Balanced loose) (p : Port) : (unpinPort p s).2.Balanced loose := by
  have unpinned : (s.modPort p fun r => { r with pin := false }).Balanced loose := h.modPort rfl
  unfold Machine.unpinPort
  split
  · exact unpinned.restartIdle p
  · exact h

theorem State.Balanced.wakePort (h : s.Balanced loose) (p : Port) : (wakePort p s).2.Balanced loose := by
  have rests : (if (s.port p).park then (Status.conflict, s)
      else (.ok, if wakeOverBudget p s then s else Machine.takeNeed .traffic p s)).2.Balanced loose := by
    split
    · exact h
    · exact .ite (fun _ => h) fun _ => h.takeNeed _ p
  unfold Machine.wakePort
  dsimp only
  generalize (s.port p).state = st
  cases st with
  | disabled | faulted | waking | ready | resuming => exact h
  | pausing => exact h.takeNeed _ p
  | asleep | paused => exact rests

theorem State.Balanced.afterWake (h : s.Balanced loose) (p : Port) (before : State) :
    (afterWake p before s).Balanced loose := by
  unfold Machine.afterWake
  exact .ite (fun _ => (h.takeNeed _ p).settle) fun _ => h

theorem State.Balanced.pausePort (h : s.Balanced loose) (p : Port) : (pausePort p s).2.Balanced loose := by
  have tried := h.tryPause p
  unfold Machine.pausePort
  split
  · exact h
  · split <;> rename_i e <;> rw [e] at tried <;> exact tried

theorem State.Balanced.afterPause (h : s.Balanced loose) (p : Port) (before : State) :
    (afterPause p before s).Balanced loose := by
  unfold Machine.afterPause
  exact .ite (fun _ => (h.pauseFailed p).settle) fun _ => h

theorem State.Balanced.sleepPort (h : s.Balanced loose) (p : Port) : (sleepPort p s).2.Balanced loose := by
  unfold Machine.sleepPort
  dsimp only
  split
  · exact h.enterAsleep p
  · exact h

theorem State.Balanced.clearPort (h : s.Balanced loose) (p : Port) : (clearPort p s).2.Balanced loose := by
  have read := h.readPortConfig p
  unfold Machine.clearPort
  split
  · exact h
  · split <;> rename_i e <;> rw [e] at read
    · exact read
    · exact (read.takeConfig p _).enterAsleep p

theorem State.Balanced.checkedArm (h : s.Balanced loose) (g : Group) {take : GroupConfig → State → State}
    (taken : ∀ (cfg : GroupConfig) {t : State}, t.Balanced loose → (take cfg t).Balanced loose) :
    (checkedArm g take s).2.2.Balanced loose := by
  have read := h.readGroup g
  unfold Machine.checkedArm
  split <;> rename_i e <;> rw [e] at read
  · exact read
  · split
    · exact read
    · exact taken _ read

theorem State.Balanced.performArm (h : s.Balanced loose) (g : Group) : (performArm g s).2.2.Balanced loose :=
  h.checkedArm g fun cfg _ k => (k.armGroup g cfg).rendezvousNeeds _

theorem State.Balanced.performPrepare (h : s.Balanced loose) (g : Group) (lead : Nat) :
    (performPrepare g lead s).2.2.Balanced loose := by
  unfold Machine.performPrepare
  split
  · exact h
  · exact h.checkedArm g fun cfg _ k => k.prepareGroup g cfg lead

theorem State.Balanced.performCancel (h : s.Balanced loose) (g : Group) : (performCancel g s).2.2.Balanced loose := by
  unfold Machine.performCancel
  split
  · rename_i pending
    exact h.dropTrigger pending .cancelled
  · exact h

theorem State.Balanced.performReadCounters (h : s.Balanced loose) (r : Request) :
    (performReadCounters r s).2.2.Balanced loose := by
  unfold Machine.performReadCounters
  split
  · exact (h.modDevice fun _ => DeviceCounts.zero :)
  · exact (h.modCounts r.port fun _ => Counts.zero :)

/-! ### Lines, expiries and the scrubber -/

theorem State.Balanced.sampleFeedFault (h : s.Balanced loose) (p : Port) (level : Bool) :
    (sampleFeedFault p level s).Balanced loose := by
  have sampled : (s.modPort p fun r => { r with feedFaultIn := level }).Balanced loose := h.modPort rfl
  unfold Machine.sampleFeedFault
  exact .ite (fun _ => sampled.enterFaulted p _) fun _ => sampled

theorem State.Balanced.senseEdge (h : s.Balanced loose) (p : Port) : (senseEdge p s).Balanced loose := by
  have qualified : (s.modPort p fun r => { r with senseFilter := none }).Balanced loose := h.modPort rfl
  unfold Machine.senseEdge
  exact .ite (fun _ => qualified.takeNeed _ p) fun _ => qualified.restartIdle p

theorem State.Balanced.idleOver (h : s.Balanced loose) (p : Port) : (idleOver p s).Balanced loose := by
  have tried := h.tryPause p
  unfold Machine.idleOver
  split <;> rename_i e <;> rw [e] at tried
  · exact tried.enterAsleep p
  · exact tried
  · exact tried
  · exact tried.settle.pauseFailed p

theorem State.Balanced.confirmOver (h : s.Balanced loose) (p : Port) : (confirmOver p s).Balanced loose := by
  unfold Machine.confirmOver
  exact .ite (fun _ => h.enterPaused p) fun _ => h.pauseFailed p

theorem State.Balanced.visitEntry (h : s.Balanced loose) (e : ScrubEntry) : (visitEntry e s).Balanced loose := by
  cases e with
  | portConfig p => exact h.readPortConfigWithEffect p
  | template i => exact h.readTemplate i
  | rule i => exact h.readRule i
  | classAction i => exact h.readClassAction i
  | group g => exact h.readGroup g
  | proxy i => exact h.readProxy i

theorem State.Balanced.visitNext (h : s.Balanced loose) : (visitNext s).Balanced loose := by
  unfold Machine.visitNext
  split
  · exact h
  · rename_i n _
    have counted := h.modTbm fun t => { t with scrubNext := if n + 1 < scrubPass.length then some (n + 1) else none }
    generalize scrubPass[n]? = e
    cases e with
    | none => exact counted
    | some e => exact counted.visitEntry e

/-! ### Resets (R158, R169) -/

theorem State.Balanced.abandonReception (h : s.Balanced loose) (e : EtherPort) : (abandonReception e s).Balanced loose := by
  unfold Machine.abandonReception
  dsimp only
  split
  · rename_i c into
    exact (h.endReceiving into).dropRef
  · rename_i idle
    exact h.exchangeReceiving fun d => by rw [idle]
  · rename_i buffer
    exact h.exchangeReceiving fun d => by rw [buffer]; rfl

theorem State.Balanced.haltPort (h : s.Balanced loose) (p : Port) : (haltPort p s).Balanced loose := by
  unfold Machine.haltPort
  exact State.Balanced.abandonReception (((h.feedOff p).endOperation p).modPort rfl) (.camera p)

theorem dropRef_modGroup (c : CellNo) (g : Group) (f : GroupRec → GroupRec) (s : State) :
    (dropRef c s).modGroup g f = dropRef c (s.modGroup g f) := by
  unfold dropRef
  rw [State.modGroup_cell]
  split
  · rfl
  · dsimp only
    split <;> rfl

theorem State.Balanced.haltGroup (h : s.Balanced loose) (g : Group) : (haltGroup g s).Balanced loose := by
  unfold Machine.haltGroup
  dsimp only
  split <;> rename_i pending
  · rw [dropRef_modGroup]
    refine State.Balanced.dropRef (h.exchangeGroup fun c => ?_)
    by_cases e : (s.group g).slot.cell = c
    · simp [GroupRec.names, restartGroup, Slot.reset, pending, e]; omega
    · simp [GroupRec.names, restartGroup, Slot.reset, e]
  · exact h.exchangeGroup fun c => by simp [GroupRec.names, restartGroup, Slot.reset, pending]

theorem State.Balanced.haltAll (h : s.Balanced loose) : (haltAll s).Balanced loose := by
  unfold Machine.haltAll
  extract_lets a b c d
  have halted : a.Balanced loose := (h.foldl (fun _ p k => k.haltPort p) _).foldl (fun _ g k => k.haltGroup g) _
  clear_value a
  have cut : b.Balanced loose := (halted.abandonReception .uplink).modUplink rfl
  clear_value b
  exact cut.of_parts rfl

/-- With no entry that names a cell, every count at 0 and every cell free, the books are balanced. -/
theorem balanced_of_empty (refs : ∀ c, (s.cell c).refs = 0) (free : s.free = List.finRange 256)
    (ports : ∀ p c, (s.port p).names c = 0) (uplink : ∀ c, s.uplink.names c = 0) (groups : ∀ g c, (s.group g).names c = 0) :
    s.Balanced [] := by
  refine ⟨fun c => ?_, fun c => ?_, free ▸ List.nodup_finRange 256⟩
  · rw [refs, refsTo_eq_sum, uplink, sum_map_zero _ _ fun p => ports p c, sum_map_zero _ _ fun g => groups g c]
    rfl
  · rw [free, refs]
    exact iff_of_true (List.mem_finRange c) rfl

theorem softRestart_balanced (s : State) : (softRestart s).Balanced [] :=
  balanced_of_empty (softRestart_refs s) (by simp only [softRestart, restartBlocks, State.modAdm_free]) (fun p c => by rw [softRestart_port]; rfl) (fun _ => rfl)
    fun g c => by rw [softRestart_group]; rfl

theorem releaseReset_balanced (s : State) : (releaseReset s).Balanced [] := by
  refine balanced_of_empty (fun c => ?_) (by simp only [releaseReset, State.reset_free]) (fun p c => ?_) (fun _ => rfl) fun g c => ?_
  · exact congrArg Cell.refs (State.reset_cell c)
  · have : (releaseReset s).port p = freshPort (s.port p) := by simp [releaseReset, State.port]
    rw [this]
    rfl
  · have : (releaseReset s).group g = GroupRec.reset := State.reset_group g
    rw [this]
    rfl

/-! ### The tick (R170) -/

theorem tick_group (s : State) (g : Group) : (tick s).group g = tickGroup (s.group g) := by simp [tick, State.group]

theorem State.Balanced.tick (h : s.Balanced loose) : (tick s).Balanced loose := by
  have ports (c : CellNo) (p : Port) : ((Machine.tick s).port p).names c = (s.port p).names c := by rw [tick_port]; rfl
  have uplink (c : CellNo) : (Machine.tick s).uplink.names c = s.uplink.names c := by
    simp only [Machine.tick]
    split <;> rfl
  have groups (c : CellNo) (g : Group) : ((Machine.tick s).group g).names c = (s.group g).names c := by
    rw [tick_group]
    simp only [GroupRec.names, tickGroup]
    split <;> rfl
  exact h.exchange rfl rfl fun c => by rw [refsTo_congr (ports c) (uplink c) (groups c)]

theorem State.Balanced.passTime (h : s.Balanced loose) : (passTime s).Balanced loose := by
  unfold Machine.passTime
  refine .ite (fun _ => ?_) fun _ => h
  split
  · exact State.Balanced.of_parts h.tick rfl
  · exact h.of_parts rfl

end Sys2Proof.Machine
end

section
/-! SUPPORT. Every command keeps the law of the frame store, and so does the passing of a tick (R87, R88): O9. -/

namespace Sys2Proof.Machine

variable {s : State} {loose : List CellNo}

/-! ### The walk over the commands -/

theorem State.Balanced.whileRunning (h : s.Balanced loose) {f : State → State} (made : (f s).Balanced loose) :
    (whileRunning f s).Balanced loose := by
  unfold Machine.whileRunning
  exact .ite (fun _ => made.settle) fun _ => h

theorem State.Balanced.whenDue (h : s.Balanced loose) (due : State → Bool) {f : State → State}
    (made : due s = true → (f s).Balanced loose) : (Machine.whileRunning (whenDue due f) s).Balanced loose := by
  refine h.whileRunning ?_
  unfold Machine.whenDue
  exact .ite made fun _ => h

theorem State.Balanced.respond (h : s.Balanced loose) (r : Request) (st : Status) (payload : List Byte) :
    (respond r st payload s).2.Balanced loose := by
  have placed := h.originate .uplink (responseFrame r st payload s.mga.factory)
  unfold Machine.respond
  split <;> rename_i e <;> rw [e] at placed
  · exact placed
  · exact State.Balanced.modMga placed fun m => { m with responsesLost := bump m.responsesLost }

theorem State.Balanced.finishRequest (h : s.Balanced loose) (r : Request) (rest : List Request) (st : Status)
    (payload : List Byte) : (finishRequest r rest st payload s).Balanced loose := (h.respond r st payload).modMga _

theorem State.Balanced.performHead (h : s.Balanced loose) (row : Row) {effect : Request → State → Performed}
    (made : ∀ r, (effect r s).2.2.Balanced loose) : (performHead row effect s).Balanced loose := by
  unfold Machine.performHead
  refine .ite (fun _ => ?_) fun _ => h
  split
  · exact h
  · rename_i r rest _
    have done : (performed effect r s).2.2.Balanced loose := by
      unfold performed
      split
      · exact h
      · exact made r
    exact .ite (fun _ => done.settle.finishRequest r rest _ _) fun _ => h

theorem State.Balanced.performHeadThen (h : s.Balanced loose) (row : Row) {effect : Request → State → Performed}
    {later : Request → State → State → State} (made : ∀ r, (effect r s).2.2.Balanced loose)
    (followed : ∀ (r : Request) {t : State}, t.Balanced loose → (later r s t).Balanced loose) :
    (performHeadThen row effect later s).Balanced loose := by
  have performed := h.performHead row made
  unfold Machine.performHeadThen
  dsimp only
  split
  · exact followed _ performed
  · exact performed

theorem State.Balanced.performRestart (h : s.Balanced loose) : (performRestart s).Balanced loose := by
  unfold Machine.performRestart
  refine .ite (fun _ => ?_) fun _ => h
  split
  · exact h
  · rename_i r rest _
    refine .ite (fun _ => ?_) fun _ => h
    split
    · exact h.finishRequest r rest _ _
    · exact (h.respond r .ok []).modMga _

theorem exec_balanced (i : Instr) (h : s.Balanced []) : ∃ t, exec i s = .next t ∧ t.Balanced [] := by
  cases i with
  | receptionStart e => exact ⟨_, exec_receptionStart e s, h.whileRunning (h.startReception e)⟩
  | uplinkFrameReceived bytes good =>
    exact ⟨_, exec_uplinkFrameReceived bytes good s, h.whileRunning (h.receiveUplink bytes good)⟩
  | cameraFrameReceived p bytes good =>
    exact ⟨_, exec_cameraFrameReceived p bytes good s, h.whileRunning (h.receiveCamera p bytes good)⟩
  | identify => exact ⟨_, exec_identify s, h.performHead _ fun _ => h⟩
  | readEntry => exact ⟨_, exec_readEntry s, h.performHead _ fun r => h.performReadEntry r⟩
  | writeEntry => exact ⟨_, exec_writeEntry s, h.performHead _ fun r => h.performWriteEntry r⟩
  | patchField => exact ⟨_, exec_patchField s, h.performHead _ fun r => h.performPatchField r⟩
  | enable => exact ⟨_, exec_enable s, h.performHead _ fun r => h.enablePort r.port⟩
  | disable => exact ⟨_, exec_disable s, h.performHead _ fun r => h.disablePort r.port⟩
  | park => exact ⟨_, exec_park s, h.performHead _ fun r => h.parkPort r.port⟩
  | unpark => exact ⟨_, exec_unpark s, h.performHead _ fun r => h.unparkPort r.port⟩
  | pin => exact ⟨_, exec_pin s, h.performHead _ fun r => h.pinPort r.port⟩
  | unpin => exact ⟨_, exec_unpin s, h.performHead _ fun r => h.unpinPort r.port⟩
  | wake =>
    exact ⟨_, exec_wake s, h.performHeadThen _ (fun r => h.wakePort r.port) fun r _ k => k.afterWake r.port s⟩
  | pause =>
    exact ⟨_, exec_pause s, h.performHeadThen _ (fun r => h.pausePort r.port) fun r _ k => k.afterPause r.port s⟩
  | sleep => exact ⟨_, exec_sleep s, h.performHead _ fun r => h.sleepPort r.port⟩
  | clear => exact ⟨_, exec_clear s, h.performHead _ fun r => h.clearPort r.port⟩
  | arm => exact ⟨_, exec_arm s, h.performHead _ fun r => h.performArm r.group⟩
  | disarm => exact ⟨_, exec_disarm s, h.performHead _ fun r => h.clearArm r.group⟩
  | prepare => exact ⟨_, exec_prepare s, h.performHead _ fun r => h.performPrepare r.group r.lead⟩
  | cancel => exact ⟨_, exec_cancel s, h.performHead _ fun r => h.performCancel r.group⟩
  | readEvents => exact ⟨_, exec_readEvents s, h.performHead _ fun _ => (h.modEvu _ : (clearReported s).Balanced [])⟩
  | setEventMask => exact ⟨_, exec_setEventMask s, h.performHead _ fun _ => h.setMasks _⟩
  | readCounters => exact ⟨_, exec_readCounters s, h.performHead _ fun r => h.performReadCounters r⟩
  | restart => exact ⟨_, exec_restart s, h.performRestart⟩
  | softRestart => exact ⟨_, exec_softRestart s, .ite (fun _ => softRestart_balanced s) fun _ => h⟩
  | transmissionStart e => exact ⟨_, exec_transmissionStart e s, h.whileRunning (h.startTransmission e)⟩
  | transmissionEnd e => exact ⟨_, exec_transmissionEnd e s, h.whileRunning (h.endTransmission e)⟩
  | releaseStep p => exact ⟨_, exec_releaseStep p s, h.whileRunning (h.stepRelease p)⟩
  | admissionScan => exact ⟨_, exec_admissionScan s, h.whileRunning h.scan⟩
  | triggerReevaluation g => exact ⟨_, exec_triggerReevaluation g s, h.whileRunning (h.reevaluate g)⟩
  | cameraLinkDown p => exact ⟨_, exec_cameraLinkDown p s, h.modPort rfl⟩
  | cameraLinkUp p => exact ⟨_, exec_cameraLinkUp p s, .ite (fun _ => h.modPort rfl) fun _ => h⟩
  | uplinkLinkDown => exact ⟨_, exec_uplinkLinkDown s, h.modUplink rfl⟩
  | uplinkLinkUp => exact ⟨_, exec_uplinkLinkUp s, h.modUplink rfl⟩
  | uplinkLinkTimerExpiry =>
    exact ⟨_, exec_uplinkLinkTimerExpiry s, h.whenDue _ fun _ => State.Balanced.raise (h.modUplink rfl) _ _⟩
  | senseInputRise p => exact ⟨_, exec_senseInputRise p s, by unfold senseRise; exact h.modPort rfl⟩
  | senseInputFall p => exact ⟨_, exec_senseInputFall p s, h.modPort rfl⟩
  | senseFilterExpiry p => exact ⟨_, exec_senseFilterExpiry p s, h.whenDue _ fun _ => h.senseEdge p⟩
  | feedFaultAsserted p level =>
    exact ⟨_, exec_feedFaultAsserted p level s, .ite (fun _ => (h.sampleFeedFault p level).settle) fun _ => h.modPort rfl⟩
  | resetAsserted => exact ⟨_, exec_resetAsserted s, h.haltAll⟩
  | resetReleased => exact ⟨_, exec_resetReleased s, .ite (fun _ => releaseReset_balanced s) fun _ => h⟩
  | tableInitialisationEnd => exact ⟨_, exec_tableInitialisationEnd s, .ite (fun _ => h.of_parts rfl) fun _ => h⟩
  | idleTimerExpiry p => exact ⟨_, exec_idleTimerExpiry p s, h.whenDue _ fun _ => h.idleOver p⟩
  | deepIdleExpiry p => exact ⟨_, exec_deepIdleExpiry p s, h.whenDue _ fun _ => h.enterAsleep p⟩
  | linkTimerExpiry p => exact ⟨_, exec_linkTimerExpiry p s, h.whenDue _ fun _ => h.enterFaulted p _⟩
  | coldBootWindowExpiry p => exact ⟨_, exec_coldBootWindowExpiry p s, h.whenDue _ fun _ => h.coldAttemptFailed p⟩
  | attemptWindowExpiry p => exact ⟨_, exec_attemptWindowExpiry p s, h.whenDue _ fun _ => h.resumeAttemptFailed p⟩
  | spacingExpiry p => exact ⟨_, exec_spacingExpiry p s, h.whenDue _ fun _ => h.startAttempt p⟩
  | offHoldExpiry p => exact ⟨_, exec_offHoldExpiry p s, h.whenDue _ fun _ => h.offHoldOver p⟩
  | pulseCountdownExpiry p => exact ⟨_, exec_pulseCountdownExpiry p s, h.whenDue _ fun _ => h.closeWindow p⟩
  | pauseConfirmWindowExpiry p => exact ⟨_, exec_pauseConfirmWindowExpiry p s, h.whenDue _ fun _ => h.confirmOver p⟩
  | probeIntervalExpiry p => exact ⟨_, exec_probeIntervalExpiry p s, h.whenDue _ fun _ => h.probeIntervalOver p⟩
  | scheduleEntryDue p => exact ⟨_, exec_scheduleEntryDue p s, h.whenDue _ fun _ => h.scheduleDue p⟩
  | rendezvousWindowExpiry g =>
    exact ⟨_, exec_rendezvousWindowExpiry g s, h.whenDue _ fun due => h.windowOver (Bool.and_eq_true_iff.1 due).1⟩
  | armHoldExpiry g => exact ⟨_, exec_armHoldExpiry g s, h.whenDue _ fun _ => (h.clearArm g).raise _ _⟩
  | preparationTargetExpiry g => exact ⟨_, exec_preparationTargetExpiry g s, h.whenDue _ fun _ => h.targetOver g⟩
  | scrubPassStart => exact ⟨_, exec_scrubPassStart s, h.whenDue _ fun _ => h.modTbm _⟩
  | scrubVisit => exact ⟨_, exec_scrubVisit s, h.whileRunning h.visitNext⟩
  | unknownOpRequest => exact ⟨_, exec_unknownOpRequest s, h.performHead _ fun _ => h⟩

/-- Settles O9: between commands no reference is loose, so the books that every command and the passing of a tick keep balanced
are the law itself. -/
theorem stepKeepsCellLaw : Obligations.StepKeepsCellLaw := by
  unfold Obligations.StepKeepsCellLaw
  intro s t lawful h
  have balanced := balanced_nil_iff.2 lawful
  rw [← balanced_nil_iff]
  unfold step at h
  split at h
  · rename_i i rest _
    obtain ⟨u, e, kept⟩ := exec_balanced i (balanced.of_parts (t := { s with pending := rest }) rfl)
    rw [next_eq (e.symm.trans h)]
    exact kept
  · rw [next_eq h]
    exact balanced.passTime

end Sys2Proof.Machine
end

section
/-! SUPPORT. The egress queues (R92, R93), and the settling of O52. -/

namespace Sys2Proof.Machine

/-! ### One egress -/

@[simp] theorem State.modEgress_egress_same (s : State) (e : EtherPort) (f : Egress → Egress) :
    (s.modEgress e f).egress e = f (s.egress e) := by
  cases e with
  | camera p => exact congrArg PortRec.egress (State.modPort_port_same s p _)
  | uplink => rfl

theorem State.modEgress_egress_ne (s : State) {d e : EtherPort} (f : Egress → Egress) (h : d ≠ e) :
    (s.modEgress e f).egress d = s.egress d := by
  cases e with
  | camera p =>
    cases d with
    | camera q => exact congrArg PortRec.egress (State.modPort_port_ne s _ fun e => h (congrArg EtherPort.camera e))
    | uplink => rfl
  | uplink =>
    cases d with
    | camera q => rfl
    | uplink => exact absurd rfl h

/-- Of a port an update of an egress touches the egress alone. -/
theorem State.modEgress_port (s : State) (e : EtherPort) (f : Egress → Egress) (q : Port) :
    (s.modEgress e f).port q = { s.port q with egress := (s.modEgress e f).egress (.camera q) } := by
  cases e with
  | camera p =>
    by_cases h : q = p
    · subst h
      rw [State.modEgress_egress_same]
      exact State.modPort_port_same s q _
    · rw [State.modEgress_egress_ne s f fun e => h (EtherPort.camera.inj e)]
      exact State.modPort_port_ne s _ h
  | uplink => rfl

theorem State.modEgress_uplink (s : State) (e : EtherPort) (f : Egress → Egress) :
    (s.modEgress e f).uplink = { s.uplink with egress := (s.modEgress e f).egress .uplink } := by
  cases e <;> rfl

/-- Beyond the ports and the uplink an update of an egress touches nothing. -/
theorem State.modEgress_rest (s : State) (e : EtherPort) (f : Egress → Egress) :
    s.modEgress e f = { s with ports := (s.modEgress e f).ports, uplink := (s.modEgress e f).uplink } := by
  cases e <;> rfl

@[simp] theorem dropRef_egress (c : CellNo) (s : State) (e : EtherPort) : (dropRef c s).egress e = s.egress e := by
  rw [(dropRef_spec c s).1]
  cases e <;> rfl

/-! ### The start of a transmission -/

section
variable {e : EtherPort} {s : State} {x : TxEntry} {rest : List TxEntry}

theorem canTransmit_iff (s : State) (e : EtherPort) :
    canTransmit s e = true ↔ s.linkIsUp e = true ∧ (s.egress e).sending = none ∧ (s.egress e).queue ≠ [] := by
  simp [canTransmit, and_assoc]

theorem startTransmission_idle (h : canTransmit s e ≠ true) : startTransmission e s = s := by
  unfold startTransmission
  split
  · rfl
  · rw [if_neg h]

theorem startTransmission_sends (link : s.linkIsUp e = true) (idle : (s.egress e).sending = none)
    (queue : (s.egress e).queue = x :: rest) :
    startTransmission e s = s.modEgress e fun g => { g with sending := some (sentBytes s x) } := by
  have can : canTransmit s e = true := (canTransmit_iff s e).2 ⟨link, idle, by simp [queue]⟩
  unfold startTransmission
  rw [queue]
  exact if_pos can

theorem sentBytes_plain (h : x.rewrite = none) : sentBytes s x = (s.cell x.cell).data.take x.length := by
  rw [sentBytes, h]

/-- The rewrite replaces bytes 0-5 alone (R93). -/
theorem sentBytes_rewrite {p : Port} (h : x.rewrite = some p) : sentBytes s x =
    addrBytes (s.port p).cfg.station ++ ((s.cell x.cell).data.take x.length).drop 6 := by
  have length : (addrBytes (s.port p).cfg.station).length = 6 := natBE_length 6 _
  simp only [sentBytes, h, overlay, length, List.take_zero, List.nil_append, Nat.zero_add]

/-! ### The end of a transmission -/

theorem endTransmission_idle (h : (s.egress e).sending = none ∨ (s.egress e).queue = []) : endTransmission e s = s := by
  unfold endTransmission
  split
  · rename_i sending queue
    rcases h with h | h
    · rw [h] at sending; cases sending
    · rw [h] at queue; cases queue
  · rfl

/-- MGA's wait for its response after the frame in cell c has left the uplink (R158). -/
def Mga.hearsSent (c : CellNo) (m : Mga) : Mga :=
  { m with restart := m.restart.map fun w => if w.cell = some c then { w with cell := none } else w }

/-- The end of a transmission takes the head entry, gives up its reference, and on the uplink tells MGA (R93, R158). -/
theorem endTransmission_sent {bytes : List Byte} (sending : (s.egress e).sending = some bytes)
    (queue : (s.egress e).queue = x :: rest) : endTransmission e s =
      (dropRef x.cell (s.modEgress e fun _ => ⟨rest, none⟩)).modMga fun m =>
        if e = .uplink then m.hearsSent x.cell else m := by
  unfold endTransmission
  rw [sending, queue]
  by_cases h : e = .uplink <;> simp only [h, if_true, if_false] <;> rfl

end

/-- Settles O52: the two ends of a transmission as updates of one egress, and what such an update leaves of the state. -/
theorem egressSendsItsHeadEntry : Obligations.EgressSendsItsHeadEntry := by
  unfold Obligations.EgressSendsItsHeadEntry
  intro e s h link
  have up : link = s.linkIsUp e := by cases e <;> rfl
  have starts {t : State} (started : startTransmission e s = t) (owed : t.owed = s.owed) :
      exec (.transmissionStart e) s = .next t := by
    rw [exec_transmissionStart, whileRunning_of_owed h.running (by rw [started, owed, h.settled]), started]
  have ends {t : State} (ended : endTransmission e s = t) (owed : t.owed = s.owed) :
      exec (.transmissionEnd e) s = .next t := by
    rw [exec_transmissionEnd, whileRunning_of_owed h.running (by rw [ended, owed, h.settled]), ended]
  refine ⟨fun blocked => starts (startTransmission_idle fun can => ?_) rfl, fun x rest linked idle queue => ?_,
    fun idle => ends (endTransmission_idle idle) rfl, fun bytes x rest sending queue => ?_⟩
  · obtain ⟨linked, idle, queued⟩ := (canTransmit_iff s e).1 can
    rcases blocked with down | busy | empty
    · rw [up, linked] at down; cases down
    · exact busy idle
    · exact queued empty
  · have sends := startTransmission_sends (up ▸ linked) idle queue
    exact ⟨fun plain => starts (sends.trans (by rw [sentBytes_plain plain])) (modEgress_owed _ _ _),
      fun p rewrite => starts (sends.trans (by rw [sentBytes_rewrite rewrite])) (modEgress_owed _ _ _)⟩
  · have sent := endTransmission_sent sending queue
    have same := State.modEgress_egress_same s e fun _ => ⟨rest, none⟩
    have other {f : EtherPort} := State.modEgress_egress_ne s (d := f) (e := e) fun _ => ⟨rest, none⟩
    have port := State.modEgress_port s e fun _ => ⟨rest, none⟩
    have uplink := State.modEgress_uplink s e fun _ => ⟨rest, none⟩
    have kept := State.modEgress_rest s e fun _ => ⟨rest, none⟩
    generalize s.modEgress e (fun _ => ⟨rest, none⟩) = v at sent same other port uplink kept
    obtain ⟨-, refs, data, others, free⟩ := dropRef_spec x.cell v
    have cell (d : CellNo) : v.cell d = s.cell d := by rw [kept]; rfl
    obtain ⟨mga, owed, adm, groups, tbm, evu, phase, pending⟩ : v.mga = s.mga ∧ v.owed = s.owed ∧ v.adm = s.adm ∧
        v.groups = s.groups ∧ v.tbm = s.tbm ∧ v.evu = s.evu ∧ v.phase = s.phase ∧ v.pending = s.pending := by
      rw [kept]
      exact ⟨rfl, rfl, rfl, rfl, rfl, rfl, rfl, rfl⟩
    rw [cell] at refs data free
    refine ⟨_, ends sent (by simp [owed]), by simp [same], fun f hf => by simp [other hf], refs, data,
      fun d hd => (others d hd).trans (cell d), ?_, fun q => by simp [port q], by simp [uplink], fun hu => ?_,
      fun hu => ?_, by simp [adm], by simp [groups], by simp [tbm], by simp [evu], by simp [phase], by simp [pending],
      by simp [owed, h.settled]⟩
    · rw [State.modMga_free, free, kept]
    · simp [mga, hu]
    · simp [mga, hu, Mga.hearsSent]

end Sys2Proof.Machine
end

section
/-! SUPPORT. A release step (R96 to R98), and the settling of O53. -/

namespace Sys2Proof.Machine

/-- A change of the ports that leaves every port but p. -/
theorem eq_modPort_of_others {s t : State} {p : Port} (rest : t = { s with ports := t.ports })
    (others : ∀ q, q ≠ p → t.port q = s.port q) : t = s.modPort p fun _ => t.port p := by
  have ports : t.ports = s.ports.set p (t.port p) := by
    ext i hi
    by_cases e : p.val = i
    · subst e; simp [State.port]
    · have other : t.port ⟨i, hi⟩ = s.port ⟨i, hi⟩ := others _ fun c => e (congrArg Fin.val c).symm
      simpa [State.port, e] using other
  refine rest.trans ?_
  show _ = ({ s with ports := s.ports.set p (t.port p) } : State)
  rw [← ports]

section
variable {p : Port} {s : State}

theorem stepRelease_idle (h : (s.port p).releasing = false) : stepRelease p s = s := by
  unfold stepRelease
  rw [h]
  rfl

/-- A release step is its moves, and with no frame left the completion of the release (R96, R98). -/
theorem stepRelease_moves (h : (s.port p).releasing = true) {w : State} (moved : moveHeldUpTo Config.txDepth p s = w) :
    stepRelease p s = if (w.port p).hold = [] then noteDeliverable p (stopRelease p w) else w := by
  unfold stepRelease
  rw [if_pos h, moved]
  simp only [List.isEmpty_iff]

end

/-- Settles O53: the moves are those of `moveHeldUpTo`, and with no frame left the completion owes the re-evaluations. -/
theorem releaseStepMovesHeldFrames : Obligations.ReleaseStepMovesHeldFrames := by
  unfold Obligations.ReleaseStepMovesHeldFrames
  intro p s h
  have runs : exec (.releaseStep p) s = .next (settle (stepRelease p s)) := by
    rw [exec_releaseStep, whileRunning_of_running h.running]
  refine ⟨fun idle => ?_, fun releasing referenced => ?_⟩
  · rw [runs, stepRelease_idle idle, settle_of_owed h.settled]
  · intro r moved left
    obtain ⟨port, kept, others, cells⟩ := moveHeldUpTo_spec p 32 s (by omega)
    have step := stepRelease_moves releasing (w := moveHeldUpTo 32 p s) rfl
    generalize moveHeldUpTo 32 p s = w at port kept others cells step
    obtain ⟨sameCells, sameFree⟩ := cells referenced
    rw [sameCells, sameFree] at kept
    have only : w = s.modPort p fun _ => w.port p := eq_modPort_of_others kept others
    obtain ⟨owed, group⟩ : w.owed = [] ∧ ∀ g, w.group g = s.group g := by
      rw [kept]
      exact ⟨h.settled, fun _ => rfl⟩
    have remains : (w.port p).hold = left := by rw [port]
    rw [remains] at step
    refine ⟨stepRelease p s, runs, ?_⟩
    by_cases done : left = []
    · rw [if_pos done, noteDeliverable_eq] at step
      have ended : stopRelease p w = s.modPort p fun _ => (stopRelease p w).port p := by
        conv_lhs => rw [stopRelease, only, State.modPort_modPort]
        rw [stopRelease, State.modPort_port_same]
      rw [step, if_pos done]
      refine ⟨?_, ?_, ?_⟩
      · have empty : left.isEmpty = true := by simpa using done
        show (stopRelease p w).port p = _
        rw [stopRelease, State.modPort_port_same, port, empty]
        rfl
      · exact congrArg (fun v : State => { v with owed := (stopRelease p w).owed ++
          (allGroups.filter fun g => ((stopRelease p w).group g).slot.pending &&
            hasPort ((stopRelease p w).group g).slot.members p).map Work.reevaluate }) ended
      · simp [stopRelease, owed, group]
    · rw [if_neg done] at step
      have some : left.isEmpty = false := by simpa using done
      rw [step, if_neg done]
      refine ⟨?_, ?_, owed⟩
      · rw [port, some, Bool.not_false, ← releasing]
      · exact congrArg (fun v : State => { v with owed := w.owed }) only

end Sys2Proof.Machine
end

section
/-! SUPPORT. The look-up and the learning of standby answers where no record has to be corrected or discarded (R103 to
R108): O21 and O22. -/

namespace Sys2Proof.Machine

/-! ### The records of a port -/

@[simp] theorem proxyPort_proxyIndex (p : Port) (i : Fin 4) : proxyPort (proxyIndex p i) = p := by
  ext; simp only [proxyPort, proxyIndex]; omega

@[simp] theorem proxySlot_proxyIndex (p : Port) (i : Fin 4) : proxySlot (proxyIndex p i) = i := by
  ext; simp only [proxySlot, proxyIndex]; omega

/-- Every occupied record of port p is clean and unpoisoned. -/
def State.CleanRecords (s : State) (p : Port) : Prop :=
  ∀ i : Fin 4, (s.port p).proxies[i].occupied = true → s.tbm.proxy[proxyIndex p i].Clean

/-- Record i of port p is occupied and holds the key (R103). -/
abbrev State.HoldsKey (s : State) (p : Port) (key : BitVec 16) (i : Fin 4) : Prop :=
  (s.port p).proxies[i].occupied = true ∧ s.tbm.proxy[proxyIndex p i].val.key = key

theorem Protected.not_poisoned_of_handed {α : Type} {n : Nat} {e : Protected α n} {v : α} (h : e.handed = some v) :
    e.find.isPoisoned = false := by
  unfold Protected.handed at h
  split at h
  · cases h
  · rename_i sound; exact Bool.eq_false_of_not_eq_true sound

section
variable {s : State} {p : Port}

theorem proxyIndex_occupied (s : State) (p : Port) (i : Fin 4) :
    (s.port (proxyPort (proxyIndex p i))).proxies[proxySlot (proxyIndex p i)].occupied =
      (s.port p).proxies[i].occupied := by simp only [proxyPort_proxyIndex, proxySlot_proxyIndex]

theorem readProxy_free {i : Fin 4} (free : (s.port p).proxies[i].occupied = false) :
    readProxy (proxyIndex p i) s = (none, s) := if_neg (by rw [proxyIndex_occupied, free]; decide)

/-- A read of an occupied record with no bad bit and no poison mark (R139). -/
theorem readProxy_clean {i : Fin 4} (occupied : (s.port p).proxies[i].occupied = true)
    (clean : s.tbm.proxy[proxyIndex p i].Clean) :
    readProxy (proxyIndex p i) s = (some s.tbm.proxy[proxyIndex p i].val, s) := by
  have self : s.modTbm (fun t => { t with proxy := t.proxy.set (proxyIndex p i) s.tbm.proxy[proxyIndex p i] }) = s := by
    simp [State.modTbm]
  obtain ⟨handed, noted⟩ := Prod.mk.inj ((ReadsAs.of (t := .proxy) (index := (proxyIndex p i).val)
    (put := fun e s => s.modTbm fun t => { t with proxy := t.proxy.set (proxyIndex p i) e }) self).clean clean.1 clean.2)
  unfold readProxy
  rw [if_pos ((proxyIndex_occupied s p i).trans occupied)]
  dsimp only
  rw [Protected.not_poisoned_of_handed handed, if_neg (by decide), handed, noted]

/-- The reads of clean records change nothing and hand over what the occupied ones hold. -/
theorem readRecords_clean (clean : s.CleanRecords p) (l : List (Fin 4)) :
    readRecords p l s = ((l.filter fun i => (s.port p).proxies[i].occupied).map
      fun i => (i, s.tbm.proxy[proxyIndex p i].val), s) := by
  induction l with
  | nil => rfl
  | cons i l ih =>
    unfold readRecords
    cases occupied : (s.port p).proxies[i].occupied with
    | true =>
      rw [List.filter_cons, if_pos occupied, readProxy_clean occupied (clean i occupied)]
      dsimp only
      rw [ih, List.map_cons]
    | false =>
      rw [List.filter_cons, if_neg (by rw [occupied]; decide), readProxy_free occupied]
      dsimp only
      rw [ih]

/-! ### The record of a key -/

/-- The first record of port p that holds the key. -/
def State.recordOf? (s : State) (p : Port) (key : BitVec 16) : Option (Fin 4) :=
  recordIndices.find? fun i => s.HoldsKey p key i

theorem holdsKey_of_recordOf {key : BitVec 16} {i : Fin 4} (h : s.recordOf? p key = some i) : s.HoldsKey p key i :=
  of_decide_eq_true (List.find?_some (p := fun i => decide (s.HoldsKey p key i)) h)

theorem recordOf_none_iff {key : BitVec 16} : s.recordOf? p key = none ↔ ∀ i, ¬ s.HoldsKey p key i := by
  rw [State.recordOf?, List.find?_eq_none]
  exact ⟨fun h i => by simpa using h i (List.mem_finRange i), fun h i _ => by simpa using h i⟩

/-- What the reads of clean records hand over for a key, and the state after them. -/
theorem find_readRecords (clean : s.CleanRecords p) (key : BitVec 16) :
    ∃ found, readRecords p recordIndices s = (found, s) ∧
      found.find? (fun x => x.2.key = key) = (s.recordOf? p key).map fun i => (i, s.tbm.proxy[proxyIndex p i].val) := by
  refine ⟨_, readRecords_clean clean _, ?_⟩
  rw [List.find?_map, List.find?_filter]
  exact congrArg _ (congrArg (recordIndices.find? ·) (funext fun i => by simp))

/-! ### The look-up (R108) -/

/-- With clean records, a poll for a key is answered by the record of the key, where that is fresh. -/
theorem lookUpPoll_clean (clean : s.CleanRecords p) {bytes : List Byte} {keyOffset : Option Nat} {key : BitVec 16}
    (readable : keyOffset.bind (word16At? bytes) = some key) :
    lookUpPoll p bytes keyOffset s = ((s.recordOf? p key).bind fun i =>
      if fresh (s.port p) i then some s.tbm.proxy[proxyIndex p i].val else none, s) := by
  obtain ⟨found, reads, finds⟩ := find_readRecords clean key
  unfold lookUpPoll
  rw [readable]
  dsimp only
  rw [reads]
  dsimp only
  rw [finds]
  cases s.recordOf? p key <;> rfl

theorem lookUpPoll_keyless {bytes : List Byte} {keyOffset : Option Nat}
    (unreadable : keyOffset.bind (word16At? bytes) = none) : lookUpPoll p bytes keyOffset s = (none, s) := by
  unfold lookUpPoll
  rw [unreadable]

end

/-- Settles O21: by whether the key is readable and which record holds it; the look-up itself is `lookUpPoll_clean`. -/
theorem pollIsAHitOnAFreshRecordOfItsKey : Obligations.PollIsAHitOnAFreshRecordOfItsKey := by
  unfold Obligations.PollIsAHitOnAFreshRecordOfItsKey
  intro p bytes keyOffset s clean unique
  refine ⟨lookUpPoll_keyless, fun key readable => ⟨fun i occupied holds => ?_, fun absent => ?_⟩⟩
  · have record : s.recordOf? p key = some i := by
      cases first : s.recordOf? p key with
      | none => exact absurd ⟨occupied, holds⟩ (recordOf_none_iff.1 first i)
      | some j =>
        obtain ⟨occupied', holds'⟩ := holdsKey_of_recordOf first
        rw [unique j i occupied' occupied (holds'.trans holds.symm)]
    rw [lookUpPoll_clean clean readable, record]
    simp only [Option.bind_some, fresh, decide_eq_true_eq]
  · have unheld : s.recordOf? p key = none := recordOf_none_iff.2 fun i ⟨occupied, holds⟩ => absent i occupied holds
    rw [lookUpPoll_clean clean readable, unheld, Option.bind_none]

/-! ### The record that a learned answer goes into (R107) -/

/-- The oldest record is the first one of the greatest age; the fold starts at record 0, which it meets again. -/
theorem argmax_age (r : PortRec) : recordIndices.argmax (fun i => r.proxies[i].age) = some (oldestRecord r) := by
  have hom := List.foldl_hom some (l := [1, 2, 3]) (init := (0 : Fin 4))
    (g₁ := fun best i : Fin 4 => if r.proxies[best].age < r.proxies[i].age then i else best)
    (g₂ := List.argAux fun i best : Fin 4 => r.proxies[best].age < r.proxies[i].age) fun best i => by
      simp only [List.argAux]; split <;> rfl
  exact hom.trans (congrArg some (by simp [oldestRecord, recordIndices, List.finRange]))

theorem oldestRecord_spec (r : PortRec) : (∀ j : Fin 4, r.proxies[j].age ≤ r.proxies[oldestRecord r].age) ∧
    ∀ j, j < oldestRecord r → r.proxies[j].age < r.proxies[oldestRecord r].age := by
  obtain ⟨-, greatest, lowest⟩ := List.mem_argmax_iff.1 (argmax_age r)
  refine ⟨fun j => greatest j (List.mem_finRange j), fun j below => lt_of_not_ge fun older => ?_⟩
  have after := lowest j (List.mem_finRange j) older
  rw [recordIndices, List.idxOf_finRange, List.idxOf_finRange] at after
  omega

/-- R107's choice, where `record` is the first of the records read that holds the key. -/
theorem chooseRecord_eq {r : PortRec} {found : List (Fin 4 × ProxyEntry)} {key : BitVec 16} {record : Option (Fin 4)}
    {entry : Fin 4 → ProxyEntry} (finds : found.find? (fun x => x.2.key = key) = record.map fun i => (i, entry i)) :
    chooseRecord r found key =
      (record.or (recordIndices.find? fun i => !r.proxies[i].occupied)).getD (oldestRecord r) := by
  unfold chooseRecord
  rw [finds]
  cases record with
  | some i => rfl
  | none => cases recordIndices.find? fun i => !r.proxies[i].occupied <;> rfl

/-- The record i that an answer with the key is learned into (R107): one that held the key, the free one of lowest index,
or the oldest. -/
def State.LearnsInto (s : State) (p : Port) (key : BitVec 16) (i : Fin 4) : Prop :=
  s.HoldsKey p key i ∨
    (∀ j, ¬ s.HoldsKey p key j) ∧ (s.port p).proxies[i].occupied = false ∧
      (∀ j, j < i → (s.port p).proxies[j].occupied = true) ∨
    (∀ j, ¬ s.HoldsKey p key j) ∧ (∀ j : Fin 4, (s.port p).proxies[j].occupied = true) ∧
      (∀ j : Fin 4, (s.port p).proxies[j].age ≤ (s.port p).proxies[i].age) ∧
      (∀ j, j < i → (s.port p).proxies[j].age < (s.port p).proxies[i].age)

section
variable {s : State} {p : Port}

theorem learnsInto_chooseRecord {key : BitVec 16} {found : List (Fin 4 × ProxyEntry)}
    (finds : found.find? (fun x => x.2.key = key) =
      (s.recordOf? p key).map fun i => (i, s.tbm.proxy[proxyIndex p i].val)) :
    s.LearnsInto p key (chooseRecord (s.port p) found key) := by
  rw [chooseRecord_eq (entry := fun i => s.tbm.proxy[proxyIndex p i].val) finds]
  cases record : s.recordOf? p key with
  | some i => exact .inl (holdsKey_of_recordOf record)
  | none =>
    have absent := recordOf_none_iff.1 record
    cases place : recordIndices.find? fun i => !(s.port p).proxies[i].occupied with
    | some i =>
      obtain ⟨free, before⟩ := Fin.find?_eq_some_iff.1 (Fin.find?_eq_find?_finRange.trans place)
      exact .inr (.inl ⟨absent, by simpa using free, fun j below => by simpa using before j below⟩)
    | none =>
      have occupied (j : Fin 4) : (s.port p).proxies[j].occupied = true := by
        simpa using List.find?_eq_none.1 place j (List.mem_finRange j)
      exact .inr (.inr ⟨absent, occupied, oldestRecord_spec _⟩)

/-- With clean records, an answer is learned into one record (R107). -/
theorem learnAnswer_clean (clean : s.CleanRecords p) (key : BitVec 16) (bytes : List Byte) (seqOffset : Option Nat) :
    ∃ i, s.LearnsInto p key i ∧ learnAnswer p key bytes seqOffset s =
      (writeProxy (proxyIndex p i)
        { key := key, length := bytes.length, bytes := bytes,
          seqOffset := seqOffset.filter fun o => decide (o + 2 ≤ bytes.length) } s).modPort p fun r =>
      { r with
        proxies := r.proxies.set i { occupied := true, age := 0 }
        counts := { r.counts with learned := bump r.counts.learned } } := by
  obtain ⟨found, reads, finds⟩ := find_readRecords clean key
  refine ⟨_, learnsInto_chooseRecord finds, ?_⟩
  unfold learnAnswer
  rw [reads]

/-! ### What SAU considers (R105, R106) -/

section
variable {st : PortState} {bytes : List Byte} {keyOffset seqOffset : Option Nat}

theorem considerLearning_not_learning (h : ¬ ((st = .ready ∨ st = .pausing) ∧ (s.port p).cfg.ageLimit ≠ 0)) :
    considerLearning p st bytes keyOffset seqOffset s = s := if_neg (by simpa using h)

theorem considerLearning_keyless (unreadable : keyOffset.bind (word16At? bytes) = none) :
    considerLearning p st bytes keyOffset seqOffset s = s := by
  unfold considerLearning
  rw [unreadable]
  exact ite_self s

theorem considerLearning_readable {key : BitVec 16} (h : (st = .ready ∨ st = .pausing) ∧ (s.port p).cfg.ageLimit ≠ 0)
    (readable : keyOffset.bind (word16At? bytes) = some key) :
    considerLearning p st bytes keyOffset seqOffset s =
      if 256 < bytes.length then s.modCounts p fun c => { c with tooLong := bump c.tooLong }
      else learnAnswer p key bytes seqOffset s := by
  unfold considerLearning
  rw [readable]
  exact if_pos (by simpa using h)

end

end

/-- Settles O22: what is learned at all by the three lemmas on `considerLearning`, the record by `learnAnswer_clean`. -/
theorem learnedAnswerGoesIntoOneRecord : Obligations.LearnedAnswerGoesIntoOneRecord := by
  unfold Obligations.LearnedAnswerGoesIntoOneRecord
  intro p st bytes keyOffset seqOffset s clean learns t
  refine ⟨considerLearning_not_learning, considerLearning_keyless, fun key learning readable => ?_⟩
  have considered : t = _ := considerLearning_readable learning readable
  refine ⟨fun long => considered.trans (if_pos long), fun short => ?_⟩
  obtain ⟨i, into, learned⟩ := learnAnswer_clean clean key bytes seqOffset
  exact ⟨i, (considered.trans (if_neg (Nat.not_lt.2 short))).trans learned, into⟩

end Sys2Proof.Machine
end

section
/-! SUPPORT. A poll for a PAUSED port (R80, R88, R90, R108, R109): O20. -/

namespace Sys2Proof.Machine

/-! ### The look-up leaves the park flag -/

theorem readProxy_park (i : Fin 64) (s : State) (p : Port) : ((readProxy i s).2.port p).park = (s.port p).park := by
  have noted (f : Finding) : ((noteFinding .proxy i.val f (s.modTbm fun t => { t with
      proxy := t.proxy.set i s.tbm.proxy[i].afterRead })).port p).park = (s.port p).park :=
    congrArg PortRec.park (((Quiet.modTbm _ _).trans (Quiet.noteFinding _ _ _ _)).port p)
  unfold readProxy
  split
  · dsimp only
    split
    · rw [← noted s.tbm.proxy[i].find, discardProxy, State.modTbm_port, State.modPort_port]
      split
      · rename_i own; rw [own]
      · rfl
    · exact noted _
  · rfl

theorem readRecords_park (p q : Port) (l : List (Fin 4)) (s : State) :
    ((readRecords p l s).2.port q).park = (s.port q).park := by
  induction l generalizing s with
  | nil => rfl
  | cons i l ih => exact (ih _).trans (readProxy_park _ _ _)

theorem lookUpPoll_park (p q : Port) (bytes : List Byte) (keyOffset : Option Nat) (s : State) :
    ((lookUpPoll p bytes keyOffset s).2.port q).park = (s.port q).park := by
  have read := readRecords_park p q recordIndices s
  unfold lookUpPoll
  generalize readRecords p recordIndices s = x at read
  split
  · rfl
  · dsimp only
    split <;> exact read

/-! ### The answer (R109) -/

section
variable {p : Port} {e : ProxyEntry} {bytes : List Byte} {seqOffset : Option Nat} {d : CellNo} {rest : List CellNo}
  {s : State}

theorem answerPoll_placed (head : s.free = d :: rest) (room : txFull s .uplink = false) :
    answerPoll p e bytes seqOffset s =
      let bs := answerFrame e (s.port p).cfg.station bytes seqOffset
      (appendTx .uplink ⟨d, bs.length, none⟩ (storeCell d bs { s with free := rest })).modCounts p
        fun n => { n with answered := bump n.answered } := by
  have short : (s.egress .uplink).queue.length < 32 := Nat.lt_of_not_le (of_decide_eq_false room)
  rw [answerPoll, originate_room _ _ _ _ _ head short]

theorem answerPoll_noCell (empty : s.free = []) : answerPoll p e bytes seqOffset s =
    s.modCounts p fun n => { n with lost := bump n.lost } := by
  rw [answerPoll, originate, empty]

theorem answerPoll_queueFull (head : s.free = d :: rest) (full : 32 ≤ s.uplink.egress.queue.length) :
    answerPoll p e bytes seqOffset s =
      ({ s with free := rest ++ [d] } : State).modCounts p fun n => { n with lost := bump n.lost } := by
  have crowded : 32 ≤ (s.egress .uplink).queue.length := full
  rw [answerPoll, originate_lost _ _ _ (.inr crowded), head]
  rfl

end

/-! ### The delivery to a PAUSED port (R80, R108) -/

section
variable {p : Port} {c : CellNo} {bytes : List Byte} {k : Classified} {s v : State}

theorem deliverToPort_hit {e : ProxyEntry} (paused : (s.port p).state = .paused) (poll : k.action = .answerOrWake)
    (hit : lookUpPoll p bytes k.keyOffset s = (some e, v)) :
    deliverToPort p c bytes k s = answerPoll p e bytes k.seqOffset v := by
  simp only [deliverToPort, paused, poll, hit]

theorem deliverToPort_miss (paused : (s.port p).state = .paused) (poll : k.action = .answerOrWake)
    (miss : lookUpPoll p bytes k.keyOffset s = (none, v)) :
    deliverToPort p c bytes k s = holdOrPark p c bytes.length k v := by
  simp only [deliverToPort, paused, poll, miss]

end

/-- Settles O20: a hit by what becomes of the answer, a miss by the park flag and the room in the hold queue. -/
theorem pollAtPausedPort : Obligations.PollAtPausedPort := by
  unfold Obligations.PollAtPausedPort
  intro p c bytes s h state k u found v poll
  have paused : (u.port p).state = .paused := by rw [classifiedDown_port]; exact state
  have park : (v.port p).park = (s.port p).park := by rw [lookUpPoll_park, classifiedDown_port]
  have owed : v.owed = u.owed := lookUpPoll_owed _ _ _ _
  have run {t : State} : deliverToPort p c bytes k u = t → t.owed = v.owed →
      exec (.uplinkFrameReceived bytes true) s = .next (dropRef c t) := fun delivers kept =>
    exec_uplinkFrame_port_of_owed h delivers (kept.trans owed)
  have hits {e : ProxyEntry} (hit : found = some e) : deliverToPort p c bytes k u = answerPoll p e bytes k.seqOffset v :=
    deliverToPort_hit paused poll (Prod.ext hit rfl)
  have misses (miss : found = none) : deliverToPort p c bytes k u = holdOrPark p c bytes.length k v :=
    deliverToPort_miss paused poll (Prod.ext miss rfl)
  have needs (miss : found = none) (unparked : (s.port p).park = false) :
      deliverToPort p c bytes k u = holdAndNeed p c bytes.length k v :=
    (misses miss).trans (holdOrPark_unparked (park.trans unparked))
  refine ⟨fun e d rest hit head room => ?_, fun e hit empty => ?_, fun miss parked => ?_, fun miss unparked room => ?_,
    fun e d rest hit head full => ?_, fun miss unparked crowded => ?_⟩
  · exact run ((hits hit).trans (answerPoll_placed head room)) (by simp)
  · exact run ((hits hit).trans (answerPoll_noCell empty)) rfl
  · exact run ((misses miss).trans (holdOrPark_parked (park.trans parked))) rfl
  · have waking : k.action.waking = true := by rw [poll]; rfl
    rw [exec_uplinkFrame_port h]
    refine congrArg (fun t => Host.Outcome.next (settle (dropRef c t))) ?_
    rw [needs miss unparked, holdAndNeed_held (holdFrame_room room), waking]
  · exact run ((hits hit).trans (answerPoll_queueFull head full)) rfl
  · have held := holdFrame_full (c := c) (n := bytes.length) (k := k) crowded
    exact run ((needs miss unparked).trans (holdAndNeed_dropped held))
      ((congrArg (fun x => State.owed x.2) held).symm.trans (holdFrame_owed _ _ _ _ _))

end Sys2Proof.Machine
end

section
/-! SUPPORT. Sets of ports by their members (Table 7-3), and what the end of a trigger, a delivery of one and a read of its
group hand on: nothing. -/

namespace Sys2Proof.Machine

/-! ### Sets of ports -/

@[simp] theorem hasPort_or (a b : PortSet) (p : Port) : hasPort (a ||| b) p = (hasPort a p || hasPort b p) :=
  BitVec.getLsbD_or

@[simp] theorem hasPort_onlyPort (p q : Port) : hasPort (onlyPort p) q = decide (q = p) := by
  simp [hasPort, onlyPort, Fin.ext_iff, eq_comm]

@[simp] theorem hasPort_without (a b : PortSet) (p : Port) : hasPort (a &&& ~~~ b) p = (hasPort a p && !hasPort b p) := by
  have inside : p.val < 16 := p.isLt
  simp [hasPort, inside]

/-- A set of ports is known by its members. -/
theorem portSet_ext {a b : PortSet} (h : ∀ p : Port, hasPort a p = hasPort b p) : a = b :=
  BitVec.eq_of_getLsbD_eq fun i hi => h ⟨i, hi⟩

@[simp] theorem hasPort_portsWhere (f : Port → Bool) (p : Port) : hasPort (portsWhere f) p = f p := by
  suffices gathered : ∀ (l : List Port) (set : PortSet),
      hasPort (l.foldl (fun set q => if f q then set ||| onlyPort q else set) set) p =
        (hasPort set p || decide (p ∈ l) && f p) by
    rw [portsWhere, gathered]
    simp [allPorts, hasPort]
  intro l
  induction l with
  | nil => simp
  | cons q l ih =>
    intro set
    rw [List.foldl_cons, ih]
    by_cases same : p = q
    · subst same
      cases hf : f p <;> simp
    · cases hf : f q <;> simp [same]

/-- Every port of a set is deliverable. -/
theorem deliverableOf_eq_iff (s : State) (set : PortSet) :
    deliverableOf s set = set ↔ ∀ p : Port, hasPort set p = true → deliverable s p = true := by
  refine ⟨fun all p hp => ?_, fun all => portSet_ext fun p => ?_⟩
  · rw [← all, deliverableOf, hasPort_portsWhere, Bool.and_eq_true] at hp
    exact hp.2
  · cases hp : hasPort set p
    · simp [deliverableOf, hp]
    · simp [deliverableOf, hp, all p hp]

theorem deliverableOf_ne_iff (s : State) (set : PortSet) :
    deliverableOf s set ≠ set ↔ ∃ p : Port, hasPort set p = true ∧ deliverable s p = false := by
  rw [Ne, deliverableOf_eq_iff]
  simp

/-! ### The end of a trigger (R122 to R124) -/

/-- An update of the record of a group that gives the same record. -/
theorem modGroup_congr {s : State} {g : Group} {f h : GroupRec → GroupRec} (same : f (s.group g) = h (s.group g)) :
    s.modGroup g f = s.modGroup g h := by
  simp only [State.modGroup]
  rw [show f s.groups[g] = h s.groups[g] from same]

/-- The slot of a trigger that has ended (R124). -/
def Slot.ended (x : Slot) (outcome : TriggerOutcome) (delivered missed : PortSet) : Slot :=
  { x with pending := false, delivered := delivered, missed := missed, outcome := outcome }

section
variable {g : Group} {o : TriggerOutcome} {d m : PortSet} {s : State} {x : Slot}

/-- The slot is set free and then gives its cell up (R124, log 57). -/
theorem endTrigger_eq (slot : (s.group g).slot = x) :
    endTrigger g o d m s = dropRef x.cell (s.modGroup g fun y => { y with slot := x.ended o d m }) := by
  subst slot
  exact congrArg (dropRef _) (modGroup_congr rfl)

theorem dropTrigger_eq (slot : (s.group g).slot = x) :
    dropTrigger g o s = dropRef x.cell (s.modGroup g fun y => { y with slot := x.ended o 0 x.members }) := by
  rw [dropTrigger, endTrigger_eq slot, slot]

@[simp] theorem endTrigger_group (h : Group) : (endTrigger g o d m s).group h =
    if h = g then { s.group g with slot := (s.group g).slot.ended o d m } else s.group h := by
  rw [endTrigger_eq rfl, dropRef_group, State.modGroup_group]

/-- RENDEZVOUS_INCOMPLETE after the end of a trigger names its outcome and its missed set. -/
theorem raiseIncomplete_endTrigger : raiseIncomplete g (endTrigger g o d m s) =
    raise .rendezvousIncomplete ⟨some g.val, o.code, m⟩ (endTrigger g o d m s) := by
  rw [raiseIncomplete, endTrigger_group, if_pos rfl]
  rfl

theorem raiseIncomplete_dropTrigger (slot : (s.group g).slot = x) : raiseIncomplete g (dropTrigger g o s) =
    raise .rendezvousIncomplete ⟨some g.val, o.code, x.members⟩
      (dropRef x.cell (s.modGroup g fun y => { y with slot := x.ended o 0 x.members })) := by
  rw [← dropTrigger_eq slot, dropTrigger, raiseIncomplete_endTrigger, slot]

end

/-! ### Nothing is handed on -/

@[simp] theorem endTrigger_owed (g : Group) (o : TriggerOutcome) (d m : PortSet) (s : State) :
    (endTrigger g o d m s).owed = s.owed := by rw [endTrigger, dropRef_owed, modSlot_owed]

@[simp] theorem dropTrigger_owed (g : Group) (o : TriggerOutcome) (s : State) : (dropTrigger g o s).owed = s.owed :=
  endTrigger_owed _ _ _ _ _

@[simp] theorem raiseIncomplete_owed (g : Group) (s : State) : (raiseIncomplete g s).owed = s.owed := raise_owed _ _ _

@[simp] theorem abandonTrigger_owed (g : Group) (s : State) : (abandonTrigger g s).owed = s.owed := by
  rw [abandonTrigger, raiseIncomplete_owed, dropTrigger_owed]

@[simp] theorem deliverTo_owed (c : CellNo) (a : Bool) (set : PortSet) (s : State) : (deliverTo c a set s).2.owed = s.owed :=
  foldl_owed (fun _ _ => forwardDown_owed _ _ _ _) _ _

@[simp] theorem deliverPending_owed (g : Group) (set : PortSet) (s : State) : (deliverPending g set s).owed = s.owed := by
  unfold deliverPending
  dsimp only
  split
  · rw [endTrigger_owed, deliverTo_owed]
  · rw [raiseIncomplete_owed, endTrigger_owed, deliverTo_owed]

@[simp] theorem deliverAtArrival_owed (g : Group) (cfg : GroupConfig) (c : CellNo) (a : Bool) (s : State) :
    (deliverAtArrival g cfg c a s).owed = s.owed := by
  rw [deliverAtArrival, deliverPending_owed, modSlot_owed, addRef_owed]

end Sys2Proof.Machine
end

section
/-! SUPPORT. CANCEL, the rendezvous window and a re-evaluation (R122, R123, R127, R131): O48. -/

namespace Sys2Proof.Machine

/-- A group command that is performed on group g (R156), by what its effect comes to. -/
theorem performGroup_asked {c : GroupCommand} {r : Request} {rest : List Request} {g : Group} {s u : State} {st : Status}
    {payload : List Byte} {effect : Group → Request → State → Performed} (h : s.Accepts (.group c) r rest)
    (names : natAt r.body 7 1 = g.val) (performs : effect g r s = (st, payload, u)) :
    performGroup c effect s = finishRequest r rest st payload (settle u) := by
  rw [performGroup_accepts h, Request.group_eq names, performs]

/-- The same for an effect that hands nothing on. -/
theorem performGroup_asked_of_owed {c : GroupCommand} {r : Request} {rest : List Request} {g : Group} {s u : State}
    {st : Status} {payload : List Byte} {effect : Group → Request → State → Performed} (h : s.Accepts (.group c) r rest)
    (names : natAt r.body 7 1 = g.val) (performs : effect g r s = (st, payload, u)) (owed : u.owed = s.owed) :
    performGroup c effect s = finishRequest r rest st payload u := by
  rw [performGroup_asked h names performs, settle_of_owed (owed.trans h.settled)]

section
variable {g : Group} {s : State} {x : Slot}

/-! ### CANCEL (R127) -/

theorem performCancel_pending (slot : (s.group g).slot = x) (pending : x.pending = true) :
    performCancel g s = (.ok, natBE 2 x.members.toNat, dropTrigger g .cancelled s) := by
  subst slot
  have missed : ((dropTrigger g .cancelled s).group g).slot.missed = (s.group g).slot.members := by
    rw [dropTrigger, endTrigger_group, if_pos rfl]
    rfl
  rw [performCancel, if_pos pending]
  dsimp only
  rw [missed]

theorem performCancel_free (free : (s.group g).slot.pending = false) : performCancel g s = (.state, [], s) :=
  if_neg (by rw [free]; decide)

/-! ### The rendezvous window (R123) -/

theorem windowDue_iff : windowDue g s = true ↔ (s.group g).slot.pending = true ∧ (s.group g).slot.window = 0 := by
  simp [windowDue]

theorem windowOver_abandon (policy : (s.group g).slot.policy = .abandon) : windowOver g s = abandonTrigger g s := by
  simp only [windowOver, policy, abandonTrigger]

/-- The copies of a trigger leave its slot, so that the trigger ends in it as it stood before them (R124). -/
theorem endTrigger_deliverTo {c : CellNo} {a : Bool} {targets : PortSet} {o : TriggerOutcome} {d m : PortSet}
    (slot : (s.group g).slot = x) : endTrigger g o d m (deliverTo c a targets s).2 =
      dropRef x.cell ((deliverTo c a targets s).2.modGroup g fun y => { y with slot := x.ended o d m }) :=
  endTrigger_eq (by rw [deliverTo_group, slot])

/-- Under PARTIAL an expired window delivers to the reachable members that are deliverable (R123, log 21). -/
theorem windowOver_partial (slot : (s.group g).slot = x) (policy : x.policy = .partialSet) :
    let targets := portsWhere fun p => hasPort x.members p && !hasPort x.unreachable p && deliverable s p
    let placed := (deliverTo x.cell x.activity targets s).1
    let missed := x.members &&& ~~~ placed
    windowOver g s = raise .rendezvousIncomplete ⟨some g.val, 2, missed⟩ (dropRef x.cell
      ((deliverTo x.cell x.activity targets s).2.modGroup g fun y => { y with slot := x.ended .partialSet placed missed })) := by
  have reached : deliverableOf s (reachableSet x) =
      portsWhere fun p => hasPort x.members p && !hasPort x.unreachable p && deliverable s p :=
    portSet_ext fun p => by simp only [deliverableOf, reachableSet, hasPort_portsWhere, hasPort_without]
  intro targets placed missed
  rw [← endTrigger_deliverTo slot]
  unfold windowOver
  dsimp only
  rw [slot, policy]
  dsimp only
  rw [reached, raiseIncomplete_endTrigger]
  rfl

/-! ### Re-evaluation (R122, R131) -/

/-- The trigger is strict, and its group is not armed and intact (R131). -/
def GroupRec.strictBroken (r : GroupRec) : Prop := r.slot.strict = true ∧ (r.arm.armed = false ∨ r.arm.intact = false)

theorem reevaluate_free (free : (s.group g).slot.pending = false) : reevaluate g s = s := by simp [reevaluate, free]

theorem refuseStrict_pending (slot : (s.group g).slot = x) (pending : x.pending = true) (strict : x.strict = true) :
    refuseStrict g s = raise .triggerRefused ⟨some g.val, 0, 0⟩ (dropTrigger g .refused s) := by
  rw [refuseStrict, slot, pending, strict]
  rfl

theorem reevaluate_broken (pending : (s.group g).slot.pending = true) (broken : (s.group g).strictBroken) :
    reevaluate g s = raise .triggerRefused ⟨some g.val, 0, 0⟩ (dropTrigger g .refused s) := by
  obtain ⟨strict, unarmed⟩ := broken
  have breaks : ¬ ((s.group g).arm.armed = true ∧ (s.group g).arm.intact = true) := by
    rintro ⟨armed, intact⟩
    rcases unarmed with h | h
    · rw [armed] at h; cases h
    · rw [intact] at h; cases h
  rw [← refuseStrict_pending rfl pending strict]
  simp [reevaluate, pending, strict, breaks]

/-- A trigger that is not refused is judged by its policy (R122). -/
theorem reevaluate_unbroken (pending : (s.group g).slot.pending = true) (sound : ¬ (s.group g).strictBroken) :
    ((s.group g).slot.policy = .abandon → reevaluate g s =
      if (s.group g).slot.unreachable ≠ 0 then abandonTrigger g s
      else if deliverableOf s (s.group g).slot.members = (s.group g).slot.members then
        deliverPending g (s.group g).slot.members s
      else s) ∧
    ((s.group g).slot.policy = .partialSet → reevaluate g s =
      if deliverableOf s (reachableSet (s.group g).slot) = reachableSet (s.group g).slot then
        deliverPending g (reachableSet (s.group g).slot) s
      else s) := by
  have waits : ¬ (!(s.group g).slot.pending) = true := by rw [pending]; decide
  have kept : ¬ ((s.group g).slot.strict && !((s.group g).arm.armed && (s.group g).arm.intact)) = true := by
    intro h
    simp only [Bool.and_eq_true, Bool.not_eq_true', Bool.and_eq_false_iff] at h
    exact sound h
  constructor
  all_goals
    intro policy
    simp only [reevaluate, if_neg waits, if_neg kept, policy]

end

/-- Settles O48, command by command; none of the three hands anything on. -/
theorem pendingTriggerEnds : Obligations.PendingTriggerEnds := by
  unfold Obligations.PendingTriggerEnds
  intro g s h x a dropped abandoned
  have drop (o : TriggerOutcome) : dropTrigger g o s = dropped o := dropTrigger_eq rfl
  have abandon : abandonTrigger g s = abandoned := raiseIncomplete_dropTrigger rfl
  have expired {t : State} (due : windowDue g s = true) (ends : windowOver g s = t) (owed : t.owed = s.owed) :
      exec (.rendezvousWindowExpiry g) s = .next t := by
    rw [exec_rendezvousWindowExpiry, whileRunning_due_of_owed h due (ends ▸ owed), ends]
  have running (waits : ¬ windowDue g s = true) : exec (.rendezvousWindowExpiry g) s = .next s := by
    rw [exec_rendezvousWindowExpiry, whileRunning_notDue h waits]
  have judged {t : State} (ends : reevaluate g s = t) (owed : t.owed = s.owed) :
      exec (.triggerReevaluation g) s = .next t := by
    subst ends
    rw [exec_triggerReevaluation, whileRunning_of_owed h.running (owed.trans h.settled)]
  have dropped_owed (o : TriggerOutcome) : (dropped o).owed = s.owed := by rw [← drop, dropTrigger_owed]
  have abandoned_owed : abandoned.owed = s.owed := by rw [← abandon, abandonTrigger_owed]
  refine ⟨fun r rest accepts names => ⟨fun pending => ?_, fun free => ?_⟩, fun free => ⟨running fun due => ?_,
    judged (reevaluate_free free) rfl⟩, fun window => running fun due => window (windowDue_iff.1 due).2,
    fun pending window => ⟨fun policy => ?_, fun policy => ?_⟩, fun pending => ?_⟩
  · rw [exec_cancel, performGroup_asked_of_owed accepts names (performCancel_pending rfl pending) (dropTrigger_owed _ _ _),
      drop]
  · rw [exec_cancel, performGroup_asked_of_owed accepts names (performCancel_free free) rfl]
  · exact Bool.false_ne_true (free.symm.trans (windowDue_iff.1 due).1)
  · exact expired (windowDue_iff.2 ⟨pending, window⟩) ((windowOver_abandon policy).trans abandon) abandoned_owed
  · intro targets placed missed copied
    refine expired (windowDue_iff.2 ⟨pending, window⟩) (windowOver_partial rfl policy) ?_
    rw [raise_owed, dropRef_owed, State.modGroup_owed]
    exact deliverTo_owed _ _ _ _
  · intro broken reachable
    refine ⟨fun refused => judged ((reevaluate_broken pending refused).trans (by rw [drop])) ?_,
      fun sound policy => ?_, fun sound policy => ?_⟩
    · rw [raise_owed, dropped_owed]
    · have judge := (reevaluate_unbroken pending sound).1 policy
      refine ⟨fun lost => judged ((judge.trans (if_pos lost)).trans abandon) abandoned_owed, fun reached all => ?_,
        fun reached late => ?_⟩
      all_goals rw [if_neg (not_not_intro reached)] at judge
      · exact judged (judge.trans (if_pos ((deliverableOf_eq_iff _ _).2 all))) (deliverPending_owed _ _ _)
      · exact judged (judge.trans (if_neg ((deliverableOf_ne_iff _ _).2 late))) rfl
    · have judge := (reevaluate_unbroken pending sound).2 policy
      exact ⟨fun all => judged (judge.trans (if_pos ((deliverableOf_eq_iff _ _).2 all))) (deliverPending_owed _ _ _),
        fun late => judged (judge.trans (if_neg ((deliverableOf_ne_iff _ _).2 late))) rfl⟩

end Sys2Proof.Machine
end

section
/-! SUPPORT. The judging of a trigger (R118) and the sorting of a pending trigger's members (R119): O26 and O27. -/

namespace Sys2Proof.Machine

section
variable {g : Group} {c : CellNo} {bytes : List Byte} {a : Bool} {cfg : GroupConfig} {s u v : State} {k : Classified}

/-! ### The steps of R118 -/

/-- A CAPTURE frame for a group is a trigger. -/
theorem deliverToGroup_capture (classified : classify false none bytes s = (k, u)) (capture : k.cls = .capture) :
    deliverToGroup g (some c) bytes s = takeTrigger g c k.activity u := by
  unfold deliverToGroup
  rw [classified]
  exact if_pos capture

theorem takeTrigger_poisoned (read : readGroup g s = (none, v)) : takeTrigger g c a s = countUnknown v := by
  rw [takeTrigger, read]

/-- The steps after the read, for an entry that is handed over. -/
theorem takeTrigger_read (read : readGroup g s = (some cfg, v)) :
    takeTrigger g c a s =
      if cfg.enabled = false ∨ cfg.members = 0 then countUnknown v
      else if (v.group g).slot.pending = true then raise .triggerOverrun (Detail.group g) v
      else if cfg.strict = true ∧ ((v.group g).arm.armed = false ∨ (v.group g).arm.intact = false) then
        raise .triggerRefused (Detail.group g) v
      else if deliverableOf v cfg.members = cfg.members then deliverAtArrival g cfg c a v
      else makePending g cfg c a v := by
  rw [takeTrigger, read]
  simp only [Bool.or_eq_true, Bool.and_eq_true, Bool.not_eq_true', decide_eq_true_iff, Bool.and_eq_false_iff]

theorem takeTrigger_idle (read : readGroup g s = (some cfg, v)) (idle : cfg.enabled = false ∨ cfg.members = 0) :
    takeTrigger g c a s = countUnknown v := (takeTrigger_read read).trans (if_pos idle)

section
variable (read : readGroup g s = (some cfg, v)) (serves : ¬ (cfg.enabled = false ∨ cfg.members = 0))
include read serves

theorem takeTrigger_overrun (pending : (v.group g).slot.pending = true) :
    takeTrigger g c a s = raise .triggerOverrun (Detail.group g) v := by
  rw [takeTrigger_read read, if_neg serves, if_pos pending]

variable (free : (v.group g).slot.pending = false)
include free

theorem takeTrigger_refused
    (refused : cfg.strict = true ∧ ((v.group g).arm.armed = false ∨ (v.group g).arm.intact = false)) :
    takeTrigger g c a s = raise .triggerRefused (Detail.group g) v := by
  rw [takeTrigger_read read, if_neg serves, if_neg (by simp [free]), if_pos refused]

/-- A trigger that passes the first three steps is delivered or waits (R118 steps 4 and 5). -/
theorem takeTrigger_taken
    (sound : cfg.strict = false ∨ (v.group g).arm.armed = true ∧ (v.group g).arm.intact = true) :
    takeTrigger g c a s =
      if deliverableOf v cfg.members = cfg.members then deliverAtArrival g cfg c a v
      else makePending g cfg c a v := by
  have kept : ¬ (cfg.strict = true ∧ ((v.group g).arm.armed = false ∨ (v.group g).arm.intact = false)) := by
    rcases sound with loose | ⟨armed, intact⟩
    · simp [loose]
    · simp [armed, intact]
  rw [takeTrigger_read read, if_neg serves, if_neg (by simp [free]), if_neg kept]

end

/-! ### The whole path of a trigger -/

section
variable (h : s.Receives .uplink c bytes) (foreign : frameDest bytes ≠ s.mga.factory)
  (narrow : frameDest bytes ≠ broadcast) (multicast : isGroupAddr (frameDest bytes) = true)
  (address : groupWithAddress? s (frameDest bytes) = some g)
include h foreign narrow multicast address

/-- What a received trigger hands on is settled after its ingress has given the cell up (log 57). -/
theorem exec_uplinkFrame_trigger (capture : (s.classifiedWide c bytes).1.cls = .capture) :
    exec (.uplinkFrameReceived bytes true) s = .next (settle (dropRef c
      (takeTrigger g c (s.classifiedWide c bytes).1.activity (s.classifiedWide c bytes).2))) := by
  rw [exec_uplinkFrameReceived, whileRunning_of_running h.running, receiveUplink_passed h,
    dispatchDown_group (s := s.arrived .uplink c bytes) foreign narrow multicast address,
    deliverToGroup_capture rfl capture]
  rfl

end

end

/-- Settles O26, step by step of R118; only a trigger that waits hands anything on. -/
theorem triggerIsJudgedInOrder : Obligations.TriggerIsJudgedInOrder := by
  unfold Obligations.TriggerIsJudgedInOrder
  intro g c bytes s h foreign narrow multicast address k read v a capture
  have whole := exec_uplinkFrame_trigger h foreign narrow multicast address capture
  have owed : v.owed = [] := (readGroup_owed _ _).trans ((classifiedWide_owed s c bytes).trans h.settled)
  have run {t : State} (takes : takeTrigger g c k.activity (s.classifiedWide c bytes).2 = t) (kept : t.owed = v.owed) :
      exec (.uplinkFrameReceived bytes true) s = .next (dropRef c t) := by
    rw [whole, takes, settle_of_owed (by rw [dropRef_owed, kept, owed])]
  refine ⟨fun poisoned => run (takeTrigger_poisoned (Prod.ext poisoned rfl)) (countUnknown_owed _), fun cfg handed => ?_⟩
  have found : readGroup g (s.classifiedWide c bytes).2 = (some cfg, v) := Prod.ext handed rfl
  refine ⟨fun idle => run (takeTrigger_idle found idle) (countUnknown_owed _), fun enabled members => ?_⟩
  have serves : ¬ (cfg.enabled = false ∨ cfg.members = 0) := by
    rw [enabled]
    exact fun idle => idle.elim Bool.noConfusion members
  refine ⟨fun pending => run (takeTrigger_overrun found serves pending) (raise_owed _ _ _), fun free =>
    ⟨fun refused => run (takeTrigger_refused found serves free refused) (raise_owed _ _ _), fun sound => ?_⟩⟩
  have taken := takeTrigger_taken (c := c) (a := k.activity) found serves free sound
  refine ⟨fun all => run (taken.trans (if_pos all)) (deliverAtArrival_owed _ _ _ _ _), fun waits => ?_⟩
  rw [whole, taken, if_neg waits]

/-! ### A trigger made pending (R119) -/

/-- A member is unreachable that is DISABLED or FAULTED, or PAUSED or ASLEEP and parked (R119, Table 7-4). -/
theorem cannotRendezvous_eq (s : State) (p : Port) : cannotRendezvous s p =
    ((s.port p).state = .disabled || (s.port p).state = .faulted ||
      ((s.port p).state = .paused || (s.port p).state = .asleep) && (s.port p).park) := by
  cases state : (s.port p).state <;> simp [cannotRendezvous, state]

/-- No deliverable member is unreachable. -/
theorem not_deliverable_of_cannotRendezvous {s : State} {p : Port} (lost : cannotRendezvous s p = true) :
    deliverable s p = false := by
  have unready : (s.port p).state ≠ .ready := by
    intro ready
    simp [cannotRendezvous, ready] at lost
  simp [deliverable, unready]

/-- The unreachable members of a trigger that is made pending (R119). -/
theorem unreachable_eq (members : PortSet) (s : State) :
    (portsWhere fun p => hasPort members p && !deliverable s p && cannotRendezvous s p) =
      portsWhere fun p => hasPort members p && ((s.port p).state = .disabled || (s.port p).state = .faulted ||
        ((s.port p).state = .paused || (s.port p).state = .asleep) && (s.port p).park) := by
  refine portSet_ext fun p => ?_
  rw [hasPort_portsWhere, hasPort_portsWhere, ← cannotRendezvous_eq]
  cases lost : cannotRendezvous s p
  · simp only [Bool.and_false]
  · simp only [not_deliverable_of_cannotRendezvous lost, Bool.not_false, Bool.and_true]

/-- Settles O27: by the policy and the unreachable members. -/
theorem pendingTriggerSortsItsMembers : Obligations.PendingTriggerSortsItsMembers := by
  unfold Obligations.PendingTriggerSortsItsMembers
  intro g cfg c activity s t x
  have slot : x = _ := congrArg GroupRec.slot (State.modGroup_group_same _ g _)
  have made : makePending g cfg c activity s =
      if (cfg.policy = .abandon && x.unreachable ≠ 0) = true then abandonTrigger g t
      else rendezvousNeeds ((portList cfg.members).filter fun p => needsWake t p && !hasPort x.unreachable p) t := by
    rw [slot]
    unfold makePending
    rw [unreachable_eq]
  refine ⟨fun abandon lost => made.trans (if_pos ?_), fun kept => made.trans (if_neg ?_)⟩
  · rw [Bool.and_eq_true, decide_eq_true_iff, decide_eq_true_iff]
    exact ⟨abandon, lost⟩
  · rw [Bool.and_eq_true, decide_eq_true_iff, decide_eq_true_iff]
    rintro ⟨abandon, lost⟩
    rcases kept with other | reached
    · rw [abandon] at other; cases other
    · exact lost reached

end Sys2Proof.Machine
end

section
/-! SUPPORT. The delivery of a trigger (R124): O28. -/

namespace Sys2Proof.Machine

/-! ### The copies -/

theorem forwardDown_data (p : Port) (x : TxEntry) (a : Bool) (s : State) (c : CellNo) :
    ((forwardDown p x a s).cell c).data = (s.cell c).data := by
  simp only [State.cell, forwardDown_cells]
  split
  · rfl
  · show ((addRef x.cell s).cell c).data = _
    rw [addRef_cell]
    split <;> rename_i same
    · subst same; rfl
    · rfl

/-- Each copy of a trigger has the length of the frame, which no copy changes. -/
theorem fold_deliverCopy (c : CellNo) (a : Bool) (l : List Port) (s : State) : l.foldl (deliverCopy c a) s =
    l.foldl (fun u p => forwardDown p ⟨c, (s.cell c).data.length, some p⟩ a u) s := by
  suffices copied : ∀ (l : List Port) (u : State), (u.cell c).data = (s.cell c).data → l.foldl (deliverCopy c a) u =
      l.foldl (fun u p => forwardDown p ⟨c, (s.cell c).data.length, some p⟩ a u) u from copied l s rfl
  intro l
  induction l with
  | nil => exact fun _ _ => rfl
  | cons p l ih =>
    intro u data
    rw [List.foldl_cons, List.foldl_cons, deliverCopy, data]
    exact ih _ ((forwardDown_data _ _ _ _ _).trans data)

/-- The ports of a set that have room in their transmit queues, counted. -/
theorem countP_room (targets : PortSet) (s : State) :
    (portList targets).countP (fun q => !txFull s (.camera q)) =
      (portList (portsWhere fun p => hasPort targets p && !txFull s (.camera p))).length := by
  rw [portList, portList, List.countP_filter, List.countP_eq_length_filter]
  refine congrArg List.length (List.filter_congr fun q _ => ?_)
  rw [hasPort_portsWhere, Bool.and_comm]

/-- All that the copies of a trigger for a set of members do (R124). -/
theorem deliverTo_spec (c : CellNo) (a : Bool) (targets : PortSet) (s : State) :
    let t := (deliverTo c a targets s).2
    let placed := (deliverTo c a targets s).1
    (∀ q, t.port q = if hasPort targets q = true then
        (s.port q).copied c (s.cell c).data.length a (some q) (txFull s (.camera q)) else s.port q) ∧
    (t.cell c).refs = (s.cell c).refs + (portList placed).length ∧ (t.cell c).data = (s.cell c).data ∧
    (∀ d, d ≠ c → t.cell d = s.cell d) ∧ t = { s with ports := t.ports, cells := t.cells } := by
  intro t placed
  have spread : t = (portList targets).foldl
      (fun u p => forwardDown p ⟨c, (s.cell c).data.length, some p⟩ a u) s := fold_deliverCopy c a _ s
  have nodup : (portList targets).Nodup := (List.nodup_finRange 16).filter _
  obtain ⟨port, refs, data, others, rest⟩ := fold_forwardDown (fun q => ⟨c, (s.cell c).data.length, some q⟩) c
    (s.cell c).data.length (fun _ => ⟨rfl, rfl⟩) a _ nodup s
  simp only [← spread] at port refs data others rest
  exact ⟨fun q => (port q).trans (if_congr (portList_mem targets q) rfl rfl), by rw [refs, countP_room]; rfl, data, others,
    rest⟩

/-! ### The end of a delivery -/

/-- t is s after the delivery of the trigger in cell c to `targets` (R124): `slot` is the group's slot before the end of the
trigger, and `refs` counts the references of the cell with the slot's own. -/
def Delivers (g : Group) (s : State) (c : CellNo) (activity : Bool) (members targets : PortSet) (slot : Slot) (refs : Nat)
    (t : State) : Prop :=
  let placed := portsWhere fun p => hasPort targets p && !txFull s (.camera p)
  let missed := members &&& ~~~ placed
  (∀ q : Port, t.port q =
    if hasPort targets q = false then s.port q
    else (s.port q).copied c (s.cell c).data.length activity (some q) (txFull s (.camera q))) ∧
  t.group g = { s.group g with
    slot := slot.ended (if missed = 0 then .delivered else .partialSet) placed missed } ∧
  (∀ h : Group, h ≠ g → t.group h = s.group h) ∧
  (∃ w : State, t = (if missed = 0 then w else raise .rendezvousIncomplete ⟨some g.val, 2, missed⟩ w) ∧
    (w.cell c).refs = refs + (portList placed).length - 1 ∧ (w.cell c).data = (s.cell c).data ∧
    (∀ d : CellNo, d ≠ c → w.cell d = s.cell d) ∧
    w.free = s.free ++ (if refs + (portList placed).length = 1 then [c] else []) ∧
    w.uplink = s.uplink ∧ w.evu = s.evu) ∧
  (missed ≠ 0 → t.evu.events[Event.rendezvousIncomplete.num].pending = true ∧
    t.evu.events[Event.rendezvousIncomplete.num].detail = some ⟨some g.val, 2, missed⟩) ∧
  (missed = 0 → t.evu = s.evu) ∧ t.adm = s.adm ∧ t.tbm = s.tbm ∧ t.mga = s.mga ∧ t.owed = s.owed ∧
  t.phase = s.phase ∧ t.pending = s.pending

/-- A delivery ends its trigger after the copies, with the event where a member is missed (R124). -/
theorem deliverPending_eq {g : Group} {s : State} {x : Slot} {targets placed missed : PortSet}
    (slot : (s.group g).slot = x) (served : (deliverTo x.cell x.activity targets s).1 = placed)
    (others : x.members &&& ~~~ placed = missed) :
    let w := endTrigger g (if missed = 0 then .delivered else .partialSet) placed missed
      (deliverTo x.cell x.activity targets s).2
    deliverPending g targets s =
      if missed = 0 then w else raise .rendezvousIncomplete ⟨some g.val, 2, missed⟩ w := by
  subst slot served others
  intro w
  by_cases full : (s.group g).slot.members &&&
      ~~~ (deliverTo (s.group g).slot.cell (s.group g).slot.activity targets s).1 = 0
  · simp only [w, if_pos full]
    exact if_pos full
  · simp only [w, if_neg full]
    exact (if_neg full).trans raiseIncomplete_endTrigger

/-- The state of a delivery before its event: the copies are placed, the slot is free, and the cell has given up the slot's
reference (R88, R124). -/
theorem endTrigger_deliverTo_spec {g : Group} {u : State} {x : Slot} (slot : (u.group g).slot = x) (targets : PortSet)
    (o : TriggerOutcome) (d m : PortSet) :
    let w := endTrigger g o d m (deliverTo x.cell x.activity targets u).2
    let n := (portList (deliverTo x.cell x.activity targets u).1).length
    (∀ q, w.port q = if hasPort targets q = true then
        (u.port q).copied x.cell (u.cell x.cell).data.length x.activity (some q) (txFull u (.camera q)) else u.port q) ∧
    (∀ h, w.group h = if h = g then { u.group g with slot := x.ended o d m } else u.group h) ∧
    (w.cell x.cell).refs = (u.cell x.cell).refs + n - 1 ∧ (w.cell x.cell).data = (u.cell x.cell).data ∧
    (∀ c, c ≠ x.cell → w.cell c = u.cell c) ∧
    w.free = u.free ++ (if (u.cell x.cell).refs + n = 1 then [x.cell] else []) ∧
    w = { u with ports := w.ports, groups := w.groups, cells := w.cells, free := w.free } := by
  intro w n
  obtain ⟨port, refs, data, others, rest⟩ := deliverTo_spec x.cell x.activity targets u
  have group := deliverTo_group x.cell x.activity targets u
  have ended : w = dropRef x.cell _ := endTrigger_deliverTo slot
  change _ = _ + n at refs
  clear_value w n
  generalize (deliverTo x.cell x.activity targets u).2 = v at *
  subst ended
  obtain ⟨dropped, drefs, ddata, dothers, dfree⟩ :=
    dropRef_spec x.cell (v.modGroup g fun y => { y with slot := x.ended o d m })
  have free : v.free = u.free := by rw [rest]
  refine ⟨fun q => by rw [dropRef_port, State.modGroup_port, port], fun h => ?_,
    by rw [drefs, State.modGroup_cell, refs], by rw [ddata, State.modGroup_cell, data],
    fun c other => by rw [dothers c other, State.modGroup_cell, others c other], ?_, ?_⟩
  · rw [dropRef_group, State.modGroup_group, group, group]
  · rw [dfree, State.modGroup_cell, refs, State.modGroup_free, free]
    split
    · rfl
    · exact (List.append_nil _).symm
  · rw [dropped, rest]
    rfl

/-- The delivery in a state u, which differs from s in the slot of the group and in the references of the trigger's cell
alone. -/
theorem deliverPending_delivers {g : Group} {s u : State} {x : Slot} (own : u.group g = { s.group g with slot := x })
    (others : ∀ h : Group, h ≠ g → u.group h = s.group h) (data : (u.cell x.cell).data = (s.cell x.cell).data)
    (cells : ∀ d : CellNo, d ≠ x.cell → u.cell d = s.cell d)
    (rest : u = { s with groups := u.groups, cells := u.cells }) (targets : PortSet) :
    Delivers g s x.cell x.activity x.members targets x (u.cell x.cell).refs (deliverPending g targets u) := by
  unfold Delivers
  extract_lets placed missed
  have slot : (u.group g).slot = x := congrArg GroupRec.slot own
  have uport (q : Port) : u.port q = s.port q := by rw [rest]; rfl
  have room (q : Port) : txFull u (.camera q) = txFull s (.camera q) := txFull_congr (uport q)
  have served : (deliverTo x.cell x.activity targets u).1 = placed := by simp only [deliverTo, room, placed]
  have delivered := deliverPending_eq (missed := missed) slot served rfl
  obtain ⟨port, group, refs, kept, untouched, free, alone⟩ := endTrigger_deliverTo_spec slot targets
    (if missed = 0 then .delivered else .partialSet) placed missed
  rw [served] at refs free
  dsimp only at delivered
  generalize endTrigger g _ placed missed _ = w at *
  rw [delivered]
  have quiet : Quiet w (if missed = 0 then w else raise .rendezvousIncomplete ⟨some g.val, 2, missed⟩ w) := by
    split
    · exact Quiet.refl w
    · exact Quiet.raise _ _ _
  have same : w = { s with ports := w.ports, groups := w.groups, cells := w.cells, free := w.free } := by
    rw [alone, rest]
  refine ⟨fun q => ?_, ?_, fun h other => ?_, ⟨w, rfl, refs, kept.trans data, fun d hd => (untouched d hd).trans (cells d hd),
    ?_, ?_, ?_⟩, fun missing => ?_, fun full => ?_, quiet.adm.trans ?_, ?_, quiet.mga.trans ?_, quiet.owed.trans ?_,
    quiet.phase.trans ?_, quiet.pending.trans ?_⟩
  · rw [quiet.port, port, uport, room, data]
    cases hasPort targets q <;> rfl
  · rw [quiet.group, group, if_pos rfl, own]
  · rw [quiet.group, group, if_neg other, others h other]
  · rw [free, rest]
  · rw [same]
  · rw [same]
  · rw [if_neg missing]
    exact raise_event _ _ _
  · rw [if_pos full, same]
  · rw [same]
  · rw [same]
    split
    · rfl
    · rw [raise_tbm]
  all_goals rw [same]

/-- The slot as the arrival of a trigger that is delivered at once fills it (Table 7-3, log 54). -/
def Slot.arriving (cfg : GroupConfig) (c : CellNo) (activity : Bool) (x : Slot) : Slot :=
  { x with
    cell := c, members := cfg.members, policy := cfg.policy, strict := cfg.strict, activity := activity, unreachable := 0 }

theorem deliverAtArrival_eq (g : Group) (cfg : GroupConfig) (c : CellNo) (activity : Bool) (s : State) :
    deliverAtArrival g cfg c activity s =
      deliverPending g cfg.members ((addRef c s).modSlot g (Slot.arriving cfg c activity)) := rfl

/-- Settles O28: a pending trigger's delivery is that of its slot; a trigger delivered at its arrival has its slot filled and
its cell referenced first (R118, log 54). -/
theorem deliveryPlacesOneEntryForEachTarget : Obligations.DeliveryPlacesOneEntryForEachTarget := by
  unfold Obligations.DeliveryPlacesOneEntryForEachTarget
  intro g s delivers
  refine ⟨fun targets => deliverPending_delivers rfl (fun _ _ => rfl) rfl (fun _ _ => rfl) rfl targets,
    fun cfg c activity => ?_⟩
  have refs : ((addRef c s).cell c).refs = (s.cell c).refs + 1 := by rw [addRef_cell, if_pos rfl]
  have data : ((addRef c s).cell c).data = (s.cell c).data := by rw [addRef_cell, if_pos rfl]
  have cells (d : CellNo) (other : d ≠ c) : (addRef c s).cell d = s.cell d := by rw [addRef_cell, if_neg other]
  have filled := deliverPending_delivers (s := s) (u := (addRef c s).modSlot g (Slot.arriving cfg c activity))
    (x := (s.group g).slot.arriving cfg c activity) (State.modGroup_group_same _ g _)
    (fun h other => State.modGroup_group_ne _ _ other) data cells rfl cfg.members
  rw [← deliverAtArrival_eq] at filled
  exact refs ▸ filled

end Sys2Proof.Machine
end

section
/-! SUPPORT. ARM, and the end of an arm (R128, R129, R131, R132): O46. -/

namespace Sys2Proof.Machine

section
variable {g : Group} {cfg : GroupConfig} {s v : State} {st : Status}

/-! ### The checks of R128 -/

/-- A port with the property is in the list of a set's ports. -/
theorem any_portList (set : PortSet) (f : Port → Bool) :
    (portList set).any f = true ↔ ∃ q : Port, hasPort set q = true ∧ f q = true := by
  simp only [List.any_eq_true, portList_mem]

/-- A member is DISABLED or FAULTED. -/
def GroupConfig.lost (cfg : GroupConfig) (s : State) : Prop :=
  ∃ q : Port, hasPort cfg.members q = true ∧ ((s.port q).state = .disabled ∨ (s.port q).state = .faulted)

/-- A member is parked. -/
def GroupConfig.parked (cfg : GroupConfig) (s : State) : Prop :=
  ∃ q : Port, hasPort cfg.members q = true ∧ (s.port q).park = true

theorem armRefusal_disabled (disabled : cfg.enabled = false) : armRefusal cfg s = some .state :=
  if_pos (by rw [disabled]; rfl)

/-- The checks of the members of an enabled group. -/
theorem armRefusal_enabled (enabled : cfg.enabled = true) : armRefusal cfg s =
    if (portList cfg.members).any (fun q => (s.port q).state = .disabled || (s.port q).state = .faulted) = true then
      some .memberUnavailable
    else if (portList cfg.members).any (fun q => (s.port q).park) = true then some .parkedMember
    else none := if_neg (by rw [enabled]; decide)

theorem any_lost_iff : (portList cfg.members).any
    (fun q => (s.port q).state = .disabled || (s.port q).state = .faulted) = true ↔ cfg.lost s := by
  simp only [any_portList, GroupConfig.lost, Bool.or_eq_true, decide_eq_true_iff]

theorem any_parked_iff : (portList cfg.members).any (fun q => (s.port q).park) = true ↔ cfg.parked s :=
  any_portList _ _

theorem armRefusal_lost (enabled : cfg.enabled = true) (lost : cfg.lost s) :
    armRefusal cfg s = some .memberUnavailable :=
  (armRefusal_enabled enabled).trans (if_pos (any_lost_iff.2 lost))

theorem armRefusal_parked (enabled : cfg.enabled = true) (serving : ¬ cfg.lost s) (parked : cfg.parked s) :
    armRefusal cfg s = some .parkedMember := by
  rw [armRefusal_enabled enabled, if_neg (mt any_lost_iff.1 serving), if_pos (any_parked_iff.2 parked)]

theorem armRefusal_none (enabled : cfg.enabled = true) (serving : ¬ cfg.lost s) (unparked : ¬ cfg.parked s) :
    armRefusal cfg s = none := by
  rw [armRefusal_enabled enabled, if_neg (mt any_lost_iff.1 serving), if_neg (mt any_parked_iff.1 unparked)]

/-! ### ARM -/

section
variable {take : GroupConfig → State → State}

theorem checkedArm_poisoned (read : readGroup g s = (none, v)) : checkedArm g take s = (.state, [], v) := by
  rw [checkedArm, read]
  rfl

theorem checkedArm_refused (read : readGroup g s = (some cfg, v)) (refusal : armRefusal cfg v = some st) :
    checkedArm g take s = (st, [], v) := by
  simp only [checkedArm, read, refusal]
  rfl

theorem checkedArm_taken (read : readGroup g s = (some cfg, v)) (passes : armRefusal cfg v = none) :
    checkedArm g take s = (.ok, [], take cfg v) := by
  simp only [checkedArm, read, passes]
  rfl

end

/-- The arm record that a taken ARM or PREPARE leaves, but for the target (R128). -/
def ArmRecord.loaded (cfg : GroupConfig) (s : State) (a : ArmRecord) : ArmRecord :=
  { armed := true, intact := true, hold := cfg.armHold * 1000, target := a.target, members := cfg.members
    watched := portsWhere fun q => hasPort cfg.members q && (s.port q).state = .ready, breakReported := false }

/-- All that arming a group does: its arm record and the idle timers of its READY members (R128, R129). -/
theorem armGroup_spec (g : Group) (cfg : GroupConfig) (s : State) :
    let u := armGroup g cfg s
    u = { s with groups := u.groups, ports := u.ports } ∧
    (∀ q : Port, u.port q = { s.port q with
      idle := if hasPort cfg.members q = true ∧ (s.port q).state = .ready then 0 else (s.port q).idle }) ∧
    (∀ h : Group, h ≠ g → u.group h = s.group h) ∧
    u.group g = { s.group g with arm := (s.group g).arm.loaded cfg s } := by
  let t := s.modArm g (ArmRecord.loaded cfg s)
  intro u
  obtain ⟨port, idled⟩ := fold_idle (portList cfg.members) t
  have rest : u = { t with ports := u.ports } := idled
  have group (h : Group) : u.group h = t.group h := by rw [rest]; rfl
  refine ⟨by rw [rest]; rfl, fun q => ?_, fun h other => ?_, ?_⟩
  · have idle := port q
    simp only [portList_mem] at idle
    exact idle
  · rw [group]
    exact State.modGroup_group_ne _ _ other
  · rw [group]
    exact State.modGroup_group_same _ _ _

@[simp] theorem armGroup_owed (g : Group) (cfg : GroupConfig) (s : State) : (armGroup g cfg s).owed = s.owed := by
  rw [(armGroup_spec g cfg s).1]

/-- The filter of the members to be woken reads the ports before they are armed (R128). -/
theorem armAndWake_eq (g : Group) (cfg : GroupConfig) (s : State) : armAndWake g cfg s =
    ((portList cfg.members).filter fun q => (s.port q).state = .pausing || (s.port q).state = .paused ||
      (s.port q).state = .asleep).foldl (fun s q => takeNeed .rendezvous q s) (armGroup g cfg s) := rfl

/-! ### The end of an arm (R132) -/

theorem clearArm_unarmed (unarmed : (s.group g).arm.armed = false) : clearArm g s = s :=
  if_neg (by rw [unarmed]; decide)

theorem holdDue_iff : holdDue g s = true ↔ (s.group g).arm.armed = true ∧ (s.group g).arm.hold = 0 := by
  simp [holdDue]

theorem holdOver_owed (g : Group) (s : State) : (holdOver g s).owed = s.owed :=
  (raise_owed _ _ _).trans (clearArm_owed g s)

end

/-- Settles O46: ARM by its checks, and the end of an arm by `clearArm_spec`. -/
theorem groupIsArmedAndDisarmed : Obligations.GroupIsArmedAndDisarmed := by
  unfold Obligations.GroupIsArmedAndDisarmed
  intro g s h asks v idled cleared
  have clears (armed : (s.group g).arm.armed = true) : cleared (clearArm g s) := clearArm_spec g s armed
  refine ⟨fun r rest ⟨accepts, names⟩ => ⟨fun poisoned => ?_, fun c handed => ?_⟩, fun r rest ⟨accepts, names⟩ =>
    ⟨fun unarmed => ?_, fun armed => ⟨_, clears armed, ?_⟩⟩, fun armed due => ⟨_, clears armed, ?_⟩, fun running => ?_⟩
  · rw [exec_arm, performGroup_asked_of_owed accepts names (checkedArm_poisoned (Prod.ext poisoned rfl))
      (readGroup_owed g s)]
  · intro lost parked
    have found : readGroup g s = (some c, v) := Prod.ext handed rfl
    have refuses {st : Status} (refusal : armRefusal c v = some st) :
        exec .arm s = .next (finishRequest r rest st [] v) := by
      rw [exec_arm, performGroup_asked_of_owed accepts names (checkedArm_refused found refusal) (readGroup_owed g s)]
    refine ⟨fun disabled => refuses (armRefusal_disabled disabled), fun enabled gone =>
      refuses (armRefusal_lost enabled gone), fun enabled serving rests =>
      refuses (armRefusal_parked enabled serving rests), fun enabled serving free => ?_⟩
    obtain ⟨alone, ports, others, own⟩ := armGroup_spec g c v
    refine ⟨armGroup g c v, ?_, alone, ports, others, own⟩
    rw [exec_arm, performGroup_asked accepts names (checkedArm_taken found (armRefusal_none enabled serving free)),
      armAndWake_eq]
  · rw [exec_disarm, performGroup_asked_of_owed accepts names rfl (clearArm_owed g s), clearArm_unarmed unarmed]
  · rw [exec_disarm, performGroup_asked_of_owed accepts names rfl (clearArm_owed g s)]
  · rw [exec_armHoldExpiry, whileRunning_due_of_owed h (holdDue_iff.2 ⟨armed, due⟩) (holdOver_owed g s)]
    rfl
  · rw [exec_armHoldExpiry, whileRunning_notDue h]
    rw [holdDue_iff]
    rintro ⟨armed, due⟩
    rcases running with unarmed | runs
    · rw [armed] at unarmed; cases unarmed
    · exact runs due

end Sys2Proof.Machine
end

section
/-! SUPPORT. PREPARE, schedule requests and the preparation target (R64, R65, R134 to R136): O47. -/

namespace Sys2Proof.Machine

/-! ### The lead of an accepted PREPARE (R148, R156) -/

/-- The payload stands in the body from byte 10 on (Table 9-2). -/
theorem payload_eq_bytesAt {r : Request} {bs : List Byte} (h : r.payload? = some bs) :
    r.payload = bytesAt r.body 10 bs.length := by
  rw [Request.payload, h, Option.getD_some]
  unfold Request.payload? at h
  split at h
  · rename_i fits
    obtain ⟨-, inside⟩ := Bool.and_eq_true_iff.1 fits
    have long := of_decide_eq_true inside
    obtain rfl := Option.some.inj h
    have length : (bytesAt r.body 10 r.length).length = r.length := by
      rw [bytesAt, List.length_take, List.length_drop]
      omega
    rw [length]
  · cases h

/-- A row of a group command serves a GROUP_COMMAND whose code, where it names a command, names its own. -/
theorem rowServes_group {c : GroupCommand} {r : Request} (serves : rowServes (.group c) r = true) :
    opOf r.op = some .groupCommand ∧ ∀ c', r.command?.bind groupCommandOf = some c' → c = c' := by
  unfold rowServes at serves
  cases op : opOf r.op with
  | none => simp [op] at serves
  | some o =>
    cases o with
    | groupCommand =>
      refine ⟨rfl, fun c' code => ?_⟩
      simpa [op, code] using serves
    | _ => simp [op] at serves

/-- The last check of R148 that a group command passes is that of its payload. -/
theorem groupCommandRefusal_of_passes {r : Request} (op : opOf r.op = some .groupCommand)
    (passes : requestRefusal r = none) : ∃ bs, r.payload? = some bs ∧ groupCommandRefusal bs = none := by
  unfold requestRefusal at passes
  split at passes
  · cases passes
  · cases payload : r.payload? with
    | none => rw [payload] at passes; cases passes
    | some bs =>
      simp only [payload, op, Option.orElse_eq_orElse, Option.orElse_eq_or, Option.or_eq_none_iff] at passes
      obtain ⟨-, -, sound⟩ := passes
      exact ⟨bs, rfl, sound⟩

/-- The payload of a PREPARE that passes its checks: the code and the four bytes of the lead (Table 9-5). -/
theorem prepare_payload_length {bs : List Byte}
    (code : ∀ c, (bs.head?.map (·.toNat)).bind groupCommandOf = some c → .prepare = c)
    (sound : groupCommandRefusal bs = none) : bs.length = 5 := by
  cases bs with
  | nil => cases sound
  | cons b lead =>
    cases named : groupCommandOf b.toNat with
    | none => simp [groupCommandRefusal, named] at sound
    | some c =>
      obtain rfl := code c named
      simpa [groupCommandRefusal, named] using sound

/-- The lead of an accepted PREPARE stands in bytes 11 to 14 of its body (R156). -/
theorem lead_eq_natAt {s : State} {r : Request} {rest : List Request} (h : s.Accepts (.group .prepare) r rest) :
    r.lead = natAt r.body 11 4 := by
  obtain ⟨op, code⟩ := rowServes_group h.row
  obtain ⟨bs, payload, sound⟩ := groupCommandRefusal_of_passes op h.passes
  have length : bs.length = 5 := prepare_payload_length (fun c named => code c (by
    rw [Request.command?, payload]
    exact named)) sound
  rw [Request.lead, payload_eq_bytesAt payload, length]
  simp only [natAt, bytesAt, List.drop_take, List.drop_drop, List.take_take]
  rfl

/-! ### The schedule list (R64) -/

/-- A request beside a wake-queue entry is ignored, and one beside a schedule entry unless it comes earlier (R64). -/
theorem requestSchedule_ignored {p : Port} {g : Group} {offset : Nat} {s : State}
    (h : (∃ e ∈ s.adm.wakeQueue, e.port = p) ∨ ∃ e, scheduleEntry? s p = some e ∧ e.countdown ≤ offset) :
    requestSchedule p g offset s = s := by
  cases queued : wakeEntry? s p with
  | some w => simp only [requestSchedule, queued]
  | none =>
    rcases h with waits | ⟨e, scheduled, earlier⟩
    · rw [← wakeEntry_isSome, queued] at waits
      cases waits
    · simp only [requestSchedule, queued, scheduled, if_neg (Nat.not_lt.2 earlier)]

/-- Any other request stands at the end of the list, in place of the port's later entry (R64). -/
theorem requestSchedule_appended {p : Port} {g : Group} {offset : Nat} {s : State}
    (h : ¬ ((∃ e ∈ s.adm.wakeQueue, e.port = p) ∨ ∃ e, scheduleEntry? s p = some e ∧ e.countdown ≤ offset)) :
    requestSchedule p g offset s = s.modAdm fun a => { a with
      schedule := a.schedule.filter (·.port ≠ p) ++ [⟨p, g, offset⟩] } := by
  obtain ⟨unqueued, later⟩ := not_or.1 h
  have queued : wakeEntry? s p = none := by
    rw [← wakeEntry_isSome, Bool.not_eq_true, Option.isSome_eq_false_iff, Option.isNone_iff_eq_none] at unqueued
    exact unqueued
  cases scheduled : scheduleEntry? s p with
  | some e =>
    have sooner : offset < e.countdown := Nat.lt_of_not_le fun earlier => later ⟨e, scheduled, earlier⟩
    simp only [requestSchedule, queued, scheduled, if_pos sooner, removeSchedule, State.modAdm_modAdm]
  | none =>
    have alone : s.adm.schedule.filter (·.port ≠ p) = s.adm.schedule :=
      List.filter_eq_self.2 fun e he => decide_eq_true (schedEntry_none.1 scheduled e he)
    simp only [requestSchedule, queued, scheduled, State.modAdm, alone]

/-! ### PREPARE (R134, R135) -/

section
variable {g : Group} {cfg : GroupConfig} {s v : State} {lead : Nat}

theorem performPrepare_range (long : 120000 < lead) : performPrepare g lead s = (.range, [], s) := if_pos long

theorem performPrepare_checked (short : lead ≤ 120000) :
    performPrepare g lead s = checkedArm g (fun cfg => prepareGroup g cfg lead) s := if_neg (Nat.not_lt.2 short)

/-- The estimate by the member's state (R135). -/
theorem preparedEstimate_eq (r : PortRec) : preparedEstimate r =
    if r.state = .asleep then r.est.cold.getD r.cfg.coldWindow else r.est.resume.getD r.cfg.attemptWindow := by
  cases state : r.state <;> simp [preparedEstimate, state]

/-- The members to be woken and their offsets are those of the state before the group is armed, since arming restarts idle
timers alone (R134). -/
theorem prepareGroup_eq (g : Group) (cfg : GroupConfig) (lead : Nat) (s : State) :
    let start := armGroup g cfg (removeSchedulesOf g s)
    let waits := ((portList cfg.members).filter (needsWake s)).map fun p => (p, preparedEstimate (s.port p) + cfg.margin)
    let u := (waits.foldl (prepareMember g lead) start).modArm g fun a => { a with target := some lead }
    prepareGroup g cfg lead s = if lead = 0 then targetOver g u else u := by
  obtain ⟨-, port, -, -⟩ := armGroup_spec g cfg (removeSchedulesOf g s)
  have wakes : needsWake (armGroup g cfg (removeSchedulesOf g s)) = needsWake s := by
    funext q
    simp only [needsWake, port]
    rfl
  have estimate (q : Port) :
      preparedEstimate ((armGroup g cfg (removeSchedulesOf g s)).port q) = preparedEstimate (s.port q) := by
    simp only [preparedEstimate_eq, port]
    rfl
  unfold prepareGroup
  dsimp only
  rw [wakes]
  simp only [estimate]

/-! ### The target (R136) -/

theorem targetDue_iff :
    targetDue g s = true ↔ (s.group g).arm.armed = true ∧ (s.group g).arm.target = some 0 := by
  simp [targetDue]

theorem targetOver_poisoned (read : readGroup g s = (none, v)) :
    targetOver g s = v.modArm g fun a => { a with target := none } := by
  rw [targetOver, read]

/-- The members that are not READY are late (R136). -/
theorem targetOver_read (read : readGroup g s = (some cfg, v)) :
    let late := portsWhere fun q => hasPort cfg.members q && (v.port q).state ≠ .ready
    let u := v.modArm g fun a => { a with target := none }
    targetOver g s = if late = 0 then u else raise .prepareLate ⟨some g.val, 0, late⟩ u := by
  rw [targetOver, read]
  rfl

end

/-- Settles O47: PREPARE by its checks, the requests, and the target by what is read at it. -/
theorem groupIsPreparedForItsTarget : Obligations.GroupIsPreparedForItsTarget := by
  unfold Obligations.GroupIsPreparedForItsTarget
  intro g s h v
  have owed : v.owed = s.owed := readGroup_owed g s
  refine ⟨fun r rest accepts names => ?_, fun p offset => ?_, ?_⟩
  · intro lead answers
    have asked {st : Status} {u : State} (performs : performPrepare g lead s = (st, [], u)) : answers st (settle u) := by
      rw [show lead = r.lead from (lead_eq_natAt accepts).symm] at performs
      exact congrArg Host.Outcome.next (performGroup_asked accepts names performs)
    have settled {u : State} (kept : u.owed = s.owed) : settle u = u := settle_of_owed (kept.trans h.settled)
    refine ⟨fun long => ?_, fun short poisoned => ?_, fun c short handed => ?_⟩
    · exact settled (u := s) rfl ▸ asked (performPrepare_range long)
    · exact settled owed ▸
        asked ((performPrepare_checked short).trans (checkedArm_poisoned (Prod.ext poisoned rfl)))
    · have found : readGroup g s = (some c, v) := Prod.ext handed rfl
      refine ⟨fun st refusal => ?_, fun passes => ?_⟩
      · exact settled owed ▸ asked ((performPrepare_checked short).trans (checkedArm_refused found refusal))
      · intro start estimate plan u
        have taken := asked ((performPrepare_checked short).trans (checkedArm_taken found passes))
        rw [prepareGroup_eq] at taken
        simp only [preparedEstimate_eq] at taken
        refine ⟨fun later => ?_, fun now => ?_⟩
        · rw [if_neg later] at taken
          exact taken
        · rw [if_pos now] at taken
          exact taken
  · intro entry others
    split
    · rename_i ignored
      exact requestSchedule_ignored ignored
    · rename_i appended
      exact requestSchedule_appended appended
  · intro due u
    have expires {t : State} (hd : due) (comes : targetOver g s = t) (kept : t.owed = v.owed) :
        exec (.preparationTargetExpiry g) s = .next t := by
      subst comes
      rw [exec_preparationTargetExpiry, whileRunning_due_of_owed h (targetDue_iff.2 hd) (kept.trans owed)]
    refine ⟨fun waits => ?_, fun hd poisoned => expires hd (targetOver_poisoned (Prod.ext poisoned rfl)) rfl,
      fun c hd handed => ?_⟩
    · rw [exec_preparationTargetExpiry, whileRunning_notDue h (mt targetDue_iff.1 waits)]
    · intro late
      have comes := targetOver_read (Prod.ext handed rfl : readGroup g s = (some c, v))
      exact ⟨fun none => expires hd (comes.trans (if_pos none)) rfl,
        fun some => expires hd (comes.trans (if_neg some)) (raise_owed _ _ _)⟩

end Sys2Proof.Machine
end

section
/-! SUPPORT. The scrubber (R144), what a read of table memory comes to with its owner's effect (R9, R112, R137, R139 to R141), and
the classification where rules and class actions may be poisoned (R75, R76): O60. -/

namespace Sys2Proof.Machine

/-! ### The order of a pass (R144) -/

theorem scrubPass_length : scrubPass.length = 177 := by simp [scrubPass]

theorem scrubPass_portConfig : ∀ p : Port, scrubPass[p.val]? = some (.portConfig p) := by decide

theorem scrubPass_template : ∀ i : Fin 48, scrubPass[16 + i.val]? = some (.template i) := by decide

theorem scrubPass_rule : ∀ i : Fin 32, scrubPass[64 + i.val]? = some (.rule i) := by decide

theorem scrubPass_classAction : ∀ i : Fin 9, scrubPass[96 + i.val]? = some (.classAction i) := by decide

theorem scrubPass_group : ∀ g : Group, scrubPass[105 + g.val]? = some (.group g) := by decide

theorem scrubPass_proxy : ∀ i : Fin 64, scrubPass[113 + i.val]? = some (.proxy i) := by decide

theorem passDue_iff (s : State) : passDue s = true ↔ s.tbm.scrubPeriod = 0 ∧ s.tbm.scrubNext = none := by simp [passDue]

theorem visitNext_idle {s : State} (idle : s.tbm.scrubNext = none) : visitNext s = s := by rw [visitNext, idle]

/-- The state in which entry n of the pass is read: the pass stands at the entry behind it, and behind the last it has ended. -/
def State.scrubbedTo (s : State) (n : Nat) : State :=
  s.modTbm fun t => { t with scrubNext := if n < 176 then some (n + 1) else none }

theorem visitNext_entry {s : State} {n : Nat} {e : ScrubEntry} (next : s.tbm.scrubNext = some n)
    (entry : scrubPass[n]? = some e) : visitNext s = visitEntry e (s.scrubbedTo n) := by
  simp only [visitNext, next, entry, scrubPass_length, State.scrubbedTo, Nat.add_lt_iff_lt_sub_right, Nat.reduceSub]

/-- A visit is the read of its entry, and what that hands on is done. -/
theorem exec_scrubVisit_entry {s : State} {n : Nat} {e : ScrubEntry} (h : s.Settled) (next : s.tbm.scrubNext = some n)
    (entry : scrubPass[n]? = some e) : exec .scrubVisit s = .next (settle (visitEntry e (s.scrubbedTo n))) := by
  rw [exec_scrubVisit, whileRunning_of_running h.running, visitNext_entry next entry]

/-- A visit whose read hands nothing on. -/
theorem exec_scrubVisit_of_owed {s : State} {n : Nat} {e : ScrubEntry} (h : s.Settled) (next : s.tbm.scrubNext = some n)
    (entry : scrubPass[n]? = some e) (owed : (visitEntry e (s.scrubbedTo n)).owed = s.owed) :
    exec .scrubVisit s = .next (visitEntry e (s.scrubbedTo n)) := by
  rw [exec_scrubVisit_entry h next entry, settle_of_owed (owed.trans h.settled)]

/-! ### The owner of a configuration (R9) -/

/-- A read of an enabled port's configuration that hands nothing over faults the port with TABLE (R9). -/
theorem readPortConfigWithEffect_poisoned {p : Port} {s : State} (read : (readPortConfig p s).1 = none)
    (enabled : (s.port p).state ≠ .disabled) :
    readPortConfigWithEffect p s = (none, enterFaulted p .table (readPortConfig p s).2) := by
  rw [readPortConfigWithEffect, readPortConfig_eq read]
  exact congrArg (Prod.mk none) (if_pos (by simpa [PortRec.enabled, readPortConfig_port] using enabled))

/-- Any other read of a configuration has no effect on its owner. -/
theorem readPortConfigWithEffect_quiet {p : Port} {s : State}
    (h : (readPortConfig p s).1 ≠ none ∨ (s.port p).state = .disabled) :
    readPortConfigWithEffect p s = readPortConfig p s := by
  cases read : (readPortConfig p s).1 with
  | some c => rw [readPortConfigWithEffect, readPortConfig_eq read]
  | none =>
    have disabled := h.resolve_left (not_not.2 read)
    rw [readPortConfigWithEffect, readPortConfig_eq read]
    exact congrArg (Prod.mk none) (if_neg (by simp [PortRec.enabled, readPortConfig_port, disabled]))

/-! ### The owner of a group entry (R137) -/

/-- A read of a group's entry that hands it over has no effect on its owner. -/
theorem readGroup_handed {g : Group} {s : State} (read : (readGroup g s).1 ≠ none) : readGroup g s = readGroupEntry g s := by
  unfold readGroup at read ⊢
  split <;> rename_i entry
  · rw [entry] at read; exact absurd rfl read
  · exact entry.symm

theorem readGroup_fst (g : Group) (s : State) : (readGroup g s).1 = (readGroupEntry g s).1 := by
  unfold readGroup
  split <;> rename_i entry <;> rw [entry]

theorem readGroup_poisoned {g : Group} {s : State} (read : (readGroup g s).1 = none) :
    (readGroup g s).2 = groupPoisoned g (readGroupEntry g s).2 := by
  rw [readGroup_fst] at read
  unfold readGroup
  split <;> rename_i entry
  · rw [entry]
  · rw [entry] at read; cases read

/-- A pending trigger of a poisoned group ends as POISONED (R137); with none nothing has to end. -/
def endPoisoned (g : Group) (v : State) : State :=
  let x := (v.group g).slot
  if x.pending then
    raise .rendezvousIncomplete ⟨some g.val, 6, x.members⟩
      (dropRef x.cell (v.modGroup g fun y => { y with slot := x.ended .poisoned 0 x.members }))
  else v

/-- The trigger ends first, and the arm is cleared then (R137). -/
theorem groupPoisoned_eq (g : Group) (v : State) : groupPoisoned g v = clearArm g (endPoisoned g v) := by
  unfold groupPoisoned endPoisoned
  dsimp only
  split
  · rw [dropTrigger_eq rfl]
    simp only [dropRef_group, State.modGroup_group_same]
    rfl
  · rfl

theorem endPoisoned_group (g h : Group) (v : State) : (endPoisoned g v).group h =
    if h = g ∧ (v.group g).slot.pending then
      { v.group g with slot := (v.group g).slot.ended .poisoned 0 (v.group g).slot.members }
    else v.group h := by
  unfold endPoisoned
  dsimp only
  by_cases pending : (v.group g).slot.pending = true
  · rw [if_pos pending, (Quiet.raise _ _ _).group, dropRef_group, State.modGroup_group]
    simp [pending]
  · rw [if_neg pending, if_neg (fun h => pending h.2)]

theorem endPoisoned_group_ne {g h : Group} (v : State) (other : h ≠ g) : (endPoisoned g v).group h = v.group h := by
  rw [endPoisoned_group, if_neg fun same => other same.1]

theorem endPoisoned_arm (g : Group) (v : State) : ((endPoisoned g v).group g).arm = (v.group g).arm := by
  rw [endPoisoned_group]
  split <;> rfl

/-- The slot is then FREE. -/
theorem endPoisoned_pending (g : Group) (v : State) : ((endPoisoned g v).group g).slot.pending = false := by
  rw [endPoisoned_group]
  split
  · rfl
  · rename_i free
    exact Bool.eq_false_of_not_eq_true fun pending => free ⟨rfl, pending⟩

theorem endPoisoned_port (g : Group) (v : State) (q : Port) : (endPoisoned g v).port q = v.port q := by
  unfold endPoisoned
  dsimp only
  split
  · rw [(Quiet.raise _ _ _).port, dropRef_port, State.modGroup_port]
  · rfl

theorem endPoisoned_adm (g : Group) (v : State) : (endPoisoned g v).adm = v.adm := by
  unfold endPoisoned
  dsimp only
  split
  · rw [(Quiet.raise _ _ _).adm, dropRef_adm, State.modGroup_adm]
  · rfl

/-! ### The clearing of an arm beside a slot that is FREE (R132) -/

/-- With no pending trigger there is none to be refused, so the clearing touches the arm, the schedule list and the idle timers
of the READY members alone. -/
theorem clearArm_free {g : Group} {s : State} (armed : (s.group g).arm.armed = true)
    (free : (s.group g).slot.pending = false) :
    let u := clearArm g s
    let a := (s.group g).arm
    u = { s with ports := u.ports, groups := u.groups, adm := u.adm } ∧
    u.group g = { s.group g with
      arm := { a with armed := false, intact := false, hold := 0, target := none, members := 0, watched := 0 } } ∧
    (∀ h : Group, h ≠ g → u.group h = s.group h) ∧
    (∀ q : Port, u.port q = { s.port q with
      idle := if hasPort a.members q = true ∧ (s.port q).state = .ready then 0 else (s.port q).idle }) ∧
    u.adm = { s.adm with schedule := s.adm.schedule.filter (·.group ≠ g) } := by
  intro u a
  let t := removeSchedulesOf g (s.modArm g fun a =>
    { a with armed := false, intact := false, hold := 0, target := none, members := 0, watched := 0 })
  let idle := (portList a.members).foldl (fun s p => restartIdle p s) t
  obtain ⟨port, idled⟩ : (∀ q, idle.port q = _) ∧ idle = { t with ports := idle.ports } := fold_idle (portList a.members) t
  have group (h : Group) : idle.group h = t.group h := by rw [idled]; rfl
  have own : t.group g = { s.group g with
      arm := { a with armed := false, intact := false, hold := 0, target := none, members := 0, watched := 0 } } := by
    simp [t, removeSchedulesOf, State.modArm, a]
  have cleared : u = idle := by
    have unstrict : (idle.group g).slot.pending = false := by rw [group, own]; exact free
    show clearArm g s = idle
    unfold clearArm
    rw [if_pos armed]
    exact if_neg (by rw [unstrict, Bool.false_and]; decide)
  rw [cleared]
  refine ⟨by rw [idled]; rfl, (group g).trans own, fun h other => ?_, fun q => ?_, by rw [idled]; rfl⟩
  · rw [group]
    simp [t, removeSchedulesOf, State.modArm, State.modGroup_group_ne _ _ other]
  · rw [port]
    simp only [portList_mem]
    rfl

/-! ### The owner of a proxy record (R112) -/

/-- A poisoned record becomes free, its mark clear, and is counted as discarded (R112). -/
theorem discardProxy_proxyIndex (p : Port) (i : Fin 4) (v : State) : discardProxy (proxyIndex p i) v =
    (v.modPort p fun r => { r with
      proxies := r.proxies.set i { occupied := false, age := 0 }
      counts := { r.counts with discarded := bump r.counts.discarded } }).modTbm
        fun m => { m with proxy := m.proxy.set (proxyIndex p i) { m.proxy[proxyIndex p i] with poison := false } } := by
  unfold discardProxy
  simp only [proxyPort_proxyIndex, proxySlot_proxyIndex]
  rfl

/-- A read of an occupied record is one of its entry, with its owner's effect (R103, R112). -/
theorem readProxy_occupied {p : Port} {i : Fin 4} {s : State} (occupied : (s.port p).proxies[i].occupied = true) :
    let e := s.tbm.proxy[proxyIndex p i]
    let v := noteFinding .proxy (proxyIndex p i).val e.find
      (s.modTbm fun m => { m with proxy := m.proxy.set (proxyIndex p i) e.afterRead })
    readProxy (proxyIndex p i) s = (e.handed, if e.find.isPoisoned then discardProxy (proxyIndex p i) v else v) :=
  if_pos ((proxyIndex_occupied s p i).trans occupied)

theorem Protected.handed_none_iff {α : Type} {n : Nat} {e : Protected α n} : e.handed = none ↔ e.find.isPoisoned = true := by
  unfold Protected.handed
  split <;> simp_all

/-! ### Classification (R75, R76) -/

/-- The state after the reads of the rules before rule n. -/
def State.rulesRead (s : State) (n : Nat) : State := ((List.finRange 32).take n).foldl (fun u i => (readRule i u).2) s

/-- What CLS records for a class, by what the read of its class action hands over (R76): DROP with no activity where that
is nothing. -/
def classifiedAs (cls : FrameClass) (key seq : Option Nat) (u : State) : Classified × State :=
  let a := readClassAction cls.index u
  ({ cls := cls, keyOffset := key, seqOffset := seq, action := (a.1.map (·.action)).getD .drop,
     activity := (a.1.map (·.activity)).getD false }, a.2)

section
variable {up : Bool} {scope : Option Port} {bytes : List Byte} {s u : State}

theorem classify_of_rule {r : Rule} (search : searchRules up scope bytes (List.finRange 32) s = (some r, u)) :
    classify up scope bytes s = classifiedAs r.cls r.keyOffset r.seqOffset u := by
  unfold classify classifiedAs
  rw [search]
  dsimp only
  cases (readClassAction r.cls.index u).1 <;> rfl

theorem classify_of_none (search : searchRules up scope bytes (List.finRange 32) s = (none, u)) :
    classify up scope bytes s = classifiedAs .bulk none none u := by
  unfold classify classifiedAs
  rw [search]
  dsimp only
  cases (readClassAction FrameClass.bulk.index u).1 <;> rfl

/-- Rule i takes the frame: it is handed over, fits and matches (R74, R75). -/
def Rule.taking (up : Bool) (scope : Option Port) (bytes : List Byte) (s : State) (i : Fin 32) : Prop :=
  ∃ r, s.tbm.rule[i].handed = some r ∧ (r.fits up scope && r.matchesFrame bytes) = true

theorem Rule.taking_iff {i : Fin 32} : Rule.taking up scope bytes s i ↔
    let r := s.tbm.rule[i].val
    s.tbm.rule[i].poison = false ∧ .twoBad ∉ s.tbm.rule[i].words.toList ∧ r.enabled = true ∧
      (r.direction = .both ∨ r.direction = .up ∧ up = true ∨ r.direction = .down ∧ up = false) ∧
      (∀ p ∈ scope, hasPort r.scope p = true) ∧ r.offset + r.length ≤ bytes.length ∧
      BitVec.ofNat 32 (natAt bytes r.offset r.length) &&& r.mask = r.value &&& r.mask := by
  have handed : Rule.taking up scope bytes s i ↔ (s.tbm.rule[i].poison = false ∧ .twoBad ∉ s.tbm.rule[i].words.toList) ∧
      (s.tbm.rule[i].val.fits up scope && s.tbm.rule[i].val.matchesFrame bytes) = true := by
    unfold Rule.taking
    rw [Protected.handed_eq]
    split
    · rename_i sound
      simp only [Option.some.injEq, exists_eq_left', and_iff_right sound]
    · rename_i unsound
      exact ⟨fun ⟨_, found, _⟩ => (nomatch found), fun ⟨sound, _⟩ => absurd sound unsound⟩
  rw [handed, Bool.and_eq_true, Rule.fits_iff, Rule.matchesFrame_iff]
  simp only [and_assoc]

/-- The search ends at the first rule that takes the frame, and has read it and those before it alone (R75). -/
theorem searchRules_first {i : Fin 32} (taken : Rule.taking up scope bytes s i)
    (first : ∀ j, j < i → ¬ Rule.taking up scope bytes s j) :
    searchRules up scope bytes (List.finRange 32) s = (some s.tbm.rule[i].val, s.rulesRead (i.val + 1)) := by
  obtain ⟨before, after, split, earlier⟩ := finRange_split i
  have read : (List.finRange 32).take (i.val + 1) = before ++ [i] := by
    have at_i : i.val = before.length := by
      have : (List.finRange 32)[before.length]? = some i := by rw [split]; simp
      obtain ⟨inside, same⟩ := List.getElem?_eq_some_iff.1 this
      rw [← same, List.getElem_finRange]
      rfl
    rw [split, at_i, List.take_append]
    simp
  obtain ⟨-, finds⟩ := searchRules_eq up scope bytes s (List.finRange 32) s (List.nodup_finRange 32) fun _ _ => rfl
  rw [finds before i after split taken fun j hj => first j (earlier j hj), State.rulesRead, read]

theorem searchRules_untaken (untaken : ∀ i, ¬ Rule.taking up scope bytes s i) :
    searchRules up scope bytes (List.finRange 32) s = (none, s.rulesRead 32) := by
  obtain ⟨misses, -⟩ := searchRules_eq up scope bytes s (List.finRange 32) s (List.nodup_finRange 32) fun _ _ => rfl
  rw [misses fun i _ => untaken i, State.rulesRead, List.take_of_length_le (by simp)]

end

/-! ### The reads as the statement says them -/

/-- A read of a group's entry, with what a poisoned one makes of the trigger and the arm (R137). -/
theorem readGroup_readsAs (g : Group) (s : State) :
    ReadsAs s.tbm.group[g] 5 g.val (fun e u => u.modTbm fun m => { m with group := m.group.set g e }) s
      ((readGroup g s).1, (readGroupEntry g s).2) := by
  rw [readGroup_fst]
  exact ReadsAs.of (t := .group) (by simp [State.modTbm])

theorem readProxy_readsAs (p : Port) (i : Fin 4) (s : State) :
    let j := proxyIndex p i
    let e := s.tbm.proxy[j]
    ReadsAs e 10 j.val (fun e u => u.modTbm fun m => { m with proxy := m.proxy.set j e }) s
      (e.handed, noteFinding .proxy j.val e.find (s.modTbm fun m => { m with proxy := m.proxy.set j e.afterRead })) :=
  ReadsAs.of (t := .proxy) (put := fun e u => u.modTbm fun m => { m with proxy := m.proxy.set (proxyIndex p i) e })
    (by simp [State.modTbm])

/-- Settles O60: a visit by the entry of the pass, each table by `ReadsAs.of` with its owner's effect, classification by the
first rule that is handed over and takes the frame. -/
theorem scrubberReadsEveryEntryOnceAPass : Obligations.ScrubberReadsEveryEntryOnceAPass := by
  unfold Obligations.ScrubberReadsEveryEntryOnceAPass
  intro s
  refine ⟨fun h => ⟨fun elapsed ended => ?_, fun runs => ?_, fun idle => ?_, fun n next => ?_⟩, fun p => ?_, fun i => ?_,
    fun i => ?_, fun i => ?_, fun g => ⟨(readGroupEntry g s).2, readGroup_readsAs g s, fun handed => ?_, fun poisoned => ?_⟩,
    fun p i => ⟨fun free => ?_, fun occupied => ?_⟩, fun up scope bytes => ?_, fun _ _ => rfl, fun _ _ => rfl,
    fun _ _ => rfl, fun _ _ => rfl, fun _ _ => rfl, fun _ _ => rfl⟩
  · rw [exec_scrubPassStart, whileRunning_due_of_owed h ((passDue_iff s).2 ⟨elapsed, ended⟩) rfl]
    rfl
  · rw [exec_scrubPassStart, whileRunning_notDue h]
    rw [passDue_iff]
    rintro ⟨elapsed, ended⟩
    exact runs.elim (· elapsed) (· ended)
  · rw [exec_scrubVisit, whileRunning_of_owed h.running (by rw [visitNext_idle idle, h.settled]), visitNext_idle idle]
  · intro u
    have reads {e : ScrubEntry} {w : State} (entry : scrubPass[n]? = some e) (comes : visitEntry e u = w)
        (owed : w.owed = u.owed) : exec .scrubVisit s = .next w := by
      subst comes
      exact exec_scrubVisit_of_owed h next entry owed
    refine ⟨fun p at_n => ⟨fun poisoned enabled => ?_, fun quiet => ?_⟩, fun i at_n => ?_, fun i at_n => ?_, fun i at_n => ?_,
      fun g at_n => ?_, fun i at_n => ?_⟩
    · subst at_n
      rw [exec_scrubVisit_entry h next (scrubPass_portConfig p)]
      exact congrArg (fun x => Host.Outcome.next (settle x.2)) (readPortConfigWithEffect_poisoned poisoned enabled)
    · subst at_n
      exact reads (scrubPass_portConfig p) (congrArg Prod.snd (readPortConfigWithEffect_quiet quiet)) (readPortConfig_owed p u)
    · exact reads (at_n ▸ scrubPass_template i) rfl (readTemplate_owed i u)
    · exact reads (at_n ▸ scrubPass_rule i) rfl (readRule_owed i u)
    · exact reads (at_n ▸ scrubPass_classAction i) rfl (readClassAction_owed i u)
    · exact reads (at_n ▸ scrubPass_group g) rfl (readGroup_owed g u)
    · exact reads (at_n ▸ scrubPass_proxy i) rfl (readProxy_owed i u)
  · exact ReadsAs.of (t := .portConfig) (by simp [State.modTbm])
  · exact ReadsAs.of (t := .template) (by simp [State.modTbm])
  · exact ReadsAs.of (t := .rule) (by simp [State.modTbm])
  · exact ReadsAs.of (t := .classAction) (by simp [State.modTbm])
  · rw [readGroup_handed handed]
  · intro x a ended u
    have quiet := Quiet.readGroupEntry g s
    have ends : ended = endPoisoned g (readGroupEntry g s).2 := by
      simp only [ended, endPoisoned, quiet.group, x, Slot.ended]
    have cleared : u = clearArm g ended := by rw [ends, ← groupPoisoned_eq]; exact readGroup_poisoned poisoned
    have arm : (ended.group g).arm = a := by rw [ends, endPoisoned_arm, quiet.group]
    refine ⟨fun unarmed => ?_, fun armed => ?_⟩
    · rw [cleared, clearArm_unarmed (by rw [arm]; exact unarmed)]
    · obtain ⟨rest, own, others, ports, adm⟩ := clearArm_free (by rw [arm]; exact armed)
        (show (ended.group g).slot.pending = false by rw [ends]; exact endPoisoned_pending g _)
      rw [← cleared, arm] at own ports
      rw [← cleared] at rest others adm
      refine ⟨rest, own, fun h other => ?_, fun q => ?_, ?_⟩
      · rw [others h other, ends, endPoisoned_group_ne _ other, quiet.group]
      · rw [ports, ends, endPoisoned_port, quiet.port]
      · rw [adm, ends, endPoisoned_adm, quiet.adm]
  · exact readProxy_free free
  · have read := readProxy_occupied occupied
    refine ⟨_, by rw [read]; exact readProxy_readsAs p i s, fun handed => ?_, fun poisoned => ?_⟩
    · rw [read] at handed ⊢
      exact if_neg (mt Protected.handed_none_iff.2 handed)
    · rw [read] at poisoned ⊢
      exact (if_pos (Protected.handed_none_iff.1 poisoned)).trans (discardProxy_proxyIndex p i _)
  · intro takes after result
    have same (i : Fin 32) : takes i ↔ Rule.taking up scope bytes s i := Rule.taking_iff.symm
    refine ⟨fun i taken first => ?_, fun untaken => ?_⟩
    · exact classify_of_rule (searchRules_first ((same i).1 taken) fun j hj => mt (same j).2 (first j hj))
    · exact classify_of_none (searchRules_untaken fun i => mt (same i).2 (untaken i))

end Sys2Proof.Machine
end

section
/-! SUPPORT. An entry with one field set, field by field (Tables 1-2, 1-3, 4-1, 4-3, 7-2): every other field stays. -/

namespace Sys2Proof.Machine

/-! ### The fields that are carried as codes -/

theorem boolNat_ofNat {v : Nat} (small : v ≤ 1) : boolNat (v != 0) = v := by
  obtain rfl | rfl := Nat.le_one_iff_eq_zero_or_eq_one.1 small <;> rfl

theorem offsetNat_offsetOf (v : Nat) : offsetNat (offsetOf v) = v := by
  unfold offsetNat offsetOf
  split <;> simp_all

theorem ReadinessMode.code_ofNat {v : Nat} (small : v ≤ 1) :
    (if v = 0 then ReadinessMode.sign else .anyFrame).code = v := by
  obtain rfl | rfl := Nat.le_one_iff_eq_zero_or_eq_one.1 small <;> rfl

theorem ConfirmMode.code_ofNat {v : Nat} (small : v ≤ 1) : (if v = 0 then ConfirmMode.ack else .silence).code = v := by
  obtain rfl | rfl := Nat.le_one_iff_eq_zero_or_eq_one.1 small <;> rfl

theorem Policy.code_ofNat {v : Nat} (small : v ≤ 1) : (if v = 0 then Policy.partialSet else .abandon).code = v := by
  obtain rfl | rfl := Nat.le_one_iff_eq_zero_or_eq_one.1 small <;> rfl

theorem methodCode_ofCode {v : Nat} (small : v ≤ 2) : methodCode (some (Method.ofCode v)) = v := by
  interval_cases v <;> rfl

theorem Direction.code_ofCode {v : Nat} (small : v ≤ 2) : (Direction.ofCode v).code = v := by
  interval_cases v <;> rfl

theorem Action.code_ofCode {v : Nat} (small : v ≤ 3) : (Action.ofCode v).code = v := by
  interval_cases v <;> rfl

theorem FrameClass.index_ofCode {v : Nat} (small : v ≤ 8) : (FrameClass.ofCode v).index.val = v := by
  interval_cases v <;> rfl

/-! ### The entries -/

section
variable {n v size : Nat}

theorem PortConfig.fields_setField (field : Table.portConfig.fieldSizes[n]? = some size) (fits : v < 256 ^ size)
    (encoded : Table.portConfig.encodes n v = true) (c : PortConfig) : (c.setField n v).fields = c.fields.set n v := by
  unfold PortConfig.setField
  split
  case h_1 =>
    obtain rfl := Option.some.inj field
    simpa [PortConfig.fields] using fits
  case h_6 => simp [PortConfig.fields, ReadinessMode.code_ofNat (of_decide_eq_true encoded)]
  case h_7 => simp [PortConfig.fields, methodCode_ofCode (of_decide_eq_true encoded)]
  case h_14 => simp [PortConfig.fields, ConfirmMode.code_ofNat (of_decide_eq_true encoded)]
  case h_21 =>
    have named : n < 20 := (List.getElem?_eq_some_iff.1 field).1
    grind
  all_goals rfl

theorem Rule.fields_setField (field : Table.rule.fieldSizes[n]? = some size) (fits : v < 256 ^ size)
    (encoded : Table.rule.encodes n v = true) (e : Rule) : (e.setField n v).fields = e.fields.set n v := by
  unfold Rule.setField
  split
  case h_1 => simp [Rule.fields, boolNat_ofNat (of_decide_eq_true encoded)]
  case h_2 => simp [Rule.fields, Direction.code_ofCode (of_decide_eq_true encoded)]
  case h_3 =>
    obtain rfl := Option.some.inj field
    simpa [Rule.fields] using fits
  case h_6 =>
    obtain rfl := Option.some.inj field
    simpa [Rule.fields] using fits
  case h_7 =>
    obtain rfl := Option.some.inj field
    simpa [Rule.fields] using fits
  case h_8 => simp [Rule.fields, FrameClass.index_ofCode (of_decide_eq_true encoded)]
  case h_9 => simp [Rule.fields, offsetNat_offsetOf]
  case h_10 => simp [Rule.fields, offsetNat_offsetOf]
  case h_11 =>
    have named : n < 10 := (List.getElem?_eq_some_iff.1 field).1
    grind
  all_goals rfl

theorem ClassAction.fields_setField (field : Table.classAction.fieldSizes[n]? = some size)
    (encoded : Table.classAction.encodes n v = true) (a : ClassAction) : (a.setField n v).fields = a.fields.set n v := by
  unfold ClassAction.setField
  split
  case h_1 => simp [ClassAction.fields, Action.code_ofCode (of_decide_eq_true encoded)]
  case h_2 => simp [ClassAction.fields, boolNat_ofNat (of_decide_eq_true encoded)]
  case h_3 =>
    have named : n < 2 := (List.getElem?_eq_some_iff.1 field).1
    grind

theorem GroupConfig.fields_setField (field : Table.group.fieldSizes[n]? = some size) (fits : v < 256 ^ size)
    (encoded : Table.group.encodes n v = true) (c : GroupConfig) : (c.setField n v).fields = c.fields.set n v := by
  unfold GroupConfig.setField
  split
  case h_1 =>
    obtain rfl := Option.some.inj field
    simpa [GroupConfig.fields] using fits
  case h_2 =>
    obtain rfl := Option.some.inj field
    simpa [GroupConfig.fields] using fits
  case h_3 => simp [GroupConfig.fields, Policy.code_ofNat (of_decide_eq_true encoded)]
  case h_4 => simp [GroupConfig.fields, boolNat_ofNat (of_decide_eq_true encoded)]
  case h_8 => simp [GroupConfig.fields, boolNat_ofNat (of_decide_eq_true encoded)]
  case h_9 =>
    have named : n < 8 := (List.getElem?_eq_some_iff.1 field).1
    grind
  all_goals rfl

end

end Sys2Proof.Machine
end

section
/-! SUPPORT. What a write of one field of an entry comes to, as the entry would stand (R2, R3, R28, R45, R52, R62, R73, R76, R116,
R117, R154): the refusal, or what is stored and its effects. -/

namespace Sys2Proof.Machine

theorem outside_iff (lo hi v : Nat) : outside lo hi v = true ↔ v < lo ∨ hi < v := by simp [outside]

/-- A refusal that rests on one test. -/
theorem refusal_of_test {bad : Bool} {outOfRange : Prop} {refusal : Option Status}
    (rests : refusal = if bad then some .range else none) (tests : bad = true ↔ outOfRange) :
    (outOfRange → refusal = some .range) ∧ (¬ outOfRange → refusal = none) :=
  ⟨fun out => rests.trans (if_pos (tests.2 out)), fun inside => rests.trans (if_neg (mt tests.1 inside))⟩

/-! ### PORT_CONFIG (R2, R3, R45) -/

/-- Field n of a configuration is out of its range, as the entry stands (R2, R3). -/
def PortConfig.outOfRange (c : PortConfig) (n : Nat) : Prop :=
  (n = 1 ∨ n = 2 ∨ n = 3) ∧ (1000 < c.standby ∨ 1000 < c.active ∨ 1000 < c.inrush ∨
      c.active < c.standby ∨ c.inrush < c.active) ∨
    n = 4 ∧ (c.holdLimit < 1 ∨ 32 < c.holdLimit) ∨ n = 7 ∧ (c.attempts < 1 ∨ 8 < c.attempts) ∨
    n = 8 ∧ (c.attemptWindow < 50 ∨ 65535 < c.attemptWindow) ∨ n = 9 ∧ 10000 < c.spacing ∨
    n = 10 ∧ (c.coldWindow < 500 ∨ 65535 < c.coldWindow) ∨ n = 11 ∧ (c.offHold < 100 ∨ 5000 < c.offHold) ∨
    n = 12 ∧ (c.pulseWidth < 10 ∨ 2559 < c.pulseWidth) ∨ n = 14 ∧ (c.confirmWindow < 50 ∨ 10000 < c.confirmWindow) ∨
    n = 18 ∧ (c.missLimit < 1 ∨ 15 < c.missLimit)

/-- A field is refused with RANGE or not at all (R2, R3). -/
theorem PortConfig.fieldRefusal_judges (c : PortConfig) (n : Nat) :
    (c.outOfRange n → c.fieldRefusal n = some .range) ∧ (¬ c.outOfRange n → c.fieldRefusal n = none) := by
  refine refusal_of_test rfl ?_
  unfold PortConfig.outOfRange
  split
  case h_13 => grind
  all_goals simp [outside, or_assoc]

/-- A field just set stands as it was carried; a draw is judged with the two others (R2). -/
theorem PortConfig.outOfRange_setField (old : PortConfig) (n v : Nat) :
    let c := old.setField n v
    c.outOfRange n ↔ (n = 1 ∨ n = 2 ∨ n = 3) ∧ (1000 < c.standby ∨ 1000 < c.active ∨ 1000 < c.inrush ∨
        c.active < c.standby ∨ c.inrush < c.active) ∨
      n = 4 ∧ (v < 1 ∨ 32 < v) ∨ n = 7 ∧ (v < 1 ∨ 8 < v) ∨ n = 8 ∧ (v < 50 ∨ 65535 < v) ∨ n = 9 ∧ 10000 < v ∨
      n = 10 ∧ (v < 500 ∨ 65535 < v) ∨ n = 11 ∧ (v < 100 ∨ 5000 < v) ∨ n = 12 ∧ (v < 10 ∨ 2559 < v) ∨
      n = 14 ∧ (v < 50 ∨ 10000 < v) ∨ n = 18 ∧ (v < 1 ∨ 15 < v) := by
  refine or_congr Iff.rfl (or_congr ?_ (or_congr ?_ (or_congr ?_ (or_congr ?_ (or_congr ?_ (or_congr ?_ (or_congr ?_
    (or_congr ?_ ?_))))))))
  all_goals
    refine and_congr_right fun field => ?_
    subst field
    exact Iff.rfl

/-- The record of a port after the effect of a taken write of field n of its configuration (R3, R45); `present` says that its
PROBE template is present. -/
def PortRec.afterField (n : Nat) (present : Bool) (x : PortRec) : PortRec :=
  { x with
    idle := if n = 15 ∧ x.state = .ready then 0 else x.idle
    deepIdle := if n = 16 ∧ x.state = .paused then 0 else x.deepIdle
    probe :=
      if n ≠ 17 then x.probe
      else if x.cfg.probeInterval = 0 then { x.probe with
        running := false, countdown := 0, outstanding := none, misses := 0, mismatches := 0, capture := none }
      else if x.state = .paused ∧ (x.probe.running = true ∨ present = true) then
        { x.probe with running := true, countdown := x.cfg.probeInterval }
      else x.probe
    proxies := if n = 19 ∧ x.cfg.ageLimit = 0 then Vector.replicate 4 ProxyControl.free else x.proxies }

/-- Probing is loaded where it runs or may run (R45). -/
theorem reloadProbing_eq (p : Port) (s : State) : reloadProbing p s = s.modPort p fun x =>
    { x with probe :=
        if x.state = .paused ∧ x.cfg.probeInterval ≠ 0 ∧ (x.probe.running = true ∨ templatePresent s p .probe = true) then
          { x.probe with running := true, countdown := x.cfg.probeInterval }
        else x.probe } := by
  unfold reloadProbing
  split
  · rename_i reloads
    refine modPort_congr ?_
    rw [if_pos (by simpa [and_assoc] using reloads)]
  · rename_i stays
    refine (State.modPort_id s ?_).symm
    rw [if_neg (by simpa [and_assoc] using stays)]

theorem portConfigFieldEffect_eq (p : Port) (s : State) (n : Nat) :
    portConfigFieldEffect p s n = s.modPort p (PortRec.afterField n (templatePresent s p .probe)) := by
  unfold portConfigFieldEffect
  dsimp only
  split
  case h_1 =>
    refine modPort_congr ?_
    unfold PortRec.afterField
    split <;> simp_all
  case h_2 =>
    split <;> rename_i paused
    · refine modPort_congr ?_
      simp [PortRec.afterField, paused]
    · refine (State.modPort_id s ?_).symm
      simp [PortRec.afterField, paused]
  case h_3 =>
    split <;> rename_i interval
    · rw [stopProbing, State.modProbe, State.modPort_modPort]
      refine modPort_congr ?_
      simp [PortRec.afterField, interval]
    · rw [reloadProbing_eq]
      refine modPort_congr ?_
      simp [PortRec.afterField, interval]
  case h_4 =>
    split <;> rename_i limit
    · refine modPort_congr ?_
      simp [PortRec.afterField, limit]
    · refine (State.modPort_id s ?_).symm
      simp [PortRec.afterField, limit]
  case h_5 =>
    refine (State.modPort_id s ?_).symm
    simp_all [PortRec.afterField]

section
variable {p : Port} {n : Nat} {c : PortConfig} {s : State} {st : Status}

theorem writePortFields_fixed (fixed : n < 15) (enabled : (s.port p).state ≠ .disabled) :
    writePortFields p [n] c s = (.state, s) := if_pos (by simp [isFixedField, fixed, enabled])

/-- The field may be written in the port's state (R2, R3). -/
theorem writePortFields_open (h : 15 ≤ n ∨ (s.port p).state = .disabled) : writePortFields p [n] c s =
    match [n].findSome? c.fieldRefusal with
    | some status => (status, s)
    | none => (.ok, [n].foldl (portConfigFieldEffect p) ((writePortConfig p c.clamped s).modPort p fun r =>
        { r with cfg := c.clamped, est := if [n].any isFixedField then Estimates.invalid else r.est })) :=
  if_neg (by rcases h with h | h <;> simp [isFixedField, h])

theorem writePortFields_refused (h : 15 ≤ n ∨ (s.port p).state = .disabled) (refusal : c.fieldRefusal n = some st) :
    writePortFields p [n] c s = (st, s) := by
  rw [writePortFields_open h, List.findSome?_singleton, refusal]

/-- A write that is taken stores the entry, replaces the copy, and has the effect of its field (R2, R3, R45). -/
theorem writePortFields_taken (h : 15 ≤ n ∨ (s.port p).state = .disabled) (passes : c.fieldRefusal n = none) :
    writePortFields p [n] c s = (.ok, (writePortConfig p c.clamped s).modPort p fun x =>
      PortRec.afterField n (templatePresent s p .probe)
        { x with cfg := c.clamped, est := if n < 15 then Estimates.invalid else x.est }) := by
  rw [writePortFields_open h, List.findSome?_singleton, passes]
  dsimp only [List.foldl]
  rw [portConfigFieldEffect_eq, State.modPort_modPort]
  simp [isFixedField, templatePresent, writePortConfig]

end

/-! ### TEMPLATE (R28, R45) -/

theorem templateRefused_iff (i : Fin 48) (t : Template) : templateRefused i t = true ↔
    128 < t.length ∨ 126 < t.seqOffset ∨ i.val % 3 = 2 ∧ max t.length 64 < t.seqOffset + 2 := by
  simp [templateRefused, Config.minFrame, or_assoc]

/-- Entry 3p + 2 is the PROBE template of port p (R28), present once it is written with a length. -/
theorem templatePresent_writeTemplate {i : Fin 48} (probe : i.val % 3 = 2) (t : Template) (s : State) :
    templatePresent (writeTemplate i t s) (templatePort i) .probe = (t.length != 0) := by
  have index : templateIndex (templatePort i) .probe = i := by
    ext
    simp only [templateIndex, templatePort]
    omega
  simp [templatePresent, index, writeTemplate, Protected.fresh]

section
variable {i : Fin 48} {t : Template} {s : State}

/-- A write of a present PROBE template starts probing at a PAUSED port with an interval where none runs (R45). -/
def Template.starts (t : Template) (i : Fin 48) (x : PortRec) : Prop :=
  i.val % 3 = 2 ∧ t.length ≠ 0 ∧ x.state = .paused ∧ x.cfg.probeInterval ≠ 0 ∧ x.probe.running = false

theorem writeTemplateEntry_refused (bad : templateRefused i t = true) : writeTemplateEntry i t s = (.range, s) := if_pos bad

theorem writeTemplateEntry_taken (sound : ¬ templateRefused i t = true) : writeTemplateEntry i t s = (.ok,
    if i.val % 3 = 2 && t.length != 0 && !(s.port (templatePort i)).probe.running then
      reloadProbing (templatePort i) (writeTemplate i t s)
    else writeTemplate i t s) := if_neg sound

theorem writeTemplateEntry_starts (sound : ¬ templateRefused i t = true) (starts : t.starts i (s.port (templatePort i))) :
    writeTemplateEntry i t s = (.ok, (writeTemplate i t s).modPort (templatePort i) fun y =>
      { y with probe := { y.probe with running := true, countdown := y.cfg.probeInterval } }) := by
  obtain ⟨probe, long, paused, interval, stopped⟩ := starts
  rw [writeTemplateEntry_taken sound, if_pos (by simp [probe, long, stopped]), reloadProbing_eq,
    templatePresent_writeTemplate probe]
  refine congrArg (Prod.mk _) (modPort_congr ?_)
  have port : (writeTemplate i t s).port (templatePort i) = s.port (templatePort i) := rfl
  simp only [port]
  rw [if_pos ⟨paused, interval, .inr (by simpa using long)⟩]

theorem writeTemplateEntry_stored (sound : ¬ templateRefused i t = true)
    (quiet : ¬ t.starts i (s.port (templatePort i))) : writeTemplateEntry i t s = (.ok, writeTemplate i t s) := by
  rw [writeTemplateEntry_taken sound]
  split
  · rename_i loads
    obtain ⟨⟨probe, long⟩, stopped⟩ : (i.val % 3 = 2 ∧ t.length ≠ 0) ∧ (s.port (templatePort i)).probe.running = false := by
      simpa using loads
    rw [reloadProbing_eq]
    refine congrArg (Prod.mk _) (State.modPort_id _ ?_)
    have port : (writeTemplate i t s).port (templatePort i) = s.port (templatePort i) := rfl
    simp only [port]
    rw [if_neg fun ⟨paused, interval, _⟩ => quiet ⟨probe, long, paused, interval, stopped⟩]
  · rfl

end

/-! ### RULE and CLASS_ACTION (R73, R76) -/

theorem ruleRefused_iff (e : Rule) : ruleRefused e = true ↔
    255 < e.offset ∨ e.length < 1 ∨ 4 < e.length ∨ 2 ^ (8 * e.length) ≤ e.mask.toNat ∨
      (∃ o ∈ e.keyOffset, 254 < o) ∨ (∃ o ∈ e.seqOffset, 254 < o) ∨ ¬ legalDirection e.cls e.direction = true := by
  simp [ruleRefused, outside, or_assoc, Option.any_eq_true]

theorem writeRuleEntry_refused {e : Rule} (i : Fin 32) (s : State) (bad : ruleRefused e = true) :
    writeRuleEntry i e s = (.range, s) := if_pos bad

theorem writeRuleEntry_taken {e : Rule} (i : Fin 32) (s : State) (sound : ¬ ruleRefused e = true) :
    writeRuleEntry i e s = (.ok, writeRule i e s) := if_neg sound

theorem writeClassActionEntry_refused {a : ClassAction} {i : Fin 9} (s : State) (answers : a.action = .answerOrWake)
    (other : i ≠ 3) : writeClassActionEntry i a s = (.range, s) :=
  if_pos (Bool.and_eq_true_iff.2 ⟨decide_eq_true answers, decide_eq_true other⟩)

theorem writeClassActionEntry_taken {a : ClassAction} {i : Fin 9} (s : State) (h : a.action ≠ .answerOrWake ∨ i = 3) :
    writeClassActionEntry i a s = (.ok, writeClassAction i a s) := by
  refine if_neg ?_
  rcases h with other | rfl
  · simp [other]
  · simp [FrameClass.index]

/-! ### GROUP (R116, R117) -/

theorem groupAddressRefused_iff (g : Group) (c : GroupConfig) (s : State) : groupAddressRefused g c s = true ↔
    c.enabled = true ∧ (isGroupAddr c.address = false ∨ c.address = broadcast ∨
      ∃ h : Group, h ≠ g ∧ s.tbm.group[h].val.enabled = true ∧ s.tbm.group[h].poison = false ∧
        s.tbm.group[h].val.address = c.address) := by
  have groups : ∀ g : Group, g ∈ allGroups := List.mem_finRange
  simp [groupAddressRefused, groupServes, groups, or_assoc, and_assoc]

/-- Field n of a group's entry is out of its range, as the entry stands (R116). -/
def GroupConfig.outOfRange (c : GroupConfig) (n : Nat) : Prop :=
  n = 4 ∧ (c.window < 100 ∨ 60000 < c.window) ∨ n = 5 ∧ 5000 < c.margin ∨ n = 6 ∧ (c.armHold < 1 ∨ 600 < c.armHold)

theorem GroupConfig.fieldRefusal_judges (c : GroupConfig) (n : Nat) :
    (c.outOfRange n → c.fieldRefusal n = some .range) ∧ (¬ c.outOfRange n → c.fieldRefusal n = none) := by
  refine refusal_of_test rfl ?_
  unfold GroupConfig.outOfRange
  split
  case h_4 => grind
  all_goals simp [outside]

theorem GroupConfig.outOfRange_setField (old : GroupConfig) (n v : Nat) : (old.setField n v).outOfRange n ↔
    n = 4 ∧ (v < 100 ∨ 60000 < v) ∨ n = 5 ∧ 5000 < v ∨ n = 6 ∧ (v < 1 ∨ 600 < v) := by
  refine or_congr ?_ (or_congr ?_ ?_)
  all_goals
    refine and_congr_right fun field => ?_
    subst field
    exact Iff.rfl

/-- A group's entry as stored, with CLS's copy of the address (R72, R116). -/
def storeGroup (g : Group) (c : GroupConfig) (s : State) : State :=
  (writeGroup g c s).modGroup g fun x => { x with address := c.address }

section
variable {g : Group} {n : Nat} {c : GroupConfig} {s : State} {st : Status}

theorem writeGroupFields_pending (pending : (s.group g).slot.pending = true) :
    writeGroupFields g [n] c s = (.state, s) := if_pos pending

theorem writeGroupFields_address (free : (s.group g).slot.pending = false) (bad : groupAddressRefused g c s = true) :
    writeGroupFields g [n] c s = (.invalidConfig, s) := by
  rw [writeGroupFields, if_neg (by rw [free]; decide), if_pos bad]

theorem writeGroupFields_refused (free : (s.group g).slot.pending = false) (sound : ¬ groupAddressRefused g c s = true)
    (refusal : c.fieldRefusal n = some st) : writeGroupFields g [n] c s = (st, s) := by
  rw [writeGroupFields, if_neg (by rw [free]; decide), if_neg sound, List.findSome?_singleton, refusal]

/-- A write that is taken stores the entry; a written member set is then made the arm's, and a group written as not enabled
loses its arm (R116). -/
theorem writeGroupFields_taken (free : (s.group g).slot.pending = false) (sound : ¬ groupAddressRefused g c s = true)
    (passes : c.fieldRefusal n = none) : writeGroupFields g [n] c s = (.ok,
      if n = 1 then rewriteMembers g c.members (storeGroup g c s)
      else if n = 7 ∧ c.enabled = false then clearArm g (storeGroup g c s)
      else storeGroup g c s) := by
  rw [writeGroupFields, if_neg (by rw [free]; decide), if_neg sound, List.findSome?_singleton, passes]
  by_cases members : n = 1
  · subst members
    rfl
  · by_cases enabling : n = 7
    · subst enabling
      simp [storeGroup]
    · simp [members, enabling, storeGroup, Ne.symm members, Ne.symm enabling]

end

/-! ### DOMAIN and DEVICE (R52, R62, R154) -/

theorem enterFaulted_limits (p : Port) (code : FaultCode) (s : State) : (enterFaulted p code s).adm.limits = s.adm.limits := by
  by_cases faulted : (s.port p).state = .faulted
  · rw [enterFaulted, if_pos faulted]
  · rw [(enterFaulted_spec faulted).adm]

/-- The never-admissible check of a limit's entries judges every entry by that limit (R52). -/
theorem foldl_neverAdmissible {d : Domain} {limit : Nat} (l : List WakeEntry) (inside : ∀ e ∈ l, domainOf e.port = d)
    (s : State) (written : s.adm.limits[d] = limit) :
    l.foldl (fun u e => if neverAdmissible u e.port then enterFaulted e.port .budget u else u) s =
      l.foldl (fun u e => if limit < (u.port e.port).draws.inrush then enterFaulted e.port .budget u else u) s := by
  induction l generalizing s with
  | nil => rfl
  | cons e l ih =>
    obtain ⟨own, others⟩ := List.forall_mem_cons.1 inside
    have judged : neverAdmissible s e.port = decide (limit < (s.port e.port).draws.inrush) := by
      simp only [neverAdmissible, own, written]
    rw [List.foldl_cons, List.foldl_cons, judged]
    simp only [decide_eq_true_iff]
    refine ih others _ ?_
    split
    · simpa only [enterFaulted_limits] using written
    · exact written

/-- A taken limit write: the check of the domain's entries that may be admitted, then a scan (R52). -/
theorem applyLimit_eq (d : Domain) (limit : Nat) (s : State) :
    let checked := s.adm.wakeQueue.filter fun e =>
      domainOf e.port = d && ((s.port e.port).state = .asleep || (s.port e.port).state = .paused)
    applyLimit d limit s = scan (checked.foldl (fun u e =>
      if limit < (u.port e.port).draws.inrush then enterFaulted e.port .budget u else u)
      (s.modAdm fun a => { a with limits := a.limits.set d limit })) := by
  intro checked
  refine congrArg scan (foldl_neverAdmissible (d := d) checked (fun e he => ?_) _ (by simp))
  have := (List.mem_filter.1 he).2
  simp only [Bool.and_eq_true, decide_eq_true_iff] at this
  exact this.1

section
variable {d : Domain} {n v : Nat} {s : State} {st : Status}

theorem writeLimit_range (long : 2000 < v) : writeLimit d v s = (.range, s) := if_pos long

theorem writeLimit_inUse (short : v ≤ 2000) (less : v < s.adm.committed[d]) : writeLimit d v s = (.budgetInUse, s) := by
  rw [writeLimit, Config.maxLimit, if_neg (Nat.not_lt.2 short), if_pos less]

theorem writeLimit_taken (short : v ≤ 2000) (enough : s.adm.committed[d] ≤ v) :
    writeLimit d v s = (.ok, applyLimit d v s) := by
  rw [writeLimit, Config.maxLimit, if_neg (Nat.not_lt.2 short), if_neg (Nat.not_lt.2 enough)]

theorem writeDevice_refused (refusal : deviceFieldRefusal n v = some st) : writeDevice [(n, v)] s = (st, s) := by
  rw [writeDevice, List.findSome?_singleton, refusal]

theorem writeDevice_taken (passes : deviceFieldRefusal n v = none) :
    writeDevice [(n, v)] s = (.ok, setDeviceField s n v) := by
  rw [writeDevice, List.findSome?_singleton, passes]
  rfl

theorem deviceFieldRefusal_range (h : (n = 3 ∨ n = 5) ∧ (v < 1 ∨ 4 < v) ∨ n = 4 ∧ 15 < v) :
    deviceFieldRefusal n v = some .range := by
  obtain ⟨rfl | rfl, bad⟩ | ⟨rfl, bad⟩ := h
  · exact if_pos ((outside_iff 1 4 v).2 bad)
  · exact if_pos ((outside_iff 1 4 v).2 bad)
  · exact if_pos ((outside_iff 0 15 v).2 (.inr bad))

theorem deviceFieldRefusal_none (h : n < 3 ∨ (n = 3 ∨ n = 5) ∧ 1 ≤ v ∧ v ≤ 4 ∨ n = 4 ∧ v ≤ 15) :
    deviceFieldRefusal n v = none := by
  obtain small | ⟨rfl | rfl, low, high⟩ | ⟨rfl, high⟩ := h
  · interval_cases n <;> rfl
  · exact if_neg (mt (outside_iff 1 4 v).1 (by omega))
  · exact if_neg (mt (outside_iff 1 4 v).1 (by omega))
  · exact if_neg (mt (outside_iff 0 15 v).1 (by omega))

/-- A pass limit sets the blocking flag of every entry at or above it (R62). -/
theorem applyPassLimit_eq (limit : Nat) (s : State) : applyPassLimit limit s = s.modAdm fun a => { a with
    passLimit := limit
    wakeQueue := a.wakeQueue.map fun e => { e with blocking := e.blocking || decide (limit ≤ e.passes) } } := by
  unfold applyPassLimit
  congr! 4 with a
  funext e
  split <;> rename_i reached <;> simp [reached]

end

end Sys2Proof.Machine
end

section
/-! SUPPORT. PATCH_FIELD, table by table (R143, R153): O51. -/

namespace Sys2Proof.Machine

/-! ### A written member set (R116) -/

section
variable {g : Group} {members : PortSet} {s : State}

theorem refuseStrict_free (free : (s.group g).slot.pending = false) : refuseStrict g s = s :=
  if_neg (by rw [free, Bool.false_and]; decide)

/-- A break that has been reported, of an arm that is intact no more or has broken before, raises nothing (R130). -/
theorem breakArm_evu (who : PortSet) (free : (s.group g).slot.pending = false)
    (reported : (s.group g).arm.intact = false ∨ (s.group g).arm.breakReported = true) :
    (breakArm g who s).evu = s.evu := by
  unfold breakArm
  split
  · rename_i whole
    have reported := reported.resolve_left (by simp [(Bool.and_eq_true_iff.1 whole).2])
    dsimp only
    rw [if_pos (by simpa [State.modArm] using reported), refuseStrict_free (by simpa [State.modArm] using free)]
    rfl
  · rfl

/-- u is s after the member set of an armed group with no pending trigger has been written (R116). -/
structure MembersWritten (g : Group) (members : PortSet) (s u : State) : Prop where
  ports : ∀ q : Port, u.port q = { s.port q with
    idle := if (hasPort (s.group g).arm.members q = true ∨ hasPort members q = true) ∧ (s.port q).state = .ready then 0
      else (s.port q).idle }
  others : ∀ h : Group, h ≠ g → u.group h = s.group h
  own : u.group g = { s.group g with arm := { (s.group g).arm with
    intact := false, watched := 0, members := members
    breakReported := (s.group g).arm.breakReported || (s.group g).arm.intact } }
  rest : u.adm = s.adm ∧ u.tbm = s.tbm ∧ u.mga = s.mga ∧ u.phase = s.phase ∧ u.pending = s.pending ∧ u.owed = s.owed
  quiet : (s.group g).arm.intact = false ∨ (s.group g).arm.breakReported = true → u.evu = s.evu
  broken : (s.group g).arm.intact = true → (s.group g).arm.breakReported = false →
    u.evu.events[Event.armBroken.num].pending = true ∧
    u.evu.events[Event.armBroken.num].detail = some ⟨some g.val, 0, 0⟩

theorem rewriteMembers_written (armed : (s.group g).arm.armed = true) (free : (s.group g).slot.pending = false) :
    MembersWritten g members s (rewriteMembers g members s) := by
  let t := (breakArm g 0 s).modArm g fun a => { a with members := members, watched := 0 }
  let touched := portList ((s.group g).arm.members ||| members)
  have heard := Heard.breakArm g 0 s
  obtain ⟨group, owed, armBroken, -⟩ := breakArm_own g 0 s
  obtain ⟨port, idled⟩ := fold_idle touched t
  have written : rewriteMembers g members s = touched.foldl (fun s p => restartIdle p s) t := if_pos armed
  rw [written]
  have groups (h : Group) : (touched.foldl (fun s p => restartIdle p s) t).group h = t.group h := by rw [idled]; rfl
  have evu : (touched.foldl (fun s p => restartIdle p s) t).evu = (breakArm g 0 s).evu := by rw [idled]; rfl
  refine ⟨fun q => ?_, fun h other => ?_, ?_, ?_, fun reported => evu.trans (breakArm_evu 0 free reported),
    fun intact unreported => ?_⟩
  · have kept : t.port q = s.port q := heard.port q
    rw [port, kept]
    simp only [touched, portList_mem, hasPort_or, Bool.or_eq_true]
  · rw [groups, ← breakArm_group_ne other 0 s]
    exact State.modGroup_group_ne _ _ other
  · rw [groups]
    simp only [t, State.modArm, State.modGroup_group_same, group]
    cases intact : (s.group g).arm.intact <;> simp [armed, free, intact]
  · rw [idled]
    exact ⟨heard.adm, heard.tbm, heard.mga, heard.phase, heard.pending, owed⟩
  · rw [evu, armBroken]
    simp [armed, intact, unreported]

theorem rewriteMembers_unarmed (unarmed : (s.group g).arm.armed = false) : rewriteMembers g members s = s :=
  if_neg (by rw [unarmed]; decide)

end

/-! ### The request (R148, R153) -/

/-- The request names the table and the entry, the field and its new value (Table 9-5, R153). -/
structure Request.Patches (r : Request) (table index n v : Nat) : Prop where
  table : natAt r.body 6 1 = table
  index : natAt r.body 7 1 = index
  field : natAt r.payload 0 1 = n
  value : beNat (r.payload.drop 1) = v

section
variable {r : Request} {n v : Nat} {s : State}

theorem Request.table_eq {table : Nat} (named : natAt r.body 6 1 = table) : r.table = table := named

theorem Request.ofNat_index {k : Nat} [NeZero k] {i : Fin k} (named : natAt r.body 7 1 = i.val) :
    Fin.ofNat k r.index = i := (congrArg (Fin.ofNat k) named).trans (Fin.ofNat_val_eq_self i)

theorem performPatchField_portConfig {p : Port} (h : r.Patches 1 p.val n v) : performPatchField r s =
    patchRead (fun c => writePortFields p [n] (c.setField n v)) (readPortConfigWithEffect p s) := by
  obtain ⟨table, index, rfl, rfl⟩ := h
  simp only [performPatchField, Request.table_eq table, tableOf, Request.port_eq index]

theorem performPatchField_template {i : Fin 48} (h : r.Patches 2 i.val n v) : performPatchField r s =
    patchRead (fun t => writeTemplateEntry i (t.setField n v)) (readTemplate i s) := by
  obtain ⟨table, index, rfl, rfl⟩ := h
  simp only [performPatchField, Request.table_eq table, tableOf, Request.ofNat_index index]

theorem performPatchField_rule {i : Fin 32} (h : r.Patches 3 i.val n v) : performPatchField r s =
    patchRead (fun e => writeRuleEntry i (e.setField n v)) (readRule i s) := by
  obtain ⟨table, index, rfl, rfl⟩ := h
  simp only [performPatchField, Request.table_eq table, tableOf, Request.ofNat_index index]

theorem performPatchField_classAction {i : Fin 9} (h : r.Patches 4 i.val n v) : performPatchField r s =
    patchRead (fun a => writeClassActionEntry i (a.setField n v)) (readClassAction i s) := by
  obtain ⟨table, index, rfl, rfl⟩ := h
  simp only [performPatchField, Request.table_eq table, tableOf, Request.ofNat_index index]

theorem performPatchField_group {g : Group} (h : r.Patches 5 g.val n v) : performPatchField r s =
    patchRead (fun c => writeGroupFields g [n] (c.setField n v)) (readGroup g s) := by
  obtain ⟨table, index, rfl, rfl⟩ := h
  simp only [performPatchField, Request.table_eq table, tableOf, Request.group_eq index]

theorem performPatchField_domain {d : Domain} (h : r.Patches 6 d.val n v) :
    performPatchField r s = answered (writeLimit d v s) := by
  obtain ⟨table, index, rfl, rfl⟩ := h
  simp only [performPatchField, Request.table_eq table, tableOf, Request.ofNat_index index]

theorem performPatchField_device {index : Nat} (h : r.Patches 7 index n v) :
    performPatchField r s = answered (writeDevice [(n, v)] s) := by
  obtain ⟨table, -, rfl, rfl⟩ := h
  simp only [performPatchField, Request.table_eq table, tableOf]

end

section
variable {r : Request} {rest : List Request} {s w : State} {st : Status} {α : Type} {read : Option α × State} {e : α}
  {write : α → State → Status × State}

/-- The answer to a PATCH_FIELD, by what performing it comes to (R147, R149). -/
theorem exec_patchField_performs (h : s.Accepts (.op .patchField) r rest) (performs : performPatchField r s = (st, [], w)) :
    exec .patchField s = .next (finishRequest r rest st [] (settle w)) := by
  rw [exec_patchField, performHead_accepts h, performs]

/-- The same where nothing is handed on. -/
theorem exec_patchField_of_owed (h : s.Accepts (.op .patchField) r rest) (performs : performPatchField r s = (st, [], w))
    (owed : w.owed = s.owed) : exec .patchField s = .next (finishRequest r rest st [] w) := by
  rw [exec_patchField_performs h performs, settle_of_owed (owed.trans h.settled)]

/-- A read that hands nothing over is answered with POISONED (R143). -/
theorem exec_patchField_poisoned (h : s.Accepts (.op .patchField) r rest)
    (comes : performPatchField r s = patchRead write read) (poisoned : read.1 = none) (owed : read.2.owed = s.owed) :
    exec .patchField s = .next (finishRequest r rest .poisoned [] read.2) := by
  obtain ⟨_, u⟩ := read
  obtain rfl := poisoned
  exact exec_patchField_of_owed h comes owed

/-- An entry that is handed over is written back with the field set (R143). -/
theorem exec_patchField_written (h : s.Accepts (.op .patchField) r rest)
    (comes : performPatchField r s = patchRead write read) (handed : read.1 = some e)
    (writes : write e read.2 = (st, w)) (owed : w.owed = s.owed) :
    exec .patchField s = .next (finishRequest r rest st [] w) := by
  obtain ⟨_, u⟩ := read
  obtain rfl := handed
  exact exec_patchField_of_owed h (comes.trans (congrArg answered writes)) owed

/-- A row of an operation serves the requests that name it (R147). -/
theorem rowServes_op {o : Op} (serves : rowServes (.op o) r = true) : opOf r.op = some o := by
  unfold rowServes at serves
  split at serves <;> simp_all

/-- A PATCH_FIELD that passes its checks names a field that may be patched (R153). -/
theorem patchRefusal_none {t : Table} {bs : List Byte} (sound : patchRefusal t bs = none) :
    ∃ size, t.patchSize (natAt bs 0 1) = some size := by
  cases bs with
  | nil => cases sound
  | cons b value =>
    have number : natAt (b :: value) 0 1 = b.toNat := by simp [natAt, bytesAt, beNat]
    rw [number]
    cases size : t.patchSize b.toNat with
    | none => simp [patchRefusal, size] at sound
    | some k => exact ⟨k, rfl⟩

/-- The last check of R148 that a PATCH_FIELD of a table passes is that of its field. -/
theorem patchRefusal_of_accepts {t : Table} (h : s.Accepts (.op .patchField) r rest)
    (table : tableOf (natAt r.body 6 1) = some t) : patchRefusal t r.payload = none := by
  have passes := h.passes
  unfold requestRefusal at passes
  split at passes
  · cases passes
  · cases payload : r.payload? with
    | none => rw [payload] at passes; cases passes
    | some bs =>
      simp only [payload, rowServes_op h.row, Option.orElse_eq_orElse, Option.orElse_eq_or, Option.or_eq_none_iff] at passes
      obtain ⟨-, -, sound⟩ := passes
      rw [Request.payload, payload, Option.getD_some]
      simpa only [payloadRefusal, show tableOf r.table = some t from table, Option.elim_some] using sound

/-- The bytes of a TEMPLATE are no field that PATCH_FIELD names (R153). -/
theorem template_field (h : s.Accepts (.op .patchField) r rest) (table : natAt r.body 6 1 = 2) :
    natAt r.payload 0 1 = 0 ∨ natAt r.payload 0 1 = 2 := by
  obtain ⟨size, named⟩ := patchRefusal_none (patchRefusal_of_accepts h (t := .template) (by rw [table]; rfl))
  unfold Table.patchSize at named
  split at named
  · cases named
  · rename_i field
    have inside : natAt r.payload 0 1 < 3 := (List.getElem?_eq_some_iff.1 named).1
    have bytes : natAt r.payload 0 1 ≠ 1 := by simpa using field
    omega

end

/-! ### The statement -/

/-- A read of group g leaves the other entries of the table as they are. -/
theorem readGroupEntry_other {g h : Group} (other : h ≠ g) (s : State) :
    (readGroupEntry g s).2.tbm.group[h] = s.tbm.group[h] := by
  show (noteFinding _ _ _ _).tbm.group[h] = _
  rw [noteFinding_tbm]
  have : g.val ≠ h.val := fun e => other (Fin.ext e.symm)
  simp [State.modTbm, this]

/-- Field 7 of a group's entry enables it (Table 7-2). -/
theorem enabled_setField {old : GroupConfig} {n v : Nat} (seven : n = 7) : (old.setField n v).enabled = false ↔ v = 0 := by
  subst seven
  show (v != 0) = false ↔ v = 0
  simp

/-- Settles O51: for each table what its read hands over, then the write of the entry with the field set; the fields that an
entry with one field set carries by `fields_setField`. -/
theorem oneFieldIsPatched : Obligations.OneFieldIsPatched := by
  unfold Obligations.OneFieldIsPatched
  refine ⟨fun r rest s h => ?_, fun n v size => ⟨fun field fits encoded => PortConfig.fields_setField field fits encoded,
    fun field fits encoded => Rule.fields_setField field fits encoded,
    fun field _ encoded => ClassAction.fields_setField field encoded,
    fun field fits encoded => GroupConfig.fields_setField field fits encoded⟩⟩
  intro table index n v answers
  refine ⟨fun names p at_p => ?_, fun names i at_i => ?_, fun names i at_i => ?_, fun names i at_i => ?_,
    fun names g at_g => ?_, fun names d at_d => ?_, fun names => ?_⟩
  · -- PORT_CONFIG: the port is told of a read that poisons, and else judges the field (R2, R3, R9)
    intro u
    have comes := performPatchField_portConfig (s := s) ⟨names, at_p, (rfl : _ = n), (rfl : _ = v)⟩
    have owed : u.owed = s.owed := readPortConfig_owed p s
    have state : (u.port p).state = (s.port p).state := congrArg PortRec.state (readPortConfig_port p p s)
    refine ⟨fun poisoned => ⟨fun disabled => ?_, fun enabled => ?_⟩, fun old handed => ?_⟩
    · rw [readPortConfigWithEffect_quiet (.inr disabled)] at comes
      exact exec_patchField_poisoned h comes poisoned owed
    · rw [readPortConfigWithEffect_poisoned poisoned enabled] at comes
      exact exec_patchField_performs h comes
    · intro c bad d
      rw [readPortConfigWithEffect_quiet (.inl (by rw [handed]; exact Option.some_ne_none _))] at comes
      have range : c.outOfRange n ↔ bad := PortConfig.outOfRange_setField old n v
      refine ⟨fun fixed enabled => ?_, fun may refused => ?_, fun may sound => ?_⟩
      · exact exec_patchField_written h comes handed (writePortFields_fixed fixed (by rw [state]; exact enabled)) owed
      · exact exec_patchField_written h comes handed
          (writePortFields_refused (by rw [state]; exact may) ((c.fieldRefusal_judges n).1 (range.2 refused))) owed
      · exact exec_patchField_written h comes handed
          (writePortFields_taken (by rw [state]; exact may) ((c.fieldRefusal_judges n).2 (mt range.1 sound))) owed
  · -- TEMPLATE (R28, R45)
    intro u
    have comes := performPatchField_template (s := s) ⟨names, at_i, (rfl : _ = n), (rfl : _ = v)⟩
    have owed : u.owed = s.owed := readTemplate_owed i s
    refine ⟨fun poisoned => exec_patchField_poisoned h comes poisoned owed, fun old handed => ?_⟩
    intro t x bad starts
    have set : old.setField n v = t := by
      rcases template_field h names with length | offset
      · simp only [t, show n = 0 from length, Template.setField, if_true]
      · simp only [t, show n = 2 from offset, Template.setField]
        rfl
    have port : u.port (templatePort i) = x := (Quiet.readTemplate i s).port _
    have begins : t.starts i (u.port (templatePort i)) ↔ starts := by rw [port]; exact Iff.rfl
    have refuses : templateRefused i t = true ↔ bad := templateRefused_iff i t
    have written {st : Status} {w : State} (writes : writeTemplateEntry i t u = (st, w)) (kept : w.owed = u.owed) :
        answers st w := by
      rw [← set] at writes
      exact exec_patchField_written h comes handed writes (kept.trans owed)
    exact ⟨fun refused => written (writeTemplateEntry_refused (refuses.2 refused)) rfl,
      fun sound still => written (writeTemplateEntry_stored (mt refuses.1 sound) (mt begins.1 still)) rfl,
      fun sound starting => written (writeTemplateEntry_starts (mt refuses.1 sound) (begins.2 starting)) rfl⟩
  · -- RULE (R73)
    intro u
    have comes := performPatchField_rule (s := s) ⟨names, at_i, (rfl : _ = n), (rfl : _ = v)⟩
    have owed : u.owed = s.owed := readRule_owed i s
    refine ⟨fun poisoned => exec_patchField_poisoned h comes poisoned owed, fun old handed => ?_⟩
    intro e legal bad
    have direction : legalDirection e.cls e.direction = true ↔ legal := by
      cases cls : e.cls <;> simp [legal, legalDirection, cls]
    have refuses : ruleRefused e = true ↔ bad := by rw [ruleRefused_iff, direction]
    exact ⟨fun refused => exec_patchField_written h comes handed (writeRuleEntry_refused i u (refuses.2 refused)) owed,
      fun sound => exec_patchField_written h comes handed (writeRuleEntry_taken i u (mt refuses.1 sound)) owed⟩
  · -- CLASS_ACTION (R76)
    intro u
    have comes := performPatchField_classAction (s := s) ⟨names, at_i, (rfl : _ = n), (rfl : _ = v)⟩
    have owed : u.owed = s.owed := readClassAction_owed i s
    refine ⟨fun poisoned => exec_patchField_poisoned h comes poisoned owed, fun old handed => ?_⟩
    intro a
    exact ⟨fun ⟨answers, other⟩ =>
        exec_patchField_written h comes handed (writeClassActionEntry_refused u answers other) owed,
      fun may => exec_patchField_written h comes handed (writeClassActionEntry_taken u may) owed⟩
  · -- GROUP: the refusals, then what the store makes of an arm (R116, R117)
    intro u
    have comes := performPatchField_group (s := s) ⟨names, at_g, (rfl : _ = n), (rfl : _ = v)⟩
    have owed : u.owed = s.owed := readGroup_owed g s
    refine ⟨fun poisoned => exec_patchField_poisoned h comes poisoned owed, fun old handed => ?_⟩
    intro c a badAddress badRange stored
    have entry : u = (readGroupEntry g s).2 :=
      congrArg Prod.snd (readGroup_handed (by rw [handed]; exact Option.some_ne_none _))
    have quiet : Quiet s u := entry ▸ Quiet.readGroupEntry g s
    have address : groupAddressRefused g c u = true ↔ badAddress := by
      have other (k : Group) (hk : k ≠ g) : u.tbm.group[k] = s.tbm.group[k] := entry ▸ readGroupEntry_other hk s
      rw [groupAddressRefused_iff]
      refine and_congr_right fun _ => or_congr Iff.rfl (or_congr Iff.rfl (exists_congr fun k => and_congr_right fun hk => ?_))
      rw [other k hk]
    have range : c.outOfRange n ↔ badRange := GroupConfig.outOfRange_setField old n v
    refine ⟨fun pending => ?_, fun free bad => ?_, fun free sound bad => ?_, fun free sound inside => ?_⟩
    · exact exec_patchField_written h comes handed (writeGroupFields_pending (by rw [quiet.group]; exact pending)) owed
    · exact exec_patchField_written h comes handed
        (writeGroupFields_address (by rw [quiet.group]; exact free) (address.2 bad)) owed
    · exact exec_patchField_written h comes handed (writeGroupFields_refused (by rw [quiet.group]; exact free)
        (mt address.1 sound) ((c.fieldRefusal_judges n).1 (range.2 bad))) owed
    have takes := writeGroupFields_taken (n := n) (by rw [quiet.group]; exact free) (mt address.1 sound)
      ((c.fieldRefusal_judges n).2 (mt range.1 inside))
    have written {w : State} (comesTo : (if n = 1 then rewriteMembers g c.members stored
        else if n = 7 ∧ c.enabled = false then clearArm g stored else stored) = w) (kept : w.owed = u.owed) :
        answers .ok w := by
      subst comesTo
      exact exec_patchField_written h comes handed takes (kept.trans owed)
    have own : stored.group g = { s.group g with address := c.address } := by
      rw [← quiet.group]
      exact State.modGroup_group_same _ _ _
    have others (k : Group) (hk : k ≠ g) : stored.group k = s.group k := by
      rw [← quiet.group]
      exact State.modGroup_group_ne _ _ hk
    have port (q : Port) : stored.port q = s.port q := quiet.port q
    have arm : (stored.group g).arm = a := by rw [own]
    have waits : (stored.group g).slot.pending = false := by rw [own]; exact free
    refine ⟨fun unarmed => written ?_ rfl, fun kept still => written ?_ rfl, fun armed change => ?_⟩
    · have idle : (stored.group g).arm.armed = false := by rw [arm]; exact unarmed
      rw [rewriteMembers_unarmed idle, clearArm_unarmed idle, ite_self, ite_self]
    · rw [if_neg kept, if_neg]
      rintro ⟨seven, disabled⟩
      exact still.elim (· seven) fun nonzero => nonzero ((enabled_setField seven).1 disabled)
    · have runs : (stored.group g).arm.armed = true := by rw [arm]; exact armed
      rcases change with members | ⟨enabling, zero⟩
      · obtain ⟨ports, kept, record, ⟨adm, tbm, mga, phase, pending, handsOn⟩, silent, broken⟩ :=
          rewriteMembers_written (members := c.members) runs waits
        rw [arm, own] at record
        rw [arm] at silent broken
        refine ⟨_, written (if_pos members) handsOn, fun q => ?_, fun k hk => (kept k hk).trans (others k hk),
          by rw [record], by rw [record], tbm, mga.trans quiet.mga, phase.trans quiet.phase, pending.trans quiet.pending,
          fun _ => ⟨by rw [record], adm.trans quiet.adm, silent, fun ⟨intact, unreported⟩ => broken intact unreported⟩,
          fun enabling => ?_⟩
        · rw [ports, arm, port]
          simp only [members, true_and]
        · rw [members] at enabling
          cases enabling
      · have disabled : c.enabled = false := (enabled_setField enabling).2 zero
        obtain ⟨alone, record, kept, ports, adm⟩ := clearArm_free runs waits
        rw [arm, own] at record
        have differs : n ≠ 1 := by rw [enabling]; decide
        refine ⟨_, written ((if_neg differs).trans (if_pos ⟨enabling, disabled⟩)) (clearArm_owed g stored), fun q => ?_,
          fun k hk => (kept k hk).trans (others k hk), by rw [record], by rw [record], by rw [alone], ?_, ?_, ?_,
          fun members => absurd members differs, fun _ => ⟨by rw [record], ?_, by rw [alone]; rfl⟩⟩
        · rw [ports, arm, port]
          simp only [differs, false_and, or_false]
        · rw [alone]; exact quiet.mga
        · rw [alone]; exact quiet.phase
        · rw [alone]; exact quiet.pending
        · rw [adm]
          show { u.adm with schedule := u.adm.schedule.filter (·.group ≠ g) } = _
          rw [quiet.adm]
  · -- DOMAIN (R52)
    intro set checked
    have comes := performPatchField_domain (s := s) ⟨names, at_d, (rfl : _ = n), (rfl : _ = v)⟩
    refine ⟨fun long => ?_, fun short less => ?_, fun short enough => ?_⟩
    · exact exec_patchField_of_owed h (comes.trans (congrArg answered (writeLimit_range long))) rfl
    · exact exec_patchField_of_owed h (comes.trans (congrArg answered (writeLimit_inUse short less))) rfl
    · have limited := exec_patchField_performs h (comes.trans (congrArg answered (writeLimit_taken short enough)))
      rw [applyLimit_eq] at limited
      exact limited
  · -- DEVICE (R154)
    have comes := performPatchField_device (s := s) ⟨names, (rfl : _ = index), (rfl : _ = n), (rfl : _ = v)⟩
    have refused (bad : (n = 3 ∨ n = 5) ∧ (v < 1 ∨ 4 < v) ∨ n = 4 ∧ 15 < v) : answers .range s :=
      exec_patchField_of_owed h (comes.trans (congrArg answered (writeDevice_refused (deviceFieldRefusal_range bad)))) rfl
    have taken {w : State} (sound : n < 3 ∨ (n = 3 ∨ n = 5) ∧ 1 ≤ v ∧ v ≤ 4 ∨ n = 4 ∧ v ≤ 15)
        (sets : setDeviceField s n v = w) (owed : w.owed = s.owed) : answers .ok w := by
      subst sets
      exact exec_patchField_of_owed h (comes.trans (congrArg answered (writeDevice_taken (deviceFieldRefusal_none sound)))) owed
    exact ⟨fun field bad => refused (.inl ⟨field, bad⟩), fun field bad => refused (.inr ⟨field, bad⟩),
      fun field => taken (.inl (by omega)) (by rw [field]; rfl) rfl,
      fun field => taken (.inl (by omega)) (by rw [field]; rfl) rfl,
      fun field => taken (.inl (by omega)) (by rw [field]; rfl) rfl,
      fun field low high => taken (.inr (.inl ⟨.inl field, low, high⟩)) (by rw [field]; rfl) rfl,
      fun field high => taken (.inr (.inr ⟨field, high⟩)) (by rw [field]; exact applyPassLimit_eq v s) rfl,
      fun field low high => taken (.inr (.inl ⟨.inr field, low, high⟩)) (by rw [field]; rfl) rfl⟩

end Sys2Proof.Machine
end

section
/-! SUPPORT. Every command is answered with a next state, and the waiting commands stay (R147, R148, R169): O1, O3. -/

namespace Sys2Proof.Machine

/-- Settles O1: the front of the queue is what `step` looks at. -/
theorem stepPerformsFrontCommand : Obligations.StepPerformsFrontCommand := by
  unfold Obligations.StepPerformsFrontCommand
  intro c rest s front
  rw [step, front]

/-! ### The walk over the commands -/

theorem whileRunning_pending {f : State → State} {s : State} (h : Good s (f s)) :
    (whileRunning f s).pending = s.pending := (whileRunning_good f s h).pending

theorem whenDue_pending {due : State → Bool} {f : State → State} {s : State} (h : due s = true → Good s (f s)) :
    (whileRunning (whenDue due f) s).pending = s.pending := whileRunning_pending (whenDue_good due f s h)

theorem performHead_pending (row : Row) {effect : Request → State → Performed} {s : State}
    (h : ∀ r, Good s (effect r s).2.2) : (performHead row effect s).pending = s.pending :=
  (performHead_good row effect s h).pending

theorem haltAll_pending (s : State) : (haltAll s).pending = s.pending := by
  have halted : Calm s (allGroups.foldl (fun s g => haltGroup g s) (allPorts.foldl (fun s p => haltPort p s) s)) :=
    (Calm.foldl (fun s p => Calm.haltPort p s) _ _).trans (Calm.foldl (fun s g => Calm.haltGroup g s) _ _)
  unfold haltAll
  simp only [State.modMga_pending, State.modAdm_pending, State.modUplink_pending]
  exact (halted.trans (Calm.abandonReception .uplink _)).pending

theorem exec_keepsPending (i : Instr) (s : State) : ∃ t, exec i s = .next t ∧ t.pending = s.pending := by
  cases i with
  | receptionStart e => exact ⟨_, exec_receptionStart e s, whileRunning_pending (Calm.startReception e s).good⟩
  | uplinkFrameReceived bytes good =>
    exact ⟨_, exec_uplinkFrameReceived bytes good s, whileRunning_pending (receiveUplink_good bytes good s)⟩
  | cameraFrameReceived p bytes good =>
    exact ⟨_, exec_cameraFrameReceived p bytes good s, whileRunning_pending (receiveCamera_good p bytes good s)⟩
  | identify => exact ⟨_, exec_identify s, performHead_pending _ fun _ => .refl s⟩
  | readEntry => exact ⟨_, exec_readEntry s, performHead_pending _ fun r => performReadEntry_good r s⟩
  | writeEntry => exact ⟨_, exec_writeEntry s, performHead_pending _ fun r => performWriteEntry_good r s⟩
  | patchField => exact ⟨_, exec_patchField s, performHead_pending _ fun r => performPatchField_good r s⟩
  | enable => exact ⟨_, exec_enable s, performHead_pending _ fun r => enablePort_good r.port s⟩
  | disable => exact ⟨_, exec_disable s, performHead_pending _ fun r => disablePort_good r.port s⟩
  | park => exact ⟨_, exec_park s, performHead_pending _ fun r => (Calm.parkPort r.port s).good⟩
  | unpark => exact ⟨_, exec_unpark s, performHead_pending _ fun r => unparkPort_good r.port s⟩
  | pin => exact ⟨_, exec_pin s, performHead_pending _ fun r => (Calm.pinPort r.port s).good⟩
  | unpin => exact ⟨_, exec_unpin s, performHead_pending _ fun r => (Calm.unpinPort r.port s).good⟩
  | wake => exact ⟨_, exec_wake s, (performWake_good s).pending⟩
  | pause => exact ⟨_, exec_pause s, (performPause_good s).pending⟩
  | sleep => exact ⟨_, exec_sleep s, performHead_pending _ fun r => sleepPort_good r.port s⟩
  | clear => exact ⟨_, exec_clear s, performHead_pending _ fun r => clearPort_good r.port s⟩
  | arm => exact ⟨_, exec_arm s, performHead_pending _ fun r => performArm_good r.group s⟩
  | disarm => exact ⟨_, exec_disarm s, performHead_pending _ fun r => (Calm.clearArm r.group s).good⟩
  | prepare => exact ⟨_, exec_prepare s, performHead_pending _ fun r => performPrepare_good r.group r.lead s⟩
  | cancel => exact ⟨_, exec_cancel s, performHead_pending _ fun r => performCancel_good r.group s⟩
  | readEvents => exact ⟨_, exec_readEvents s, performHead_pending _ fun _ => (Calm.clearReported s).good⟩
  | setEventMask => exact ⟨_, exec_setEventMask s, performHead_pending _ fun _ => (Calm.setMasks _ s).good⟩
  | readCounters => exact ⟨_, exec_readCounters s, performHead_pending _ fun r => performReadCounters_good r s⟩
  | restart => exact ⟨_, exec_restart s, (performRestart_good s).pending⟩
  | softRestart =>
    refine ⟨_, exec_softRestart s, ?_⟩
    split <;> rfl
  | transmissionStart e => exact ⟨_, exec_transmissionStart e s, whileRunning_pending (Calm.startTransmission e s).good⟩
  | transmissionEnd e => exact ⟨_, exec_transmissionEnd e s, whileRunning_pending (Calm.endTransmission e s).good⟩
  | releaseStep p => exact ⟨_, exec_releaseStep p s, whileRunning_pending (Calm.stepRelease p s).good⟩
  | admissionScan => exact ⟨_, exec_admissionScan s, whileRunning_pending (scan_good s)⟩
  | triggerReevaluation g => exact ⟨_, exec_triggerReevaluation g s, whileRunning_pending (Calm.reevaluate g s).good⟩
  | cameraLinkDown p => exact ⟨_, exec_cameraLinkDown p s, rfl⟩
  | cameraLinkUp p => exact ⟨_, exec_cameraLinkUp p s, (Calm.linkUp p s).pending⟩
  | uplinkLinkDown => exact ⟨_, exec_uplinkLinkDown s, rfl⟩
  | uplinkLinkUp => exact ⟨_, exec_uplinkLinkUp s, rfl⟩
  | uplinkLinkTimerExpiry =>
    exact ⟨_, exec_uplinkLinkTimerExpiry s, whenDue_pending fun _ => (Calm.uplinkOver s).good⟩
  | senseInputRise p => exact ⟨_, exec_senseInputRise p s, rfl⟩
  | senseInputFall p => exact ⟨_, exec_senseInputFall p s, rfl⟩
  | senseFilterExpiry p => exact ⟨_, exec_senseFilterExpiry p s, whenDue_pending fun _ => senseEdge_good p s⟩
  | feedFaultAsserted p level =>
    refine ⟨_, exec_feedFaultAsserted p level s, ?_⟩
    split
    · exact ((sampleFeedFault_good p level s).trans (settle_good _)).pending
    · rfl
  | resetAsserted => exact ⟨_, exec_resetAsserted s, haltAll_pending s⟩
  | resetReleased =>
    refine ⟨_, exec_resetReleased s, ?_⟩
    split <;> rfl
  | tableInitialisationEnd =>
    refine ⟨_, exec_tableInitialisationEnd s, ?_⟩
    split <;> rfl
  | idleTimerExpiry p =>
    exact ⟨_, exec_idleTimerExpiry p s, whenDue_pending fun due => idleOver_good p s ((idleExpired_iff p s).1 due).1⟩
  | deepIdleExpiry p => exact ⟨_, exec_deepIdleExpiry p s, whenDue_pending fun _ => enterAsleep_good p s⟩
  | linkTimerExpiry p => exact ⟨_, exec_linkTimerExpiry p s, whenDue_pending fun _ => enterFaulted_good p _ s⟩
  | coldBootWindowExpiry p =>
    exact ⟨_, exec_coldBootWindowExpiry p s, whenDue_pending fun _ => coldAttemptFailed_good p s⟩
  | attemptWindowExpiry p =>
    exact ⟨_, exec_attemptWindowExpiry p s, whenDue_pending fun _ => resumeAttemptFailed_good p s⟩
  | spacingExpiry p => exact ⟨_, exec_spacingExpiry p s, whenDue_pending fun _ => (Calm.startAttempt p s).good⟩
  | offHoldExpiry p =>
    refine ⟨_, exec_offHoldExpiry p s, whenDue_pending fun due => offHoldOver_good p s ?_⟩
    exact (Bool.or_eq_true_iff.1 due).elim (awake_of_phaseOver · rfl) (awake_of_phaseOver · rfl)
  | pulseCountdownExpiry p =>
    exact ⟨_, exec_pulseCountdownExpiry p s, whenDue_pending fun _ => (Calm.closeWindow p s).good⟩
  | pauseConfirmWindowExpiry p =>
    exact ⟨_, exec_pauseConfirmWindowExpiry p s, whenDue_pending fun due => confirmOver_good p s (phaseOver_state due)⟩
  | probeIntervalExpiry p => exact ⟨_, exec_probeIntervalExpiry p s, whenDue_pending fun _ => probeIntervalOver_good p s⟩
  | scheduleEntryDue p => exact ⟨_, exec_scheduleEntryDue p s, whenDue_pending fun _ => scheduleDue_good p s⟩
  | rendezvousWindowExpiry g =>
    exact ⟨_, exec_rendezvousWindowExpiry g s, whenDue_pending fun _ => (Calm.windowOver g s).good⟩
  | armHoldExpiry g =>
    exact ⟨_, exec_armHoldExpiry g s, whenDue_pending fun _ => ((Calm.clearArm g s).trans (Calm.raise _ _ _)).good⟩
  | preparationTargetExpiry g =>
    exact ⟨_, exec_preparationTargetExpiry g s, whenDue_pending fun _ => (Calm.targetOver g s).good⟩
  | scrubPassStart =>
    exact ⟨_, exec_scrubPassStart s, whenDue_pending fun _ => (Calm.modTbm s _ fun _ => rfl).good⟩
  | scrubVisit => exact ⟨_, exec_scrubVisit s, whileRunning_pending (visitNext_good s)⟩
  | unknownOpRequest => exact ⟨_, exec_unknownOpRequest s, performHead_pending _ fun _ => .refl s⟩

/-- Settles O3, command by command. -/
theorem noCommandStopsThePart : Obligations.NoCommandStopsThePart := exec_keepsPending

end Sys2Proof.Machine
end

section
/-! SUPPORT. A management frame on the uplink (R71, R146): O29. -/

namespace Sys2Proof.Machine

section
variable {bytes : List Byte} {s : State}

/-- A source may manage the part: no manager address is set, or one of those set is the source's (R146). -/
def Mga.admits (m : Mga) (source : Addr) : Prop :=
  m.managerA = 0 ∧ m.managerB = 0 ∨ m.managerA ≠ 0 ∧ source = m.managerA ∨ m.managerB ≠ 0 ∧ source = m.managerB

/-- A frame is a REQUEST, and IDENTIFY where it is a broadcast (R146). -/
def properRequest (bytes : List Byte) : Prop :=
  natAt bytes 15 1 = 1 ∧ (frameDest bytes = broadcast → natAt bytes 18 1 = 1)

theorem Mga.admits_iff (m : Mga) (source : Addr) : ((m.managerA = 0 && m.managerB = 0) ||
    (m.managerA ≠ 0 && source = m.managerA) || (m.managerB ≠ 0 && source = m.managerB)) = true ↔ m.admits source := by
  simp [Mga.admits, or_assoc]

theorem takeRequest_denied (h : ¬ s.mga.admits (frameSource bytes)) : takeRequest bytes s =
    raise .accessDenied Detail.bare (s.modDevice fun d => { d with denied := bump d.denied }) :=
  if_pos (by rw [Bool.not_eq_true', Bool.eq_false_iff]; exact mt (Mga.admits_iff _ _).1 h)

theorem takeRequest_admitted (h : s.mga.admits (frameSource bytes)) : takeRequest bytes s =
    if natAt bytes 15 1 ≠ 1 then countUnknown s
    else if frameDest bytes = broadcast && natAt bytes 18 1 ≠ 1 then countUnknown s
    else if Config.fifoDepth ≤ s.mga.fifo.length then
      s.modDevice fun d => { d with fifoOverflows := bump d.fifoOverflows }
    else s.modMga fun m => { m with fifo := m.fifo ++ [requestOf bytes] } :=
  if_neg (by rw [Bool.not_eq_true', Bool.not_eq_false]; exact (Mga.admits_iff _ _).2 h)

theorem takeRequest_improper (h : s.mga.admits (frameSource bytes)) (improper : ¬ properRequest bytes) :
    takeRequest bytes s = countUnknown s := by
  rw [takeRequest_admitted h]
  by_cases kind : natAt bytes 15 1 = 1
  · have wide : frameDest bytes = broadcast ∧ natAt bytes 18 1 ≠ 1 := by
      simpa [properRequest, kind] using improper
    rw [if_neg (not_not.2 kind), if_pos (by simp [wide])]
  · exact if_pos kind

theorem takeRequest_proper (h : s.mga.admits (frameSource bytes)) (proper : properRequest bytes) :
    takeRequest bytes s =
      if 8 ≤ s.mga.fifo.length then s.modDevice fun d => { d with fifoOverflows := bump d.fifoOverflows }
      else s.modMga fun m => { m with fifo := m.fifo ++ [requestOf bytes] } := by
  obtain ⟨kind, narrow⟩ := proper
  rw [takeRequest_admitted h, if_neg (not_not.2 kind), if_neg (by simpa using narrow), Config.fifoDepth]

/-- A frame with the management EtherType for the part or for all is MGA's (R71), and lost to it without a cell. -/
theorem dispatchDown_management (management : frameType bytes = 0x88B6)
    (addressed : frameDest bytes = s.mga.factory ∨ frameDest bytes = broadcast) :
    (∀ c : CellNo, dispatchDown (some c) bytes s = takeRequest bytes s) ∧
    dispatchDown none bytes s = s.modDevice fun d => { d with fifoOverflows := bump d.fifoOverflows } := by
  have mine : (frameType bytes = Config.managementEtherType &&
      (frameDest bytes = s.mga.factory || frameDest bytes = broadcast)) =
      true := by simpa [management, Config.managementEtherType] using addressed
  exact ⟨fun _ => if_pos mine, if_pos mine⟩

theorem takeRequest_owed (bytes : List Byte) (s : State) : (takeRequest bytes s).owed = s.owed := by
  unfold takeRequest
  extract_lets
  split_ifs <;> simp

end

/-- Settles O29: R71 hands the frame to MGA, which makes its checks in the order of R146. -/
theorem managementRequestIsTakenOrDropped : Obligations.ManagementRequestIsTakenOrDropped := by
  unfold Obligations.ManagementRequestIsTakenOrDropped
  intro bytes s h long short management addressed known proper
  refine ⟨fun c into => ?_, fun buffer =>
    exec_uplinkFrame_buffered h buffer long short
      (dispatchDown_management (s := s.setReceiving .uplink .idle) management addressed).2 (by simp)⟩
  intro u
  have taken {t : State} (takes : takeRequest bytes u = t) :
      exec (.uplinkFrameReceived bytes true) s = .next (dropRef c t) := by
    have dispatched : dispatchDown (some c) bytes u = t :=
      ((dispatchDown_management (s := u) management addressed).1 c).trans takes
    refine exec_uplinkFrame_of_owed h ?_ (by rw [dropRef_owed, ← takes, takeRequest_owed, arrived_owed])
    rw [receiveUplink, endReception_cell into, if_pos (acceptable_iff.2 ⟨rfl, long, short⟩), dispatched]
  refine ⟨fun unknown => taken (takeRequest_denied unknown),
    fun admitted improper => taken (takeRequest_improper admitted improper), fun admitted sound full => ?_, fun admitted sound room => ?_⟩
  · exact taken ((takeRequest_proper (s := u) admitted sound).trans (if_pos full))
  · exact taken ((takeRequest_proper (s := u) admitted sound).trans (if_neg (Nat.not_le.2 room)))

end Sys2Proof.Machine
end

section
/-! SUPPORT. The checks of a request, in the order of R148: O35 and O36. -/

namespace Sys2Proof.Machine

/-! ### Fields within fields -/

theorem bytesAt_length {b : List Byte} {off n : Nat} (inside : n + off ≤ b.length) : (bytesAt b off n).length = n := by
  rw [bytesAt, List.length_take, List.length_drop]
  omega

theorem bytesAt_bytesAt {b : List Byte} {off n k len : Nat} (inside : k + len ≤ n) :
    bytesAt (bytesAt b off n) k len = bytesAt b (off + k) len := by
  simp only [bytesAt, List.drop_take, List.drop_drop, List.take_take]
  congr 1
  omega

theorem natAt_bytesAt {b : List Byte} {off n k len : Nat} (inside : k + len ≤ n) :
    natAt (bytesAt b off n) k len = natAt b (off + k) len := congrArg beNat (bytesAt_bytesAt inside)

/-- A field of one byte carries at most 255. -/
theorem natAt_one_lt (b : List Byte) (off : Nat) : natAt b off 1 < 256 := by
  refine Nat.lt_of_lt_of_le (beNat_lt _) ?_
  have short : (bytesAt b off 1).length ≤ 1 := List.length_take_le 1 (b.drop off)
  exact Nat.pow_le_pow_right (n := 256) (by decide) short

/-- The number of field j of a payload stands behind the fields before it. -/
theorem splitFields_getElem? (ks : List Nat) (bs : List Byte) (j : Nat) :
    (splitFields ks bs)[j]? = ks[j]?.map fun k => natAt bs (ks.take j).sum k := by
  induction ks generalizing bs j with
  | nil => rfl
  | cons k ks ih =>
    cases j with
    | zero => simp [splitFields, natAt, bytesAt]
    | succ j => simp [splitFields, ih, natAt, bytesAt, List.drop_drop]

/-! ### The steps that every request meets (R148 steps 1 to 3) -/

section
variable {r : Request}

/-- The request passes the first two steps of R148: its version is 1, and its length field fits. -/
structure Request.Framed (r : Request) : Prop where
  version : natAt r.body 0 1 = 1
  short : natAt r.body 8 2 ≤ 1024
  inside : natAt r.body 8 2 + 10 ≤ r.body.length

theorem requestRefusal_version (h : natAt r.body 0 1 ≠ 1) : requestRefusal r = some .unknownOp := if_pos h

theorem requestRefusal_length (version : natAt r.body 0 1 = 1)
    (bad : 1024 < natAt r.body 8 2 ∨ r.body.length < natAt r.body 8 2 + 10) : requestRefusal r = some .length := by
  have unfit : r.payload? = none := by
    refine if_neg ?_
    rw [Bool.and_eq_true, decide_eq_true_iff, decide_eq_true_iff, Config.maxPayload]
    show ¬ (natAt r.body 8 2 ≤ 1024 ∧ natAt r.body 8 2 + 10 ≤ r.body.length)
    omega
  rw [requestRefusal, if_neg (not_not.2 (show r.version = 1 from version)), unfit]

theorem Request.Framed.payload? (h : r.Framed) : r.payload? = some (bytesAt r.body 10 (natAt r.body 8 2)) :=
  if_pos (Bool.and_eq_true_iff.2 ⟨decide_eq_true h.short, decide_eq_true h.inside⟩)

theorem requestRefusal_noOp (h : r.Framed) (op : opOf r.op = none) : requestRefusal r = some .unknownOp := by
  rw [requestRefusal, if_neg (not_not.2 (show r.version = 1 from h.version)), h.payload?, op]

/-- A request whose operation is not one of Table 9-5 (R148 steps 1 to 3). -/
theorem requestRefusal_unknown (op : opOf r.op = none) : requestRefusal r = some (
    if natAt r.body 0 1 = 1 ∧ (1024 < natAt r.body 8 2 ∨ r.body.length < natAt r.body 8 2 + 10) then .length
    else .unknownOp) := by
  by_cases version : natAt r.body 0 1 = 1
  · by_cases bad : 1024 < natAt r.body 8 2 ∨ r.body.length < natAt r.body 8 2 + 10
    · rw [if_pos ⟨version, bad⟩, requestRefusal_length version bad]
    · rw [if_neg fun both => bad both.2, requestRefusal_noOp ⟨version, by omega, by omega⟩ op]
  · rw [if_neg fun both => version both.1, requestRefusal_version version]

theorem rowServes_unknown (serves : rowServes .unknown r = true) : opOf r.op = none := by
  unfold rowServes at serves
  split at serves <;> simp_all

/-! ### Table and index (R148 steps 4 and 5) -/

/-- An operation on the entries of a table. -/
def Op.onTable (o : Op) : Prop := o = .readEntry ∨ o = .writeEntry ∨ o = .patchField

/-- An operation has the table that a number names: it needs none, or reads any, or changes a writable one (R148 step 4). -/
def Op.takesTable (o : Op) (number : Nat) : Prop :=
  ¬ o.onTable ∨ ∃ t, tableOf number = some t ∧ (t.writable = true ∨ o = .readEntry)

/-- The indices that an operation takes lie below this (R148 step 5). -/
def Op.indexLimit (o : Op) (number : Nat) : Nat :=
  match o with
  | .readEntry | .writeEntry | .patchField => (tableOf number).elim 0 Table.entries
  | .portCommand => 16
  | .groupCommand => 8
  | .readCounters => 17
  | _ => 256

variable {o : Op}

theorem tableRefusal_eq_none (takes : o.takesTable r.table) (onTable : o.onTable) : tableRefusal o r = none := by
  obtain ⟨t, named, may⟩ := takes.resolve_left (not_not.2 onTable)
  rw [tableRefusal, named]
  refine if_neg ?_
  rcases may with writable | reads
  · simp [writable]
  · simp [reads]

theorem tableRefusal_eq_badTable (bad : ¬ o.takesTable r.table) : tableRefusal o r = some .badTable := by
  unfold tableRefusal
  cases named : tableOf r.table with
  | none => rfl
  | some t =>
    have locked : t.writable ≠ true ∧ o ≠ .readEntry :=
      ⟨fun writable => bad (.inr ⟨t, named, .inl writable⟩), fun reads => bad (.inr ⟨t, named, .inr reads⟩)⟩
    exact if_pos (by simpa using locked)

theorem indexRefusal_eq (o : Op) (r : Request) :
    indexRefusal o r = if r.index < o.indexLimit r.table then none else some .badIndex := by cases o <;> rfl

theorem requestRefusal_onTable (h : r.Framed) (op : opOf r.op = some o) (onTable : o.onTable) : requestRefusal r =
    (tableRefusal o r <|> indexRefusal o r <|> payloadRefusal o r (bytesAt r.body 10 (natAt r.body 8 2))) := by
  rw [requestRefusal, if_neg (not_not.2 (show r.version = 1 from h.version)), h.payload?, op]
  obtain rfl | rfl | rfl := onTable <;> rfl

theorem requestRefusal_offTable (h : r.Framed) (op : opOf r.op = some o) (offTable : ¬ o.onTable) : requestRefusal r =
    (indexRefusal o r <|> payloadRefusal o r (bytesAt r.body 10 (natAt r.body 8 2))) := by
  rw [requestRefusal, if_neg (not_not.2 (show r.version = 1 from h.version)), h.payload?, op]
  cases o
  case readEntry => exact absurd (.inl rfl) offTable
  case writeEntry => exact absurd (.inr (.inl rfl)) offTable
  case patchField => exact absurd (.inr (.inr rfl)) offTable
  all_goals rfl

theorem requestRefusal_badTable (h : r.Framed) (op : opOf r.op = some o) (bad : ¬ o.takesTable r.table) :
    requestRefusal r = some .badTable := by
  rw [requestRefusal_onTable h op (by_contra fun offTable => bad (.inl offTable)), tableRefusal_eq_badTable bad]
  rfl

theorem requestRefusal_index (h : r.Framed) (op : opOf r.op = some o) (takes : o.takesTable r.table) :
    requestRefusal r = (indexRefusal o r <|> payloadRefusal o r (bytesAt r.body 10 (natAt r.body 8 2))) := by
  by_cases onTable : o.onTable
  · rw [requestRefusal_onTable h op onTable, tableRefusal_eq_none takes onTable]
    rfl
  · exact requestRefusal_offTable h op onTable

theorem requestRefusal_badIndex (h : r.Framed) (op : opOf r.op = some o) (takes : o.takesTable r.table)
    (out : o.indexLimit r.table ≤ r.index) : requestRefusal r = some .badIndex := by
  rw [requestRefusal_index h op takes, indexRefusal_eq, if_neg (Nat.not_lt.2 out)]
  rfl

/-- Past table and index, the payload is judged (R148 steps 6 and 7). -/
theorem requestRefusal_payload (h : r.Framed) (op : opOf r.op = some o) (takes : o.takesTable r.table)
    (inside : r.index < o.indexLimit r.table) :
    requestRefusal r = payloadRefusal o r (bytesAt r.body 10 (natAt r.body 8 2)) := by
  rw [requestRefusal_index h op takes, indexRefusal_eq, if_pos inside]
  rfl

end

/-! ### The payload and its encoding (R148 steps 6 and 7) -/

/-- A carried value lies in the encoding of its field, where that is an enumeration or a yes-or-no field (R148 step 7). -/
theorem Table.encodes_iff (t : Table) (n v : Nat) : t.encodes n v = true ↔
    (t = .portConfig → (n = 5 ∨ n = 13 → v ≤ 1) ∧ (n = 6 → v ≤ 2)) ∧
    (t = .rule → (n = 0 → v ≤ 1) ∧ (n = 1 → v ≤ 2) ∧ (n = 7 → v ≤ 8)) ∧
    (t = .classAction → (n = 0 → v ≤ 3) ∧ (n = 1 → v ≤ 1)) ∧
    (t = .group → n = 2 ∨ n = 3 ∨ n = 7 → v ≤ 1) := by
  unfold Table.encodes
  split
  case h_12 => cases t <;> grind
  all_goals simp

/-- A whole entry is encoded where each of its fields is. -/
theorem Table.encodesAll_iff (t : Table) (bs : List Byte) : t.encodesAll bs = true ↔
    ∀ n k : Nat, t.fieldSizes[n]? = some k → t.encodes n (natAt bs (t.fieldSizes.take n).sum k) = true := by
  simp only [Table.encodesAll, List.all_eq_true, Prod.forall, List.mem_zipIdx_iff_getElem?, splitFields_getElem?,
    Option.map_eq_some_iff]
  exact ⟨fun all n k field => all _ n ⟨k, field, rfl⟩, fun all v n ⟨k, field, carried⟩ => carried ▸ all n k field⟩

theorem Table.patchSize_none {t : Table} {n : Nat} (h : t.fieldSizes.length ≤ n ∨ t = .template ∧ n = 1) :
    t.patchSize n = none := by
  unfold Table.patchSize
  split
  · rfl
  · rename_i other
    refine List.getElem?_eq_none (h.resolve_right ?_)
    simpa using other

theorem Table.patchSize_some {t : Table} {n : Nat} (h : ¬ (t.fieldSizes.length ≤ n ∨ t = .template ∧ n = 1)) :
    t.patchSize n = some (t.fieldSizes[n]?.getD 0) := by
  obtain ⟨inside, other⟩ := not_or.1 h
  rw [Table.patchSize, if_neg (by simpa using other), List.getElem?_eq_getElem (Nat.not_le.1 inside), Option.getD_some]

theorem patchRefusal_cons (t : Table) (b : Byte) (value : List Byte) : patchRefusal t (b :: value) =
    if t.fieldSizes.length ≤ b.toNat ∨ t = .template ∧ b.toNat = 1 then some .range
    else if value.length ≠ t.fieldSizes[b.toNat]?.getD 0 then some .length
    else if t.encodes b.toNat (beNat value) then none
    else some .range := by
  split
  · rename_i out
    rw [patchRefusal, Table.patchSize_none out]
  · rename_i named
    rw [patchRefusal, Table.patchSize_some named]

theorem portCommandOf_isSome (code : Nat) : (portCommandOf code).isSome = true ↔ 1 ≤ code ∧ code ≤ 10 := by
  unfold portCommandOf
  split
  case h_11 => grind
  all_goals simp

theorem groupCommandOf_eq_none (code : Nat) : groupCommandOf code = none ↔ code = 0 ∨ 4 < code := by
  unfold groupCommandOf
  split
  case h_5 => grind
  all_goals simp

theorem groupCommandOf_eq_prepare (code : Nat) : groupCommandOf code = some .prepare ↔ code = 3 := by
  unfold groupCommandOf
  split
  case h_5 => grind
  all_goals simp

theorem groupCommandRefusal_cons (b : Byte) (rest : List Byte) : groupCommandRefusal (b :: rest) =
    if b.toNat = 0 ∨ 4 < b.toNat then some .range
    else if rest.length = (if b.toNat = 3 then 4 else 0) then none
    else some .length := by
  have prepares := groupCommandOf_eq_prepare b.toNat
  simp only [← groupCommandOf_eq_none, groupCommandRefusal]
  cases named : groupCommandOf b.toNat with
  | none => rfl
  | some c =>
    rw [named] at prepares
    cases c
    case prepare => rw [if_pos (prepares.1 rfl)]; rfl
    all_goals
      have other : b.toNat ≠ 3 := fun three => by cases prepares.2 three
      rw [if_neg other]
      rfl

end Sys2Proof.Machine
end

section
/-! SUPPORT. A row and the head request (R147, R148): O35. -/

namespace Sys2Proof.Machine

/-- With no request, with a restart awaited, or with another row's request at the head, there is
nothing for a row to perform. -/
def State.Leaves (s : State) (row : Row) : Prop :=
  s.mga.fifo = [] ∨ s.mga.restart ≠ none ∨ ∃ r ∈ s.mga.fifo.head?, rowServes row r = false

/-- What a command makes of a head request that its row refuses, and of one that its row leaves (R147, R148). -/
structure AnswersChecks (row : Row) (run : State → State) : Prop where
  refused : ∀ {s : State} {r : Request} {rest : List Request} {st : Status}, s.Serves row r rest →
    requestRefusal r = some st → run s = finishRequest r rest st [] s
  left : ∀ {s : State}, s.Leaves row → run s = s

theorem performHead_answersChecks (row : Row) (effect : Request → State → Performed) :
    AnswersChecks row (performHead row effect) :=
  ⟨fun serves refusal => performHead_refused serves refusal effect, fun leaves => performHead_idle leaves effect⟩

theorem performPortThen_answersChecks (c : PortCommand) (effect : Port → State → Status × State)
    (later : Port → State → State → State) : AnswersChecks (.port c) (performPortThen c effect later) :=
  ⟨fun serves refusal => performPortThen_refused serves refusal effect later,
    fun leaves => performPortThen_idle leaves effect later⟩

theorem mayPerform_iff (s : State) : mayPerform s = true ↔ s.phase = .running ∧ s.mga.restart = none := by
  simp [mayPerform]

theorem performRestart_answersChecks : AnswersChecks (.op .restart) performRestart where
  refused {s r rest st} serves refusal := by
    rw [performRestart, if_pos ((mayPerform_iff s).2 ⟨serves.running, serves.free⟩), serves.head]
    dsimp only
    rw [if_pos serves.row, refusal]
  left {s} leaves := by
    unfold performRestart
    split
    · rename_i may
      rcases leaves with empty | waits | ⟨r, head, other⟩
      · rw [empty]
      · exact absurd ((mayPerform_iff s).1 may).2 waits
      · cases fifo : s.mga.fifo with
        | nil => rfl
        | cons r' rest =>
          obtain rfl : r' = r := by simpa [fifo] using head
          dsimp only
          rw [if_neg (by simp [other])]
    · rfl

/-- Each of the 23 management rows answers by the checks. -/
theorem exec_answersChecks {c : Instr} {row : Row} (h : rowOf c = some row) :
    ∃ run : State → State, (∀ s, exec c s = .next (run s)) ∧ AnswersChecks row run := by
  cases c <;> try cases h
  case restart => exact ⟨_, exec_restart, performRestart_answersChecks⟩
  case wake => exact ⟨_, exec_wake, performPortThen_answersChecks _ _ _⟩
  case pause => exact ⟨_, exec_pause, performPortThen_answersChecks _ _ _⟩
  all_goals exact ⟨_, fun _ => rfl, performHead_answersChecks _ _⟩

/-- Settles O35: the checks are the same for every row, and for a request that names no operation they are the
first three. -/
theorem refusedRequestIsAnsweredAndHasNoEffect : Obligations.RefusedRequestIsAnsweredAndHasNoEffect := by
  unfold Obligations.RefusedRequestIsAnsweredAndHasNoEffect
  intro c row s h
  obtain ⟨run, runs, answers⟩ := exec_answersChecks h
  refine ⟨fun r rest st serves refusal => ?_, fun leaves => ?_, fun r rest serves => ?_⟩
  · rw [runs, answers.refused serves refusal]
  · rw [runs, answers.left leaves]
  · rw [exec_unknownOpRequest, performHead_refused serves (requestRefusal_unknown (rowServes_unknown serves.row))]

end Sys2Proof.Machine
end

section
/-! SUPPORT. The checks as the statement numbers them (Tables 9-5, 9-6): O36. -/

namespace Sys2Proof.Machine

/-- The codes of the operations, each with the check of its payload, are those of Table 9-5. -/
theorem opOf_none {code : Nat} (h : code = 0 ∨ 10 < code) : opOf code = none := by
  unfold opOf
  split
  case h_11 => rfl
  all_goals omega

/-- The entries of the tables by their numbers (Table 9-6). -/
def tableEntries : List Nat := [0, 16, 48, 32, 9, 8, 4, 1, 16, 8, 64]

/-- The fields of the tables that management writes, by their numbers (Tables 9-4, 9-10). -/
def tableFields : List (List Nat) :=
  [[], [6, 2, 2, 2, 1, 1, 1, 1, 2, 2, 2, 2, 2, 1, 2, 2, 2, 2, 1, 2], [1, 128, 1], [1, 1, 2, 1, 1, 4, 4, 1, 1, 1],
    [1, 1], [6, 2, 1, 1, 2, 2, 2, 1], [2], [6, 6, 6, 1, 1, 1]]

/-- Table t has number `number` (Table 9-6). -/
structure Table.HasNumber (t : Table) (number : Nat) : Prop where
  named : tableOf number = some t
  entries : tableEntries[number]?.getD 0 = t.entries
  writable : t.writable = true ↔ number < 8
  fields : tableFields[number]?.getD [] = t.fieldSizes
  portConfig : t = .portConfig ↔ number = 1
  template : t = .template ↔ number = 2
  rule : t = .rule ↔ number = 3
  classAction : t = .classAction ↔ number = 4
  group : t = .group ↔ number = 5

theorem Table.exists_hasNumber {number : Nat} (low : 1 ≤ number) (high : number ≤ 10) :
    ∃ t : Table, t.HasNumber number := by
  interval_cases number <;> refine ⟨_, rfl, ?_, ?_, ?_, ?_, ?_, ?_, ?_, ?_⟩ <;> decide

theorem tableOf_none {number : Nat} (h : number = 0 ∨ 10 < number) : tableOf number = none := by
  unfold tableOf
  split
  case h_11 => rfl
  all_goals omega

section
variable {r : Request} {t : Table} {o : Op} {number : Nat}

theorem Table.HasNumber.takesTable (h : t.HasNumber number) (may : number < 8 ∨ o = .readEntry) : o.takesTable number :=
  .inr ⟨t, h.named, may.imp_left h.writable.2⟩

theorem Table.HasNumber.indexLimit (h : t.HasNumber number) (onTable : o.onTable) : o.indexLimit number = t.entries := by
  obtain rfl | rfl | rfl := onTable <;> rw [Op.indexLimit, h.named, Option.elim_some]

/-- The carried values of a PORT_CONFIG, RULE, CLASS_ACTION or GROUP entry that are judged lie at these places of the payload
(Table 9-4). -/
theorem Table.encodesAll_at (t : Table) (bs : List Byte) : t.encodesAll bs = true ↔
    (t = .portConfig → natAt bs 13 1 ≤ 1 ∧ natAt bs 14 1 ≤ 2 ∧ natAt bs 26 1 ≤ 1) ∧
    (t = .rule → natAt bs 0 1 ≤ 1 ∧ natAt bs 1 1 ≤ 2 ∧ natAt bs 14 1 ≤ 8) ∧
    (t = .classAction → natAt bs 0 1 ≤ 3 ∧ natAt bs 1 1 ≤ 1) ∧
    (t = .group → natAt bs 8 1 ≤ 1 ∧ natAt bs 9 1 ≤ 1 ∧ natAt bs 16 1 ≤ 1) := by
  simp only [Table.encodesAll_iff, Table.encodes_iff]
  cases t <;> simp only [reduceCtorEq, forall_const, false_imp_iff, and_true, true_and, implies_true]
  case portConfig =>
    refine ⟨fun all => ⟨(all 5 1 rfl).1 (.inl rfl), (all 6 1 rfl).2 rfl, (all 13 1 rfl).1 (.inr rfl)⟩, ?_⟩
    rintro ⟨readiness, method, confirm⟩ n k field
    refine ⟨?_, ?_⟩
    · rintro (rfl | rfl) <;> cases field <;> assumption
    · rintro rfl; cases field; assumption
  case rule =>
    refine ⟨fun all => ⟨(all 0 1 rfl).1 rfl, (all 1 1 rfl).2.1 rfl, (all 7 1 rfl).2.2 rfl⟩, ?_⟩
    rintro ⟨enabled, direction, cls⟩ n k field
    refine ⟨?_, ?_, ?_⟩ <;> rintro rfl <;> cases field <;> assumption
  case classAction =>
    refine ⟨fun all => ⟨(all 0 1 rfl).1 rfl, (all 1 1 rfl).2 rfl⟩, ?_⟩
    rintro ⟨action, activity⟩ n k field
    refine ⟨?_, ?_⟩ <;> rintro rfl <;> cases field <;> assumption
  case group =>
    refine ⟨fun all => ⟨all 2 1 rfl (.inl rfl), all 3 1 rfl (.inr (.inl rfl)), all 7 1 rfl (.inr (.inr rfl))⟩, ?_⟩
    rintro ⟨policy, strict, enabled⟩ n k field
    rintro (rfl | rfl | rfl) <;> cases field <;> assumption

/-- A field that is judged is carried in one byte. -/
theorem Table.encodes_of_size {n : Nat} (h : t.fieldSizes[n]?.getD 0 ≠ 1) (v : Nat) : t.encodes n v = true := by
  unfold Table.encodes
  split
  case h_12 => rfl
  all_goals exact absurd rfl h

theorem Table.HasNumber.not_takesTable (h : t.HasNumber number) (onTable : o.onTable) (locked : 8 ≤ number)
    (changes : o ≠ .readEntry) : ¬ o.takesTable number := by
  rintro (off | ⟨t', named, writable | reads⟩)
  · exact off onTable
  · obtain rfl : t = t' := Option.some.inj (h.named.symm.trans named)
    exact absurd (h.writable.1 writable) (Nat.not_lt.2 locked)
  · exact changes reads

/-- The values of a whole entry that stand in an enumeration or a yes-or-no field, by their places in the payload (Table 9-4). -/
def valuesEncoded (number : Nat) (x : Nat → Nat) : Prop :=
  (number = 1 → x 13 ≤ 1 ∧ x 14 ≤ 2 ∧ x 26 ≤ 1) ∧ (number = 3 → x 0 ≤ 1 ∧ x 1 ≤ 2 ∧ x 14 ≤ 8) ∧
    (number = 4 → x 0 ≤ 3 ∧ x 1 ≤ 1) ∧ (number = 5 → x 8 ≤ 1 ∧ x 9 ≤ 1 ∧ x 16 ≤ 1)

theorem Table.HasNumber.encodesAll_bytesAt {n : Nat} (h : t.HasNumber number) (whole : n = t.writeSize) (b : List Byte) :
    t.encodesAll (bytesAt b 10 n) = true ↔ valuesEncoded number fun k => natAt b (10 + k) 1 := by
  have carried (k : Nat) (fits : k < n) : natAt (bytesAt b 10 n) k 1 = natAt b (10 + k) 1 := natAt_bytesAt fits
  have size {u : Table} (is : t = u) : n = u.writeSize := is ▸ whole
  rw [Table.encodesAll_at, valuesEncoded, ← h.portConfig, ← h.rule, ← h.classAction, ← h.group]
  refine and_congr (imp_congr_right fun is => ?_) (and_congr (imp_congr_right fun is => ?_)
    (and_congr (imp_congr_right fun is => ?_) (imp_congr_right fun is => ?_)))
  · have long : n = 38 := size is
    rw [carried 13 (by omega), carried 14 (by omega), carried 26 (by omega)]
  · have long : n = 17 := size is
    rw [carried 0 (by omega), carried 1 (by omega), carried 14 (by omega)]
  · have long : n = 2 := size is
    rw [carried 0 (by omega), carried 1 (by omega)]
  · have long : n = 17 := size is
    rw [carried 8 (by omega), carried 9 (by omega), carried 16 (by omega)]

/-- The value of a field that is an enumeration or a yes-or-no field, by the field's number (Table 9-4). -/
def valueEncoded (number code v : Nat) : Prop :=
  (number = 1 → (code = 5 ∨ code = 13 → v ≤ 1) ∧ (code = 6 → v ≤ 2)) ∧
    (number = 3 → (code = 0 → v ≤ 1) ∧ (code = 1 → v ≤ 2) ∧ (code = 7 → v ≤ 8)) ∧
    (number = 4 → (code = 0 → v ≤ 3) ∧ (code = 1 → v ≤ 1)) ∧ (number = 5 → code = 2 ∨ code = 3 ∨ code = 7 → v ≤ 1)

theorem Table.HasNumber.encodes_iff (h : t.HasNumber number) (code v : Nat) :
    t.encodes code v = true ↔ valueEncoded number code v := by
  rw [Table.encodes_iff, h.portConfig, h.rule, h.classAction, h.group, valueEncoded]

/-- A payload that is not empty: its first byte, and what follows. -/
theorem Request.Framed.payload_cons (h : r.Framed) (filled : natAt r.body 8 2 ≠ 0) : ∃ (b : Byte) (value : List Byte),
    bytesAt r.body 10 (natAt r.body 8 2) = b :: value ∧ b.toNat = natAt r.body 10 1 ∧
    value.length + 1 = natAt r.body 8 2 ∧ (value.length = 1 → beNat value = natAt r.body 11 1) := by
  have length := bytesAt_length h.inside
  cases payload : bytesAt r.body 10 (natAt r.body 8 2) with
  | nil => rw [payload] at length; exact absurd length.symm filled
  | cons b value =>
    rw [payload, List.length_cons] at length
    refine ⟨b, value, rfl, ?_, length, fun one => ?_⟩
    · rw [← natAt_bytesAt (n := natAt r.body 8 2) (b := r.body) (off := 10) (k := 0) (len := 1) (by omega), payload]
      simp [natAt, bytesAt, beNat]
    · rw [← natAt_bytesAt (n := natAt r.body 8 2) (b := r.body) (off := 10) (k := 1) (len := 1) (by omega), payload]
      have whole : List.take 1 value = value := List.take_of_length_le (by omega)
      simp [natAt, bytesAt, whole]

theorem Op.takesTable_of_off (h : o ≠ .readEntry ∧ o ≠ .writeEntry ∧ o ≠ .patchField) (number : Nat) :
    o.takesTable number := .inl fun onTable => onTable.elim h.1 (·.elim h.2.1 h.2.2)

theorem payloadRefusal_write (named : tableOf r.table = some t) (bs : List Byte) : payloadRefusal .writeEntry r bs =
    if bs.length ≠ t.writeSize then some .length else if t.encodesAll bs then none else some .range := by
  rw [payloadRefusal, named]

theorem payloadRefusal_patch (named : tableOf r.table = some t) (bs : List Byte) :
    payloadRefusal .patchField r bs = patchRefusal t bs := by
  rw [payloadRefusal, named, Option.elim_some]

/-- The operation on a table that a code names (Table 9-5). -/
theorem opOf_onTable {code : Nat} (h : code = 2 ∨ code = 3 ∨ code = 4) : ∃ o, opOf code = some o ∧ o.onTable ∧
    (o = .readEntry ↔ code = 2) := by
  obtain rfl | rfl | rfl := h
  · exact ⟨_, rfl, .inl rfl, by decide⟩
  · exact ⟨_, rfl, .inr (.inl rfl), by decide⟩
  · exact ⟨_, rfl, .inr (.inr rfl), by decide⟩

end

/-- Settles O36: the operation, its table and its index by what they are numbered, then the payload of each operation. -/
theorem requestIsCheckedInOrder : Obligations.RequestIsCheckedInOrder := by
  unfold Obligations.RequestIsCheckedInOrder
  intro r op table index n code entries
  refine ⟨requestRefusal_version, requestRefusal_length, fun version short inside => ?_⟩
  have framed : r.Framed := ⟨version, short, inside⟩
  have length : (bytesAt r.body 10 n).length = n := bytesAt_length inside
  have names {k : Nat} {o : Op} (is : op = k) (codes : opOf k = some o) : opOf r.op = some o :=
    (congrArg opOf is).trans codes
  have small : index < 256 := natAt_one_lt r.body 7
  refine ⟨fun unnamed => requestRefusal_noOp framed (opOf_none unnamed), fun tabled out => ?_, fun changes locked => ?_,
    fun tabled low high out => ?_, fun named => ?_, fun named => ?_, fun named => ?_, fun named within => ?_,
    fun named within => ?_, ?_⟩
  · obtain ⟨o, names, onTable, -⟩ := opOf_onTable tabled
    refine requestRefusal_badTable framed names ?_
    rintro (off | ⟨t, known, -⟩)
    · exact off onTable
    · rw [show tableOf r.table = none from tableOf_none out] at known
      cases known
  · obtain ⟨o, names, onTable, reads⟩ := opOf_onTable (.inr changes)
    obtain ⟨t, numbered⟩ := Table.exists_hasNumber (number := table) (by omega) (by omega)
    exact requestRefusal_badTable framed names
      (numbered.not_takesTable onTable (by omega) fun two => by have := reads.1 two; omega)
  · obtain ⟨o, names, onTable, reads⟩ := opOf_onTable (tabled.imp_right (·.1))
    obtain ⟨t, numbered⟩ := Table.exists_hasNumber low high
    refine requestRefusal_badIndex framed names (numbered.takesTable ?_) ((numbered.indexLimit onTable).trans_le ?_)
    · exact (tabled.imp reads.2 (·.2)).symm
    · rw [← numbered.entries]
      exact out
  · rcases named with ⟨five, out⟩ | ⟨six, out⟩ | ⟨nine, out⟩
    · exact requestRefusal_badIndex framed (names five rfl) (Op.takesTable_of_off (by decide) _) out
    · exact requestRefusal_badIndex framed (names six rfl) (Op.takesTable_of_off (by decide) _) out
    · exact requestRefusal_badIndex framed (names nine rfl) (Op.takesTable_of_off (by decide) _) out
  · -- the operations without a payload
    have empty {o : Op} (code : opOf r.op = some o) (takes : o.takesTable r.table) (within : r.index < o.indexLimit r.table)
        (step : ∀ bs, payloadRefusal o r bs = if bs.length = 0 then none else some .length) :
        requestRefusal r = if n = 0 then none else some .length := by
      rw [requestRefusal_payload framed code takes within, step, length]
    rcases named with one | seven | ten | ⟨nine, within⟩ | ⟨two, low, high, within⟩
    · exact empty (names one rfl) (Op.takesTable_of_off (by decide) _) small fun _ => rfl
    · exact empty (names seven rfl) (Op.takesTable_of_off (by decide) _) small fun _ => rfl
    · exact empty (names ten rfl) (Op.takesTable_of_off (by decide) _) small fun _ => rfl
    · exact empty (names nine rfl) (Op.takesTable_of_off (by decide) _) within fun _ => rfl
    · obtain ⟨t, numbered⟩ := Table.exists_hasNumber low high
      refine empty (names two rfl) (numbered.takesTable (.inr rfl)) (Nat.lt_of_lt_of_eq within ?_) fun _ => rfl
      exact numbered.entries.trans (numbered.indexLimit (.inl rfl)).symm
  · rw [requestRefusal_payload framed (names named rfl) (Op.takesTable_of_off (by decide) _) small]
    show (if (bytesAt r.body 10 n).length = 2 then _ else _) = _
    rw [length]
  · rw [requestRefusal_payload framed (names named rfl) (Op.takesTable_of_off (by decide) _) within]
    show (if (bytesAt r.body 10 n).length ≠ 1 then _
      else if (portCommandOf (beNat (bytesAt r.body 10 n))).isSome then _ else _) = _
    rw [length]
    by_cases one : n = 1
    · have number : beNat (bytesAt r.body 10 n) = code := by rw [one]; rfl
      rw [if_neg (not_not.2 one), if_neg (not_not.2 one)]
      simp only [number, portCommandOf_isSome]
    · rw [if_pos one, if_pos one]
  · rw [requestRefusal_payload framed (names named rfl) (Op.takesTable_of_off (by decide) _) within]
    show groupCommandRefusal (bytesAt r.body 10 n) = _
    by_cases empty : n = 0
    · rw [if_pos empty, empty]
      rfl
    · obtain ⟨b, value, payload, number, rest, -⟩ := framed.payload_cons empty
      have fits : value.length = (if code = 3 then 4 else 0) ↔ n = (if code = 3 then 5 else 1) := by split <;> omega
      rw [if_neg empty, payload, groupCommandRefusal_cons, show b.toNat = code from number]
      simp only [fits]
  · intro sizes fields x encoded named
    refine ⟨fun three low high within => ?_, fun four low high within => ?_⟩
    · obtain ⟨t, numbered⟩ := Table.exists_hasNumber low (high.trans (by decide))
      have onTable : Op.writeEntry.onTable := .inr (.inl rfl)
      rw [requestRefusal_payload framed (names three rfl) (numbered.takesTable (.inl (by omega)))
        (Nat.lt_of_lt_of_eq within (numbered.entries.trans (numbered.indexLimit onTable).symm))]
      rw [payloadRefusal_write numbered.named, length, Table.writeSize,
        ← show fields = t.fieldSizes from numbered.fields]
      by_cases whole : n = fields.sum
      · rw [if_neg (not_not.2 whole), if_neg (not_not.2 whole)]
        exact if_congr (numbered.encodesAll_bytesAt (whole.trans (congrArg List.sum numbered.fields)) r.body) rfl rfl
      · rw [if_pos whole, if_pos whole]
    · obtain ⟨t, numbered⟩ := Table.exists_hasNumber low (high.trans (by decide))
      have onTable : Op.patchField.onTable := .inr (.inr rfl)
      rw [requestRefusal_payload framed (names four rfl) (numbered.takesTable (.inl (by omega)))
        (Nat.lt_of_lt_of_eq within (numbered.entries.trans (numbered.indexLimit onTable).symm)),
        payloadRefusal_patch numbered.named]
      by_cases empty : n = 0
      · rw [if_pos empty, show natAt r.body 8 2 = 0 from empty]
        rfl
      · obtain ⟨b, value, payload, number, rest, one⟩ := framed.payload_cons empty
        have size : fields = t.fieldSizes := numbered.fields
        have unnamed : t.fieldSizes.length ≤ code ∨ t = .template ∧ code = 1 ↔
            fields.length ≤ code ∨ table = 2 ∧ code = 1 := by rw [size, numbered.template]
        have fits : value.length ≠ t.fieldSizes[code]?.getD 0 ↔ n ≠ fields[code]?.getD 0 + 1 := by
          rw [size]
          omega
        rw [if_neg empty, payload, patchRefusal_cons, show b.toNat = code from number]
        refine if_congr unnamed rfl (if_ctx_congr fits (fun _ => rfl) fun whole => if_congr ?_ rfl rfl)
        have same : t.encodes code (beNat value) = t.encodes code (x 1) := by
          by_cases single : t.fieldSizes[code]?.getD 0 = 1
          · rw [one (by rw [size] at whole; omega)]
          · rw [Table.encodes_of_size single, Table.encodes_of_size single]
        rw [same]
        exact numbered.encodes_iff code (x 1)

end Sys2Proof.Machine
end

section
/-! SUPPORT. The frame of a response, field by field (Table 9-2), its placing, and the wait of a RESTART (R149, R158): O37. -/

namespace Sys2Proof.Machine

/-! ### Fields one after the other -/

theorem joinFields_cons (k : Nat) (ks : List Nat) (v : Nat) (vs : List Nat) :
    joinFields (k :: ks) (v :: vs) = natBE k v ++ joinFields ks vs := rfl

/-- Field j of joined fields stands behind the fields before it. -/
theorem bytesAt_joinFields {ks vs : List Nat} {j k v : Nat} (size : ks[j]? = some k) (value : vs[j]? = some v)
    (tail : List Byte) : bytesAt (joinFields ks vs ++ tail) (ks.take j).sum k = natBE k v := by
  induction ks generalizing vs j with
  | nil => cases size
  | cons k' ks ih =>
    cases vs with
    | nil => cases value
    | cons v' vs =>
      rw [joinFields_cons, List.append_assoc]
      cases j with
      | zero =>
        obtain rfl := Option.some.inj size
        obtain rfl := Option.some.inj value
        exact List.take_left' (natBE_length k' v')
      | succ j =>
        have behind : bytesAt (joinFields ks vs ++ tail) (ks.take j).sum k = natBE k v := ih size value
        rw [← behind, List.take_succ_cons, List.sum_cons, bytesAt, ← List.drop_drop, List.drop_left' (natBE_length k' v')]
        rfl

theorem natAt_joinFields {ks vs : List Nat} {j k v : Nat} (size : ks[j]? = some k) (value : vs[j]? = some v)
    (fits : v < 256 ^ k) (tail : List Byte) : natAt (joinFields ks vs ++ tail) (ks.take j).sum k = v := by
  rw [natAt, bytesAt_joinFields size value, beNat_natBE k v fits]

theorem natAt_lt (b : List Byte) (off n : Nat) : natAt b off n < 256 ^ n := by
  refine Nat.lt_of_lt_of_le (beNat_lt _) (Nat.pow_le_pow_right (n := 256) (by decide) ?_)
  exact List.length_take_le n (b.drop off)

theorem padTo_length (n : Nat) (bs : List Byte) : (padTo n bs).length = max n bs.length := by
  rw [padTo, List.length_append, List.length_replicate]
  omega

/-- What pads a frame is zero. -/
theorem padTo_getElem? {n i : Nat} {bs : List Byte} (behind : bs.length ≤ i) (inside : i < (padTo n bs).length) :
    (padTo n bs)[i]? = some 0 := by
  rw [padTo_length] at inside
  rw [padTo, List.getElem?_append_right behind, List.getElem?_replicate, if_pos (by omega)]

/-! ### The frame (Table 9-2) -/

/-- The sizes of the fields of the header, the Ethernet header before them. -/
def headerSizes : List Nat := [6, 6, 2, 1, 1, 2, 1, 1, 1, 1, 2]

/-- The values of the header of a response. -/
def responseHeader (r : Request) (st : Status) (n : Nat) (factory : Addr) : List Nat :=
  [r.source.toNat, factory.toNat, 0x88B6, 1, 2, natAt r.body 2 2, natAt r.body 4 1, st.code, natAt r.body 6 1,
    natAt r.body 7 1, n]

theorem responseFrame_eq (r : Request) (st : Status) (payload : List Byte) (factory : Addr) :
    responseFrame r st payload factory =
      padTo 64 (joinFields headerSizes (responseHeader r st payload.length factory) ++ payload) := by
  simp only [responseFrame, managementFrame, joinFields, headerSizes, responseHeader, addrBytes, List.zip_cons_cons,
    List.zip_nil_right, List.flatMap_cons, List.flatMap_nil, List.append_assoc, List.nil_append]
  rfl

theorem responseHeader_length (r : Request) (st : Status) (n : Nat) (factory : Addr) :
    (joinFields headerSizes (responseHeader r st n factory)).length = 24 := by
  simp [joinFields, headerSizes, responseHeader]

theorem Status.code_lt (st : Status) : st.code < 13 := by cases st <;> decide

section
variable {r : Request} {st : Status} {payload : List Byte} {factory : Addr}

/-- The fields of the header are read back from the frame. -/
theorem natAt_responseFrame {j k v : Nat} (size : headerSizes[j]? = some k)
    (value : (responseHeader r st payload.length factory)[j]? = some v) (fits : v < 256 ^ k) :
    natAt (responseFrame r st payload factory) (headerSizes.take j).sum k = v := by
  rw [responseFrame_eq, padTo, List.append_assoc, natAt_joinFields size value fits]

theorem bytesAt_responseFrame {j k v : Nat} (size : headerSizes[j]? = some k)
    (value : (responseHeader r st payload.length factory)[j]? = some v) :
    bytesAt (responseFrame r st payload factory) (headerSizes.take j).sum k = natBE k v := by
  rw [responseFrame_eq, padTo, List.append_assoc, bytesAt_joinFields size value]

theorem responseFrame_payload : bytesAt (responseFrame r st payload factory) 24 payload.length = payload := by
  rw [responseFrame_eq, padTo, List.append_assoc, bytesAt, List.drop_left' (responseHeader_length r st _ factory)]
  exact List.take_left

theorem responseFrame_length : (responseFrame r st payload factory).length = max 64 (24 + payload.length) := by
  rw [responseFrame_eq, padTo_length, List.length_append, responseHeader_length]

theorem responseFrame_padding {i : Nat} (behind : 24 + payload.length ≤ i)
    (inside : i < (responseFrame r st payload factory).length) : (responseFrame r st payload factory)[i]? = some 0 := by
  rw [responseFrame_eq] at inside ⊢
  refine padTo_getElem? ?_ inside
  rw [List.length_append, responseHeader_length]
  exact behind

end

/-! ### RESTART (R158) -/

theorem performRestart_accepts {r : Request} {rest : List Request} {s : State} (h : s.Accepts (.op .restart) r rest) :
    performRestart s = (respond r .ok [] s).2.modMga fun m =>
      { m with fifo := rest, restart := some (restartWait (respond r .ok [] s).1) } := by
  simp only [performRestart, mayPerform, h.running, h.free, h.head, h.row, h.passes, decide_true, Option.isNone_none,
    Bool.and_self, if_true]

/-- Settles O37: the frame by its fields, the end of a request by what becomes of its response. -/
theorem responseIsBuiltAndPlacedOrLost : Obligations.ResponseIsBuiltAndPlacedOrLost := by
  unfold Obligations.ResponseIsBuiltAndPlacedOrLost
  intro r rest st payload s short bs
  refine ⟨⟨bytesAt_responseFrame (j := 0) rfl rfl, bytesAt_responseFrame (j := 1) rfl rfl,
    natAt_responseFrame (j := 2) rfl rfl (by decide), natAt_responseFrame (j := 3) rfl rfl (by decide),
    natAt_responseFrame (j := 4) rfl rfl (by decide), natAt_responseFrame (j := 5) rfl rfl (natAt_lt _ _ _),
    natAt_responseFrame (j := 6) rfl rfl (natAt_lt _ _ _),
    natAt_responseFrame (j := 7) rfl rfl (st.code_lt.trans (by decide)),
    natAt_responseFrame (j := 8) rfl rfl (natAt_lt _ _ _), natAt_responseFrame (j := 9) rfl rfl (natAt_lt _ _ _),
    natAt_responseFrame (j := 10) rfl rfl (Nat.lt_of_le_of_lt short (by decide)), responseFrame_payload,
    responseFrame_length, fun i => responseFrame_padding⟩, rfl, ?_⟩
  intro lost waits ok
  refine ⟨fun empty => ⟨?_, fun accepts => ?_⟩, fun c free head => ⟨fun full => ⟨?_, fun accepts => ?_⟩, fun room => ?_⟩⟩
  · rw [finishRequest, respond_empty r st payload s empty]; rfl
  · rw [exec_restart, performRestart_accepts accepts, respond_empty r .ok [] s empty]; rfl
  · rw [finishRequest, respond_full r st payload s c free head full]; rfl
  · rw [exec_restart, performRestart_accepts accepts, respond_full r .ok [] s c free head full]; rfl
  · intro placed
    refine ⟨?_, fun accepts => ?_⟩
    · rw [finishRequest, respond_room r st payload s c free head room]
    · rw [exec_restart, performRestart_accepts accepts, respond_room r .ok [] s c free head room]; rfl

end Sys2Proof.Machine
end

section
/-! SUPPORT. IDENTIFY, READ_COUNTERS and READ_EVENTS (R150, R163, R165): O38. -/

namespace Sys2Proof.Machine

section
variable {row : Row} {effect : Request → State → Performed} {r : Request} {rest : List Request} {s w : State} {st : Status}
  {payload : List Byte}

/-- A taken request whose effect hands nothing on. -/
theorem performHead_of_owed (h : s.Accepts row r rest) (performs : effect r s = (st, payload, w)) (owed : w.owed = s.owed) :
    performHead row effect s = finishRequest r rest st payload w := by
  rw [performHead_accepts h, performs, settle_of_owed (owed.trans h.settled)]

/-! ### The identity and the counters -/

theorem performReadCounters_port {p : Port} (named : natAt r.body 7 1 = p.val) : performReadCounters r s =
    (.ok, portCountersForm (s.port p), s.modPort p fun x => { x with counts := Counts.zero }) := by
  have other : r.index ≠ 16 := fun device => absurd (named.symm.trans device) (Nat.ne_of_lt p.isLt)
  rw [performReadCounters, if_neg other, Request.port_eq named]
  rfl

theorem performReadCounters_device (named : natAt r.body 7 1 = 16) : performReadCounters r s =
    (.ok, deviceCountersForm s.evu.counts, s.modEvu fun v => { v with counts := DeviceCounts.zero }) := if_pos named

/-! ### The reported events -/

theorem reportedSet_getLsbD (s : State) (e : Fin 16) :
    (reportedSet s).getLsbD e.val = (s.evu.events[e].pending && s.evu.events[e].mask) :=
  hasPort_portsWhere (fun e => s.evu.events[e].reported) e

/-- A reported event is no longer pending; every other stays as it was (R163). -/
theorem clearReported_event (s : State) (e : Fin 16) : (clearReported s).evu.events[e] =
    { s.evu.events[e] with pending := s.evu.events[e].pending && !s.evu.events[e].mask } := by
  have cleared : (clearReported s).evu.events[e] = if s.evu.events[e].reported then
      { s.evu.events[e] with pending := false } else s.evu.events[e] := Vector.getElem_map _ _
  rw [cleared]
  obtain ⟨pending, mask, detail⟩ := s.evu.events[e]
  cases pending <;> cases mask <;> rfl

end

/-- Settles O38, command by command; none of the three hands anything on. -/
theorem identityCountersAndEventsAreRead : Obligations.IdentityCountersAndEventsAreRead := by
  unfold Obligations.IdentityCountersAndEventsAreRead
  intro r rest s
  refine ⟨fun h => ?_, fun h => ⟨fun p named => ?_, fun named => ?_⟩, fun h => ?_⟩
  · rw [exec_identify, performHead_of_owed h rfl rfl]
    rfl
  · intro c head tail capture
    have form : portCountersForm (s.port p) = (head ++ c.dropped.toList ++ tail).flatMap (natBE 4) ++
        natBE 1 (s.port p).probe.mismatches ++ capture := by
      unfold portCountersForm capture
      cases (s.port p).probe.capture <;> rfl
    rw [exec_readCounters, performHead_of_owed h (performReadCounters_port named) rfl, form]
  · intro c
    have form : deviceCountersForm c = natBE 4 c.lengthErrors ++ natBE 4 c.unknownDest ++ natBE 4 c.denied ++
        natBE 4 c.fifoOverflows ++ natBE 4 c.corrections ++ natBE 4 c.poisonings := by simp [deviceCountersForm]
    rw [exec_readCounters, performHead_of_owed h (performReadCounters_device named) rfl, form]
    rfl
  · refine ⟨reportedSet s, clearReported s, reportedSet_getLsbD s, ?_, rfl, clearReported_event s, rfl, rfl⟩
    intro reported
    rw [exec_readEvents, performHead_of_owed h (w := clearReported s) rfl rfl]
    rfl

end Sys2Proof.Machine
end

section
/-! SUPPORT. The payload forms of the entries (Tables 9-4, 9-8, 9-9, 9-10): how they are written out, and that an entry is read
back from its form: O49. -/

namespace Sys2Proof.Machine

/-! ### The forms of the TBM entries written out (Table 9-4) -/

theorem PortConfig.joinFields_eq (c : PortConfig) : joinFields Table.portConfig.fieldSizes c.fields =
    natBE 6 c.station.toNat ++ natBE 2 c.standby ++ natBE 2 c.active ++ natBE 2 c.inrush ++ natBE 1 c.holdLimit ++
      natBE 1 c.readiness.code ++ natBE 1 (methodCode (some c.firstMethod)) ++ natBE 1 c.attempts ++
      natBE 2 c.attemptWindow ++ natBE 2 c.spacing ++ natBE 2 c.coldWindow ++ natBE 2 c.offHold ++
      natBE 2 c.pulseWidth ++ natBE 1 c.confirmMode.code ++ natBE 2 c.confirmWindow ++ natBE 2 c.idle ++
      natBE 2 c.deepIdle ++ natBE 2 c.probeInterval ++ natBE 1 c.missLimit ++ natBE 2 c.ageLimit := by
  simp only [List.append_assoc]
  rfl

/-- A TEMPLATE is carried with 128 B. -/
theorem Template.padded_length (t : Template) : (padTo 128 ((t.bytes.take 128).take t.length)).length = 128 := by
  rw [padTo_length, List.length_take, List.length_take]
  omega

theorem Template.joinFields_eq (t : Template) : joinFields Table.template.fieldSizes t.fields =
    natBE 1 t.length ++ padTo 128 ((t.bytes.take 128).take t.length) ++ natBE 1 t.seqOffset := by
  rw [← natBE_beNat _ 128 t.padded_length, List.append_assoc]
  rfl

theorem Rule.joinFields_eq (e : Rule) : joinFields Table.rule.fieldSizes e.fields =
    natBE 1 (boolNat e.enabled) ++ natBE 1 e.direction.code ++ natBE 2 e.scope.toNat ++ natBE 1 e.offset ++
      natBE 1 e.length ++ natBE 4 e.mask.toNat ++ natBE 4 e.value.toNat ++ natBE 1 e.cls.index.val ++
      natBE 1 (e.keyOffset.getD 255) ++ natBE 1 (e.seqOffset.getD 255) := by
  simp only [List.append_assoc]
  rfl

theorem ClassAction.joinFields_eq (a : ClassAction) : joinFields Table.classAction.fieldSizes a.fields =
    natBE 1 a.action.code ++ natBE 1 (boolNat a.activity) := rfl

theorem GroupConfig.joinFields_eq (c : GroupConfig) : joinFields Table.group.fieldSizes c.fields =
    natBE 6 c.address.toNat ++ natBE 2 c.members.toNat ++ natBE 1 c.policy.code ++ natBE 1 (boolNat c.strict) ++
      natBE 2 c.window ++ natBE 2 c.margin ++ natBE 2 c.armHold ++ natBE 1 (boolNat c.enabled) := by
  simp only [List.append_assoc]
  rfl

/-! ### The lengths of the status forms (Tables 9-8, 9-9) -/

/-- What may be absent is as long as its form (Table 9-8 NOTE). -/
theorem orAbsent_length {α : Type} {width : Nat} {form : α → List Byte} (wide : 0 < width)
    (long : ∀ x, (form x).length = width) (x : Option α) : (orAbsent width form x).length = width := by
  cases x with
  | some x => exact long x
  | none =>
    rw [orAbsent, List.length_append, natBE_length, List.length_replicate]
    omega

theorem estimateForm_length (e : Option Nat) : (estimateForm e).length = 3 := by
  rw [estimateForm, List.length_append, natBE_length, natBE_length]

theorem portStatusForm_length (s : State) (p : Port) : (portStatusForm s p).length = 42 := by
  unfold portStatusForm
  generalize s.port p = x
  simp only [List.length_append, natBE_length, estimateForm_length]
  rw [orAbsent_length (width := 4) (by decide) fun _ => rfl, orAbsent_length (width := 5) (by decide) fun _ => rfl,
    orAbsent_length (width := 5) (by decide) fun _ => rfl, orAbsent_length (width := 5) (by decide) fun _ => rfl]

theorem groupStatusForm_length (s : State) (g : Group) : (groupStatusForm s g).length = 31 := by
  unfold groupStatusForm
  simp only [List.length_append, natBE_length]
  rw [orAbsent_length (by decide) (natBE_length 4)]

/-! ### Codes read back -/

theorem ReadinessMode.ofNat_code (m : ReadinessMode) : (if m.code = 0 then ReadinessMode.sign else .anyFrame) = m := by
  cases m <;> rfl

theorem ConfirmMode.ofNat_code (m : ConfirmMode) : (if m.code = 0 then ConfirmMode.ack else .silence) = m := by
  cases m <;> rfl

theorem Policy.ofNat_code (m : Policy) : (if m.code = 0 then Policy.partialSet else .abandon) = m := by
  cases m <;> rfl

theorem Method.ofCode_methodCode (m : Method) : Method.ofCode (methodCode (some m)) = m := by cases m <;> rfl

theorem Direction.ofCode_code (d : Direction) : Direction.ofCode d.code = d := by cases d <;> rfl

theorem Action.ofCode_code (a : Action) : Action.ofCode a.code = a := by cases a <;> rfl

theorem FrameClass.ofCode_index (c : FrameClass) : FrameClass.ofCode c.index.val = c := by cases c <;> rfl

theorem boolNat_ne_zero (b : Bool) : (boolNat b != 0) = b := by cases b <;> rfl

theorem offsetOf_offsetNat {o : Option Nat} (small : ∀ n ∈ o, n < 255) : offsetOf (offsetNat o) = o := by
  cases o with
  | none => rfl
  | some n => exact if_neg (Nat.ne_of_lt (small n rfl))

theorem offsetNat_lt {o : Option Nat} (small : ∀ n ∈ o, n < 255) : offsetNat o < 256 ^ 1 := by
  cases o with
  | none => decide
  | some n => exact Nat.lt_trans (small n rfl) (by decide)

theorem boolNat_lt (b : Bool) : boolNat b < 256 ^ 1 := by cases b <;> decide

theorem ReadinessMode.code_lt (m : ReadinessMode) : m.code < 256 ^ 1 := by cases m <;> decide

theorem ConfirmMode.code_lt (m : ConfirmMode) : m.code < 256 ^ 1 := by cases m <;> decide

theorem Policy.code_lt (m : Policy) : m.code < 256 ^ 1 := by cases m <;> decide

theorem methodCode_lt (m : Option Method) : methodCode m < 256 ^ 1 := by rcases m with _ | _ | _ | _ <;> decide

theorem Direction.code_lt (d : Direction) : d.code < 256 ^ 1 := by cases d <;> decide

theorem Action.code_lt (a : Action) : a.code < 256 ^ 1 := by cases a <;> decide

/-! ### Entries read back -/

theorem PortConfig.setAll_fields (start c : PortConfig) : setAll PortConfig.setField start c.fields = c := by
  simp only [setAll, PortConfig.fields, List.zipIdx_cons, List.zipIdx_nil, List.foldl_cons, List.foldl_nil,
    PortConfig.setField, ReadinessMode.ofNat_code, ConfirmMode.ofNat_code, Method.ofCode_methodCode,
    BitVec.ofNat_toNat, BitVec.setWidth_eq]

theorem Rule.setAll_fields {e : Rule} (key : ∀ o ∈ e.keyOffset, o < 255) (seq : ∀ o ∈ e.seqOffset, o < 255) :
    setAll Rule.setField Rule.default e.fields = e := by
  simp only [setAll, Rule.fields, List.zipIdx_cons, List.zipIdx_nil, List.foldl_cons, List.foldl_nil,
    Rule.setField, Direction.ofCode_code, FrameClass.ofCode_index, boolNat_ne_zero, offsetOf_offsetNat key,
    offsetOf_offsetNat seq, BitVec.ofNat_toNat, BitVec.setWidth_eq]

theorem ClassAction.setAll_fields (start a : ClassAction) : setAll ClassAction.setField start a.fields = a := by
  simp only [setAll, ClassAction.fields, List.zipIdx_cons, List.zipIdx_nil, List.foldl_cons, List.foldl_nil,
    ClassAction.setField, Action.ofCode_code, boolNat_ne_zero]

theorem GroupConfig.setAll_fields (start c : GroupConfig) : setAll GroupConfig.setField start c.fields = c := by
  simp only [setAll, GroupConfig.fields, List.zipIdx_cons, List.zipIdx_nil, List.foldl_cons, List.foldl_nil,
    GroupConfig.setField, Policy.ofNat_code, boolNat_ne_zero, BitVec.ofNat_toNat, BitVec.setWidth_eq]

theorem PortConfig.ofPayload_form {c : PortConfig} (bytes : ∀ n ∈ [c.holdLimit, c.attempts, c.missLimit], n < 256)
    (words : ∀ n ∈ [c.standby, c.active, c.inrush, c.attemptWindow, c.spacing, c.coldWindow, c.offHold, c.pulseWidth,
      c.confirmWindow, c.idle, c.deepIdle, c.probeInterval, c.ageLimit], n < 65536) :
    PortConfig.ofPayload (joinFields Table.portConfig.fieldSizes c.fields) = c := by
  rw [PortConfig.ofPayload, splitFields_joinFields Table.portConfig.fieldSizes c.fields rfl, PortConfig.setAll_fields]
  simp only [List.forall_mem_cons] at bytes words
  obtain ⟨holdLimit, attempts, missLimit, -⟩ := bytes
  obtain ⟨standby, active, inrush, attemptWindow, spacing, coldWindow, offHold, pulseWidth, confirmWindow, idle, deepIdle,
    probeInterval, ageLimit, -⟩ := words
  simp only [Table.fieldSizes, PortConfig.fields, List.zip_cons_cons, List.zip_nil_right, List.forall_mem_cons]
  exact ⟨c.station.isLt, standby, active, inrush, holdLimit, c.readiness.code_lt, methodCode_lt _, attempts, attemptWindow,
    spacing, coldWindow, offHold, pulseWidth, c.confirmMode.code_lt, confirmWindow, idle, deepIdle, probeInterval, missLimit,
    ageLimit, List.forall_mem_nil _⟩

/-- The padding of a TEMPLATE whose bytes beyond the length are zero is what it holds there. -/
theorem padTo_take {n len : Nat} {bs : List Byte} (long : bs.length = n) (short : len ≤ n) (zeros : ∀ b ∈ bs.drop len, b = 0) :
    padTo n (bs.take len) = bs := by
  have tail : bs.drop len = List.replicate (n - len) 0 :=
    List.eq_replicate_iff.2 ⟨by rw [List.length_drop, long], zeros⟩
  rw [padTo, List.length_take, long, Nat.min_eq_left short, ← tail, List.take_append_drop]

theorem Template.ofPayload_form {t : Template} (short : t.length ≤ 128) (long : t.bytes.length = 128)
    (zeros : ∀ b ∈ t.bytes.drop t.length, b = 0) (offset : t.seqOffset < 256) :
    Template.ofPayload (joinFields Table.template.fieldSizes t.fields) = t := by
  have stored : natBE 128 (beNat (padTo 128 ((t.bytes.take 128).take t.length))) = t.bytes := by
    rw [natBE_beNat _ 128 t.padded_length, List.take_of_length_le (Nat.le_of_eq long), padTo_take long short zeros]
  have carried : splitFields Table.template.fieldSizes (joinFields Table.template.fieldSizes t.fields) = t.fields := by
    refine splitFields_joinFields _ _ rfl ?_
    simp only [Table.fieldSizes, Template.fields, List.zip_cons_cons, List.zip_nil_right, List.forall_mem_cons]
    refine ⟨Nat.lt_of_le_of_lt short (by decide), ?_, offset, List.forall_mem_nil _⟩
    have bounded := beNat_lt (padTo 128 ((t.bytes.take 128).take t.length))
    rwa [t.padded_length] at bounded
  rw [Template.ofPayload, carried]
  simp only [setAll, Template.fields, List.zipIdx_cons, List.zipIdx_nil, List.foldl_cons, List.foldl_nil,
    Template.setField, stored, padTo_take long short zeros]

theorem Rule.ofPayload_form {e : Rule} (offset : e.offset < 256) (length : e.length < 256)
    (key : ∀ o ∈ e.keyOffset, o < 255) (seq : ∀ o ∈ e.seqOffset, o < 255) :
    Rule.ofPayload (joinFields Table.rule.fieldSizes e.fields) = e := by
  rw [Rule.ofPayload, splitFields_joinFields Table.rule.fieldSizes e.fields rfl, Rule.setAll_fields key seq]
  simp only [Table.fieldSizes, Rule.fields, List.zip_cons_cons, List.zip_nil_right, List.forall_mem_cons]
  exact ⟨boolNat_lt _, e.direction.code_lt, e.scope.isLt, offset, length, e.mask.isLt, e.value.isLt,
    Nat.lt_trans e.cls.index.isLt (by decide), offsetNat_lt key, offsetNat_lt seq, List.forall_mem_nil _⟩

theorem ClassAction.ofPayload_form (a : ClassAction) :
    ClassAction.ofPayload (joinFields Table.classAction.fieldSizes a.fields) = a := by
  rw [ClassAction.ofPayload, splitFields_joinFields Table.classAction.fieldSizes a.fields rfl, ClassAction.setAll_fields]
  simp only [Table.fieldSizes, ClassAction.fields, List.zip_cons_cons, List.zip_nil_right, List.forall_mem_cons]
  exact ⟨a.action.code_lt, boolNat_lt _, List.forall_mem_nil _⟩

theorem GroupConfig.ofPayload_form {c : GroupConfig} (words : ∀ n ∈ [c.window, c.margin, c.armHold], n < 65536) :
    GroupConfig.ofPayload (joinFields Table.group.fieldSizes c.fields) = c := by
  rw [GroupConfig.ofPayload, splitFields_joinFields Table.group.fieldSizes c.fields rfl, GroupConfig.setAll_fields]
  simp only [List.forall_mem_cons] at words
  obtain ⟨window, margin, armHold, -⟩ := words
  simp only [Table.fieldSizes, GroupConfig.fields, List.zip_cons_cons, List.zip_nil_right, List.forall_mem_cons]
  exact ⟨c.address.isLt, c.members.isLt, c.policy.code_lt, boolNat_lt _, window, margin, armHold, boolNat_lt _,
    List.forall_mem_nil _⟩

end Sys2Proof.Machine
end

section
/-! SUPPORT. READ_ENTRY, table by table (R151): O49. -/

namespace Sys2Proof.Machine

section
variable {r : Request} {rest : List Request} {s : State}

/-! ### What each table's read comes to -/

theorem performReadEntry_portConfig {p : Port} (table : natAt r.body 6 1 = 1) (index : natAt r.body 7 1 = p.val) :
    performReadEntry r s =
      answerRead (fun c => joinFields Table.portConfig.fieldSizes c.fields) (readPortConfigWithEffect p s) := by
  simp only [performReadEntry, Request.table_eq table, tableOf, Request.port_eq index]

theorem performReadEntry_template {i : Fin 48} (table : natAt r.body 6 1 = 2) (index : natAt r.body 7 1 = i.val) :
    performReadEntry r s = answerRead (fun t => joinFields Table.template.fieldSizes t.fields) (readTemplate i s) := by
  simp only [performReadEntry, Request.table_eq table, tableOf, Request.ofNat_index index]

theorem performReadEntry_rule {i : Fin 32} (table : natAt r.body 6 1 = 3) (index : natAt r.body 7 1 = i.val) :
    performReadEntry r s = answerRead (fun e => joinFields Table.rule.fieldSizes e.fields) (readRule i s) := by
  simp only [performReadEntry, Request.table_eq table, tableOf, Request.ofNat_index index]

theorem performReadEntry_classAction {i : Fin 9} (table : natAt r.body 6 1 = 4) (index : natAt r.body 7 1 = i.val) :
    performReadEntry r s =
      answerRead (fun a => joinFields Table.classAction.fieldSizes a.fields) (readClassAction i s) := by
  simp only [performReadEntry, Request.table_eq table, tableOf, Request.ofNat_index index]

theorem performReadEntry_group {g : Group} (table : natAt r.body 6 1 = 5) (index : natAt r.body 7 1 = g.val) :
    performReadEntry r s = answerRead (fun c => joinFields Table.group.fieldSizes c.fields) (readGroup g s) := by
  simp only [performReadEntry, Request.table_eq table, tableOf, Request.group_eq index]

theorem performReadEntry_domain {d : Domain} (table : natAt r.body 6 1 = 6) (index : natAt r.body 7 1 = d.val) :
    performReadEntry r s = (.ok, domainForm s d, s) := by
  simp only [performReadEntry, Request.table_eq table, tableOf, Request.ofNat_index index]

theorem performReadEntry_device (table : natAt r.body 6 1 = 7) : performReadEntry r s = (.ok, deviceForm s, s) := by
  simp only [performReadEntry, Request.table_eq table, tableOf]

theorem performReadEntry_portStatus {p : Port} (table : natAt r.body 6 1 = 8) (index : natAt r.body 7 1 = p.val) :
    performReadEntry r s = (.ok, portStatusForm s p, s) := by
  simp only [performReadEntry, Request.table_eq table, tableOf, Request.port_eq index]

theorem performReadEntry_groupStatus {g : Group} (table : natAt r.body 6 1 = 9) (index : natAt r.body 7 1 = g.val) :
    performReadEntry r s = (.ok, groupStatusForm s g, s) := by
  simp only [performReadEntry, Request.table_eq table, tableOf, Request.group_eq index]

/-- Record i of port p is entry 4p + i (Table 6-2). -/
theorem performReadEntry_proxy {p : Port} {i : Fin 4} (table : natAt r.body 6 1 = 10)
    (index : natAt r.body 7 1 = 4 * p.val + i.val) : performReadEntry r s =
      if (s.port p).proxies[i].occupied then
        answerRead (fun e => proxyForm e (s.port p).proxies[i].age) (readProxy (proxyIndex p i) s)
      else (.ok, List.replicate 266 0, s) := by
  have entry : Fin.ofNat 64 r.index = proxyIndex p i := Request.ofNat_index index
  simp only [performReadEntry, Request.table_eq table, tableOf, entry, readProxyEntry, proxyPort_proxyIndex,
    proxySlot_proxyIndex]

/-! ### The answer -/

section
variable {α : Type} {form : α → List Byte} {read : Option α × State} {bs : List Byte} {w : State} {st : Status}

theorem exec_readEntry_of_owed (h : s.Accepts (.op .readEntry) r rest) (performs : performReadEntry r s = (st, bs, w))
    (owed : w.owed = s.owed) : exec .readEntry s = .next (finishRequest r rest st bs w) := by
  rw [exec_readEntry, performHead_of_owed h performs owed]

/-- A read that hands its entry over is answered with the entry's form, one that does not with POISONED (R151). -/
theorem exec_readEntry_answers (h : s.Accepts (.op .readEntry) r rest)
    (comes : performReadEntry r s = answerRead form read) (owed : read.2.owed = s.owed) :
    (∀ e, read.1 = some e → exec .readEntry s = .next (finishRequest r rest .ok (form e) read.2)) ∧
      (read.1 = none → exec .readEntry s = .next (finishRequest r rest .poisoned [] read.2)) := by
  obtain ⟨handed, u⟩ := read
  refine ⟨fun e some => ?_, fun none => ?_⟩
  · obtain rfl := some
    exact exec_readEntry_of_owed h comes owed
  · obtain rfl := none
    exact exec_readEntry_of_owed h comes owed

end

end

/-- Settles O49: what each table's read comes to and the form it answers with; then the codes, and the entries read back from
their forms. -/
theorem entryIsReadInItsForm : Obligations.EntryIsReadInItsForm := by
  unfold Obligations.EntryIsReadInItsForm
  intro portForm templateForm ruleForm actionForm groupForm
  refine ⟨fun r rest s h => ?_, by decide, fun c bytes words => ?_, fun t short long zeros offset => ?_,
    fun e offset length key seq => ?_, fun a => ?_, fun c words => ?_⟩
  · intro table index yes ok poisoned
    refine ⟨fun names p at_p => ?_, fun names i at_i => ?_, fun names i at_i => ?_, fun names i at_i => ?_,
      fun names g at_g => ?_, fun names d at_d => ?_, fun names => ?_, fun names p at_p => ?_, fun names g at_g => ?_,
      fun names p i at_i => ?_⟩
    · -- PORT_CONFIG: the port is told of a read that poisons (R9)
      have comes := performReadEntry_portConfig (s := s) names at_p
      refine ⟨fun c handed => ?_, fun nothing => ⟨fun disabled => ?_, fun enabled => ?_⟩⟩
      · rw [readPortConfigWithEffect_quiet (.inl (by rw [handed]; exact Option.some_ne_none _))] at comes
        have answers := (exec_readEntry_answers h comes (readPortConfig_owed p s)).1 c handed
        rwa [c.joinFields_eq] at answers
      · rw [readPortConfigWithEffect_quiet (.inr disabled)] at comes
        exact (exec_readEntry_answers h comes (readPortConfig_owed p s)).2 nothing
      · rw [readPortConfigWithEffect_poisoned nothing enabled] at comes
        show exec .readEntry s = _
        rw [exec_readEntry, performHead_accepts h, comes]
        rfl
    · obtain ⟨handed, nothing⟩ := exec_readEntry_answers h (performReadEntry_template names at_i) (readTemplate_owed i s)
      simp only [Template.joinFields_eq] at handed
      exact ⟨handed, nothing⟩
    · obtain ⟨handed, nothing⟩ := exec_readEntry_answers h (performReadEntry_rule names at_i) (readRule_owed i s)
      simp only [Rule.joinFields_eq] at handed
      exact ⟨handed, nothing⟩
    · exact exec_readEntry_answers h (performReadEntry_classAction names at_i) (readClassAction_owed i s)
    · obtain ⟨handed, nothing⟩ := exec_readEntry_answers h (performReadEntry_group names at_g) (readGroup_owed g s)
      simp only [GroupConfig.joinFields_eq] at handed
      exact ⟨handed, nothing⟩
    · exact exec_readEntry_of_owed h (performReadEntry_domain names at_d) rfl
    · exact exec_readEntry_of_owed h (performReadEntry_device names) rfl
    · intro x bs
      have form : portStatusForm s p = bs := by
        unfold portStatusForm estimateForm wakeEntry? scheduleEntry?
        simp only [← List.append_assoc]
        repeat' refine congrArg₂ HAppend.hAppend ?_ ?_
        any_goals rfl
        · cases (s.port p).fault <;> rfl
        · cases (s.port p).lastWake <;> rfl
        · cases s.adm.wakeQueue.find? (·.port = p) <;> rfl
        · cases s.adm.schedule.find? (·.port = p) <;> rfl
      rw [← form]
      exact ⟨exec_readEntry_of_owed h (performReadEntry_portStatus names at_p) rfl, portStatusForm_length s p⟩
    · intro a x bs
      have form : groupStatusForm s g = bs := by
        unfold groupStatusForm
        repeat' refine congrArg₂ HAppend.hAppend ?_ ?_
        any_goals rfl
        cases (s.group g).arm.target <;> rfl
      rw [← form]
      exact ⟨exec_readEntry_of_owed h (performReadEntry_groupStatus names at_g) rfl, groupStatusForm_length s g⟩
    · have comes := performReadEntry_proxy (s := s) names at_i
      intro j
      refine ⟨fun free => ?_, fun occupied => ?_⟩
      · rw [if_neg (by rw [free]; decide)] at comes
        exact exec_readEntry_of_owed h comes rfl
      · rw [if_pos occupied] at comes
        exact exec_readEntry_answers h comes (readProxy_owed j s)
  · have whole := PortConfig.ofPayload_form bytes words
    rwa [c.joinFields_eq] at whole
  · have whole := Template.ofPayload_form short long zeros offset
    rwa [t.joinFields_eq] at whole
  · have whole := Rule.ofPayload_form offset length key seq
    rwa [e.joinFields_eq] at whole
  · exact ClassAction.ofPayload_form a
  · have whole := GroupConfig.ofPayload_form words
    rwa [c.joinFields_eq] at whole

end Sys2Proof.Machine
end

section
/-! SUPPORT. WRITE_ENTRY, table by table (R152): what a write of every field of an entry comes to: O50. -/

namespace Sys2Proof.Machine

/-- A whole write is refused with RANGE by any field that is out of its range, and passes with none. -/
theorem findSome?_judges {α : Type} {refusal : α → Option Status} {outOfRange : α → Prop} (l : List α)
    (judges : ∀ x, (outOfRange x → refusal x = some .range) ∧ (¬ outOfRange x → refusal x = none)) :
    ((∃ x ∈ l, outOfRange x) → l.findSome? refusal = some .range) ∧
      (¬ (∃ x ∈ l, outOfRange x) → l.findSome? refusal = none) := by
  induction l with
  | nil => simp
  | cons x l ih =>
    obtain ⟨out, inside⟩ := judges x
    rw [List.findSome?_cons]
    by_cases bad : outOfRange x
    · simp [out bad, bad]
    · simpa [inside bad, bad] using ih

/-! ### PORT_CONFIG (R2, R3) -/

/-- Some field of a configuration is out of its range (R2, R3). -/
theorem PortConfig.exists_outOfRange_iff (c : PortConfig) : (∃ n ∈ List.range 20, c.outOfRange n) ↔
    1000 < c.standby ∨ 1000 < c.active ∨ 1000 < c.inrush ∨ c.active < c.standby ∨ c.inrush < c.active ∨
      c.holdLimit < 1 ∨ 32 < c.holdLimit ∨ c.attempts < 1 ∨ 8 < c.attempts ∨ c.attemptWindow < 50 ∨
      65535 < c.attemptWindow ∨ 10000 < c.spacing ∨ c.coldWindow < 500 ∨ 65535 < c.coldWindow ∨ c.offHold < 100 ∨
      5000 < c.offHold ∨ c.pulseWidth < 10 ∨ 2559 < c.pulseWidth ∨ c.confirmWindow < 50 ∨ 10000 < c.confirmWindow ∨
      c.missLimit < 1 ∨ 15 < c.missLimit := by
  have ranges : (List.range 20) = [0, 1, 2, 3, 4, 5, 6, 7, 8, 9, 10, 11, 12, 13, 14, 15, 16, 17, 18, 19] := rfl
  simp [ranges, PortConfig.outOfRange]
  simp only [or_assoc]

section
variable {p : Port} {c : PortConfig} {s : State}

theorem writePortFields_whole_enabled (enabled : (s.port p).state ≠ .disabled) :
    writePortFields p (List.range 20) c s = (.state, s) :=
  if_pos (Bool.and_eq_true_iff.2 ⟨rfl, decide_eq_true enabled⟩)

theorem portConfigFieldEffect_other {n : Nat} (other : n ∉ [15, 16, 17, 19]) : portConfigFieldEffect p s n = s := by
  unfold portConfigFieldEffect
  dsimp only
  split
  case h_5 => rfl
  all_goals exact absurd (by decide) other

/-- The four fields whose write has an effect beyond the store. -/
theorem foldl_portConfigFieldEffect (p : Port) (s : State) : (List.range 20).foldl (portConfigFieldEffect p) s =
    [15, 16, 17, 19].foldl (portConfigFieldEffect p) s := by
  have fields : List.range 20 = [0, 1, 2, 3, 4, 5, 6, 7, 8, 9, 10, 11, 12, 13, 14, 15, 16, 17, 18, 19] := rfl
  rw [fields]
  simp (disch := decide) only [List.foldl_cons, portConfigFieldEffect_other]

/-- The effects at a DISABLED port: no timer runs there, so only interval 0 and age limit 0 tell (R45, R104). -/
theorem portConfigFieldEffect_disabled (disabled : (s.port p).state = .disabled) :
    [15, 16, 17, 19].foldl (portConfigFieldEffect p) s = s.modPort p fun x => { x with
      probe := if x.cfg.probeInterval = 0 then { x.probe with
        running := false, countdown := 0, outstanding := none, misses := 0, mismatches := 0, capture := none }
        else x.probe
      proxies := if x.cfg.ageLimit = 0 then Vector.replicate 4 ProxyControl.free else x.proxies } := by
  simp only [List.foldl_cons, List.foldl_nil, portConfigFieldEffect_eq, State.modPort_modPort]
  refine modPort_congr ?_
  simp [PortRec.afterField, disabled]

theorem writePortFields_whole_refused (disabled : (s.port p).state = .disabled)
    (bad : ∃ n ∈ List.range 20, c.outOfRange n) : writePortFields p (List.range 20) c s = (.range, s) := by
  rw [writePortFields, if_neg (by simp [disabled]), (findSome?_judges _ c.fieldRefusal_judges).1 bad]

theorem writePortFields_whole_taken (disabled : (s.port p).state = .disabled)
    (sound : ¬ ∃ n ∈ List.range 20, c.outOfRange n) : writePortFields p (List.range 20) c s =
      (.ok, (writePortConfig p c.clamped s).modPort p fun x => { x with
        cfg := c.clamped, est := Estimates.invalid
        probe := if c.clamped.probeInterval = 0 then { x.probe with
          running := false, countdown := 0, outstanding := none, misses := 0, mismatches := 0, capture := none }
          else x.probe
        proxies := if c.clamped.ageLimit = 0 then Vector.replicate 4 ProxyControl.free else x.proxies }) := by
  have whole : (List.range 20).any isFixedField = true := rfl
  rw [writePortFields, if_neg (by simp [disabled]), (findSome?_judges _ c.fieldRefusal_judges).2 sound]
  dsimp only
  rw [foldl_portConfigFieldEffect, portConfigFieldEffect_disabled (by simpa [writePortConfig] using disabled),
    State.modPort_modPort, whole]
  rfl

end

/-! ### RULE (R73) -/

/-- One carried byte. -/
theorem beNat_take_one_lt (bs : List Byte) : beNat (bs.take 1) < 256 := natAt_lt bs 0 1

theorem offsetOf_le {v n : Nat} (byte : v < 256) (offset : n ∈ offsetOf v) : n ≤ 254 := by
  unfold offsetOf at offset
  split at offset
  · cases offset
  · obtain rfl := Option.some.inj offset
    omega

/-- What a RULE entry carries in one byte each is within its range. -/
theorem Rule.ofPayload_offsets (bs : List Byte) : (Rule.ofPayload bs).offset ≤ 255 ∧
    (∀ o ∈ (Rule.ofPayload bs).keyOffset, o ≤ 254) ∧ (∀ o ∈ (Rule.ofPayload bs).seqOffset, o ≤ 254) := by
  simp only [Rule.ofPayload, setAll, Table.fieldSizes, splitFields, List.zipIdx_cons, List.zipIdx_nil, List.foldl_cons,
    List.foldl_nil, Rule.setField]
  exact ⟨Nat.le_of_lt_succ (beNat_take_one_lt _), fun _ => offsetOf_le (beNat_take_one_lt _),
    fun _ => offsetOf_le (beNat_take_one_lt _)⟩

/-! ### GROUP (R116, R117) -/

theorem GroupConfig.exists_outOfRange_iff (c : GroupConfig) : (∃ n ∈ List.range 8, c.outOfRange n) ↔
    c.window < 100 ∨ 60000 < c.window ∨ 5000 < c.margin ∨ c.armHold < 1 ∨ 600 < c.armHold := by
  have ranges : (List.range 8) = [0, 1, 2, 3, 4, 5, 6, 7] := rfl
  simp [ranges, GroupConfig.outOfRange, or_assoc]

section
variable {g : Group} {c : GroupConfig} {s : State}

theorem writeGroupFields_whole_pending (pending : (s.group g).slot.pending = true) :
    writeGroupFields g (List.range 8) c s = (.state, s) := if_pos pending

theorem writeGroupFields_whole_address (free : (s.group g).slot.pending = false) (bad : groupAddressRefused g c s = true) :
    writeGroupFields g (List.range 8) c s = (.invalidConfig, s) := by
  rw [writeGroupFields, if_neg (by rw [free]; decide), if_pos bad]

theorem writeGroupFields_whole_refused (free : (s.group g).slot.pending = false)
    (sound : ¬ groupAddressRefused g c s = true) (bad : ∃ n ∈ List.range 8, c.outOfRange n) :
    writeGroupFields g (List.range 8) c s = (.range, s) := by
  rw [writeGroupFields, if_neg (by rw [free]; decide), if_neg sound, (findSome?_judges _ c.fieldRefusal_judges).1 bad]

/-- A whole entry that is taken writes the member set, and then enables the group or not (log 15). -/
def rewriteArm (g : Group) (c : GroupConfig) (s : State) : State :=
  if c.enabled = false then clearArm g (rewriteMembers g c.members s) else rewriteMembers g c.members s

theorem writeGroupFields_whole_taken (free : (s.group g).slot.pending = false)
    (sound : ¬ groupAddressRefused g c s = true) (inside : ¬ ∃ n ∈ List.range 8, c.outOfRange n) :
    writeGroupFields g (List.range 8) c s = (.ok, rewriteArm g c (storeGroup g c s)) := by
  rw [writeGroupFields, if_neg (by rw [free]; decide), if_neg sound, (findSome?_judges _ c.fieldRefusal_judges).2 inside]
  cases enabled : c.enabled <;> simp [rewriteArm, storeGroup, enabled]

theorem rewriteArm_unarmed (unarmed : (s.group g).arm.armed = false) : rewriteArm g c s = s := by
  rw [rewriteArm, rewriteMembers_unarmed unarmed, clearArm_unarmed unarmed, ite_self]

/-- The arm record after a written member set has broken intactness (R116, R130). -/
def ArmRecord.rewritten (a : ArmRecord) (members : PortSet) : ArmRecord :=
  { a with intact := false, watched := 0, members := members, breakReported := a.breakReported || a.intact }

/-- u is s after the entry c of an armed group with no pending trigger has been written (R116, R132). -/
structure ArmRewritten (g : Group) (c : GroupConfig) (s u : State) : Prop where
  ports : ∀ q : Port, u.port q = { s.port q with
    idle := if (hasPort (s.group g).arm.members q = true ∨ hasPort c.members q = true) ∧ (s.port q).state = .ready then 0
      else (s.port q).idle }
  others : ∀ h : Group, h ≠ g → u.group h = s.group h
  record : u.group g = { s.group g with arm := (u.group g).arm }
  enabled : c.enabled = true → (u.group g).arm = (s.group g).arm.rewritten c.members ∧ u.adm = s.adm
  disabled : c.enabled = false →
    (u.group g).arm = { (s.group g).arm.rewritten c.members with
      armed := false, hold := 0, target := none, members := 0 } ∧
    u.adm = { s.adm with schedule := s.adm.schedule.filter (·.group ≠ g) }
  rest : u.tbm = s.tbm ∧ u.mga = s.mga ∧ u.phase = s.phase ∧ u.pending = s.pending ∧ u.owed = s.owed
  quiet : (s.group g).arm.intact = false ∨ (s.group g).arm.breakReported = true → u.evu = s.evu
  broken : (s.group g).arm.intact = true → (s.group g).arm.breakReported = false →
    u.evu.events[Event.armBroken.num].pending = true ∧
    u.evu.events[Event.armBroken.num].detail = some ⟨some g.val, 0, 0⟩

/-- A group written as not enabled is cleared from its broken arm, whose members are then the new ones: their idle timers have
been restarted already. -/
theorem rewriteArm_written (armed : (s.group g).arm.armed = true) (free : (s.group g).slot.pending = false) :
    ArmRewritten g c s (rewriteArm g c s) := by
  obtain ⟨ports, others, own, ⟨adm, tbm, mga, phase, pending, owed⟩, quiet, broken⟩ :=
    rewriteMembers_written (members := c.members) armed free
  cases enabled : c.enabled with
  | true =>
    have kept : rewriteArm g c s = rewriteMembers g c.members s := if_neg (by rw [enabled]; decide)
    rw [kept]
    exact ⟨ports, others, by rw [own], fun _ => ⟨by rw [own]; rfl, adm⟩, fun disabled => absurd (enabled.symm.trans disabled) (by decide),
      ⟨tbm, mga, phase, pending, owed⟩, quiet, broken⟩
  | false =>
    have cleared : rewriteArm g c s = clearArm g (rewriteMembers g c.members s) := if_pos enabled
    obtain ⟨alone, record, kept, idled, schedule⟩ := clearArm_free (g := g) (s := rewriteMembers g c.members s)
      (by rw [own]; exact armed) (by rw [own]; exact free)
    rw [cleared]
    rw [own] at record
    refine ⟨fun q => ?_, fun h other => (kept h other).trans (others h other), by rw [record],
      fun on => absurd (enabled.symm.trans on) (by decide), fun _ => ⟨by rw [record]; rfl, by rw [schedule, adm]⟩,
      ⟨by rw [alone]; exact tbm, by rw [alone]; exact mga, by rw [alone]; exact phase, by rw [alone]; exact pending,
        by rw [clearArm_owed]; exact owed⟩, by rw [alone]; exact quiet, by rw [alone]; exact broken⟩
    rw [idled, own, ports]
    refine congrArg (fun idle => { s.port q with idle := idle }) ?_
    by_cases member : hasPort c.members q = true ∧ (s.port q).state = .ready
    · obtain ⟨joins, ready⟩ := member
      exact (if_pos ⟨joins, ready⟩).trans (if_pos ⟨.inr joins, ready⟩).symm
    · exact if_neg member

end

end Sys2Proof.Machine
end

section
/-! SUPPORT. WRITE_ENTRY of DEVICE (R154), and the answers of WRITE_ENTRY, table by table (R152): O50. -/

namespace Sys2Proof.Machine

/-! ### DEVICE (R154) -/

/-- The carried value of field n of DEVICE is out of its range (R154). -/
def deviceOutOfRange (x : Nat × Nat) : Prop := (x.1 = 3 ∨ x.1 = 5) ∧ (x.2 < 1 ∨ 4 < x.2) ∨ x.1 = 4 ∧ 15 < x.2

theorem deviceFieldRefusal_judges (x : Nat × Nat) : (deviceOutOfRange x → deviceFieldRefusal x.1 x.2 = some .range) ∧
    (¬ deviceOutOfRange x → deviceFieldRefusal x.1 x.2 = none) := by
  refine refusal_of_test rfl ?_
  unfold deviceOutOfRange
  split
  case h_4 => grind
  all_goals simp_all [outside]

/-- The six fields of a whole DEVICE write, by their offsets (Table 9-10). -/
theorem deviceFields_eq (bs : List Byte) : (splitFields Table.device.fieldSizes bs).zipIdx.map (fun x => (x.2, x.1)) =
    [(0, natAt bs 0 6), (1, natAt bs 6 6), (2, natAt bs 12 6), (3, natAt bs 18 1), (4, natAt bs 19 1),
      (5, natAt bs 20 1)] := by
  simp [Table.fieldSizes, splitFields, natAt, bytesAt, List.drop_drop]

section
variable {a b c timeout pass shift : Nat} {s : State}

theorem exists_deviceOutOfRange_iff :
    (∃ x ∈ [(0, a), (1, b), (2, c), (3, timeout), (4, pass), (5, shift)], deviceOutOfRange x) ↔
      timeout < 1 ∨ 4 < timeout ∨ 15 < pass ∨ shift < 1 ∨ 4 < shift := by
  simp [deviceOutOfRange, or_assoc]

theorem writeDevice_whole_refused (bad : timeout < 1 ∨ 4 < timeout ∨ 15 < pass ∨ shift < 1 ∨ 4 < shift) :
    writeDevice [(0, a), (1, b), (2, c), (3, timeout), (4, pass), (5, shift)] s = (.range, s) := by
  rw [writeDevice, (findSome?_judges _ deviceFieldRefusal_judges).1 (exists_deviceOutOfRange_iff.2 bad)]

theorem writeDevice_whole_taken (sound : ¬ (timeout < 1 ∨ 4 < timeout ∨ 15 < pass ∨ shift < 1 ∨ 4 < shift)) :
    writeDevice [(0, a), (1, b), (2, c), (3, timeout), (4, pass), (5, shift)] s = (.ok, { s with
      mga := { s.mga with
        managerA := BitVec.ofNat 48 a, managerB := BitVec.ofNat 48 b, report := BitVec.ofNat 48 c, linkTimeout := timeout
        learnShift := shift }
      adm := { s.adm with
        passLimit := pass
        wakeQueue := s.adm.wakeQueue.map fun e =>
          { e with blocking := e.blocking || decide (pass ≤ e.passes) } } }) := by
  rw [writeDevice, (findSome?_judges _ deviceFieldRefusal_judges).2 (mt exists_deviceOutOfRange_iff.1 sound)]
  simp only [List.foldl_cons, List.foldl_nil, setDeviceField, applyPassLimit_eq]
  cases s
  rfl

end

/-! ### What each table's write comes to -/

section
variable {r : Request} {rest : List Request} {s w : State} {st : Status}

theorem performWriteEntry_portConfig {p : Port} (table : natAt r.body 6 1 = 1) (index : natAt r.body 7 1 = p.val) :
    performWriteEntry r s = answered (writePortFields p (List.range 20) (PortConfig.ofPayload r.payload) s) := by
  simp only [performWriteEntry, Request.table_eq table, tableOf, Request.port_eq index]

theorem performWriteEntry_template {i : Fin 48} (table : natAt r.body 6 1 = 2) (index : natAt r.body 7 1 = i.val) :
    performWriteEntry r s = answered (writeTemplateEntry i (Template.ofPayload r.payload) s) := by
  simp only [performWriteEntry, Request.table_eq table, tableOf, Request.ofNat_index index]

theorem performWriteEntry_rule {i : Fin 32} (table : natAt r.body 6 1 = 3) (index : natAt r.body 7 1 = i.val) :
    performWriteEntry r s = answered (writeRuleEntry i (Rule.ofPayload r.payload) s) := by
  simp only [performWriteEntry, Request.table_eq table, tableOf, Request.ofNat_index index]

theorem performWriteEntry_classAction {i : Fin 9} (table : natAt r.body 6 1 = 4) (index : natAt r.body 7 1 = i.val) :
    performWriteEntry r s = answered (writeClassActionEntry i (ClassAction.ofPayload r.payload) s) := by
  simp only [performWriteEntry, Request.table_eq table, tableOf, Request.ofNat_index index]

theorem performWriteEntry_group {g : Group} (table : natAt r.body 6 1 = 5) (index : natAt r.body 7 1 = g.val) :
    performWriteEntry r s = answered (writeGroupFields g (List.range 8) (GroupConfig.ofPayload r.payload) s) := by
  simp only [performWriteEntry, Request.table_eq table, tableOf, Request.group_eq index]

theorem performWriteEntry_domain {d : Domain} (table : natAt r.body 6 1 = 6) (index : natAt r.body 7 1 = d.val) :
    performWriteEntry r s = answered (writeLimit d (beNat r.payload) s) := by
  simp only [performWriteEntry, Request.table_eq table, tableOf, Request.ofNat_index index]

theorem performWriteEntry_device (table : natAt r.body 6 1 = 7) : performWriteEntry r s =
    answered (writeDevice [(0, natAt r.payload 0 6), (1, natAt r.payload 6 6), (2, natAt r.payload 12 6),
      (3, natAt r.payload 18 1), (4, natAt r.payload 19 1), (5, natAt r.payload 20 1)] s) := by
  simp only [performWriteEntry, Request.table_eq table, tableOf, deviceFields_eq]

/-- The answer to a WRITE_ENTRY, by what its write comes to (R147, R149, R152). -/
theorem exec_writeEntry_answers {x : Status × State} (h : s.Accepts (.op .writeEntry) r rest)
    (comes : performWriteEntry r s = answered x) (writes : x = (st, w)) :
    exec .writeEntry s = .next (finishRequest r rest st [] (settle w)) := by
  rw [exec_writeEntry, performHead_accepts h, comes, writes]
  rfl

/-- The same where nothing is handed on. -/
theorem exec_writeEntry_of_owed {x : Status × State} (h : s.Accepts (.op .writeEntry) r rest)
    (comes : performWriteEntry r s = answered x) (writes : x = (st, w)) (owed : w.owed = s.owed) :
    exec .writeEntry s = .next (finishRequest r rest st [] w) := by
  rw [exec_writeEntry_answers h comes writes, settle_of_owed (owed.trans h.settled)]

end

/-- Settles O50: for each table the write of the entry that the payload stands for. -/
theorem wholeEntryIsWrittenOrRefused : Obligations.WholeEntryIsWrittenOrRefused := by
  unfold Obligations.WholeEntryIsWrittenOrRefused
  intro r rest s h table index bs answers
  refine ⟨fun names p at_p => ?_, fun names i at_i => ?_, fun names i at_i => ?_, fun names i at_i => ?_,
    fun names g at_g => ?_, fun names d at_d => ?_, fun names => ?_⟩
  · -- PORT_CONFIG (R2, R3)
    intro c bad d
    have comes := performWriteEntry_portConfig (s := s) names at_p
    have range : (∃ n ∈ List.range 20, c.outOfRange n) ↔ bad := c.exists_outOfRange_iff
    exact ⟨fun enabled => exec_writeEntry_of_owed h comes (writePortFields_whole_enabled enabled) rfl,
      fun disabled refused => exec_writeEntry_of_owed h comes (writePortFields_whole_refused disabled (range.2 refused)) rfl,
      fun disabled sound => exec_writeEntry_of_owed h comes (writePortFields_whole_taken disabled (mt range.1 sound)) rfl⟩
  · -- TEMPLATE (R28, R45)
    intro t x bad starts
    have comes := performWriteEntry_template (s := s) names at_i
    have refuses : templateRefused i t = true ↔ bad := templateRefused_iff i t
    exact ⟨fun refused => exec_writeEntry_of_owed h comes (writeTemplateEntry_refused (refuses.2 refused)) rfl,
      fun sound still => exec_writeEntry_of_owed h comes (writeTemplateEntry_stored (mt refuses.1 sound) still) rfl,
      fun sound starting => exec_writeEntry_of_owed h comes (writeTemplateEntry_starts (mt refuses.1 sound) starting) rfl⟩
  · -- RULE: the offsets carried in one byte are in their ranges (R73)
    intro e legal bad
    have comes := performWriteEntry_rule (s := s) names at_i
    have direction : legalDirection e.cls e.direction = true ↔ legal := by
      cases cls : e.cls <;> simp [legal, legalDirection, cls]
    have refuses : ruleRefused e = true ↔ bad := by
      obtain ⟨offset, key, seq⟩ := Rule.ofPayload_offsets bs
      have inside : ¬ 255 < e.offset := Nat.not_lt.2 offset
      have keyed : ¬ ∃ o ∈ e.keyOffset, 254 < o := fun ⟨o, named, beyond⟩ => Nat.not_lt.2 (key o named) beyond
      have sequenced : ¬ ∃ o ∈ e.seqOffset, 254 < o := fun ⟨o, named, beyond⟩ => Nat.not_lt.2 (seq o named) beyond
      rw [ruleRefused_iff, direction]
      simp only [inside, keyed, sequenced, false_or]
      exact Iff.rfl
    exact ⟨fun refused => exec_writeEntry_of_owed h comes (writeRuleEntry_refused i s (refuses.2 refused)) rfl,
      fun sound => exec_writeEntry_of_owed h comes (writeRuleEntry_taken i s (mt refuses.1 sound)) rfl⟩
  · -- CLASS_ACTION (R76)
    intro a
    have comes := performWriteEntry_classAction (s := s) names at_i
    exact ⟨fun ⟨answering, other⟩ => exec_writeEntry_of_owed h comes (writeClassActionEntry_refused s answering other) rfl,
      fun may => exec_writeEntry_of_owed h comes (writeClassActionEntry_taken s may) rfl⟩
  · -- GROUP: the refusals, then what the store makes of an arm (R116, R117, R130, R132)
    intro c a badAddress badRange stored
    have comes := performWriteEntry_group (s := s) names at_g
    have address : groupAddressRefused g c s = true ↔ badAddress := groupAddressRefused_iff g c s
    have range : (∃ n ∈ List.range 8, c.outOfRange n) ↔ badRange := c.exists_outOfRange_iff
    refine ⟨fun pending => exec_writeEntry_of_owed h comes (writeGroupFields_whole_pending pending) rfl,
      fun free bad => exec_writeEntry_of_owed h comes (writeGroupFields_whole_address free (address.2 bad)) rfl,
      fun free sound bad =>
        exec_writeEntry_of_owed h comes (writeGroupFields_whole_refused free (mt address.1 sound) (range.2 bad)) rfl,
      fun free sound inside => ?_⟩
    have takes := writeGroupFields_whole_taken free (mt address.1 sound) (mt range.1 inside)
    have own : stored.group g = { s.group g with address := c.address } := State.modGroup_group_same _ _ _
    have other (k : Group) (hk : k ≠ g) : stored.group k = s.group k := State.modGroup_group_ne _ _ hk
    have arm : (stored.group g).arm = a := by rw [own]
    refine ⟨fun unarmed => ?_, fun armed => ?_⟩
    · rw [show storeGroup g c s = stored from rfl, rewriteArm_unarmed (by rw [arm]; exact unarmed)] at takes
      exact exec_writeEntry_of_owed h comes takes rfl
    · obtain ⟨ports, others, record, enabled, disabled, ⟨tbm, mga, phase, pending, owed⟩, quiet, broken⟩ :=
        rewriteArm_written (g := g) (c := c) (s := stored) (by rw [arm]; exact armed) (by rw [own]; exact free)
      rw [arm] at quiet broken enabled disabled
      simp only [arm] at ports
      refine ⟨rewriteArm g c stored, exec_writeEntry_of_owed h comes takes owed, ports,
        fun k hk => (others k hk).trans (other k hk), by rw [record, own], by rw [record, own], tbm, mga, phase, pending,
        ⟨enabled, disabled⟩, quiet, fun ⟨intact, unreported⟩ => broken intact unreported⟩
  · -- DOMAIN (R52)
    intro limit set checked
    have comes := performWriteEntry_domain (s := s) names at_d
    refine ⟨fun long => exec_writeEntry_of_owed h comes (writeLimit_range long) rfl,
      fun short less => exec_writeEntry_of_owed h comes (writeLimit_inUse short less) rfl, fun short enough => ?_⟩
    have limited := exec_writeEntry_answers h comes (writeLimit_taken short enough)
    rw [applyLimit_eq] at limited
    exact limited
  · -- DEVICE (R154)
    intro timeout pass shift bad
    have comes := performWriteEntry_device (s := s) names
    exact ⟨fun refused => exec_writeEntry_of_owed h comes (writeDevice_whole_refused refused) rfl,
      fun sound => exec_writeEntry_of_owed h comes (writeDevice_whole_taken sound) rfl⟩

end Sys2Proof.Machine
end

section
/-! SUPPORT. The judging of a notice, and the two ways in which an event becomes reported (R160 to R162): O39. -/

namespace Sys2Proof.Machine

/-! ### The notice (R162) -/

section
variable {s t : State} {c : CellNo} {free : List CellNo}

/-- While a notice is outstanding, or with no report address, none is built. -/
theorem judgeNotice_withheld (withheld : s.evu.noticeOutstanding = true ∨ s.mga.report = 0) : judgeNotice s = s :=
  if_pos (by simpa using withheld)

/-- A notice whose frame is originated is outstanding from then on. -/
theorem judgeNotice_placed (due : ¬ (s.evu.noticeOutstanding = true ∨ s.mga.report = 0))
    (placed : originate .uplink (noticeFrame s) s = (.placed c, t)) :
    judgeNotice s = t.modEvu fun v => { v with noticeOutstanding := true } := by
  rw [judgeNotice, if_neg (by simpa using due), placed]

/-- A notice whose frame is not originated leaves what the attempt has left. -/
theorem judgeNotice_lost {o : Placement} (due : ¬ (s.evu.noticeOutstanding = true ∨ s.mga.report = 0))
    (lost : originate .uplink (noticeFrame s) s = (o, t)) (unplaced : ∀ c, o ≠ .placed c) : judgeNotice s = t := by
  rw [judgeNotice, if_neg (by simpa using due), lost]
  cases o with
  | placed c => exact absurd rfl (unplaced c)
  | noCell => rfl
  | queueFull => rfl

theorem judgeNotice_noCell (due : ¬ (s.evu.noticeOutstanding = true ∨ s.mga.report = 0)) (empty : s.free = []) :
    judgeNotice s = s :=
  judgeNotice_lost due (o := .noCell) (by rw [originate, empty]) (by simp)

/-- Lost at a full uplink queue, the notice leaves the cell that it took at the tail of the free list (R88, log 10). -/
theorem judgeNotice_full (due : ¬ (s.evu.noticeOutstanding = true ∨ s.mga.report = 0)) (head : s.free = c :: free)
    (crowded : 32 ≤ s.uplink.egress.queue.length) : judgeNotice s = { s with free := free ++ [c] } :=
  judgeNotice_lost due (o := .queueFull) (by rw [originate_lost .uplink _ s (.inr crowded), head]; rfl) (by simp)

theorem judgeNotice_sent (due : ¬ (s.evu.noticeOutstanding = true ∨ s.mga.report = 0)) (head : s.free = c :: free)
    (room : s.uplink.egress.queue.length < 32) : judgeNotice s =
      (appendTx .uplink ⟨c, (noticeFrame s).length, none⟩ (storeCell c (noticeFrame s) { s with free := free })).modEvu
        fun v => { v with noticeOutstanding := true } :=
  judgeNotice_placed due (originate_room .uplink _ s c free head room)

end

/-! ### Events that become reported (R160, R161) -/

/-- A raise has a notice judged where it finds its event masked in and not pending. -/
theorem raise_eq (e : Event) (d : Detail) (s : State) : raise e d s =
    let old := s.evu.events[e.num]
    let u := s.modEvu fun v =>
      { v with events := v.events.set e.num { pending := true, mask := old.mask, detail := some d } }
    if old.mask = true ∧ old.pending = false then judgeNotice u else u := by
  simp only [raise, Bool.and_eq_true, Bool.not_eq_true']

/-- The state with all sixteen masks replaced, before a notice is judged. -/
def withMasks (mask : PortSet) (s : State) : State :=
  s.modEvu fun v => { v with events := Vector.ofFn fun e => { v.events[e] with mask := mask.getLsbD e.val } }

theorem withMasks_event (mask : PortSet) (s : State) (e : Fin 16) :
    (withMasks mask s).evu.events[e] = { s.evu.events[e] with mask := mask.getLsbD e.val } :=
  Vector.getElem_ofFn _

/-- A set of events, written as a set of ports, is not empty where it holds one. -/
theorem portSet_ne_zero_iff (set : PortSet) : set ≠ 0 ↔ ∃ e : Fin 16, hasPort set e = true := by
  have empty : set = 0 ↔ ∀ e : Fin 16, hasPort set e = false :=
    ⟨fun zero e => by rw [zero]; exact BitVec.getLsbD_zero,
      fun lacks => portSet_ext fun e => (lacks e).trans BitVec.getLsbD_zero.symm⟩
  rw [Ne, empty, not_forall]
  simp only [Bool.not_eq_false]

/-- The events that a write of the masks makes reported: pending ones whose mask it sets. -/
theorem newlyReported_iff (mask : PortSet) (s : State) :
    (reportedSet (withMasks mask s) &&& ~~~ reportedSet s) ≠ 0 ↔ ∃ e : Fin 16,
      s.evu.events[e].pending = true ∧ s.evu.events[e].mask = false ∧ mask.getLsbD e.val = true := by
  rw [portSet_ne_zero_iff]
  refine exists_congr fun e => ?_
  have after : hasPort (reportedSet (withMasks mask s)) e = (s.evu.events[e].pending && mask.getLsbD e.val) := by
    rw [hasPort, reportedSet_getLsbD, withMasks_event]
  have before : hasPort (reportedSet s) e = (s.evu.events[e].pending && s.evu.events[e].mask) := reportedSet_getLsbD s e
  rw [hasPort_without, after, before]
  cases s.evu.events[e].pending <;> cases s.evu.events[e].mask <;> simp

theorem setMasks_eq (mask : PortSet) (s : State) : setMasks mask s =
    if (reportedSet (withMasks mask s) &&& ~~~ reportedSet s) ≠ 0 then judgeNotice (withMasks mask s)
    else withMasks mask s := by
  unfold setMasks
  simp only [bne_iff_ne]
  rfl

theorem setMasks_owed (mask : PortSet) (s : State) : (setMasks mask s).owed = s.owed := by
  rw [setMasks_eq]
  split
  · exact judgeNotice_owed _
  · rfl

/-! ### SET_EVENT_MASK (R161) -/

section
variable {r : Request} {rest : List Request} {s : State}

/-- The payload of an accepted SET_EVENT_MASK has 2 B (Table 9-5). -/
theorem setEventMask_payload (h : s.Accepts (.op .setEventMask) r rest) :
    ∃ bs, r.payload? = some bs ∧ bs.length = 2 := by
  have passes := h.passes
  unfold requestRefusal at passes
  split at passes
  · cases passes
  · cases payload : r.payload? with
    | none => rw [payload] at passes; cases passes
    | some bs =>
      simp only [payload, rowServes_op h.row, Option.orElse_eq_orElse, Option.orElse_eq_or, Option.or_eq_none_iff] at passes
      obtain ⟨-, -, sound⟩ := passes
      exact ⟨bs, rfl, by_contra fun other => by rw [payloadRefusal, if_neg other] at sound; cases sound⟩

/-- The masks stand in bytes 10 and 11 of its body. -/
theorem setEventMask_natAt (h : s.Accepts (.op .setEventMask) r rest) : natAt r.payload 0 2 = natAt r.body 10 2 := by
  obtain ⟨bs, payload, length⟩ := setEventMask_payload h
  rw [payload_eq_bytesAt payload, length, natAt_bytesAt (Nat.le_refl 2)]

theorem exec_setEventMask_accepts (h : s.Accepts (.op .setEventMask) r rest) :
    exec .setEventMask s =
      .next (finishRequest r rest .ok [] (setMasks (BitVec.ofNat 16 (natAt r.body 10 2)) s)) := by
  have performs : performSetMask r s = (.ok, [], setMasks (BitVec.ofNat 16 (natAt r.body 10 2)) s) := by
    rw [performSetMask, setEventMask_natAt h]
    rfl
  rw [exec_setEventMask, performHead_of_owed h performs (setMasks_owed _ s)]

end

/-- Settles O39: `judged` is `judgeNotice` by its four cases, and the two ways to become reported are `raise_eq` and
`setMasks_eq`. -/
theorem eventBecomesReportedAndIsNoticed : Obligations.EventBecomesReportedAndIsNoticed := by
  unfold Obligations.EventBecomesReportedAndIsNoticed
  intro s frame judged
  have judges (u : State) : judgeNotice u = judged u := by
    unfold judged
    split
    case isTrue withheld => exact judgeNotice_withheld withheld
    case isFalse due =>
      split
      case h_1 empty => exact judgeNotice_noCell due empty
      case h_2 c free head =>
        split
        case isTrue crowded => exact judgeNotice_full due head crowded
        case isFalse room => exact judgeNotice_sent due head (Nat.lt_of_not_le room)
  refine ⟨fun e d => ?_, fun r rest h => ?_⟩
  · intro old u
    rw [← judges u]
    exact raise_eq e d s
  · intro mask u some_reported
    have reported := newlyReported_iff mask s
    rw [exec_setEventMask_accepts h, setMasks_eq]
    refine ⟨fun becomes => ?_, fun stays => ?_⟩
    · rw [if_pos (reported.2 becomes), ← judges u]
      rfl
    · rw [if_neg (mt reported.1 stays)]
      rfl

end Sys2Proof.Machine
end

section
/-! SUPPORT. In full reset and during the table initialisation no command has an effect but the three of the reset and the
links and lines (R145, R169): O4. -/

namespace Sys2Proof.Machine

section
variable {s : State} (stopped : s.phase ≠ .running)
include stopped

theorem whileRunning_stopped (effect : State → State) : whileRunning effect s = s := if_neg stopped

theorem mayPerform_stopped : mayPerform s = false :=
  Bool.eq_false_iff.2 fun may => stopped ((mayPerform_iff s).1 may).1

theorem performHead_stopped (row : Row) (effect : Request → State → Performed) : performHead row effect s = s := by
  rw [performHead, mayPerform_stopped stopped]
  rfl

theorem headPassed_stopped (row : Row) : headPassed row s = none := by
  simp [headPassed, mayPerform_stopped stopped]

theorem performPortThen_stopped (c : PortCommand) (effect : Port → State → Status × State)
    (later : Port → State → State → State) : performPortThen c effect later s = s := by
  simp only [performPortThen, performHeadThen, headPassed_stopped stopped, performHead_stopped stopped]

theorem performRestart_stopped : performRestart s = s := by
  rw [performRestart, mayPerform_stopped stopped]
  rfl

/-- No request is performed (R147). -/
theorem exec_management_stopped {c : Instr} {row : Row} (h : rowOf c = some row) : exec c s = .next s := by
  cases c <;> try cases h
  case restart => exact congrArg _ (performRestart_stopped stopped)
  case wake => exact congrArg _ (performPortThen_stopped stopped _ _ _)
  case pause => exact congrArg _ (performPortThen_stopped stopped _ _ _)
  all_goals exact congrArg _ (performHead_stopped stopped _ _)

/-- No restart is made, no frame received or sent, no expiry taken and no scrub visit made. -/
theorem exec_event_stopped {c : Instr} (event : rowOf c = none) (waits : actsAlways c = false) : exec c s = .next s := by
  cases c <;> cases event <;> cases waits
  case softRestart => exact congrArg _ (if_neg fun due => stopped (restartDue_running due))
  all_goals exact congrArg _ (whileRunning_stopped stopped _)

theorem passTime_stopped : passTime s = s := if_neg stopped

theorem step_stopped (empty : s.pending = []) : step s = .next s := by
  rw [step, empty]
  exact congrArg _ (passTime_stopped stopped)

end

/-- Settles O4: a command performs a request or is an event, and neither is taken. -/
theorem onlyResetsLinksAndLinesActOutsideRunning : Obligations.OnlyResetsLinksAndLinesActOutsideRunning := by
  unfold Obligations.OnlyResetsLinksAndLinesActOutsideRunning
  intro s stopped
  refine ⟨fun c waits => ?_, step_stopped stopped⟩
  cases row : rowOf c with
  | none => exact exec_event_stopped stopped row waits
  | some r => exact exec_management_stopped stopped row

end Sys2Proof.Machine
end

section
/-! SUPPORT. What one tick makes of each block (R170): O11. -/

namespace Sys2Proof.Machine

theorem tickOp_none {op : Operation} (none : op.kind = .none) : tickOp op = op := if_pos none

theorem tickOp_runs {op : Operation} (runs : op.kind ≠ .none) : tickOp op = { op with
    countdown := op.countdown - 1, pulse := op.pulse.map (· - 1),
    elapsed := if op.kind ≠ .pause ∧ op.started ≠ 0 then min (op.elapsed + 1) 65535 else op.elapsed } := by
  have timed : ((op.kind = .cold || op.kind = .resume) && op.started != 0) = true ↔ op.kind ≠ .pause ∧ op.started ≠ 0 := by
    cases kind : op.kind <;> simp_all
  rw [tickOp, if_neg runs]
  simp only [timed, Config.timeMaxMs]

theorem linkWatched_iff (st : PortState) : linkWatched st = true ↔
    st = .ready ∨ st = .pausing ∨ st = .paused ∨ st = .resuming := by
  simp [linkWatched, or_assoc]

theorem tickPort_idle (isHeld : Bool) (r : PortRec) :
    (tickPort isHeld r).idle = if r.state = .ready ∧ isHeld = false then r.idle + 1 else r.idle := by
  simp [tickPort]

theorem tickPort_link (isHeld : Bool) (r : PortRec) : (tickPort isHeld r).link =
    if (r.state = .ready ∨ r.state = .pausing ∨ r.state = .paused ∨ r.state = .resuming) ∧
      r.linkUp = false ∧ powerAttempt r.op = false then r.link + 1 else r.link := by
  simp [tickPort, linkWatched_iff, and_assoc]

theorem tickPort_proxy (isHeld : Bool) (r : PortRec) (i : Fin 4) : (tickPort isHeld r).proxies[i] =
    if r.proxies[i].occupied then { r.proxies[i] with age := min (r.proxies[i].age + 1) 600000 } else r.proxies[i] := by
  simp [tickPort, tickProxy, Config.ageMaxMs]

theorem tick_uplink (s : State) : (tick s).uplink =
    if s.uplink.linkUp = false ∧ s.uplink.raised = false then { s.uplink with timer := s.uplink.timer + 1 }
    else s.uplink := by
  simp [tick]

theorem tick_frame (s : State) : (tick s).cells = s.cells ∧ (tick s).free = s.free ∧ (tick s).evu = s.evu ∧
    (tick s).phase = s.phase ∧ (tick s).owed = s.owed ∧ (tick s).pending = s.pending := by
  simp only [tick, and_self]

/-- Settles O11, block by block. -/
theorem tickAdvancesEachOwnersTimers : Obligations.TickAdvancesEachOwnersTimers := by
  unfold Obligations.TickAdvancesEachOwnersTimers
  intro s
  refine ⟨fun p => ?_, tick_group s, tick_uplink s, rfl, rfl, rfl, tick_frame s⟩
  rw [tick_port]
  exact ⟨tickPort_idle _ _, rfl, tickPort_link _ _, rfl, tickOp_none, tickOp_runs, rfl, tickPort_proxy _ _, rfl⟩

end Sys2Proof.Machine
end

section
/-! SUPPORT. What the assertion of RESET makes of ports, groups and uplink, and the way to the full-reset values (R145, R169):
O12. -/

namespace Sys2Proof.Machine

/-! ### Receptions -/

theorem setReceiving_frame (s : State) (e : EtherPort) (r : Reception) : (s.setReceiving e r).groups = s.groups ∧
    (s.setReceiving e r).evu = s.evu ∧ (s.setReceiving e r).mga = s.mga := by
  cases e <;> exact ⟨rfl, rfl, rfl⟩

/-- The abandoning of a reception is the end of it, but for the cell. -/
theorem abandonReception_cases (e : EtherPort) (s : State) : abandonReception e s = s.setReceiving e .idle ∨
    ∃ c, abandonReception e s = dropRef c (s.setReceiving e .idle) := by
  unfold abandonReception
  cases s.receiving e with
  | idle => exact .inl rfl
  | bufferOnly => exact .inl rfl
  | intoCell c => exact .inr ⟨c, rfl⟩

theorem abandonReception_frame (e : EtherPort) (s : State) : (abandonReception e s).groups = s.groups ∧
    (abandonReception e s).evu = s.evu ∧ (abandonReception e s).mga = s.mga := by
  obtain kept | ⟨c, dropped⟩ := abandonReception_cases e s
  · rw [kept]
    exact setReceiving_frame s e .idle
  · rw [dropped, dropRef_groups, dropRef_evu, dropRef_mga]
    exact setReceiving_frame s e .idle

theorem abandonReception_port (e : EtherPort) (s : State) (q : Port) :
    (abandonReception e s).port q = (s.setReceiving e .idle).port q := by
  obtain kept | ⟨c, dropped⟩ := abandonReception_cases e s
  · rw [kept]
  · rw [dropped, dropRef_port]

theorem abandonReception_uplink (e : EtherPort) (s : State) :
    (abandonReception e s).uplink = (s.setReceiving e .idle).uplink := by
  obtain kept | ⟨c, dropped⟩ := abandonReception_cases e s
  · rw [kept]
  · rw [dropped, dropRef_uplink]

/-! ### The assertion, port by port and group by group -/

/-- A port in full reset (R169): its queues, timers and records stand until the release (log 11). -/
def haltedPort (r : PortRec) : PortRec :=
  { r with
    feed := false, linkUp := false, wakeLine := false, senseFilter := none, releasing := false, receiving := .idle
    egress := { r.egress with sending := none }
    op := { r.op with kind := .none, phase := .none, countdown := 0, pulse := none }
    probe := { r.probe with running := false, countdown := 0 } }

theorem haltPort_port (p q : Port) (s : State) :
    (haltPort p s).port q = if q = p then haltedPort (s.port q) else s.port q := by
  rw [haltPort, abandonReception_port, State.setReceiving, State.modPort_modPort, endOperation, State.modPort_modPort,
    feedOff, State.modPort_modPort, State.modPort_port]
  split
  case isTrue same => subst same; rfl
  case isFalse => rfl

theorem haltPort_frame (p : Port) (s : State) : (haltPort p s).groups = s.groups ∧ (haltPort p s).evu = s.evu ∧
    (haltPort p s).mga = s.mga ∧ (haltPort p s).uplink = s.uplink := by
  obtain ⟨groups, evu, mga⟩ := abandonReception_frame (.camera p) ((endOperation p (feedOff p s)).modPort p fun r =>
    { r with senseFilter := none, releasing := false, probe := { r.probe with running := false, countdown := 0 } })
  exact ⟨groups, evu, mga, abandonReception_uplink _ _⟩

theorem haltGroup_group (g h : Group) (s : State) :
    (haltGroup g s).group h = if h = g then restartGroup (s.group h) else s.group h := by
  have dropped : (if (s.group g).slot.pending then dropRef (s.group g).slot.cell s else s).group = s.group := by
    split
    · exact funext (dropRef_group _ s)
    · rfl
  rw [haltGroup, State.modGroup_group, dropped]
  split
  case isTrue same => subst same; rfl
  case isFalse => rfl

theorem haltGroup_frame (g : Group) (s : State) : (∀ p, (haltGroup g s).port p = s.port p) ∧
    (haltGroup g s).evu = s.evu ∧ (haltGroup g s).mga = s.mga ∧ (haltGroup g s).uplink = s.uplink := by
  unfold haltGroup
  split <;> simp

/-! ### The assertion -/

/-- What every step leaves alone, a fold of steps leaves alone. -/
theorem foldl_keeps {α β : Type} {f : State → α → State} {part : State → β} (h : ∀ s x, part (f s x) = part s)
    (xs : List α) (s : State) : part (xs.foldl f s) = part s := by
  induction xs generalizing s with
  | nil => rfl
  | cons x xs ih => exact (ih (f s x)).trans (h s x)

/-- Where each step changes one record, in a way that is no other when it is made again, a fold changes those of its list. -/
theorem foldl_each {ι ρ : Type} [DecidableEq ι] {step : State → ι → State} {record : State → ι → ρ} {change : ρ → ρ}
    (h : ∀ s i j, record (step s i) j = if j = i then change (record s j) else record s j)
    (again : ∀ r, change (change r) = change r) (xs : List ι) (s : State) (j : ι) :
    record (xs.foldl step s) j = if j ∈ xs then change (record s j) else record s j := by
  induction xs generalizing s with
  | nil => rfl
  | cons i xs ih =>
    rw [List.foldl_cons, ih, h]
    by_cases now : j = i <;> by_cases later : j ∈ xs <;> simp [now, later, again]

/-- The state after the ports and groups have been halted, before the uplink is. -/
def haltPortsAndGroups (s : State) : State :=
  allGroups.foldl (fun s g => haltGroup g s) (allPorts.foldl (fun s p => haltPort p s) s)

theorem mem_allPorts (p : Port) : p ∈ allPorts := List.mem_finRange p
theorem mem_allGroups (g : Group) : g ∈ allGroups := List.mem_finRange g

theorem haltPortsAndGroups_port (s : State) (p : Port) : (haltPortsAndGroups s).port p = haltedPort (s.port p) := by
  have groups := foldl_keeps (part := (·.port p)) (fun s g => (haltGroup_frame g s).1 p) allGroups
  have ports := foldl_each (record := State.port) (fun s q r => haltPort_port q r s) (fun _ => rfl) allPorts s p
  rw [haltPortsAndGroups, groups, ports, if_pos (mem_allPorts p)]

theorem haltPortsAndGroups_group (s : State) (g : Group) : (haltPortsAndGroups s).group g = restartGroup (s.group g) := by
  have ports := foldl_keeps (part := (·.group g))
    (fun s p => congrArg (·[g]) (haltPort_frame p s).1) allPorts
  have groups := foldl_each (record := State.group) (fun s g h => haltGroup_group g h s) (fun _ => rfl) allGroups
  rw [haltPortsAndGroups, groups, if_pos (mem_allGroups g), ports]

theorem haltPortsAndGroups_frame (s : State) : (haltPortsAndGroups s).evu = s.evu ∧ (haltPortsAndGroups s).mga = s.mga ∧
    (haltPortsAndGroups s).uplink = s.uplink := by
  have groups := foldl_keeps (part := fun s => (s.evu, s.mga, s.uplink)) (f := fun s g => haltGroup g s) (fun s g => by
    obtain ⟨-, evu, mga, uplink⟩ := haltGroup_frame g s
    rw [evu, mga, uplink]) allGroups
  have ports := foldl_keeps (part := fun s => (s.evu, s.mga, s.uplink)) (f := fun s p => haltPort p s) (fun s p => by
    obtain ⟨-, evu, mga, uplink⟩ := haltPort_frame p s
    rw [evu, mga, uplink]) allPorts
  have both : ((haltPortsAndGroups s).evu, (haltPortsAndGroups s).mga, (haltPortsAndGroups s).uplink) =
      (s.evu, s.mga, s.uplink) := (groups _).trans (ports s)
  simpa only [Prod.mk.injEq] using both

/-- The part in reset, once its ports and groups have been halted: the uplink and what ADM and MGA count down. -/
def haltOthers (t : State) : State :=
  let t := (abandonReception .uplink t).modUplink fun u => { u with egress := { u.egress with sending := none } }
  let t := t.modAdm fun a => { a with schedule := [] }
  let t := t.modMga fun m => { m with restart := none }
  { t with phase := .inReset, owed := [] }

theorem haltAll_eq (s : State) : haltAll s = haltOthers (haltPortsAndGroups s) := rfl

theorem haltOthers_port (t : State) (p : Port) : (haltOthers t).port p = t.port p := abandonReception_port .uplink t p

theorem haltOthers_group (t : State) (g : Group) : (haltOthers t).group g = t.group g :=
  congrArg (·[g]) (abandonReception_frame .uplink t).1

theorem haltOthers_evu (t : State) : (haltOthers t).evu = t.evu := (abandonReception_frame .uplink t).2.1

theorem haltOthers_mga (t : State) : (haltOthers t).mga = { t.mga with restart := none } :=
  congrArg (fun m : Mga => { m with restart := none }) (abandonReception_frame .uplink t).2.2

theorem haltOthers_uplink (t : State) : (haltOthers t).uplink =
    { t.uplink with receiving := .idle, egress := { t.uplink.egress with sending := none } } :=
  congrArg (fun u : Uplink => { u with egress := { u.egress with sending := none } }) (abandonReception_uplink .uplink t)

theorem haltAll_phase (s : State) : (haltAll s).phase = .inReset := by rw [haltAll_eq]; rfl

theorem haltAll_owed (s : State) : (haltAll s).owed = [] := by rw [haltAll_eq]; rfl

theorem haltAll_schedule (s : State) : (haltAll s).adm.schedule = [] := by rw [haltAll_eq]; rfl

theorem haltAll_port (s : State) (p : Port) : (haltAll s).port p = haltedPort (s.port p) := by
  rw [haltAll_eq, haltOthers_port, haltPortsAndGroups_port]

theorem haltAll_group (s : State) (g : Group) : (haltAll s).group g = restartGroup (s.group g) := by
  rw [haltAll_eq, haltOthers_group, haltPortsAndGroups_group]

theorem haltAll_evu (s : State) : (haltAll s).evu = s.evu := by
  rw [haltAll_eq, haltOthers_evu, (haltPortsAndGroups_frame s).1]

theorem haltAll_mga (s : State) : (haltAll s).mga = { s.mga with restart := none } := by
  rw [haltAll_eq, haltOthers_mga, (haltPortsAndGroups_frame s).2.1]

theorem haltAll_uplink (s : State) : (haltAll s).uplink =
    { s.uplink with receiving := .idle, egress := { s.uplink.egress with sending := none } } := by
  rw [haltAll_eq, haltOthers_uplink, (haltPortsAndGroups_frame s).2.2]

/-! ### The release and the end of the table initialisation -/

theorem freshPort_haltedPort (r : PortRec) : freshPort (haltedPort r) = freshPort r := rfl

theorem haltAll_freshPorts (s : State) : (haltAll s).ports.map freshPort = s.ports.map freshPort := by
  refine Vector.ext fun i inside => ?_
  have halted : (haltAll s).ports[i] = haltedPort s.ports[i] := haltAll_port s ⟨i, inside⟩
  rw [Vector.getElem_map, Vector.getElem_map, halted, freshPort_haltedPort]

theorem endInitialisation_releaseReset (s : State) : endInitialisation (releaseReset s) =
    { State.reset with
      pending := s.pending
      ports := s.ports.map freshPort
      uplink := { Uplink.reset with linkUp := s.uplink.linkUp }
      mga := { Mga.reset with factory := s.mga.factory } } := by
  simp only [endInitialisation, releaseReset, State.reset]

/-- Settles O12: the assertion block by block, and the release and the end of the initialisation by their definitions. -/
theorem fullResetReachesResetValuesFromAnyState : Obligations.FullResetReachesResetValuesFromAnyState := by
  unfold Obligations.FullResetReachesResetValuesFromAnyState
  intro s
  refine ⟨haltAll s, releaseReset (haltAll s), endInitialisation (releaseReset (haltAll s)), exec_resetAsserted s,
    (exec_resetReleased _).trans (congrArg _ (if_pos (haltAll_phase s))), (exec_tableInitialisationEnd _).trans (congrArg _ (if_pos rfl)),
    haltAll_phase s, haltAll_owed s, haltAll_evu s, haltAll_schedule s, fun p => ?_, fun g => ?_, ?_, ?_, rfl, ?_, fun other => ?_, fun other => ?_⟩
  · rw [haltAll_port]
    exact ⟨rfl, rfl, rfl, rfl, rfl, rfl, rfl, rfl⟩
  · rw [haltAll_group]
    exact ⟨rfl, rfl⟩
  · rw [haltAll_uplink]
  · rw [haltAll_uplink]
  · rw [endInitialisation_releaseReset, haltAll_pending, haltAll_freshPorts, haltAll_uplink, haltAll_mga]
    rfl
  · rw [exec_resetReleased, if_neg other]
  · rw [exec_tableInitialisationEnd, if_neg other]

end Sys2Proof.Machine
end

section
/-! SUPPORT. What is due, what the part does by itself, and the order in which both are queued (R170, log 3): O2. -/

namespace Sys2Proof.Machine

/-! ### The row of a request (R147, Table 9-5) -/

/-- The row of a port command; ENABLE for a code that names none (log 4). -/
def portRow : Option PortCommand → Instr
  | some .enable | none => .enable
  | some .disable => .disable
  | some .park => .park
  | some .unpark => .unpark
  | some .pin => .pin
  | some .unpin => .unpin
  | some .wake => .wake
  | some .pause => .pause
  | some .sleep => .sleep
  | some .clear => .clear

/-- The row of a group command; ARM for a code that names none (log 4). -/
def groupRow : Option GroupCommand → Instr
  | some .arm | none => .arm
  | some .disarm => .disarm
  | some .prepare => .prepare
  | some .cancel => .cancel

/-- The row of a request by its operation and the rows of its command code. -/
def opRow (port group : Instr) : Option Op → Instr
  | none => .unknownOpRequest
  | some .identify => .identify
  | some .readEntry => .readEntry
  | some .writeEntry => .writeEntry
  | some .patchField => .patchField
  | some .portCommand => port
  | some .groupCommand => group
  | some .readEvents => .readEvents
  | some .setEventMask => .setEventMask
  | some .readCounters => .readCounters
  | some .restart => .restart

theorem rowFor_eq (r : Request) : rowFor r =
    opRow (portRow (r.command?.bind portCommandOf)) (groupRow (r.command?.bind groupCommandOf)) (opOf r.op) := by
  unfold rowFor
  cases opOf r.op with
  | none => rfl
  | some o => cases o <;> rfl

/-- What performs a request is a management command. -/
theorem rowFor_manages (r : Request) : rowOf (rowFor r) ≠ none := by
  have port (c : Option PortCommand) : rowOf (portRow c) ≠ none := by
    rcases c with _ | c
    · decide
    · cases c <;> decide
  have group (c : Option GroupCommand) : rowOf (groupRow c) ≠ none := by
    rcases c with _ | c
    · decide
    · cases c <;> decide
  rw [rowFor_eq]
  cases opOf r.op with
  | none => exact Option.some_ne_none _
  | some o =>
    cases o
    case portCommand => exact port _
    case groupCommand => exact group _
    all_goals exact Option.some_ne_none _

theorem portRow_code (code : Nat) : portRow (portCommandOf code) =
    [Instr.enable, .enable, .disable, .park, .unpark, .pin, .unpin, .wake, .pause, .sleep, .clear][code]?.getD .enable := by
  obtain named | other := Nat.lt_or_ge code 11
  · interval_cases code <;> rfl
  · rw [List.getElem?_eq_none other]
    unfold portCommandOf
    split
    case h_11 => rfl
    all_goals omega

theorem groupRow_code (code : Nat) : groupRow (groupCommandOf code) =
    [Instr.arm, .arm, .disarm, .prepare, .cancel][code]?.getD .arm := by
  obtain named | other := Nat.lt_or_ge code 5
  · interval_cases code <;> rfl
  · rw [List.getElem?_eq_none other]
    unfold groupCommandOf
    split
    case h_5 => rfl
    all_goals omega

theorem opRow_code (port group : Instr) (code : Nat) : opRow port group (opOf code) =
    [Instr.unknownOpRequest, .identify, .readEntry, .writeEntry, .patchField, port, group, .readEvents, .setEventMask,
      .readCounters, .restart][code]?.getD .unknownOpRequest := by
  obtain named | other := Nat.lt_or_ge code 11
  · interval_cases code <;> rfl
  · rw [List.getElem?_eq_none other, opOf_none (.inr other)]
    rfl

/-- The command code of a request is its first payload byte, and 0, which names no command, where it has none. -/
theorem Request.command?_getD (r : Request) : r.command?.getD 0 =
    if natAt r.body 8 2 ≤ 1024 ∧ natAt r.body 8 2 + 10 ≤ r.body.length ∧ 1 ≤ natAt r.body 8 2 then natAt r.body 10 1
    else 0 := by
  have framed_iff : (r.length ≤ Config.maxPayload && r.length + 10 ≤ r.body.length) = true ↔
      natAt r.body 8 2 ≤ 1024 ∧ natAt r.body 8 2 + 10 ≤ r.body.length := by
    simp only [Bool.and_eq_true, decide_eq_true_eq]
    rfl
  unfold Request.command? Request.payload?
  by_cases framed : natAt r.body 8 2 ≤ 1024 ∧ natAt r.body 8 2 + 10 ≤ r.body.length
  case neg =>
    rw [if_neg (mt framed_iff.1 framed), if_neg fun h => framed ⟨h.1, h.2.1⟩]
    rfl
  case pos =>
    rw [if_pos (framed_iff.2 framed), Request.length]
    obtain ⟨bounded, fits⟩ := framed
    generalize natAt r.body 8 2 = n at bounded fits
    cases n with
    | zero =>
      rw [if_neg (by omega)]
      rfl
    | succ n =>
      rw [if_pos ⟨bounded, fits, Nat.succ_pos n⟩]
      cases body : r.body.drop 10 with
      | nil =>
        have := List.drop_eq_nil_iff.1 body
        omega
      | cons b bs => simp [natAt, bytesAt, body, beNat]

theorem portCommandOf_command? (r : Request) : r.command?.bind portCommandOf = portCommandOf (r.command?.getD 0) := by
  cases r.command? <;> rfl

theorem groupCommandOf_command? (r : Request) : r.command?.bind groupCommandOf = groupCommandOf (r.command?.getD 0) := by
  cases r.command? <;> rfl

/-! ### Lists of commands -/

theorem mem_dueOf_ports (due : Port → State → Bool) (make : Port → Instr) (s : State) (i : Instr) :
    i ∈ dueOf allPorts due make s ↔ ∃ p, due p s = true ∧ make p = i := by
  simp [mem_dueOf, allPorts]

theorem mem_dueOf_groups (due : Group → State → Bool) (make : Group → Instr) (s : State) (i : Instr) :
    i ∈ dueOf allGroups due make s ↔ ∃ g, due g s = true ∧ make g = i := by
  simp [mem_dueOf, allGroups]

theorem mem_if_singleton {c : Prop} [Decidable c] {i j : Instr} : i ∈ (if c then [j] else []) ↔ c ∧ j = i := by
  split <;> simp [*, eq_comm]

theorem mem_scrubWork (s : State) (i : Instr) : i ∈ scrubWork s ↔
    (passDue s = true ∧ .scrubPassStart = i) ∨ (s.tbm.scrubNext.isSome = true ∧ .scrubVisit = i) := by
  simp only [scrubWork, List.mem_append, mem_if_singleton]

theorem mem_headWork (s : State) (i : Instr) : i ∈ headWork s ↔
    s.phase = .running ∧ s.mga.restart = none ∧ ∃ r rest, s.mga.fifo = r :: rest ∧ i = rowFor r := by
  unfold headWork
  split
  case isTrue may =>
    obtain ⟨running, free⟩ := (mayPerform_iff s).1 may
    cases s.mga.fifo <;> simp [running, free, eq_comm]
  case isFalse stays =>
    have waits : ¬ (s.phase = .running ∧ s.mga.restart = none) := mt (mayPerform_iff s).2 stays
    simp only [List.not_mem_nil, false_iff]
    exact fun ⟨running, free, _⟩ => waits ⟨running, free⟩

/-- The starts of transmissions, camera by camera and then the uplink. -/
theorem transmissionWork_eq (s : State) : dueOf allEgress (fun e s => canTransmit s e) .transmissionStart s =
    dueOf allPorts (fun p s => canTransmit s (.camera p)) (fun p => .transmissionStart (.camera p)) s ++
      (if canTransmit s .uplink then [.transmissionStart .uplink] else []) := by
  simp only [dueOf, allEgress, List.filter_append, List.filter_map, List.map_append, List.map_map, List.filter_singleton]
  refine congrArg₂ _ rfl ?_
  split <;> simp [*]

/-! ### The order of a list of commands (log 3) -/

/-- The commands of l stand in strictly ascending places, all below `high`. -/
structure StandsBelow (place : Instr → Nat) (high : Nat) (l : List Instr) : Prop where
  order : l.Pairwise fun i j => place i < place j
  below : ∀ i ∈ l, place i < high

section
variable {place : Instr → Nat} {high : Nat} {l : List Instr} {s : State}

/-- A list whose places lie from `high` on may follow. -/
theorem StandsBelow.append {l' : List Instr} {high' : Nat} (h : StandsBelow place high l) (k : StandsBelow place high' l')
    (above : ∀ i ∈ l', high ≤ place i) (up : high ≤ high') : StandsBelow place high' (l ++ l') where
  order := List.pairwise_append.2 ⟨h.order, k.order, fun i hi j hj => Nat.lt_of_lt_of_le (h.below i hi) (above j hj)⟩
  below i hi := (List.mem_append.1 hi).elim (fun first => Nat.lt_of_lt_of_le (h.below i first) up) (k.below i)

/-- One command or none follows. -/
theorem StandsBelow.thenIf {c : Prop} {_ : Decidable c} (h : StandsBelow place high l) (i : Instr) (n : Nat)
    (here : place i = n) (up : high ≤ n := by omega) : StandsBelow place (n + 1) (l ++ if c then [i] else []) := by
  have alone : ∀ j ∈ (if c then [i] else []), place j = n := fun j hj => by
    obtain ⟨-, rfl⟩ := mem_if_singleton.1 hj
    exact here
  refine h.append ⟨?_, fun j hj => ?_⟩ (fun j hj => ?_) (by omega)
  · split
    · exact List.pairwise_singleton _ _
    · exact .nil
  · rw [alone j hj]
    exact Nat.lt_succ_self n
  · rw [alone j hj]
    exact up

theorem place_mem_dueOf {n base : Nat} {due : Fin n → State → Bool} {make : Fin n → Instr}
    (places : ∀ x, place (make x) = base + x.val) {i : Instr} (hi : i ∈ dueOf (List.finRange n) due make s) :
    base ≤ place i ∧ place i < base + n := by
  obtain ⟨x, -, -, rfl⟩ := (mem_dueOf _ _ _ _ _).1 hi
  rw [places]
  omega

/-- The due ones of n ports or groups stand in ascending index where their places ascend. -/
theorem standsBelow_dueOf {n : Nat} {due : Fin n → State → Bool} (make : Fin n → Instr) (base : Nat)
    (places : ∀ x, place (make x) = base + x.val) :
    StandsBelow place (base + n) (dueOf (List.finRange n) due make s) := by
  have ascending : (List.finRange n).Pairwise fun x y => place (make x) < place (make y) :=
    (List.pairwise_lt_finRange n).imp fun {x y} less => by rw [places, places]; exact Nat.add_lt_add_left less base
  exact ⟨List.pairwise_map.2 (ascending.filter _), fun i hi => (place_mem_dueOf places hi).2⟩

/-- They follow. -/
theorem StandsBelow.thenDue {n : Nat} {due : Fin n → State → Bool} (h : StandsBelow place high l) (make : Fin n → Instr)
    (base : Nat) (places : ∀ x, place (make x) = base + x.val) (up : high ≤ base := by omega) :
    StandsBelow place (base + n) (l ++ dueOf (List.finRange n) due make s) :=
  h.append (standsBelow_dueOf make base places) (fun _ hi => Nat.le_trans up (place_mem_dueOf places hi).1) (by omega)

/-- The row of the head request follows. -/
theorem StandsBelow.thenHead (h : StandsBelow place high l) (n : Nat) (places : ∀ r, place (rowFor r) = n)
    (up : high ≤ n := by omega) : StandsBelow place (n + 1) (l ++ headWork s) := by
  have head : ∀ i ∈ headWork s, place i = n := fun i hi => by
    obtain ⟨-, -, r, -, -, rfl⟩ := (mem_headWork s i).1 hi
    exact places r
  refine h.append ⟨?_, fun i hi => by rw [head i hi]; omega⟩ (fun i hi => by rw [head i hi]; exact up) (by omega)
  unfold headWork
  split
  · cases s.mga.fifo <;> simp
  · exact .nil

end

/-! ### What is due -/

theorem coldWindowOver_iff (p : Port) (s : State) : coldWindowOver p s = true ↔ (s.port p).state = .waking ∧
    (s.port p).op.kind = .cold ∧ (s.port p).op.phase = .window ∧ (s.port p).op.countdown = 0 := phaseOver_iff

theorem attemptWindowOver_iff (p : Port) (s : State) : attemptWindowOver p s = true ↔ (s.port p).state = .resuming ∧
    (s.port p).op.kind = .resume ∧ (s.port p).op.phase = .window ∧ (s.port p).op.countdown = 0 := phaseOver_iff

theorem spacingOver_iff (p : Port) (s : State) : spacingOver p s = true ↔ (s.port p).state = .resuming ∧
    (s.port p).op.kind = .resume ∧ (s.port p).op.phase = .spacing ∧ (s.port p).op.countdown = 0 := phaseOver_iff

theorem offHoldDue_iff (p : Port) (s : State) : offHoldDue p s = true ↔
    ((s.port p).state = .waking ∧ (s.port p).op.kind = .cold ∧ (s.port p).op.phase = .offHold ∧
      (s.port p).op.countdown = 0) ∨
    ((s.port p).state = .resuming ∧ (s.port p).op.kind = .resume ∧ (s.port p).op.phase = .offHold ∧
      (s.port p).op.countdown = 0) := by
  rw [offHoldDue, Bool.or_eq_true, phaseOver_iff, phaseOver_iff]

theorem held_false_iff (s : State) (p : Port) : held s p = false ↔ (s.port p).pin = false ∧
    ∀ g : Group, (s.group g).arm.armed = true → hasPort (s.group g).arm.members p = false := by
  simp [held, allGroups]

theorem restartDue_iff (s : State) : restartDue s = true ↔
    s.phase = .running ∧ ∃ w : RestartWait, s.mga.restart = some w ∧ (w.cell = none ∨ w.countdown = 0) := by
  simp [restartDue, Option.any_eq_true]

theorem canRelease_iff (p : Port) (s : State) : canRelease p s = true ↔
    (s.port p).releasing = true ∧ ((s.port p).hold = [] ∨ (s.port p).egress.queue.length < 32) := by
  have room : txFull s (.camera p) = false ↔ (s.port p).egress.queue.length < 32 :=
    decide_eq_false_iff_not.trans Nat.not_le
  simp [canRelease, room]

/-- What is due, part by part of the list. -/
theorem mem_dueWork (s : State) (i : Instr) : i ∈ dueWork s ↔
    (∃ p, idleExpired p s = true ∧ .idleTimerExpiry p = i) ∨ (∃ p, deepIdleExpired p s = true ∧ .deepIdleExpiry p = i) ∨
    (∃ p, linkExpired p s = true ∧ .linkTimerExpiry p = i) ∨ (∃ p, senseQualified p s = true ∧ .senseFilterExpiry p = i) ∨
    (∃ p, pulseDue p s = true ∧ .pulseCountdownExpiry p = i) ∨
    (∃ p, coldWindowOver p s = true ∧ .coldBootWindowExpiry p = i) ∨
    (∃ p, attemptWindowOver p s = true ∧ .attemptWindowExpiry p = i) ∨
    (∃ p, spacingOver p s = true ∧ .spacingExpiry p = i) ∨ (∃ p, offHoldDue p s = true ∧ .offHoldExpiry p = i) ∨
    (∃ p, confirmDue p s = true ∧ .pauseConfirmWindowExpiry p = i) ∨
    (∃ p, probeDue p s = true ∧ .probeIntervalExpiry p = i) ∨
    (∃ p, scheduleExpired p s = true ∧ .scheduleEntryDue p = i) ∨
    (∃ g, windowDue g s = true ∧ .rendezvousWindowExpiry g = i) ∨ (∃ g, holdDue g s = true ∧ .armHoldExpiry g = i) ∨
    (∃ g, targetDue g s = true ∧ .preparationTargetExpiry g = i) ∨ (passDue s = true ∧ .scrubPassStart = i) ∨
    (s.tbm.scrubNext.isSome = true ∧ .scrubVisit = i) ∨ (restartDue s = true ∧ .softRestart = i) ∨
    (uplinkExpired s = true ∧ .uplinkLinkTimerExpiry = i) := by
  simp only [dueWork, List.mem_append, mem_dueOf_ports, mem_dueOf_groups, mem_scrubWork, mem_if_singleton, or_assoc]

/-- What the part does by itself, part by part of the list. -/
theorem mem_ownWork (s : State) (i : Instr) : i ∈ ownWork s ↔
    (∃ p, ((s.port p).feed && (s.port p).feedFaultIn) = true ∧ .feedFaultAsserted p true = i) ∨
    (∃ p, canRelease p s = true ∧ .releaseStep p = i) ∨
    (∃ p, canTransmit s (.camera p) = true ∧ .transmissionStart (.camera p) = i) ∨
    (canTransmit s .uplink = true ∧ .transmissionStart .uplink = i) ∨
    (s.phase = .running ∧ s.mga.restart = none ∧ ∃ r rest, s.mga.fifo = r :: rest ∧ i = rowFor r) ∨
    (restartDue s = true ∧ .softRestart = i) := by
  simp only [ownWork, transmissionWork_eq, List.mem_append, mem_dueOf_ports, mem_headWork, mem_if_singleton, or_assoc]

/-- The same of a command that performs no request. -/
theorem mem_ownWork_event {i : Instr} (event : rowOf i = none) (s : State) : i ∈ ownWork s ↔
    (∃ p, ((s.port p).feed && (s.port p).feedFaultIn) = true ∧ .feedFaultAsserted p true = i) ∨
    (∃ p, canRelease p s = true ∧ .releaseStep p = i) ∨
    (∃ p, canTransmit s (.camera p) = true ∧ .transmissionStart (.camera p) = i) ∨
    (canTransmit s .uplink = true ∧ .transmissionStart .uplink = i) ∨ (restartDue s = true ∧ .softRestart = i) := by
  have other : ¬ (s.phase = .running ∧ s.mga.restart = none ∧ ∃ r rest, s.mga.fifo = r :: rest ∧ i = rowFor r) :=
    fun ⟨_, _, r, _, _, row⟩ => rowFor_manages r (row ▸ event)
  rw [mem_ownWork, or_iff_right other]

/-! ### The statement -/

theorem step_ownWork {s : State} (empty : s.pending = []) (running : s.phase = .running) (busy : ownWork s ≠ []) :
    step s = .next { s with pending := ownWork s } := by
  rw [step, empty]
  dsimp only
  rw [passTime, if_pos running]
  split
  case h_1 idle => exact absurd idle busy
  case h_2 => rfl

theorem step_tick {s : State} (empty : s.pending = []) (running : s.phase = .running) (idle : ownWork s = []) :
    step s = .next { tick s with pending := dueWork (tick s) } := by
  rw [step, empty]
  dsimp only
  rw [passTime, if_pos running, idle]

/-- Settles O2: the three cases of an empty queue, each command by the part of the list that it stands in, and the places of
the parts. -/
theorem emptyQueueDoesOwnWorkThenTicks : Obligations.EmptyQueueDoesOwnWorkThenTicks := by
  unfold Obligations.EmptyQueueDoesOwnWorkThenTicks
  intro s
  refine ⟨fun empty => ⟨fun stopped => step_stopped stopped empty, step_ownWork empty, step_tick empty⟩, ?_, ?_⟩
  · intro op restarts sends rowOfHead
    have headRow (r : Request) : rowFor r = rowOfHead r := by
      rw [rowFor_eq, portCommandOf_command?, groupCommandOf_command?, r.command?_getD, portRow_code, groupRow_code, opRow_code]
      rfl
    refine ⟨fun i => ?_, fun i => ?_⟩
    · rw [mem_dueWork]
      cases i
      case idleTimerExpiry p => simp [idleExpired_iff, held_false_iff, and_assoc]
      case deepIdleExpiry p => simp [deepIdleExpired_iff]
      case linkTimerExpiry p => simp [linkExpired_iff]
      case senseFilterExpiry p => simp [senseQualified_iff]
      case pulseCountdownExpiry p => simp [pulseDue_iff]
      case coldBootWindowExpiry p => simp [coldWindowOver_iff, op]
      case attemptWindowExpiry p => simp [attemptWindowOver_iff, op]
      case spacingExpiry p => simp [spacingOver_iff, op]
      case offHoldExpiry p => simp [offHoldDue_iff, op]
      case pauseConfirmWindowExpiry p => simp [confirmDue_iff, op]
      case probeIntervalExpiry p => simp [probeDue_iff]
      case scheduleEntryDue p => simp [scheduleExpired_iff]
      case rendezvousWindowExpiry g => simp [windowDue_iff]
      case armHoldExpiry g => simp [holdDue_iff]
      case preparationTargetExpiry g => simp [targetDue_iff]
      case scrubPassStart => simp [passDue_iff]
      case scrubVisit => simp [Option.isSome_iff_ne_none]
      case softRestart => simp [restartDue_iff, restarts]
      case uplinkLinkTimerExpiry => simp [uplinkExpired_iff]
      all_goals simp
    · simp only [← headRow]
      cases i
      case feedFaultAsserted p level => rw [mem_ownWork_event rfl]; cases level <;> simp
      case releaseStep p => rw [mem_ownWork_event rfl]; simp [canRelease_iff]
      case transmissionStart e =>
        rw [mem_ownWork_event rfl]
        cases e <;> simp [canTransmit_iff, sends, State.linkIsUp, State.egress]
      case softRestart => rw [mem_ownWork_event rfl]; simp [restartDue_iff, restarts]
      all_goals rw [mem_ownWork]; simp
  · intro place
    have management {i : Instr} {row : Row} (h : rowOf i = some row) : place i = 277 := by
      cases i <;> cases h <;> rfl
    have head (r : Request) : place (rowFor r) = 277 := by
      obtain ⟨row, performs⟩ := Option.ne_none_iff_exists'.1 (rowFor_manages r)
      exact management performs
    have due : StandsBelow place 280 (dueWork s) := by
      rw [dueWork, scrubWork, ← List.append_assoc]
      exact standsBelow_dueOf .idleTimerExpiry 0 (fun p => (Nat.zero_add p.val).symm)
        |>.thenDue .deepIdleExpiry 16 (fun _ => rfl)
        |>.thenDue .linkTimerExpiry 32 (fun _ => rfl)
        |>.thenDue .senseFilterExpiry 48 (fun _ => rfl)
        |>.thenDue .pulseCountdownExpiry 64 (fun _ => rfl)
        |>.thenDue .coldBootWindowExpiry 80 (fun _ => rfl)
        |>.thenDue .attemptWindowExpiry 96 (fun _ => rfl)
        |>.thenDue .spacingExpiry 112 (fun _ => rfl)
        |>.thenDue .offHoldExpiry 128 (fun _ => rfl)
        |>.thenDue .pauseConfirmWindowExpiry 144 (fun _ => rfl)
        |>.thenDue .probeIntervalExpiry 160 (fun _ => rfl)
        |>.thenDue .scheduleEntryDue 176 (fun _ => rfl)
        |>.thenDue .rendezvousWindowExpiry 192 (fun _ => rfl)
        |>.thenDue .armHoldExpiry 200 (fun _ => rfl)
        |>.thenDue .preparationTargetExpiry 208 (fun _ => rfl)
        |>.thenIf .scrubPassStart 216 rfl
        |>.thenIf .scrubVisit 217 rfl
        |>.thenIf .softRestart 278 rfl
        |>.thenIf .uplinkLinkTimerExpiry 279 rfl
    have own : StandsBelow place 279 (ownWork s) := by
      rw [ownWork, transmissionWork_eq, ← List.append_assoc]
      exact standsBelow_dueOf (fun p => .feedFaultAsserted p true) 220 (fun _ => rfl)
        |>.thenDue .releaseStep 240 (fun _ => rfl)
        |>.thenDue (fun p => .transmissionStart (.camera p)) 260 (fun _ => rfl)
        |>.thenIf (.transmissionStart .uplink) 276 rfl
        |>.thenHead 277 head
        |>.thenIf .softRestart 278 rfl
    exact ⟨due.order, own.order⟩

end Sys2Proof.Machine
end
